-- ==== Sys2Proof/Word.lean ====
section
/-! DEFINITION. The words of the module and the plain types that instructions are written with: words and their widths (R17), data types (R44), operand codes (R41), special registers (R24), the head and its extensions (R37, R38, R39) and the payloads of the module's events. -/

namespace Sys2Proof

abbrev Byte := BitVec 8
/-- One lane's register, and one memory word (R17). -/
abbrev Word := BitVec 32
/-- A uniform register, an address or a pod-time value (R17, R154). -/
abbrev DWord := BitVec 64
/-- One bit for each of the 32 lanes of a group (R17). -/
abbrev Mask := BitVec 32

/-- The types of R44, in the order of their codes. -/
inductive Ty where
  | i32 | n32 | i64 | n64 | f32 | bf16 | f16 | e4m3 | e5m2 | e3m2 | e2m3 | e2m1 | i8 | n8 | i16 | b32
  deriving DecidableEq, Repr

/-- The specials of R24, in the order of their codes 0xE1 to 0xF0. -/
inductive Special where
  | lane | grp | team | clus | grid | core | die | pkg | width | limbs | cyc | tlo | thi | eps | tstate | tcode
  deriving DecidableEq, Repr

/-- The operands of R41. The reserved codes 0xF1 to 0xFE name no operand. -/
inductive Opnd where
  | v (n : BitVec 7)
  | s (n : BitVec 6)
  | m (n : BitVec 3)
  | j (n : BitVec 3)
  | a (n : BitVec 4)
  | zero
  | special (k : Special)
  | imm
  deriving DecidableEq, Repr

/-- The kinds of operand a field of an instruction's entry may list (R41). -/
inductive Kind where
  | v | s | m | j | a | zero | special | imm
  deriving DecidableEq, Repr

/-- A source field with its four modifier bits (R23): negate, abs, last-use, keep. -/
structure Src where
  op   : Opnd
  neg  : Bool
  abs  : Bool
  last : Bool
  keep : Bool
  deriving DecidableEq, Repr

/-- The LEN field of R37; the code 11 names no length. -/
inductive Len where
  | l64 | l96 | l128
  deriving DecidableEq, Repr

/-- The fields of one encoded instruction beside OP (R37, R38, R39). `ext` is IMM20 (zero-extended) in a 96-bit form, the
64-bit extension in a 128-bit form, and zero in a 64-bit form; `c` is used in a 96-bit form only. -/
structure Form where
  len : Len
  e   : Bool
  fn  : BitVec 4
  g   : BitVec 3
  gn  : Bool
  d   : Opnd
  dc  : Bool
  ds  : BitVec 2
  a   : Src
  b   : Src
  c   : Src
  ty  : Ty
  x6  : BitVec 6
  ext : DWord
  deriving DecidableEq, Repr

/-- The floating formats of R54. -/
inductive Fmt where
  | f32 | bf16 | f16 | e4m3 | e5m2 | e3m2 | e2m3 | e2m1
  deriving DecidableEq, Repr

/-- The rounding modes of R46. -/
inductive Mode where
  | rne | rtz | rup | rdn | rsr
  deriving DecidableEq, Repr

/-- The trap codes of R332 that decode raises (R36). -/
inductive DecodeError where
  | fetchAlign
  | illegalOp
  deriving DecidableEq, Repr

/-- A retained version of a stamped line (R155). -/
structure Version where
  stamp : DWord
  pkg   : Nat
  core  : Nat
  slot  : Nat
  bytes : List Byte
  deriving DecidableEq, Repr

/-- The version every line starts with: zeros, stamp 0. -/
def Version.zero : Version := { stamp := 0, pkg := 0, core := 0, slot := 0, bytes := List.replicate 64 0 }

/-- A store of a multicast instruction: offsets in the window and bytes, or a compare-and-swap. -/
inductive McStore where
  | bytes (ws : List (Nat × Byte × Byte))
  | cas (offs : List Nat) (cmp new : Nat)
  deriving DecidableEq, Repr

/-- The credit of a step (R299): the group, the rank that gives it and the rank that takes it, its tag, its step, and the name of
the receiving script at its module. -/
structure Credit where
  group  : Nat
  giver  : Nat
  taker  : Nat
  tag    : Nat
  step   : Nat
  script : Nat
  deriving DecidableEq, Repr

/-- Messages between the parts of one module and between modules (R156, R159 to R161, R208, R298, R299, R317, R360). -/
inductive Msg where
  | version (line : Nat) (v : Version) (grp : Nat) (va : DWord)
  | remoteVersion (fn ctx off : Nat) (v : Version) (grp : Nat) (va : DWord)
  | stampReply (grp : Nat) (ok : Bool) (s : DWord)
  | reject (grp : Nat) (va : DWord) (seq : Nat)
  | remoteRead (fn ctx off : Nat) (t : DWord) (grp : Nat) (va : DWord) (seq : Nat)
  | readReply (grp seq : Nat) (v : Version) (status : Nat)
  | readPoison (grp seq : Nat)
  | mcst (group : Nat) (st : McStore) (id : Nat) (grp : Nat)
  | mcstAck (id : Nat) (rank : Nat)
  | mcsq (group : Nat) (st : McStore) (id : Nat)
  | numbered (group : Nat) (n : Nat) (st : McStore) (id : Nat) (sender : Nat)
  | applied (group : Nat) (n : Nat) (rank : Nat) (old : Nat) (id : Nat) (sender : Nat)
  | seqReply (id : Nat) (n : Nat) (old : Nat)
  | seqDone (id : Nat)
  | seqFail (id : Nat)
  | seqCancel (group : Nat) (id : Nat)
  | roster (group : Nat) (live : List Nat)
  | mldr (group : Nat) (offs : List (Nat × Nat)) (op : Nat) (ty : Ty) (id : Nat)
  | mldrAsk (group : Nat) (offs : List (Nat × Nat)) (ty : Ty) (id : Nat) (sender : Nat)
  | mldrAnswer (group : Nat) (rank : Nat) (vals : List Nat) (id : Nat) (sender : Nat)
  | mldrReply (id : Nat) (vals : List Nat) (status : Nat) (bitmap : DWord)
  | chunk (group : Nat) (from_ to_ : Nat) (step script : Nat) (off : Nat) (bytes : List Byte) (id : Nat)
  | chunkAck (id : Nat)
  | credit (c : Credit)
  | uncredit (c : Credit)
  | barArrive (team off : Nat) (rank : Nat) (phase : Word)
  | barRelease (team off : Nat) (to_ : Nat) (phase : Word)
  | staleMark (group : Nat) (rank : Nat)
  | join (group : Nat) (rank size : Nat) (list : List Nat) (wlen rlim root : Nat)
  | joinReply (group : Nat) (st : Nat) (count : Nat)
  | leave (group : Nat) (rank : Nat)
  | resyncStart (group : Nat) (rank : Nat)
  | resyncAsk (group : Nat) (rank : Nat) (n0 : Nat) (to_ : Nat)
  | resyncDone (group : Nat) (rank : Nat)
  | resyncCopy (group : Nat) (n0 : Nat) (bytes : List (Nat × Byte))
  | ckWrite (base slot : Nat) (bytes : List Byte)
  | ckAck (ok : Bool)
  | timeAsk (t1 t2 : DWord)
  | timeReply (t1 t2 t3 : DWord) (eps : DWord) (t4 : DWord)
  deriving DecidableEq, Repr

/-- A message with its receiver and sender. A switch that sends it again over another port (R288) names the far module of the link that
it left by, that module's port, and the sequence number that it had there. -/
structure Letter where
  to_   : Nat
  from_ : Nat
  msg   : Msg
  again : List (Nat × Nat × Nat) := []
  parts : Nat := 0           -- flits of it already sent (R286)
  deriving DecidableEq, Repr

/-- How a write reaches a page of a function's control registers (R271): its basic or its expert page, and the function that writes. -/
structure PageWrite where
  expert : Bool
  writer : Nat
  deriving DecidableEq, Repr

/-- What a restore reads (R362, R363): the %pkg of the spare that the pod's management has chosen, the last checkpoint or the older,
the places of the bytes of its ranges, and what the buddy holds. -/
structure Restore where
  spare  : Nat
  older  : Bool
  places : List Nat
  bytes  : List Byte
  deriving DecidableEq, Repr

/-- A flit as a port receives it (R286): its 256 bytes, and the letters whose last bytes its payload holds (log entry 66). -/
structure Flit where
  raw  : List Byte
  body : List Letter
  deriving DecidableEq, Repr

/-- Why a path's next word names no instruction (R34 to R36, R52). -/
inductive BadWord where
  | misaligned               -- program counter bits [1:0] are not 00
  | outside                  -- the address lies outside every image of the context
  | crosses                  -- the instruction does not end in its fetch block
  | badLen                   -- LEN = 11
  | illegal                  -- any check 4 to 8 of R36
  deriving DecidableEq, Repr

/-- The payload of IMAGE_REQ (R349). -/
structure ImageReq where
  core   : Nat
  team   : Nat
  code   : Nat
  code2  : Nat
  launch : Nat
  slot   : Nat := 0          -- number of the image in its function's ring (R342)
  num    : Nat := 0          -- value of the function's image counter, for NONCE (R343)
  deriving DecidableEq, Repr

/-- The payload of ERR (R349). -/
structure ErrRec where
  kind   : Nat
  unit_  : Nat
  detail : DWord
  deriving DecidableEq, Repr

/-- The TDISP requests that move a TDI (R284). -/
inductive TdispReq where
  | lock | start | stop
  deriving DecidableEq, Repr

end Sys2Proof
end

