-- ==== Sys2Proof/Config.lean ====
section
/-! DEFINITION. What the spec leaves to an implementation, and the free values of the model: constants with no body, so that no proof can see a value of them. -/

namespace Sys2Proof.Config

/-- Which of the offered moves the module makes next, when the agenda is empty: number `n` of the run, among `k` moves
(log entry 4). -/
opaque pickMove : Nat → Nat → Nat

/-- Which entry of a full translation buffer of `k` entries makes room for a new one (log entry 9). -/
opaque evictEntry : Nat → Nat → Nat

/-- Free 64-bit values, one for each value of the state's counter: a random value that the security block, a session or a
physical sensor supplies and the spec does not state (log entry 12). -/
opaque freeValue : Nat → BitVec 64

/-- The secret multiplier of a signing key, by the key's number (R343, R359; log entries 12, 74). -/
opaque secretScalar : Nat → Nat

/-- The multiplier that the security block draws for the signature of a digest (log entries 12, 74). -/
opaque nonceScalar : Nat → List (BitVec 8) → Nat

/-- The public point of a key, by the key's number (R358; log entries 12, 74). -/
opaque publicKey : Nat → Nat × Nat

/-- The 32-byte digest of the module's ROM (R359; log entry 12). -/
opaque romDigest : List (BitVec 8)

/-- The firmware image that a bank holds at manufacture (R358; log entry 12). -/
opaque firmwareImage : Nat → List (BitVec 8)

/-- The steward firmware within a firmware image (R359; log entry 12). -/
opaque stewardPart : List (BitVec 8) → List (BitVec 8)

/-- The answers that SPDM, and not the spec, lays out: 0 capabilities, 1 algorithms (R359; log entry 12). -/
opaque spdmReply : Nat → List (BitVec 8)

/-- The certificate chain of a slot, down to the key of a number (R359; log entry 12). -/
opaque certificate : Nat → Nat → List (BitVec 8)

/-- Whether an image is that of a kernel assembled with .det, as the device knows it (R252, R254; log entry 43). -/
opaque detKernel : List (BitVec 8) → Bool

/-- The number of hops between two modules over the pod's routes, or none where no route reaches (R288, R292). -/
opaque route : Nat → Nat → Option Nat

/-- The transaction bytes in the payload of the n-th flit of a message, up to 248 of them (R286; log entry 66). -/
opaque payload : Letter → Nat → List Byte

end Sys2Proof.Config
end

