-- ==== Sys2Proof/Machine/Bits.lean ====
section
/-! DEFINITION. Bit fields, lanes of a mask, bytes of a word, and integer square roots: the small helpers every part of the machine uses. -/

namespace Sys2Proof.Machine

/-- `n` bits of `x` from bit `lo` upward. -/
def bitsAt (x lo n : Nat) : Nat := x / 2 ^ lo % 2 ^ n

/-- One bit of a number. -/
def bitOf (x i : Nat) : Bool := x.testBit i

def maskBit (m : Mask) (l : Nat) : Bool := m.getLsbD l

/-- The lanes of a group (R17, R19: %width is 32). -/
def lanes : List Nat := List.range 32

/-- The lanes of a mask, lowest first. -/
def maskLanes (m : Mask) : List Nat := lanes.filter (maskBit m)

def oneLane (l : Nat) : Mask := BitVec.ofNat 32 (2 ^ l)

/-- The mask of the lanes that a predicate names. -/
def maskOf (p : Nat → Bool) : Mask := BitVec.ofNat 32 (lanes.foldl (fun a l => if p l then a + 2 ^ l else a) 0)

/-- `m` with lane `l` set to `x`. -/
def maskSet (m : Mask) (l : Nat) (x : Bool) : Mask :=
  if x then m ||| oneLane l else m &&& ~~~ oneLane l

/-- `new` in the lanes of `w` and `old` elsewhere. -/
def maskMerge (w new old : Mask) : Mask := (new &&& w) ||| (old &&& ~~~ w)

def maskCount (m : Mask) : Nat := (maskLanes m).length

/-- The signed value of the low `w` bits of a number. -/
def signedNat (w x : Nat) : Int :=
  let y := x % 2 ^ w
  if y < 2 ^ (w - 1) then (y : Int) else (y : Int) - 2 ^ w

/-- An integer modulo 2^w, as a number. -/
def wrapInt (w : Nat) (x : Int) : Nat := (x % (2 ^ w : Nat)).toNat

/-- The integer part of a square root, `k` result bits at most. -/
def isqrtStep (n : Nat) : Nat → Nat → Nat
  | 0, r => r
  | k + 1, r => let t := r + 2 ^ k
                isqrtStep n k (if t * t ≤ n then t else r)

def isqrt (n : Nat) : Nat := isqrtStep n (n.log2 / 2 + 1) 0

/-- Byte `i` of a number, byte 0 lowest (K8, R34). -/
def byteAt (x i : Nat) : Byte := BitVec.ofNat 8 (x / 256 ^ i)

/-- `n` bytes of a number, lowest first. -/
def bytesOf (n x : Nat) : List Byte := (List.range n).map (byteAt x)

/-- The number whose bytes are given, lowest first. -/
def ofBytes : List Byte → Nat
  | [] => 0
  | b :: bs => b.toNat + 256 * ofBytes bs

/-- The number of leading zero bits of the low `w` bits. -/
def clzNat (w x : Nat) : Nat := if x % 2 ^ w = 0 then w else w - 1 - (x % 2 ^ w).log2

/-- The number of trailing zero bits of the low `w` bits. -/
def ctzNat (w x : Nat) : Nat :=
  (List.range w).foldr (fun i acc => if x.testBit i then i else acc) w

def popcNat (w x : Nat) : Nat := ((List.range w).filter x.testBit).length

/-- A list with the element at a place replaced. -/
def listSet {α : Type} (l : List α) (i : Nat) (x : α) : List α := l.set i x

def listErase {α : Type} (l : List α) (i : Nat) : List α := l.eraseIdx i

def roundUp (n k : Nat) : Nat := (n + k - 1) / k * k

end Sys2Proof.Machine
end

