-- ==== Sys2Proof/Machine/Crypto.lean ====
section
/-! DEFINITION. The ciphers and hashes the spec names: SHA-256 (R268, R269, R360) and AES-256-GCM (R173, R344). -/

namespace Sys2Proof.Machine

-- SHA-256
/-- A big-endian number of some bytes. -/
def ofBytesBE (bs : List Byte) : Nat := bs.foldl (fun a b => a * 256 + b.toNat) 0
def bytesBE (n x : Nat) : List Byte := (bytesOf n x).reverse

/-- The integer part of a cube root of at most `k` bits. -/
def icbrtStep (n : Nat) : Nat → Nat → Nat
  | 0, r => r
  | k + 1, r => let t := r + 2 ^ k
                icbrtStep n k (if t * t * t ≤ n then t else r)

/-- The first 64 primes. -/
def shaPrimes : List Nat :=
  [2, 3, 5, 7, 11, 13, 17, 19, 23, 29, 31, 37, 41, 43, 47, 53, 59, 61, 67, 71, 73, 79, 83, 89, 97, 101, 103, 107, 109, 113,
   127, 131] ++
  [137, 139, 149, 151, 157, 163, 167, 173, 179, 181, 191, 193, 197, 199, 211, 223, 227, 229, 233, 239, 241, 251, 257, 263,
   269, 271, 277, 281, 283, 293, 307, 311]

/-- The constants of the rounds: 32 bits of the fraction of each prime's cube root. -/
def shaRoundKeys : List (BitVec 32) := shaPrimes.map fun p => BitVec.ofNat 32 (icbrtStep (p * 2 ^ 96) 35 0)

/-- The start value: 32 bits of the fraction of the square roots of the first eight primes. -/
def shaSeed : List (BitVec 32) := (shaPrimes.take 8).map fun p => BitVec.ofNat 32 (isqrt (p * 2 ^ 64))

/-- The exclusive-or of a word turned right by each of some counts. -/
def turns (x : BitVec 32) (rs : List Nat) : BitVec 32 := rs.foldl (fun acc r => acc ^^^ x.rotateRight r) 0

/-- The hash as two shift registers of four words, newest first, and a window on the sixteen words of the message that come
next. -/
structure ShaRegs where
  top    : List (BitVec 32)
  low    : List (BitVec 32)
  window : List (BitVec 32)
  deriving DecidableEq, Repr

/-- Both registers and the window moved on by one round under its constant. -/
def ShaRegs.advance (r : ShaRegs) (key : BitVec 32) : ShaRegs :=
  let t := fun i => r.top.getD i 0
  let l := fun i => r.low.getD i 0
  let w := fun i => r.window.getD i 0
  let pick := l 2 ^^^ (l 0 &&& (l 1 ^^^ l 2))
  let most := (t 0 &&& (t 1 ||| t 2)) ||| (t 1 &&& t 2)
  let feed := w 0 + key + pick + turns (l 0) [6, 11, 25] + l 3
  let grown := turns (w 14) [17, 19] ^^^ w 14 >>> 10
  let older := turns (w 1) [7, 18] ^^^ w 1 >>> 3
  { top := (turns (t 0) [2, 13, 22] + most + feed) :: r.top.take 3
    low := (t 3 + feed) :: r.low.take 3
    window := r.window.drop 1 ++ [grown + w 9 + older + w 0] }

/-- The eight words of the hash after one block of 64 bytes. -/
def shaAbsorb (h : List (BitVec 32)) (block : List Byte) : List (BitVec 32) :=
  let words := (List.range 16).map fun i => BitVec.ofNat 32 (ofBytesBE ((block.drop (4 * i)).take 4))
  let r := shaRoundKeys.foldl ShaRegs.advance { top := h.take 4, low := h.drop 4, window := words }
  List.zipWith (· + ·) h (r.top ++ r.low)

/-- A message with its closing bit, its zeros and its length: a whole number of blocks. -/
def shaClosed (m : List Byte) : List Byte :=
  m ++ 0x80 :: List.replicate (roundUp (m.length + 9) 64 - (m.length + 9)) 0 ++ bytesBE 8 (8 * m.length)

/-- SHA-256 of some bytes: 32 bytes. -/
def sha256 (m : List Byte) : List Byte :=
  let p := shaClosed m
  let h := (List.range (p.length / 64)).foldl (fun h i => shaAbsorb h ((p.drop (64 * i)).take 64)) shaSeed
  h.flatMap fun w => bytesBE 4 w.toNat

-- AES-256
/-- Multiplication by x in the field of AES. -/
def xtime (a : Nat) : Nat := if 128 ≤ a then (2 * a) % 256 ^^^ 0x1B else 2 * a

def gfMulStep : Nat → Nat → Nat → Nat
  | 0, _, _ => 0
  | n + 1, a, b => (if b % 2 = 1 then a else 0) ^^^ gfMulStep n (xtime a) (b / 2)

def gfMul (a b : Nat) : Nat := gfMulStep 8 a b

/-- The inverse: the 254th power. -/
def gfInv (a : Nat) : Nat :=
  let a2 := gfMul a a
  let a4 := gfMul a2 a2
  let a8 := gfMul a4 a4
  let a16 := gfMul a8 a8
  let a32 := gfMul a16 a16
  let a64 := gfMul a32 a32
  let a128 := gfMul a64 a64
  gfMul a2 (gfMul a4 (gfMul a8 (gfMul a16 (gfMul a32 (gfMul a64 a128)))))

def rotByte (x k : Nat) : Nat := (x * 2 ^ k) % 256 + x / 2 ^ (8 - k)

/-- The S-box. -/
def sbox (a : Nat) : Nat :=
  let b := gfInv a
  b ^^^ rotByte b 1 ^^^ rotByte b 2 ^^^ rotByte b 3 ^^^ rotByte b 4 ^^^ 0x63

def xorList (a b : List Nat) : List Nat := List.zipWith (· ^^^ ·) a b

/-- The key schedule: words of four bytes, latest first, extended by `n` words; `i` counts words and `rc` is the next round
constant. -/
def aesExpand : Nat → Nat → Nat → List (List Nat) → List (List Nat)
  | 0, _, _, ws => ws
  | n + 1, i, rc, ws =>
    let t := ws.getD 0 []
    let t := if i % 8 = 0 then xorList (((t.drop 1) ++ (t.take 1)).map sbox) [rc, 0, 0, 0]
             else if i % 8 = 4 then t.map sbox else t
    aesExpand n (i + 1) (if i % 8 = 0 then xtime rc else rc) (xorList (ws.getD 7 []) t :: ws)

/-- The fifteen round keys of a 32-byte key. -/
def aesKeys (key : List Byte) : List (List Nat) :=
  let w := (List.range 8).map fun i => ((key.drop (4 * i)).take 4).map BitVec.toNat
  let ws := (aesExpand 52 8 1 w.reverse).reverse
  (List.range 15).map fun r => ((ws.drop (4 * r)).take 4).flatten

def shiftRows (s : List Nat) : List Nat := (List.range 16).map fun i => s.getD ((i + 4 * (i % 4)) % 16) 0

def mixColumn (c : List Nat) : List Nat :=
  let at_ := fun i => c.getD (i % 4) 0
  (List.range 4).map fun i => xtime (at_ i) ^^^ (xtime (at_ (i + 1)) ^^^ at_ (i + 1)) ^^^ at_ (i + 2) ^^^ at_ (i + 3)

def mixColumns (s : List Nat) : List Nat := ((List.range 4).map fun c => mixColumn ((s.drop (4 * c)).take 4)).flatten

def aesRounds : List (List Nat) → List Nat → List Nat
  | [], s => s
  | [k], s => xorList (shiftRows (s.map sbox)) k
  | k :: ks, s => aesRounds ks (xorList (mixColumns (shiftRows (s.map sbox))) k)

/-- One block of 16 bytes encrypted. -/
def aesBlock (keys : List (List Nat)) (b : List Nat) : List Nat := aesRounds (keys.drop 1) (xorList b (keys.headD []))

-- GCM
/-- Multiplication in the field of GCM, bit 127 being the coefficient of 1. -/
def ghashMulStep : Nat → Nat → Nat → Nat → Nat
  | 0, _, _, z => z
  | n + 1, x, v, z =>
    ghashMulStep n x (if v % 2 = 1 then (v / 2) ^^^ (0xE1 * 2 ^ 120) else v / 2) (if x.testBit n then z ^^^ v else z)

def ghashMul (x y : Nat) : Nat := ghashMulStep 128 x y 0

def pad16 (bs : List Byte) : List Byte := bs ++ List.replicate (roundUp bs.length 16 - bs.length) 0

def ghashBlocks (h : Nat) : Nat → List Byte → Nat → Nat
  | 0, _, y => y
  | n + 1, bs, y => ghashBlocks h n (bs.drop 16) (ghashMul (y ^^^ ofBytesBE (bs.take 16)) h)

def ghash (h : Nat) (aad c : List Byte) : Nat :=
  let bs := pad16 aad ++ pad16 c ++ bytesBE 8 (8 * aad.length) ++ bytesBE 8 (8 * c.length)
  ghashBlocks h (bs.length / 16) bs 0

def natBlock (x : Nat) : List Nat := (bytesBE 16 x).map BitVec.toNat

/-- The key stream: counter blocks from 2 on after a 12-byte IV. -/
def gcmStream (keys : List (List Nat)) (iv : List Byte) (n : Nat) : List Nat :=
  ((List.range n).map fun i => aesBlock keys (natBlock (ofBytesBE iv * 2 ^ 32 + (i + 2)))).flatten

/-- Data encrypted, or decrypted, with the key stream. -/
def gcmCrypt (key iv bs : List Byte) : List Byte :=
  let ks := gcmStream (aesKeys key) iv ((bs.length + 15) / 16)
  List.zipWith (fun b k => b ^^^ BitVec.ofNat 8 k) bs ks

/-- The 16-byte tag of a ciphertext. -/
def gcmTag (key iv aad c : List Byte) : List Byte :=
  let keys := aesKeys key
  let h := ofBytesBE ((aesBlock keys (natBlock 0)).map (BitVec.ofNat 8))
  let j0 := ofBytesBE ((aesBlock keys (natBlock (ofBytesBE iv * 2 ^ 32 + 1))).map (BitVec.ofNat 8))
  bytesBE 16 (ghash h aad c ^^^ j0)

end Sys2Proof.Machine
end

