-- ==== Sys2Proof/Machine/Curve.lean ====
section
/-! DEFINITION. ECDSA over the curve P-256, with which the module signs core images and answers, and checks a firmware image
(R343, R358, R359; log entry 74). -/

namespace Sys2Proof.Machine

/-- The prime of the field of P-256. -/
def curvePrime : Nat := 2 ^ 256 - 2 ^ 224 + 2 ^ 192 + 2 ^ 96 - 1
/-- The number of multiples of the base point. -/
def curveOrder : Nat := 0xFFFFFFFF00000000FFFFFFFFFFFFFFFFBCE6FAADA7179E84F3B9CAC2FC632551
/-- The constant term of y² = x³ − 3x + b. -/
def curveTerm : Nat := 0x5AC635D8AA3A93E7B3EBBD55769886BC651D06B0CC53B0F63BCE3C3E27D2604B
/-- The base point. -/
def curveBase : Nat × Nat :=
  (0x6B17D1F2E12C4247F8BCE6E563A440F277037D812DEB33A0F4A13945D898C296,
   0x4FE342E2FE1A7F9B8EE7EB4A7C0F9E162BCE33576B315ECECBB6406837BF51F5)

/-- `x` to the power whose low `k` bits are those of `e`, modulo `m`. -/
def powMod (m x e : Nat) : Nat → Nat
  | 0 => 1
  | k + 1 => let h := powMod m x (e / 2) k
             if e % 2 = 1 then h * h % m * x % m else h * h % m

/-- The inverse modulo a prime of at most 256 bits. -/
def invMod (m x : Nat) : Nat := powMod m x (m - 2) 256

/-- A difference modulo `m`. -/
def subMod (m x y : Nat) : Nat := (x + (m - y % m)) % m

/-- A point of the curve, or the neutral one. -/
abbrev CurvePoint := Option (Nat × Nat)

/-- Whether two coordinates are those of a point. -/
def onCurve (q : Nat × Nat) : Bool :=
  decide (q.1 < curvePrime) && decide (q.2 < curvePrime) &&
  (q.2 * q.2 + 3 * q.1) % curvePrime == (q.1 * q.1 * q.1 + curveTerm) % curvePrime

/-- The third point of a line of slope `l` through `a` and the point at `x`, mirrored. -/
def chord (l : Nat) (a : Nat × Nat) (x : Nat) : CurvePoint :=
  let u := subMod curvePrime (subMod curvePrime (l * l) a.1) x
  .some (u, subMod curvePrime (l * subMod curvePrime a.1 u) a.2)

/-- The sum of two points. -/
def CurvePoint.plus : CurvePoint → CurvePoint → CurvePoint
  | .none, q => q
  | q, .none => q
  | .some a, .some b =>
    if a.1 ≠ b.1 then
      chord (subMod curvePrime b.2 a.2 * invMod curvePrime (subMod curvePrime b.1 a.1) % curvePrime) a b.1
    else if a.2 ≠ b.2 ∨ a.2 = 0 then .none
    else chord (subMod curvePrime (3 * a.1 * a.1) 3 * invMod curvePrime (2 * a.2) % curvePrime) a a.1

/-- The multiple of a point by the low `k` bits of a number. -/
def CurvePoint.times (q : CurvePoint) : Nat → Nat → CurvePoint
  | 0, _ => .none
  | k + 1, e => let h := q.times k (e / 2)
                if e % 2 = 1 then (h.plus h).plus q else h.plus h

/-- Whether a signature, r then s of 32 bytes each (R343, R358), is one of a 32-byte digest under a public point. -/
def ecdsaGood (key : Nat × Nat) (digest sig : List Byte) : Bool :=
  let r := ofBytesBE (sig.take 32)
  let w := ofBytesBE (sig.drop 32)
  let v := invMod curveOrder w
  let by_ := fun (c : Nat) => c * v % curveOrder
  sig.length == 64 && onCurve key && [r, w].all (fun x => decide (0 < x ∧ x < curveOrder)) &&
  (match (CurvePoint.times (.some curveBase) 256 (by_ (ofBytesBE digest))).plus (CurvePoint.times (.some key) 256 (by_ r)) with
   | .none => false
   | .some t => t.1 % curveOrder == r)

/-- The signature of a digest with a secret multiplier and the multiplier `k` drawn for it. -/
def ecdsaMake (secret k : Nat) (digest : List Byte) : List Byte :=
  let r := (match CurvePoint.times (.some curveBase) 256 k with | .none => 0 | .some t => t.1) % curveOrder
  bytesBE 32 r ++ bytesBE 32 (invMod curveOrder k * (ofBytesBE digest + r * secret) % curveOrder)

/-- The module's signature of a digest under the key of a number (log entries 12, 74). -/
def signWith (key : Nat) (digest : List Byte) : List Byte :=
  ecdsaMake (Config.secretScalar key % curveOrder) (1 + Config.nonceScalar key digest % (curveOrder - 1)) digest

/-- Whether a signature verifies under the public key of a number (log entries 12, 74). -/
def verifyWith (key : Nat) (digest sig : List Byte) : Bool := ecdsaGood (Config.publicKey key) digest sig

end Sys2Proof.Machine
end

