-- ==== Sys2Proof/Machine/Num.lean ====
section
/-! DEFINITION. Numbers to the last bit (R54 to R63): the floating formats, exact values, the one rounding every instruction uses, NaN results, flags, the counter-based generator and FX64. -/

namespace Sys2Proof

-- FORMATS (R54)
def Fmt.expBits : Fmt → Nat
  | .f32 => 8 | .bf16 => 8 | .f16 => 5 | .e4m3 => 4 | .e5m2 => 5 | .e3m2 => 3 | .e2m3 => 2 | .e2m1 => 2

def Fmt.manBits : Fmt → Nat
  | .f32 => 23 | .bf16 => 7 | .f16 => 10 | .e4m3 => 3 | .e5m2 => 2 | .e3m2 => 2 | .e2m3 => 3 | .e2m1 => 1

def Fmt.bias : Fmt → Nat
  | .f32 => 127 | .bf16 => 127 | .f16 => 15 | .e4m3 => 7 | .e5m2 => 15 | .e3m2 => 3 | .e2m3 => 1 | .e2m1 => 1

/-- The formats that keep IEEE 754 infinities and signalling NaNs (R54, R57). -/
def Fmt.wide : Fmt → Bool
  | .f32 => true | .bf16 => true | .f16 => true | _ => false

/-- The code of the largest finite value (R54). -/
def Fmt.maxCode : Fmt → Nat
  | .f32 => 0x7F7FFFFF | .bf16 => 0x7F7F | .f16 => 0x7BFF | .e4m3 => 0x7E | .e5m2 => 0x7B
  | .e3m2 => 0x1F | .e2m3 => 0x1F | .e2m1 => 0x7

/-- The exponent of the smallest normal value (R54). -/
def Fmt.emin (f : Fmt) : Int := 1 - (f.bias : Int)

/-- The number of bits of a code. -/
def Fmt.bits (f : Fmt) : Nat := 1 + f.expBits + f.manBits

def Fmt.signBit (f : Fmt) : Nat := 2 ^ (f.expBits + f.manBits)

/-- The floating format of a type (R44). -/
def fmtOf : Ty → Option Fmt
  | .f32 => some .f32 | .bf16 => some .bf16 | .f16 => some .f16 | .e4m3 => some .e4m3 | .e5m2 => some .e5m2
  | .e3m2 => some .e3m2 | .e2m3 => some .e2m3 | .e2m1 => some .e2m1 | _ => none

def Ty.isInt : Ty → Bool
  | .i32 | .n32 | .i64 | .n64 | .i8 | .n8 | .i16 => true
  | _ => false

def Ty.signed : Ty → Bool
  | .i32 | .i64 | .i8 | .i16 => true
  | _ => false

/-- The width of a type in bits (R27, R44). -/
def Ty.width : Ty → Nat
  | .i32 | .n32 | .f32 | .b32 => 32
  | .i64 | .n64 => 64
  | .bf16 | .f16 | .i16 => 16
  | .e4m3 | .e5m2 | .i8 | .n8 => 8
  | .e3m2 | .e2m3 => 6
  | .e2m1 => 4

namespace Machine

/-- A number as an instruction reads it: a NaN keeps its sign and its mantissa aligned at the top of 23 bits (R58). -/
inductive Fv where
  | nan (neg : Bool) (man : Nat) (sig : Bool)
  | inf (neg : Bool)
  | fin (neg : Bool) (m : Nat) (e : Int)
  deriving DecidableEq, Repr

end Machine

open Machine

/-- The value of a code (R54), with the infinity codes of the narrow formats read as the largest finite value (R57). -/
def Fmt.read (f : Fmt) (code : Nat) : Fv :=
  let neg := code.testBit (f.expBits + f.manBits)
  let e := bitsAt code f.manBits f.expBits
  let man := bitsAt code 0 f.manBits
  let top := man * 2 ^ (23 - f.manBits)
  let value : Fv :=
    if e = 0 then .fin neg man (f.emin - f.manBits)
    else .fin neg (man + 2 ^ f.manBits) (e - f.bias - f.manBits)
  match f with
  | .f32 | .bf16 | .f16 =>
    if e = 2 ^ f.expBits - 1 then
      if man = 0 then .inf neg else .nan neg top (!man.testBit (f.manBits - 1))
    else value
  | .e4m3 => if e = 15 ∧ man = 7 then .nan neg top false else value
  | .e5m2 =>
    if e = 31 then
      if man = 0 then .fin neg 7 13 else .nan neg top false
    else value
  | _ => value

/-- The code of 1.0. -/
def Fmt.one (f : Fmt) : Nat := f.bias * 2 ^ f.manBits

end Sys2Proof

namespace Sys2Proof.Machine

-- FLAGS (R62)
def flagNV : Word := 0x1#32
def flagDZ : Word := 0x2#32
def flagOF : Word := 0x4#32
def flagUF : Word := 0x8#32
def flagNX : Word := 0x10#32
def flagIDXR : Word := 0x20#32
def flagAPEND : Word := 0x40#32
def flagJLOST : Word := 0x80#32

def poison : Word := 0x7FF00BAD#32
def emptyCode : Word := 0x7FC0E000#32
def canonNaN : Word := 0x7FC00000#32

def readF32 (x : Word) : Fv := Fmt.f32.read x.toNat

-- EXACT RESULTS
/-- The exact result of an operation before its one rounding (R60): a NaN that passes, a NaN the operation makes, an
infinity, or ±(m + δ) × 2^e with δ = 0 unless `sticky`, and then 0 < δ < 1. -/
inductive Exact where
  | pass (neg : Bool) (man : Nat)
  | made
  | inf (neg : Bool)
  | fin (neg : Bool) (m : Nat) (e : Int) (sticky : Bool)
  deriving DecidableEq, Repr

/-- floor(log2 x) of m × 2^e, m > 0. -/
def expOf (m : Nat) (e : Int) : Int := (m.log2 : Int) + e

/-- The magnitude on a grid of spacing 2^q: the multiple below, the first 24 bits of the fraction, whether the fraction
is zero, and its order against one half (R60, R61). -/
structure Cut where
  lo    : Nat
  frac  : Nat
  exact : Bool
  half  : Ordering
  deriving DecidableEq, Repr

def cutAt (q : Int) (m : Nat) (e : Int) (sticky : Bool) : Cut :=
  if q ≤ e then
    { lo := m * 2 ^ (e - q).toNat, frac := 0, exact := !sticky, half := .lt }
  else
    let k := (q - e).toNat
    let rem := m % 2 ^ k
    { lo := m / 2 ^ k
      frac := rem * 2 ^ 24 / 2 ^ k
      exact := rem = 0 && !sticky
      half := if 2 * rem < 2 ^ k then .lt else if 2 * rem = 2 ^ k && !sticky then .eq else .gt }

/-- Whether a mode goes to the neighbour away from zero (R60, R61). -/
def roundsAway (mode : Mode) (u : Nat) (neg : Bool) (c : Cut) : Bool :=
  if c.exact then false else
  match mode with
  | .rne => match c.half with
            | .lt => false
            | .gt => true
            | .eq => c.lo % 2 = 1
  | .rtz => false
  | .rup => !neg
  | .rdn => neg
  | .rsr => decide (2 ^ 24 ≤ c.frac + u)

/-- A magnitude rounded to a multiple of 2^q, and whether it was inexact. -/
def roundMag (mode : Mode) (u : Nat) (neg : Bool) (q : Int) (m : Nat) (e : Int) (sticky : Bool) : Nat × Bool :=
  let c := cutAt q m e sticky
  (if roundsAway mode u neg c then c.lo + 1 else c.lo, !c.exact)

/-- The code an overflowing result takes (R57, R60). -/
def overflowCode (f : Fmt) (mode : Mode) (neg : Bool) : Nat :=
  if f.wide then
    let toMax := match mode with
      | .rtz => true
      | .rup => neg
      | .rdn => !neg
      | _ => false
    if toMax then f.maxCode else (2 ^ f.expBits - 1) * 2 ^ f.manBits
  else f.maxCode

def withSign (f : Fmt) (neg : Bool) (code : Nat) : Nat := if neg then code + f.signBit else code

/-- A finite exact result rounded once to a format (R57, R60), with its flags. -/
def roundFin (f : Fmt) (mode : Mode) (u : Nat) (neg : Bool) (m : Nat) (e : Int) (sticky : Bool) : Nat × Word :=
  if m = 0 then (withSign f neg 0, 0) else
  let ex := expOf m e
  let q := (if ex < f.emin then f.emin else ex) - f.manBits
  let (r, nx) := roundMag mode u neg q m e sticky
  let code := (q + f.manBits - f.emin).toNat * 2 ^ f.manBits + r
  if f.maxCode < code then (withSign f neg (overflowCode f mode neg), flagOF ||| flagNX)
  else (withSign f neg code, if nx then (if ex < f.emin then flagUF ||| flagNX else flagNX) else 0)

/-- The code of a NaN result that passes an operand's sign and payload (R58). DEDUCED (log entry 78): of an e4m3 or e5m2
operand, as of the others. -/
def passNaN (f : Fmt) (neg : Bool) (man : Nat) : Nat × Word :=
  match f with
  | .f32 | .bf16 | .f16 =>
    let mant := man / 2 ^ (23 - f.manBits)
    let mant := if mant.testBit (f.manBits - 1) then mant else mant + 2 ^ (f.manBits - 1)
    (withSign f neg ((2 ^ f.expBits - 1) * 2 ^ f.manBits + mant), 0)
  | .e4m3 => (0x7F, 0)
  | .e5m2 => (0x7E, 0)
  | _ => (0, flagNV)

/-- The code of a NaN that an operation makes from operands that are none (R58). -/
def madeNaN (f : Fmt) : Nat × Word := passNaN f false (2 ^ 22)

/-- One rounding of an exact result to a format (R57, R58, R60). -/
def roundTo (f : Fmt) (mode : Mode) (u : Nat) : Exact → Nat × Word
  | .pass neg man => passNaN f neg man
  | .made => madeNaN f
  | .inf neg => if f.wide then (withSign f neg ((2 ^ f.expBits - 1) * 2 ^ f.manBits), 0)
                else (withSign f neg f.maxCode, flagOF)
  | .fin neg m e sticky => roundFin f mode u neg m e sticky

/-- The power of two of a DS code (R26). -/
def dsPower (ds : BitVec 2) : Int :=
  if ds = 0 then 0 else if ds = 1 then 1 else if ds = 2 then 2 else -1

/-- DS scales the unrounded result exactly (R26). -/
def scaleExact (k : Int) : Exact → Exact
  | .fin neg m e st => .fin neg m (e + k) st
  | x => x

/-- DC clamps the rounded value (R26). -/
def clampCode (f : Fmt) (code : Nat) : Nat :=
  match f.read code with
  | .nan .. => code
  | .inf neg => if neg then 0 else f.one
  | .fin neg .. => if neg then 0 else if f.one < code then f.one else code

/-- Scale, round once, clamp: the order of R26. -/
def finishFp (f : Fmt) (mode : Mode) (u : Nat) (ds : BitVec 2) (dc : Bool) (x : Exact) : Nat × Word :=
  let (code, fl) := roundTo f mode u (scaleExact (dsPower ds) x)
  (if dc then clampCode f code else code, fl)

-- OPERATIONS
def Fv.isNaN : Fv → Bool | .nan .. => true | _ => false
def Fv.isSig : Fv → Bool | .nan _ _ sig => sig | _ => false
def Fv.isZero : Fv → Bool | .fin _ 0 _ => true | _ => false
def Fv.isNeg : Fv → Bool | .nan n _ _ => n | .inf n => n | .fin n _ _ => n
def Fv.negate : Fv → Fv | .nan n m s => .nan (!n) m s | .inf n => .inf (!n) | .fin n m e => .fin (!n) m e

/-- NV for a signalling operand (R58). -/
def sigFlag (xs : List Fv) : Word := if xs.any Fv.isSig then flagNV else 0

/-- The first NaN operand, as the result (R58). -/
def firstNaN : List Fv → Option Exact
  | [] => none
  | .nan n m _ :: _ => some (.pass n m)
  | _ :: xs => firstNaN xs

/-- The sign of an exact zero sum (IEEE 754, as R60 rounds). -/
def zeroSign (mode : Mode) (n1 n2 : Bool) : Bool :=
  if n1 = n2 then n1 else match mode with | .rdn => true | _ => false

/-- A signed integer × 2^e as an exact value; `zneg` is the sign of a zero. -/
def ofSigned (zneg : Bool) (x : Int) (e : Int) : Exact :=
  if x = 0 then .fin zneg 0 0 false else .fin (decide (x < 0)) x.natAbs e false

def signedMag (neg : Bool) (m : Nat) : Int := if neg then -(m : Int) else (m : Int)

/-- The exact sum of two finite values. -/
def addFin (mode : Mode) (n1 : Bool) (m1 : Nat) (e1 : Int) (n2 : Bool) (m2 : Nat) (e2 : Int) : Exact :=
  if m1 = 0 ∧ m2 = 0 then .fin (zeroSign mode n1 n2) 0 0 false
  else if m1 = 0 then .fin n2 m2 e2 false
  else if m2 = 0 then .fin n1 m1 e1 false
  else
    let e := if e1 ≤ e2 then e1 else e2
    let a := signedMag n1 (m1 * 2 ^ (e1 - e).toNat)
    let b := signedMag n2 (m2 * 2 ^ (e2 - e).toNat)
    ofSigned (zeroSign mode true false) (a + b) e

def fpAdd (mode : Mode) (x y : Fv) : Exact × Word :=
  let sg := sigFlag [x, y]
  match firstNaN [x, y] with
  | some r => (r, sg)
  | none =>
    match x, y with
    | .inf a, .inf b => if a = b then (.inf a, 0) else (.made, flagNV)
    | .inf a, _ => (.inf a, 0)
    | _, .inf b => (.inf b, 0)
    | .fin n1 m1 e1, .fin n2 m2 e2 => (addFin mode n1 m1 e1 n2 m2 e2, 0)
    | _, _ => (.made, 0)

/-- Subtraction keeps a NaN operand's sign: only a number is negated (R58). -/
def fpSub (mode : Mode) (x y : Fv) : Exact × Word :=
  fpAdd mode x (if y.isNaN then y else y.negate)

def fpMul (x y : Fv) : Exact × Word :=
  let sg := sigFlag [x, y]
  match firstNaN [x, y] with
  | some r => (r, sg)
  | none =>
    let neg := x.isNeg != y.isNeg
    match x, y with
    | .fin _ m1 e1, .fin _ m2 e2 => (.fin neg (m1 * m2) (e1 + e2) false, 0)
    | _, _ => if x.isZero || y.isZero then (.made, flagNV) else (.inf neg, 0)

/-- A × B + C with one rounding (R87). DEDUCED (log entry 20): with a NaN operand only a signalling NaN sets NV. -/
def fpFma (mode : Mode) (x y z : Fv) : Exact × Word :=
  let sg := sigFlag [x, y, z]
  let (p, pf) := fpMul x y
  match firstNaN [x, y, z] with
  | some r => (r, sg)
  | none =>
    match p, z with
    | .inf a, .inf b => if a = b then (.inf a, 0) else (.made, flagNV)
    | .inf a, _ => (.inf a, 0)
    | .made, _ => (.made, pf)
    | .fin .., .inf b => (.inf b, 0)
    | .fin n1 m1 e1 _, .fin n2 m2 e2 => (addFin mode n1 m1 e1 n2 m2 e2, 0)
    | _, _ => (.made, 0)

/-- A quotient with 160 bits and a sticky rest. -/
def fpDiv (x y : Fv) : Exact × Word :=
  let sg := sigFlag [x, y]
  match firstNaN [x, y] with
  | some r => (r, sg)
  | none =>
    let neg := x.isNeg != y.isNeg
    match x, y with
    | .inf _, .inf _ => (.made, flagNV)
    | .inf _, _ => (.inf neg, 0)
    | _, .inf _ => (.fin neg 0 0 false, 0)
    | .fin _ m1 e1, .fin _ m2 e2 =>
      if m2 = 0 then if m1 = 0 then (.made, flagNV) else (.inf neg, flagDZ)
      else if m1 = 0 then (.fin neg 0 0 false, 0)
      else
        let n := m1 * 2 ^ 160
        (.fin neg (n / m2) (e1 - e2 - 160) (n % m2 ≠ 0), 0)
    | _, _ => (.made, 0)

/-- √ of m × 2^e with a sticky rest. -/
def sqrtFin (m : Nat) (e : Int) : Exact :=
  let (m, e) := if e % 2 = 0 then (m, e) else (2 * m, e - 1)
  let n := m * 2 ^ 160
  let r := isqrt n
  .fin false r (e / 2 - 80) (r * r ≠ n)

def fpSqrt (x : Fv) : Exact × Word :=
  match x with
  | .nan n m _ => (.pass n m, sigFlag [x])
  | .inf neg => if neg then (.made, flagNV) else (.inf false, 0)
  | .fin neg m e =>
    if m = 0 then (.fin neg 0 0 false, 0)
    else if neg then (.made, flagNV)
    else (sqrtFin m e, 0)

/-- 1 ÷ √x (R70, R107). -/
def fpRsq (x : Fv) : Exact × Word :=
  match x with
  | .nan n m _ => (.pass n m, sigFlag [x])
  | .inf neg => if neg then (.made, flagNV) else (.fin false 0 0 false, 0)
  | .fin neg m e =>
    if m = 0 then (.inf false, flagDZ)
    else if neg then (.made, flagNV)
    else
      let (m, e) := if e % 2 = 0 then (m, e) else (2 * m, e - 1)
      let n := 2 ^ 320 / m
      let r := isqrt n
      (.fin false r (- (e / 2) - 160) (r * r * m ≠ 2 ^ 320), 0)

/-- The order of two numbers, −0 = +0. -/
def finInt (neg : Bool) (m : Nat) (e lo : Int) : Int := signedMag neg (m * 2 ^ (e - lo).toNat)

def fpCompare (x y : Fv) : Ordering :=
  match x, y with
  | .inf a, .inf b => if a = b then .eq else if a then .lt else .gt
  | .inf a, _ => if a then .lt else .gt
  | _, .inf b => if b then .gt else .lt
  | .fin n1 m1 e1, .fin n2 m2 e2 =>
    let lo := if e1 ≤ e2 then e1 else e2
    compare (finInt n1 m1 e1 lo) (finInt n2 m2 e2 lo)
  | _, _ => .eq

/-- −0.0 lies below +0.0 (R88). -/
def fpBelow (x y : Fv) : Bool :=
  match fpCompare x y with
  | .lt => true
  | .gt => false
  | .eq => x.isNeg && !y.isNeg

def exactOf : Fv → Exact
  | .nan n m _ => .pass n m
  | .inf n => .inf n
  | .fin n m e => .fin n m e false

/-- min and max of R88. -/
def fpMinMax (isMax : Bool) (x y : Fv) : Exact × Word :=
  let sg := sigFlag [x, y]
  match x.isNaN, y.isNaN with
  | true, true => (exactOf x, sg)
  | true, false => (exactOf y, sg)
  | false, true => (exactOf x, sg)
  | false, false =>
    if isMax then (exactOf (if fpBelow x y then y else x), 0)
    else (exactOf (if fpBelow y x then y else x), 0)

/-- A value rounded to an integral value: rint, floor, ceil, trunc and frac are made of it (R87). -/
def integralMag (mode : Mode) (u : Nat) (neg : Bool) (m : Nat) (e : Int) (sticky : Bool) : Nat × Bool :=
  roundMag mode u neg 0 m e sticky

def fpIntegral (mode : Mode) (u : Nat) (setNX : Bool) (x : Fv) : Exact × Word :=
  match x with
  | .fin neg m e =>
    let (r, nx) := integralMag mode u neg m e false
    (.fin neg r 0 false, if setNX && nx then flagNX else 0)
  | x => (exactOf x, sigFlag [x])

def fpFrac (x : Fv) : Exact × Word :=
  match x with
  | .inf _ => (.made, flagNV)
  | .fin neg m e =>
    if 0 ≤ e then (.fin neg 0 0 false, 0)
    else (.fin neg (m % 2 ^ (-e).toNat) e false, 0)
  | x => (exactOf x, sigFlag [x])

/-- A × 2^k; a k beyond ±600 rounds as ±600 does in every format. -/
def fpLdexp (x : Fv) (k : Int) : Exact × Word :=
  match x with
  | .fin neg m e => (.fin neg m (e + (if k < -600 then -600 else if 600 < k then 600 else k)) false, 0)
  | x => (exactOf x, sigFlag [x])

/-- cls(A) of R89 for an f32 code. -/
def classBits (x : Word) : Nat :=
  match readF32 x with
  | .nan _ _ sig => if sig then 1 else 2
  | .inf neg => if neg then 4 else 512
  | .fin neg m _ =>
    let sub := m < 2 ^ 23
    if m = 0 then (if neg then 32 else 64)
    else if neg then (if sub then 16 else 8) else (if sub then 128 else 256)

/-- An f32 operation of the STAT rules: each step rounded with rne (R67, R68). -/
def f32Of (r : Exact × Word) : Word × Word :=
  let (code, fl) := roundTo .f32 .rne 0 r.1
  (BitVec.ofNat 32 code, fl ||| r.2)

def addR (x y : Word) : Word × Word := f32Of (fpAdd .rne (readF32 x) (readF32 y))
def subR (x y : Word) : Word × Word := f32Of (fpSub .rne (readF32 x) (readF32 y))
def mulR (x y : Word) : Word × Word := f32Of (fpMul (readF32 x) (readF32 y))
def divR (x y : Word) : Word × Word := f32Of (fpDiv (readF32 x) (readF32 y))

-- INTEGERS (R55)
def intMin (signed : Bool) (w : Nat) : Int := if signed then -(2 ^ (w - 1) : Nat) else 0
def intMax (signed : Bool) (w : Nat) : Int := if signed then (2 ^ (w - 1) : Nat) - 1 else (2 ^ w : Nat) - 1

/-- The nearest end of a range, and whether the value lay outside it. -/
def saturate (signed : Bool) (w : Nat) (x : Int) : Int × Bool :=
  if x < intMin signed w then (intMin signed w, true)
  else if intMax signed w < x then (intMax signed w, true)
  else (x, false)

def intVal (signed : Bool) (w x : Nat) : Int := if signed then signedNat w x else (x % 2 ^ w : Nat)

/-- A floating value as an integer of `w` bits (R60): NV beyond the range or for a NaN, NX when inexact. -/
def fpToInt (mode : Mode) (u : Nat) (signed : Bool) (w : Nat) (x : Exact) : Nat × Word :=
  match x with
  | .pass .. => (0, flagNV)
  | .made => (0, flagNV)
  | .inf neg => (wrapInt w (if neg then intMin signed w else intMax signed w), flagNV)
  | .fin neg m e st =>
    -- a value far beyond every integer type needs no exact grid
    if m ≠ 0 ∧ 80 < expOf m e then (wrapInt w (if neg then intMin signed w else intMax signed w), flagNV)
    else
      let (r, nx) := roundMag mode u neg 0 m e st
      let (v, out) := saturate signed w (signedMag neg r)
      (wrapInt w v, if out then flagNV else if nx then flagNX else 0)

-- FX64 (R74)
def fxNaN : Nat := 0x8000000000000000

def f32ToFx (mode : Mode) (u : Nat) (E : Int) (x : Fv) : Nat × Word :=
  match x with
  | .nan .. => (fxNaN, flagNV)
  | .inf neg => (wrapInt 64 (if neg then -(2 ^ 63 - 1 : Int) else 2 ^ 63 - 1), flagOF ||| flagNX)
  | .fin neg m e =>
    let (r, nx) := roundMag mode u neg 0 m (e + 50 - E) false
    if 2 ^ 63 - 1 < r then (wrapInt 64 (signedMag neg (2 ^ 63 - 1)), flagOF ||| flagNX)
    else (wrapInt 64 (signedMag neg r), if nx then flagNX else 0)

def fxExact (E : Int) (i : Nat) : Exact :=
  if i % 2 ^ 64 = fxNaN then .made else ofSigned false (signedNat 64 i) (E - 50)

-- THE GENERATOR (R79)
def rndValue (key coord : DWord) : DWord :=
  let z := key ^^^ (coord * 0xD1B54A32D192ED03#64 + 0x8CB92BA72F3D8DD7#64)
  let z := (z ^^^ (z >>> 31)) * 0xAEF17502108EF2D9#64
  let z := (z ^^^ (z >>> 29)) * 0xE7C35A916B2D04F5#64
  z ^^^ (z >>> 32)

/-- u of R61: bits [63:40] of the generator value. -/
def rndU (key coord : DWord) : Nat := (rndValue key coord).toNat / 2 ^ 40

end Sys2Proof.Machine
end

