-- ==== Sys2Proof/Syntax.lean ====
section
/-! DEFINITION. The instructions: one constructor for each row of the opcode table. The first 156 are the encoded instructions of the kernel ISA (R49, R50), each with the fields of its word; the 136 after them are the module's events, each with what it acts on: first those the module makes itself, then those that come from outside it or act on nothing in particular. -/

namespace Sys2Proof

inductive Instr where
  /-- R29. Does nothing; nop.e ends a run. -/
  | nop (f : Form)
  /-- R84. Copies A to D bit for bit. -/
  | mov (f : Form)
  /-- R84. Integer add, wrapping modulo 2^w. -/
  | addInt (f : Form)
  /-- R84. Integer subtract, wrapping modulo 2^w. -/
  | subInt (f : Form)
  /-- R84. Low w bits of the integer product. -/
  | mulInt (f : Form)
  /-- R84. High w bits of the exact integer product. -/
  | mulh (f : Form)
  /-- R84. Integer multiply-add modulo 2^w. -/
  | mad (f : Form)
  /-- R84. High half of the exact A × B + ext(C). -/
  | madh (f : Form)
  /-- R85. Integer quotient rounded toward zero, defined for every operand. -/
  | divInt (f : Form)
  /-- R85. Integer remainder with the sign of A. -/
  | rem (f : Form)
  /-- R84. Smaller of two integers, signed or unsigned. -/
  | minInt (f : Form)
  /-- R84. Larger of two integers, signed or unsigned. -/
  | maxInt (f : Form)
  /-- R84. Saturating integer add that sets OF when it saturates. -/
  | sadd (f : Form)
  /-- R84. Saturating integer subtract that sets OF when it saturates. -/
  | ssub (f : Form)
  /-- R84. Bitwise and. -/
  | and (f : Form)
  /-- R84. Bitwise or. -/
  | or (f : Form)
  /-- R84. Bitwise exclusive or. -/
  | xor (f : Form)
  /-- R84. Bitwise complement. -/
  | not (f : Form)
  /-- R84. Left shift that gives 0 when n is at least w. -/
  | shl (f : Form)
  /-- R84. Logical right shift. -/
  | shr (f : Form)
  /-- R84. Arithmetic right shift. -/
  | sar (f : Form)
  /-- R84. Rotate left by n mod w. -/
  | rol (f : Form)
  /-- R84. Rotate right by n mod w. -/
  | ror (f : Form)
  /-- R84. Counts the 1 bits of A. -/
  | popc (f : Form)
  /-- R84. Counts the leading zero bits of A. -/
  | clz (f : Form)
  /-- R84. Counts the trailing zero bits of A. -/
  | ctz (f : Form)
  /-- R84. Reverses the bits of A. -/
  | brev (f : Form)
  /-- R86. Extracts and extends the bit field that B names. -/
  | bfx (f : Form)
  /-- R86. Inserts B into the bit field of A that C names. -/
  | bfi (f : Form)
  /-- R84. Selects A or B by the lane's bit of mask C. -/
  | sel (f : Form)
  /-- R84. Computes the address A + sext32(B) × 2^FN. -/
  | lea (f : Form)
  /-- R86. Selects the bytes of D from A and B under control C. -/
  | bsel (f : Form)
  /-- R84. Sign-extends the low 8, 16 or 32 bits of A. -/
  | sext (f : Form)
  /-- R84. Zero-extends the low 8, 16 or 32 bits of A. -/
  | zext (f : Form)
  /-- R84. Byte dot product accumulated into C. -/
  | dot4 (f : Form)
  /-- R84. Sum of absolute byte differences accumulated into C. -/
  | sad (f : Form)
  /-- R87. f32 add, rounded once. -/
  | addFp (f : Form)
  /-- R87. f32 multiply, rounded once. -/
  | mulFp (f : Form)
  /-- R87. f32 subtract, rounded once. -/
  | subFp (f : Form)
  /-- R87. f32 fused multiply-add with one rounding. -/
  | fma (f : Form)
  /-- R88. f32 minimum under the NaN and signed-zero rules. -/
  | minFp (f : Form)
  /-- R88. f32 maximum under the NaN and signed-zero rules. -/
  | maxFp (f : Form)
  /-- R87. f32 divide, which sets DZ for a finite nonzero value divided by zero. -/
  | divFp (f : Form)
  /-- R87. f32 square root. -/
  | sqrt (f : Form)
  /-- R87. f32 reciprocal. -/
  | rcp (f : Form)
  /-- R87. Fractional part of A, exact. -/
  | frac (f : Form)
  /-- R87. Rounds A to an integral value in the rounding mode. -/
  | rint (f : Form)
  /-- R87. Rounds A to an integral value toward −∞. -/
  | floor (f : Form)
  /-- R87. Rounds A to an integral value toward +∞. -/
  | ceil (f : Form)
  /-- R87. Rounds A to an integral value toward zero. -/
  | trunc (f : Form)
  /-- R87. Computes A × 2^B, rounded once. -/
  | ldexp (f : Form)
  /-- R89. Writes a mask bit when A's class matches mask B. -/
  | classF (f : Form)
  /-- R90. Packed element-wise add. -/
  | padd (f : Form)
  /-- R90. Packed element-wise subtract. -/
  | psub (f : Form)
  /-- R90. Packed element-wise multiply. -/
  | pmul (f : Form)
  /-- R90. Packed element-wise fused multiply-add. -/
  | pfma (f : Form)
  /-- R90. Packed element-wise minimum. -/
  | pmin (f : Form)
  /-- R90. Packed element-wise maximum. -/
  | pmax (f : Form)
  /-- R91. Packed dot product to one 32-bit result per lane. -/
  | pdot (f : Form)
  /-- R92. Compares A with B by the condition in FN and writes each acting lane's mask bit. -/
  | cmp (f : Form)
  /-- R93. Lane-wise and of two masks. -/
  | mand (f : Form)
  /-- R93. Lane-wise or of two masks. -/
  | mor (f : Form)
  /-- R93. Lane-wise exclusive or of two masks. -/
  | mxor (f : Form)
  /-- R93. Lane-wise complement of a mask. -/
  | mnot (f : Form)
  /-- R93. Counts the acting lanes whose mask bit is set. -/
  | mpopc (f : Form)
  /-- R93. Finds the lowest acting lane whose mask bit is set. -/
  | mffs (f : Form)
  /-- R93. Summarises a mask over the acting lanes in the .pat, .quo or .uni form. -/
  | vote (f : Form)
  /-- R95. Moves values between the lanes of a group by the mode in FN. -/
  | shfl (f : Form)
  /-- R96. Broadcasts one lane's value. -/
  | bcast (f : Form)
  /-- R97. Reduces values within segments of lanes by a fixed tree. -/
  | lred (f : Form)
  /-- R98. Forms prefix results within segments of lanes. -/
  | lscan (f : Form)
  /-- R67. Folds a weighted sample into a STAT triple. -/
  | supd (f : Form)
  /-- R68. Merges two STAT triples with A as the first operand. -/
  | smrg (f : Form)
  /-- R100. Merges STAT triples within segments of lanes by a fixed tree. -/
  | sred (f : Form)
  /-- R70. Finalises a STAT triple into var and isd. -/
  | sfin (f : Form)
  /-- R101. Converts elements between types, including INT4 and FX64. -/
  | cvt (f : Form)
  /-- R103. Quantises the acting lanes into one MX block. -/
  | mxq (f : Form)
  /-- R104. Dequantises an MX code and its scale to f32. -/
  | mxdq (f : Form)
  /-- R105. Computes the counter-based random value in the raw, uniform or keep form. -/
  | rnd (f : Form)
  /-- R107. Issues a special-function request, writes POISON to D and returns a token. -/
  | sfq (f : Form)
  /-- R108. Waits for the named tokens and retires their results into D. -/
  | sfw (f : Form)
  /-- R114. Relative branch of the acting lanes. -/
  | br (f : Form)
  /-- R116. Pushes the return address and branches. -/
  | call (f : Form)
  /-- R116. Pops each acting lane's return address into its program counter. -/
  | ret (f : Form)
  /-- R117. Ends the acting lanes, and the group and team once all of their lanes have ended. -/
  | exit (f : Form)
  /-- R118. Puts the acting lanes to sleep for n cycles. -/
  | sleep (f : Form)
  /-- R119. Ends the run and demotes the acting lanes. -/
  | yield (f : Form)
  /-- R120. Writes the acting lanes' bits of a rejoin mask. -/
  | jset (f : Form)
  /-- R121. Arriving lanes that are named in the rejoin mask park until the join releases them. -/
  | join (f : Form)
  /-- R115. Indirect branch to 64-bit register targets. -/
  | brx (f : Form)
  /-- R116. Indirect call. -/
  | callx (f : Form)
  /-- R125. Binds the group into segments of n limbs. -/
  | bind (f : Form)
  /-- R125. Returns the binding to 1. -/
  | unbind (f : Form)
  /-- R130. Long-integer add with carry-in and carry-out. -/
  | ladd (f : Form)
  /-- R130. Long-integer subtract with borrow-in and borrow-out. -/
  | lsub (f : Form)
  /-- R130. Long-integer negate. -/
  | lneg (f : Form)
  /-- R130. Long-integer left shift. -/
  | lshl (f : Form)
  /-- R130. Long-integer right shift. -/
  | lshr (f : Form)
  /-- R130. Long-integer compare into a mask. -/
  | lcmp (f : Form)
  /-- R128. Long-integer move. -/
  | lmov (f : Form)
  /-- R131. Long-integer multiply-accumulate that writes a carry word. -/
  | lmac (f : Form)
  /-- R141. Loads each acting lane's value from ls, cw or g. -/
  | ld (f : Form)
  /-- R142. Stores each acting lane's data, or stages it under deterministic mode. -/
  | st (f : Form)
  /-- R143. Gathers table elements by per-lane indices. -/
  | gld (f : Form)
  /-- R143. Scatters data to table elements by per-lane indices. -/
  | sct (f : Form)
  /-- R144. Atomic read-modify-write that returns the old value, or a reservation value under deterministic mode. -/
  | atom (f : Form)
  /-- R144. Atomic read-modify-write that returns nothing. -/
  | red (f : Form)
  /-- R145. Compare-and-swap per lane, in lane order, with demotion on failure. -/
  | cas (f : Form)
  /-- R146. Sends an update to the home MSAU, including the STAT merge. -/
  | msred (f : Form)
  /-- R148. Stalls the group until earlier accesses of the named classes are performed at the scope. -/
  | fence (f : Form)
  /-- R149. Stalls the group until the named outstanding counts are at most n. -/
  | wcnt (f : Form)
  /-- R150. Sets the full/empty bit of the addressed lines. -/
  | fset (f : Form)
  /-- R150. Reads the full/empty bits into a mask without stalling. -/
  | ftest (f : Form)
  /-- R153. Arrives at a barrier and waits for its phase to change. -/
  | barSync (f : Form)
  /-- R207. Records the acting lanes' arrival and returns the phase. -/
  | barArrive (f : Form)
  /-- R153. Parks the acting lanes until the barrier's phase differs from sk. -/
  | barWait (f : Form)
  /-- R152. Makes a line a barrier line with an expected count. -/
  | blineInit (f : Form)
  /-- R152. Returns a barrier line to ordinary, zeroed. -/
  | blineClr (f : Form)
  /-- R154. Writes the pod-time interval to a register pair. -/
  | tnow (f : Form)
  /-- R156. Publishes a stamped version of a line and holds the group until the stamp has passed. -/
  | stst (f : Form)
  /-- R157. Reads a stamped line as of time t once the bound has passed. -/
  | rdat (f : Form)
  /-- R159. Writes data into every member's copy of a multicast group. -/
  | mcst (f : Form)
  /-- R160. Sends a store to the crier for sequenced application. -/
  | mcsq (f : Form)
  /-- R160. Sequenced compare-and-swap through the crier. -/
  | mcsqCas (f : Form)
  /-- R161. Reduces the addressed bytes of every member's copy in the switch. -/
  | mldr (f : Form)
  /-- R162. Compares a word and sleeps on its key until woken or until the limit. -/
  | waitv (f : Form)
  /-- R163. Wakes up to n sleepers on a key and returns the number woken. -/
  | wake (f : Form)
  /-- R166. Reads, checks and loads a 64-byte record into a tensor slot. -/
  | tdload (f : Form)
  /-- R167. Empties a tensor slot. -/
  | tddrop (f : Form)
  /-- R170. Asynchronous strided copy that marks destination lines empty at issue. -/
  | copy (f : Form)
  /-- R172. Copies the same bytes into the windows of the selected cluster ranks. -/
  | copyMc (f : Form)
  /-- R173. Decrypts one AES-256-GCM message into cluster vaults. -/
  | copyGcm (f : Form)
  /-- R179. Waits until the group's earlier ls and cw writes are performed at their vaults. -/
  | aready (f : Form)
  /-- R180. Acknowledges a tile's issue count and waits for the entries it covers. -/
  | await (f : Form)
  /-- R181. Zeroes a tile in queue order. -/
  | azero (f : Form)
  /-- R181. Fills a tile from ls or cw in queue order. -/
  | aload (f : Form)
  /-- R183. Drains a tile with optional bias, statistics and normalisation, then converts it. -/
  | adrain (f : Form)
  /-- R184. Copies a tile row or column into registers. -/
  | aread (f : Form)
  /-- R185. Starts a collective script and returns its handle. -/
  | cstart (f : Form)
  /-- R186. Arms or resets a script step's launch counter. -/
  | carm (f : Form)
  /-- R187. Reads a script's status word. -/
  | cstat (f : Form)
  /-- R176. BF16 or FP16 64×64×32 matrix operation into a tile. -/
  | mmbf (f : Form)
  /-- R176. FP8 64×64×64 matrix operation. -/
  | mmf8 (f : Form)
  /-- R176. INT8 64×64×64 matrix operation. -/
  | mmi8 (f : Form)
  /-- R176. MXFP8 or MXINT8 matrix operation. -/
  | mmx8 (f : Form)
  /-- R176. MXFP6 64×64×96 matrix operation. -/
  | mmx6 (f : Form)
  /-- R176. MXFP4 64×64×128 matrix operation. -/
  | mmx4 (f : Form)
  /-- R178. Complex BF16 32×32×32 matrix operation. -/
  | mmcx (f : Form)
  /-- R176. FP32 matrix operation by BF16×3 splitting. -/
  | mmf32 (f : Form)
  /-- R190. Sets TARG and raises USER after completion. -/
  | trap (f : Form)
  /-- R189. Returns from the trap handler to TRESUME and closes the frame. -/
  | tret (f : Form)
  /-- R190. Raises BREAK, or stops the team for the debugger. -/
  | brk (f : Form)
  /-- R191. Appends a mark record to the core's trace ring. -/
  | mark (f : Form)
  /-- R192. Reads a group system register. -/
  | sysr (f : Form)
  /-- R192. Writes a group system register. -/
  | sysw (f : Form)
  /-- R193. Reads or clears the sticky flag word. -/
  | flag (f : Form)
  /-- R139. A full/empty stall lasts longer than Lw. -/
  | watchdog (g : Nat)
  /-- R211. Lanes parked at a barrier for Lw cycles leave the park and trap. -/
  | barrierTimeout (g : Nat) (lane : Nat)
  /-- R203. A free issue slot goes to a ready group by age and engine idleness. -/
  | issueSlotGrant (core : Nat)
  /-- R228. A load binds and writes its destination, releasing any stall. -/
  | loadResultReturn (g : Nat) (k : Nat)
  /-- R229. A store or atomic is applied at its home and leaves the store count, releasing fences and wcnt. -/
  | storeAppliedAtHome (g : Nat) (path : Nat)
  /-- R146. The MSAU applies an msred update to a word. -/
  | msauUpdateApply (g : Nat) (k : Nat)
  /-- R170. The last destination byte of a line arrives; the vault writes the line and marks it full. -/
  | copyLineFill (copy : Nat) (unit : Nat)
  /-- R175. The matrix unit performs and completes the next queue entry. -/
  | matrixEntryExecute (team : Nat)
  /-- R107. A special-function result arrives in its queue. -/
  | sfResultArrival (g : Nat) (num : Nat)
  /-- R118. %cyc reaches a sleeping lane's deadline. -/
  | sleepExpiry (g : Nat)
  /-- R162. A waitv sleeper's limit expires. -/
  | waitvTimeout (g : Nat)
  /-- R121. A join's test finds no open lane, or only lanes parked elsewhere, and releases the parked set. -/
  | joinRelease (g : Nat)
  /-- R208. A team's arrival message reaches the line's home vault. -/
  | clusterBarrierArrival (i : Nat)
  /-- R208. A release message reaches a team, and the team releases its parked lanes. -/
  | clusterBarrierRelease (i : Nat)
  /-- R156. The writer's earliest exceeds s and the held group is released. -/
  | ststHoldRelease (g : Nat)
  /-- R155. The home accepts or rejects a stamped version and retains up to four versions. -/
  | stampedVersionArrival (i : Nat)
  /-- R156. A rejection reaches the writing group. -/
  | stampRejectArrival (i : Nat)
  /-- R157. The reader's earliest exceeds t + D and the read binds. -/
  | rdatWaitEnd (g : Nat)
  /-- R327. The target rejects a remote stst or rdat, and ACCESS is raised at the sender. -/
  | remoteAccessReject (i : Nat)
  /-- R292. The crier numbers an arriving mcsq or mcsq.cas and sends it down the route tree. -/
  | crierNumbering (i : Nat)
  /-- R292. A member applies a numbered store in order and writes its applied count. -/
  | memberApply (i : Nat)
  /-- R292. A member that misses RLIM is marked stale. -/
  | memberStaleMark (group : Nat) (rank : Nat)
  /-- R307. The sequence number and old value reach the sender. -/
  | mcsqReply (i : Nat)
  /-- R293. No reply within RLIM; ACCESS is raised at the sender. -/
  | mcsqReject (id : Nat)
  /-- R159. Every member acknowledges an mcst, or is marked stale, and it completes. -/
  | mcstComplete (id : Nat)
  /-- R296. The switch folds a member's response in its pipeline. -/
  | mldrResponseFold (i : Nat)
  /-- R293. RLIM expires and non-answering members are left out. -/
  | mldrResponseTimeout (id : Nat)
  /-- R161. The reduced result, status and bitmap reach the sender. -/
  | mldrReply (i : Nat)
  /-- R161. No switch reply within 2 × RLIM; ACCESS is raised. -/
  | mldrNoReply (id : Nat)
  /-- R290. MCGCMD join checks a descriptor and joins a multicast group. -/
  | mcgJoin (fn : Nat) (val : DWord)
  /-- R295. MCGCMD leave removes the member. -/
  | mcgLeave (fn : Nat) (val : DWord)
  /-- R294. MCGCMD resync holds new stores and copies the lowest live member's copy. -/
  | mcgResync (fn : Nat) (val : DWord)
  /-- R294. The copy arrives, the count becomes n0 and numbering resumes. -/
  | mcgResyncComplete (i : Nat)
  /-- R298. Comm step, with no effect at run time. -/
  | scriptComm (c : Nat) (h : Nat)
  /-- R298. Send step: waits for credit and sends chunks. -/
  | scriptSend (c : Nat) (h : Nat)
  /-- R298. Recv step: arms its counter and grants credit. -/
  | scriptRecv (c : Nat) (h : Nat)
  /-- R298. Receive, reduce by a fragment launch, and send. -/
  | scriptRrs (c : Nat) (h : Nat)
  /-- R298. Copy step within the module. -/
  | scriptCopy (c : Nat) (h : Nat)
  /-- R298. Waits for a count of empty chunks. -/
  | scriptWait (c : Nat) (h : Nat)
  /-- R298. Advances a loop counter and branches. -/
  | scriptLoop (c : Nat) (h : Nat)
  /-- R300. Ends the script, performs its bytes and sets DONE. -/
  | scriptEnd (c : Nat) (h : Nat)
  /-- R299. A chunk lands and decrements its step's counter, or overruns. -/
  | chunkArrival (i : Nat)
  /-- R299. A step makes no progress for RLIM and ends with PEER_ABSENT. -/
  | scriptPeerAbsent (c : Nat) (h : Nat)
  /-- R298. An rrs fragment launch completes, and the step forwards or ends the script. -/
  | fragmentComplete (c : Nat) (h : Nat)
  /-- R366. A script buffer access faults, and the step is held or the script ends FAULTED. -/
  | scriptAccessFault (c : Nat) (h : Nat)
  /-- R173. The security block checks, decrypts and writes one copy.gcm message. -/
  | gcmMessageProcess (copy : Nat)
  /-- R277. A page walk ends with a translation or a fault. -/
  | pageWalkComplete (i : Nat)
  /-- R277. Space frees in a full fault ring and the held walker writes its record. -/
  | faultRingSpaceFree (i : Nat)
  /-- R277. A RESUME write with FAIL = 0 replays every group suspended on the fault. -/
  | resumeReplay (fn : Nat) (fid : Nat)
  /-- R335. A RESUME write with FAIL = 1 replaces the replay with fatal ACCESS. -/
  | resumeFail (fn : Nat) (fid : Nat)
  /-- R279. A host write invalidates translations. -/
  | inval (fn : Nat) (val : DWord)
  /-- R279. Dropped translations are performed and INVST advances. -/
  | invalComplete (fn : Nat)
  /-- R283. A host write wakes up to N sleepers on the key. -/
  | waken (fn : Nat) (val : DWord)
  /-- R272. A host loads a slot record from a device address. -/
  | slotcmdLoad (fn : Nat) (val : DWord)
  /-- R272. A host drops a tensor slot. -/
  | slotcmdDrop (fn : Nat) (val : DWord)
  /-- R257. A GATE register write decrements a gate and submits its linked record at zero. -/
  | gateDecrement (fn : Nat) (val : DWord)
  /-- R256. A QTAIL write submits records to a queue, or is discarded when the ring would overflow. -/
  | qtailWrite (fn : Nat) (q : Nat) (val : DWord)
  /-- R275. A CTXEN write enables or disables contexts. -/
  | ctxenWrite (fn : Nat) (val : DWord)
  /-- R272. A context's enable change takes effect once its launches have completed. -/
  | contextEnableChange (fn : Nat)
  /-- R272. A write to a register with no behaviour of its own, or to a reserved offset. -/
  | registerWrite (fn : Nat) (page : PageWrite) (off : Nat) (val : DWord)
  /-- R258. A command processor takes the next record by priority and parses it. -/
  | queueService (pair : Nat)
  /-- R259. A die with room takes a cluster index and places its teams. -/
  | clusterPlacement (die : Nat)
  /-- R262. A cluster drains and saves its state and joins the resume list. -/
  | preemption (cluster : Nat)
  /-- R274. A function's slice on a shared pair ends. -/
  | timeSliceExpiry (pair : Nat)
  /-- R266. Every group of a team without the token waits on staging, and the cluster is pre-empted. -/
  | stagingOverflowPreempt (team : Nat)
  /-- R263. A pre-empted cluster resumes whole on new cores. -/
  | clusterResume (die : Nat)
  /-- R265. The token passes to the next team, which releases its staged records. -/
  | releaseTokenPass (launch : Nat)
  /-- R255. The completion block is written and the gates are decremented. -/
  | launchCompletion (launch : Nat)
  /-- R269. Checking mode starts the second run with a fresh seed. -/
  | checkSecondRun (launch : Nat)
  /-- R337. A fatal trap stops the launch, discards staging and requests an image. -/
  | fatalTrapStop (launch : Nat)
  /-- R225. An idempotent cluster is relaunched in fresh windows. -/
  | clusterRelaunch (cluster : Nat)
  /-- R317. The reply arrives and the interval is intersected, or CONFLICT is raised. -/
  | exchangeReply (i : Nat)
  /-- R318. Timebase configuration, taking effect at the next frame; a POD or REF change enters FAILED or ALONE. -/
  | tbcfgWrite (val : DWord)
  /-- R318. Writes the limits, or is discarded whole when invalid. -/
  | tblimWrite (val : DWord)
  /-- R313. Arms a frequency change at COUNT, or is refused. -/
  | clkfreqWrite (val : DWord)
  /-- R313. A region reaches %cyc C and changes frequency. -/
  | clockFreqChange (bay : Nat)
  /-- R288. The replay count in a window passes 16 or 256, raising an interrupt or retraining. -/
  | replayThreshold (port : Nat)
  /-- R288. Retraining exceeds 10 ms and the port is declared down. -/
  | portRetrainTimeout (port : Nat)
  /-- R341. Eight failed replays retire the link and stop the affected launches. -/
  | dovetailLinkRetire (link : Nat)
  /-- R358. Copies a new image to the inactive bank to verify it. -/
  | fwStage (val : DWord)
  /-- R360. Arms a checkpoint at pod time T. -/
  | cktWrite (val : DWord)
  /-- R350. Arms an injected uncorrectable vault read. -/
  | vinjbArm (val : DWord)
  /-- R52. A path issues a word that names no instruction (unassigned OP, LEN = 11, a misaligned program counter or a fetch outside every image) and raises ILLEGAL_OP, FETCH_ALIGN or ACCESS. -/
  | unassignedOpcode (why : BadWord) (word : DWord)
  /-- R317. A parent module receives a child's exchange flit, stamps t2 and t3, and replies with its eps. -/
  | exchangeAtParent (i : Nat)
  /-- R299. A credit granted by an armed receiving step reaches the sending script, and a waiting send may start transmitting. -/
  | creditGrant (i : Nat)
  /-- R298. The acknowledgement of a sent chunk reaches the sending script, and the send step completes once every chunk is acknowledged. -/
  | chunkAcknowledged (i : Nat)
  /-- R359. SPDM request answered by the security block. -/
  | getVersion (fn : Nat)
  /-- R359. SPDM capabilities request. -/
  | getCapabilities (fn : Nat)
  /-- R359. SPDM algorithm negotiation. -/
  | negotiateAlgorithms (fn : Nat)
  /-- R359. SPDM certificate digests request. -/
  | getDigests (fn : Nat)
  /-- R359. SPDM certificate chain request. -/
  | getCertificate (fn : Nat) (slot : Nat)
  /-- R359. SPDM challenge-response authentication. -/
  | challenge (fn : Nat) (slot : Nat) (nonce : List Byte)
  /-- R359. SPDM measurement request. -/
  | getMeasurements (fn : Nat) (index : Nat)
  /-- R359. SPDM key exchange opening a secure session. -/
  | keyExchange (fn : Nat) (share : List Byte)
  /-- R359. SPDM session finish. -/
  | finish (fn : Nat) (mac : List Byte)
  /-- R359. Ends an SPDM secure session. -/
  | endSession (fn : Nat)
  /-- R285. A secure-session message configures a decryption stream. -/
  | streamConfig (fn : Nat) (ctx : Nat) (num : Nat) (key : List Byte) (salt : List Byte)
  /-- R343. A secure-session message sets the function's dump key. -/
  | dumpKeySet (fn : Nat) (key : List Byte)
  /-- R284. A TDISP request from the host moves a function's TDI between CONFIG_UNLOCKED, CONFIG_LOCKED and RUN. -/
  | tdispRequest (fn : Nat) (req : TdispReq)
  /-- R12. The pod is configured and the bench steward assigns the module its %pkg. -/
  | podConfigure (index : Nat)
  /-- R348. A steward CSR write stops the teams on the named cores. -/
  | sstop (bay : Nat) (cores : BitVec 12)
  /-- R348. A steward CSR write releases held cores. -/
  | sgo (bay : Nat) (cores : BitVec 12)
  /-- R348. A mailbox doorbell write: outbound ready, or inbound consumed. -/
  | smbx (bay : Nat) (val : BitVec 2)
  /-- R348. Streams image body bytes to the security block. -/
  | sseal (bay : Nat) (addr : DWord)
  /-- R349. The bay reports an image written. -/
  | imageDone (bay : Nat) (launch : Nat) (size : Nat) (flags : Nat)
  /-- R349. The bay reports an error for the log. -/
  | err (bay : Nat) (rec : ErrRec)
  /-- R349. The bench asks a bay steward for a diagnostic. -/
  | diagReq (bay : Nat) (test : Nat) (cores : BitVec 12)
  /-- R349. The bay reports diagnostic results. -/
  | diagDone (bay : Nat) (result : DWord)
  /-- R287. A port accepts an in-order flit or answers with a NAK. -/
  | flitReceive (port : Nat) (flit : Flit)
  /-- R287. The sender replays every buffered flit after the named one. -/
  | nakReceive (port : Nat) (seq : Nat)
  /-- R288. A retraining port comes back up. -/
  | portRetrainComplete (port : Nat)
  /-- R8. A beat fails parity and is replayed. -/
  | dovetailParityReplay (link : Nat) (ok : Bool)
  /-- R356. From power-good or reset, the bench steward runs self-test and enters running or the safe state. -/
  | powerUpSelfTest (units : DWord)
  /-- R362, R363. A failed module is detected, a spare takes its %pkg, and the checkpoints are restored: the last one or the older, from
  the bytes of its slot and the places of the bytes of its ranges. -/
  | moduleFailureTakeover (failed : Nat) (image : Restore)
  /-- R364. Average power above 3.6 kW paces matrix issue and lowers the frequency. -/
  | powerLimitExceeded (watts : Nat)
  /-- R364. Draw 5 % below the limit for 10 ms restores the settings. -/
  | powerLimitCleared (watts : Nat)
  /-- R364. At a junction temperature of 105 °C, code 4 is scheduled. -/
  | thermalThrottle (tj : Nat)
  /-- R364. At 115 °C the module's power is removed. -/
  | thermalTrip (tj : Nat)
  /-- R317. A reference module takes a frame edge from its time input. -/
  | timeInputEdge (edge : DWord)
  /-- R318. A read performs a tnow, with LATE paired to the last EARLY read. -/
  | tbnowRead (fn : Nat) (late : Bool)
  /-- R314. No reference edge for 100 ns: switch to fallback, code 4 and wider drift. -/
  | refLoss
  /-- R314. The reference runs for 1 s and CLK_REF_LOST clears. -/
  | refRestored
  /-- R314. The fallback oscillator fails and the timebase enters FAILED. -/
  | fallbackOscFail
  /-- R312. The droop monitor stretches a cycle. -/
  | cycleStretch (bay : Nat)
  /-- R360. The buddy acknowledges every byte, or the checkpoint fails; the clusters resume. -/
  | checkpointComplete (ack : Bool)
  /-- R349. The bench asks a bay steward for a core image. -/
  | imageReq (bay : Nat) (req : ImageReq)
  /-- R282. The 1 µs frame begins its pitches. -/
  | frameStart
  /-- R315. est advances by one tick and eps grows with drift. -/
  | timebaseTick
  /-- R316. eps exceeds EPSFAIL and the timebase enters FAILED. -/
  | epsFail
  /-- R316. Two exchange periods pass without success. -/
  | holdoverEntry
  /-- R317. A scheduled exchange with PAR0 is sent in pitch 0. -/
  | timebaseExchange
  /-- R317. After a failed PAR0 exchange, one extra exchange goes to PAR1. -/
  | par1Exchange
  /-- R316. Reacquire from FAILED. -/
  | tbcmdReacquire
  /-- R318. Forces the timebase to FAILED. -/
  | tbcmdForceFailed
  /-- R358. Verification ends: staged, bad signature or below SVN. -/
  | fwVerifyComplete
  /-- R360. earliest exceeds T: clusters are paused and the state is written to the buddy. -/
  | checkpointStart
  deriving DecidableEq, Repr

end Sys2Proof
end

