-- ==== Sys2Proof/Machine/Legal.lean ====
section
/-! DEFINITION. The static decode checks 4 to 8 of R36: for each encoded instruction the lengths, FN values, types, operand kinds, register groups, modifiers, immediates and reserved bits its entry permits. -/

namespace Sys2Proof.Machine

def opndKind : Opnd → Kind
  | .v _ => .v | .s _ => .s | .m _ => .m | .j _ => .j | .a _ => .a | .zero => .zero | .special _ => .special | .imm => .imm

/-- A field that holds 0x00 with no modifiers: unused (R23). -/
def unused : Src := { op := .v 0, neg := false, abs := false, last := false, keep := false }

def noMods (x : Src) : Bool := !x.neg && !x.abs && !x.last && !x.keep

/-- The modifier rules of R23 and R43: last-use and keep not both and only on v and s, negate and abs only on arithmetic
sources. -/
def modsOk (arith : Bool) (x : Src) : Bool :=
  !(x.last && x.keep) &&
  (!(x.last || x.keep) || (opndKind x.op == .v || opndKind x.op == .s)) &&
  (arith || (!x.neg && !x.abs))

/-- What X6 holds (R46). -/
inductive X6Use where
  | imm        -- the 64-bit-form immediate, otherwise zero
  | round      -- [2:0] a rounding mode, [5:3] zero
  | zero
  | immOwn     -- as imm, with the entry's own check
  | own        -- the entry's own check
  deriving DecidableEq, Repr

/-- One row of an instruction chapter's tables: [] for a field the entry does not use; a group size of 0 means one
register, or a pair for a 64-bit type (R42). -/
structure Row where
  lens  : List Len
  fns   : List Nat
  tys   : List Ty
  d     : List Kind
  a     : List Kind
  b     : List Kind
  c     : List Kind
  opt   : Bool            -- C is optional: present in the 96-bit form only
  arith : Bool            -- the sources are arithmetic: negate and abs are permitted on them (R23; log entry 62)
  dk    : Nat
  ak    : Nat
  bk    : Nat
  ck    : Nat
  x6    : X6Use
  scale : Bool            -- DS and DC are permitted (R26)
  uni   : Bool            -- an s destination makes the instruction uniform (R81)
  desc  : Bool            -- a 128-bit form carries the memory descriptor (R27, R39)
  deriving DecidableEq, Repr

def lensAll : List Len := [.l64, .l96, .l128]
def lensCC : List Len := [.l64, .l96]
def srcAny : List Kind := [.v, .s, .zero, .special, .imm]
def dstAny : List Kind := [.v, .s, .zero]
def tysInt : List Ty := [.i32, .n32, .i64, .n64]
def tysAll : List Ty := [.i32, .n32, .i64, .n64, .f32, .bf16, .f16, .e4m3, .e5m2, .e3m2, .e2m3, .e2m1, .i8, .n8, .i16, .b32]
def tysPacked : List Ty := [.bf16, .f16, .e4m3, .e5m2, .e2m1, .i16, .i8, .n8]
def tysCmp : List Ty := [.i32, .n32, .i64, .n64, .f32, .b32]
def tysWide : List Ty := tysAll.filter (fun t => 8 ≤ t.width)
/-- T = 0 of an untyped instruction (K36). -/
def tysNone : List Ty := [.i32]

/-- The integer and address block (R84). -/
def rowInt (tys : List Ty) (b c : List Kind) : Row :=
  { lens := if c = [] then lensAll else [.l96], fns := [0], tys := tys, d := dstAny, a := srcAny, b := b, c := c,
    opt := false, arith := true, dk := 0, ak := 0, bk := 0, ck := 0, x6 := .imm, scale := false, uni := true, desc := false }

/-- The floating block (R87). -/
def rowFp (b c : List Kind) : Row :=
  { lens := if c = [] then lensAll else [.l96], fns := [0], tys := [.f32], d := dstAny, a := srcAny, b := b, c := c,
    opt := false, arith := true, dk := 1, ak := 1, bk := 1, ck := 1, x6 := .round, scale := true, uni := true, desc := false }

def rowPacked (c : List Kind) (opt : Bool) : Row :=
  { lens := if c = [] ∨ opt then lensAll else [.l96], fns := [0], tys := tysPacked, d := dstAny, a := srcAny, b := srcAny,
    c := c, opt := opt, arith := true, dk := 1, ak := 1, bk := 1, ck := 1, x6 := .own, scale := true, uni := true, desc := false }

def maskKinds : List Kind := [.m, .j]

def rowMask (d : List Kind) (b : List Kind) : Row :=
  { lens := lensCC, fns := [0], tys := tysNone, d := d, a := maskKinds, b := b, c := [], opt := false, arith := false,
    dk := 1, ak := 1, bk := 1, ck := 1, x6 := .zero, scale := false, uni := false, desc := false }

def rowCtl (lens : List Len) (tys : List Ty) (d a : List Kind) : Row :=
  { lens := lens, fns := [0], tys := tys, d := d, a := a, b := [], c := [], opt := false, arith := false,
    dk := 0, ak := 0, bk := 0, ck := 0, x6 := .zero, scale := false, uni := false, desc := false }

def rowLimb (fns : List Nat) (d a b c : List Kind) : Row :=
  { lens := lensCC, fns := fns, tys := [.n32, .i32], d := d, a := a, b := b, c := c, opt := true, arith := false,
    dk := 1, ak := 1, bk := 1, ck := 1, x6 := .imm, scale := false, uni := false, desc := false }

/-- A memory instruction with the descriptor (R134). -/
def rowMem (fns : List Nat) (tys : List Ty) (d a b : List Kind) (dk ak bk : Nat) (x6 : X6Use) : Row :=
  { lens := [.l128], fns := fns, tys := tys, d := d, a := a, b := b, c := [], opt := false, arith := false,
    dk := dk, ak := ak, bk := bk, ck := 1, x6 := x6, scale := false, uni := false, desc := true }

def upto (n : Nat) : List Nat := List.range (n + 1)

def tysAtomic : List Ty := [.i32, .n32, .i64, .n64, .f32]
def baseKinds : List Kind := [.s, .zero]
def indexKinds : List Kind := [.v, .s, .zero]
def dataKinds : List Kind := [.v, .s]

/-- MX quantisation (R103, R104). DEDUCED (log entry 62): an s destination is illegal. -/
def rowMx : Row :=
  { rowFp [] [] with lens := lensCC, tys := [.e4m3, .e5m2, .e3m2, .e2m3, .e2m1, .i8], d := [.v, .zero], a := srcAny, x6 := .own, scale := false }

def rowMM (tys : List Ty) : Row := rowMem [0] tys [.a] baseKinds [.s] 1 1 2 .zero

/-- The row of an encoded instruction; `none` for an event. DEDUCED (log entry 62): which sources count as arithmetic; zero as a
destination only where the entry lists it or names no kind, as those of ladd, lsub, lneg, lshl, lshr, lmov and lcmp do; and no s
destination of shfl. -/
def rowOf : Instr → Option Row
  | .nop _ => some { rowInt tysNone [] [] with d := [], a := [], x6 := .zero }
  | .mov _ => some (rowInt [.i32, .n32, .i64, .n64, .f32, .b32] [] [])
  | .addInt _ | .subInt _ | .mulInt _ | .mulh _ | .divInt _ | .rem _ | .minInt _ | .maxInt _ | .sadd _ | .ssub _
  | .and _ | .or _ | .xor _ | .shl _ | .shr _ | .sar _ | .rol _ | .ror _ | .bfx _ => some (rowInt tysInt srcAny [])
  | .mad _ | .madh _ | .bfi _ => some (rowInt tysInt srcAny srcAny)
  | .not _ | .popc _ | .clz _ | .ctz _ | .brev _ => some (rowInt tysInt [] [])
  | .sel _ => some (rowInt [.i32, .n32, .i64, .n64, .f32] srcAny maskKinds)
  | .lea _ => some { rowInt [.i64, .n64] srcAny [] with fns := upto 3, bk := 1 }
  | .bsel _ => some (rowInt [.n32] srcAny srcAny)
  | .sext _ => some { rowInt [.i32, .i64] [] [] with fns := upto 2, ak := 1 }
  | .zext _ => some { rowInt [.n32, .n64] [] [] with fns := upto 2, ak := 1 }
  | .dot4 _ => some { rowInt [.i32, .n32] srcAny srcAny with lens := lensAll, opt := true }
  | .sad _ => some { rowInt [.n32] srcAny srcAny with lens := lensAll, opt := true }
  | .addFp _ | .mulFp _ | .subFp _ | .minFp _ | .maxFp _ | .divFp _ => some (rowFp srcAny [])
  | .fma _ => some (rowFp srcAny srcAny)
  | .sqrt _ | .rcp _ | .frac _ | .rint _ | .floor _ | .ceil _ | .trunc _ => some (rowFp [] [])
  | .ldexp _ => some (rowFp srcAny [])
  | .classF _ => some { rowFp srcAny [] with d := [.m, .zero], x6 := .zero, scale := false }
  | .padd _ | .psub _ | .pmul _ | .pmin _ | .pmax _ => some (rowPacked [] false)
  | .pfma _ => some (rowPacked srcAny false)
  | .pdot _ => some (rowPacked srcAny true)
  | .cmp _ => some { rowInt tysCmp srcAny [] with lens := lensCC, fns := upto 7, d := [.m, .zero], dk := 1 }
  | .mand _ | .mor _ | .mxor _ => some (rowMask [.m] maskKinds)
  | .mnot _ => some (rowMask [.m] [])
  | .mpopc _ | .mffs _ => some (rowMask [.s] [])
  | .vote _ => some { rowMask [.s, .m] [.v, .s, .imm] with fns := upto 2, x6 := .immOwn }
  | .shfl _ => some { rowInt [.n32, .n64] srcAny [.v, .s, .zero] with lens := lensCC, fns := upto 7, d := [.v, .zero], opt := true, arith := false, bk := 1 }
  | .bcast _ => some { rowInt [.n32, .n64] [.s, .zero, .special, .imm] [] with lens := lensCC, d := [.v, .s], arith := false, bk := 1, uni := false }
  | .lred _ => some { rowInt [.i32, .n32, .i64, .n64, .f32] [] [] with lens := lensCC, fns := upto 5, a := [.v, .s, .zero, .special, .imm], x6 := .own, scale := true, uni := false }
  | .lscan _ => some { rowInt [.i32, .n32, .i64, .n64, .f32] [] [] with lens := lensCC, fns := upto 5 ++ (upto 5).map (· + 8), d := [.v, .zero], x6 := .own, scale := true }
  | .supd _ => some { rowFp [.v, .s, .imm] [] with lens := lensCC, d := [.v], a := [.v, .s, .imm], dk := 3, x6 := .zero, scale := false }
  | .smrg _ => some { rowFp [.v] [] with lens := lensCC, d := [.v], a := [.v], arith := false, dk := 3, ak := 3, bk := 3, x6 := .zero, scale := false }
  | .sred _ => some { rowFp [] [] with lens := lensCC, d := [.v], a := [.v], arith := false, dk := 3, ak := 3, x6 := .own, scale := false }
  | .sfin _ => some { rowFp srcAny [] with lens := lensCC, d := [.v], a := [.v], dk := 2, ak := 3, x6 := .zero, scale := false }
  | .cvt _ => some { rowFp [.v, .s, .zero, .special, .imm] [] with lens := lensCC, fns := upto 14, tys := tysAll.filter (· ≠ .b32), x6 := .own, scale := true, uni := false }
  | .mxq _ => some rowMx
  | .mxdq _ => some { rowMx with arith := false }
  | .rnd _ => some { rowFp [.v, .s] srcAny with lens := lensCC, fns := upto 2, tys := [.n64, .f32, .n32], d := [.v, .s, .m], a := [.s], opt := true, arith := false, dk := 0, bk := 2, x6 := .zero, scale := false, uni := false }
  | .sfq _ => some { rowFp [.s] [] with lens := [.l64], fns := upto 9, a := [.v, .s, .zero], x6 := .zero, scale := false }
  | .sfw _ => some { rowCtl [.l64] [.i32, .n32] [] [.v, .s, .imm] with fns := upto 2, x6 := .immOwn }
  | .br _ | .call _ => some (rowCtl [.l96, .l128] tysNone [] [])
  | .ret _ | .exit _ | .yield _ => some (rowCtl [.l64] tysNone [] [])
  | .sleep _ => some { rowCtl [.l64] [.n32] [] [.s, .imm] with x6 := .imm }
  | .jset _ => some (rowCtl [.l64] tysNone [.j] maskKinds)
  | .join _ => some (rowCtl [.l64] tysNone [] [.j])
  | .brx _ | .callx _ => some { rowCtl [.l64] [.n64] [] [.v, .s] with ak := 2 }
  | .bind _ => some { rowCtl lensCC tysNone [] [.s, .imm] with x6 := .imm }
  | .unbind _ => some (rowCtl lensCC tysNone [] [])
  | .ladd _ | .lsub _ => some (rowLimb (upto 15) [.v, .zero] [.v, .s, .zero, .imm] [.v, .s, .zero, .imm] [.m, .zero])
  | .lneg _ => some (rowLimb (upto 15) [.v, .zero] [.v, .s, .zero, .imm] [] [])
  | .lshl _ => some (rowLimb (upto 15) [.v, .zero] [.v, .s, .zero, .imm] [.v, .s, .zero, .imm] [])
  | .lshr _ => some (rowLimb (upto 7) [.v, .zero] [.v, .s, .zero, .imm] [.v, .s, .zero, .imm] [])
  | .lcmp _ => some (rowLimb (upto 5) [.m, .zero] [.v, .s, .zero, .imm] [.v, .s, .zero, .imm] [])
  | .lmov _ => some (rowLimb [0] [.v, .zero] [.v, .s, .zero, .imm] [] [])
  | .lmac _ => some (rowLimb (upto 15) [.v] [.v, .s, .zero, .imm] [.v, .s, .zero, .imm] [.v, .zero])
  | .ld _ => some (rowMem ((upto 15).filter (fun n => n % 8 ≤ 5)) tysAll dataKinds baseKinds indexKinds 0 1 1 .zero)
  | .st _ => some (rowMem (upto 5) tysAll dataKinds baseKinds indexKinds 0 1 1 .zero)
  | .gld _ | .sct _ => some (rowMem [0, 1] tysWide [.v] [.s] [.v, .s] 0 2 1 .zero)
  | .atom _ => some (rowMem ((upto 15).filter (fun n => n % 8 ≤ 6)) tysAtomic dataKinds baseKinds indexKinds 0 1 1 .own)
  | .red _ => some (rowMem ((upto 15).filter (fun n => n % 8 ≤ 6)) tysAtomic dataKinds baseKinds indexKinds 0 1 1 .own)
  | .cas _ => some (rowMem [0, 8] [.i32, .n32, .i64, .n64, .b32] dataKinds baseKinds indexKinds 2 1 1 .own)
  | .msred _ => some (rowMem (upto 3) tysAtomic [.v] baseKinds indexKinds 0 1 1 .own)
  | .fence _ => some { rowCtl [.l64] tysNone [] [] with fns := [1, 2, 3, 4, 5], x6 := .own }
  | .wcnt _ => some { rowCtl [.l64] [.n32] [] [.s, .imm] with fns := (upto 15).filter (0 < ·), x6 := .imm }
  | .fset _ => some (rowMem [0, 1] tysNone [] baseKinds indexKinds 1 1 1 .zero)
  | .ftest _ => some (rowMem [0] tysNone [.m] baseKinds indexKinds 1 1 1 .zero)
  | .barSync _ => some (rowMem [0] tysNone [.zero] baseKinds baseKinds 1 1 1 .zero)
  | .barArrive _ => some (rowMem [1] tysNone [.s, .zero] baseKinds baseKinds 1 1 1 .zero)
  | .barWait _ => some (rowMem [2] tysNone [.s, .zero] baseKinds baseKinds 1 1 1 .zero)
  | .blineInit _ => some (rowMem [0] tysNone [.s] baseKinds baseKinds 1 1 1 .zero)
  | .blineClr _ => some (rowMem [1] tysNone [] baseKinds baseKinds 1 1 1 .zero)
  | .tnow _ => some { rowCtl [.l64] [.n64] [.s] [] with dk := 2 }
  | .stst _ => some (rowMem [0] tysWide dataKinds baseKinds indexKinds 0 1 1 .zero)
  | .rdat _ => some (rowMem [0] tysWide dataKinds [.s] indexKinds 0 4 1 .zero)
  | .mcst _ => some (rowMem [0] tysWide dataKinds baseKinds indexKinds 0 1 1 .zero)
  | .mcsq _ => some (rowMem [0] tysWide dataKinds [.s] indexKinds 0 2 1 .zero)
  | .mcsqCas _ => some (rowMem [1] [.i32, .n32, .i64, .n64, .b32] [.s] [.s] baseKinds 2 2 1 .zero)
  | .mldr _ => some (rowMem (upto 6) tysInt dataKinds [.s] indexKinds 0 4 1 .zero)
  | .waitv _ => some (rowMem [0] [.n32, .n64] [.s] [.s] baseKinds 1 1 1 .zero)
  | .wake _ => some (rowMem [0] [.n32] [.s] [.s] [] 1 1 1 .zero)
  | .tdload _ => some (rowMem [0] tysNone [.s] baseKinds [] 1 1 1 .zero)
  | .tddrop _ => some { rowCtl [.l64] tysNone [.s] [] with fns := [1], dk := 1 }
  | .copy _ => some (rowMem [0] [.b32] [.s] baseKinds [] 4 1 1 .zero)
  | .copyMc _ => some (rowMem [1] [.b32] [.s] baseKinds [] 4 1 1 .zero)
  | .copyGcm _ => some (rowMem [2] [.b32] [.s] baseKinds [] 4 1 1 .zero)
  | .aready _ => some (rowCtl [.l64] tysNone [] [])
  | .await _ => some { rowCtl [.l64] tysNone [] [.a, .v] with fns := [0, 1] }
  | .azero _ => some (rowCtl [.l64] tysNone [.a] [])
  | .aload _ => some (rowMem [0] [.f32, .i32, .bf16] [.a] baseKinds baseKinds 1 1 1 .zero)
  | .adrain _ => some (rowMem (upto 7) [.f32, .bf16, .f16, .e4m3, .e5m2, .e3m2, .e2m3, .e2m1, .i32, .i16, .i8, .n8] [.a] [.v] [.s] 1 1 4 .own)
  | .aread _ => some (rowMem [8, 9] [.b32] [.v] [.a] [.s] 2 1 1 .zero)
  | .cstart _ => some { rowCtl lensCC [.n64] [.s] [.s] with b := [.s, .imm], dk := 1, ak := 1, bk := 1 }
  | .carm _ => some { rowCtl lensCC [.n64] [] [.s] with fns := [1], b := [.s, .imm], c := [.s], opt := true, ak := 1, bk := 1, ck := 1 }
  | .cstat _ => some { rowCtl lensCC [.n64] [.s] [.s] with fns := [2], dk := 1, ak := 1 }
  | .mmbf _ => some (rowMM [.bf16, .f16])
  | .mmf8 _ => some (rowMM [.e4m3, .e5m2])
  | .mmi8 _ => some (rowMM [.i8, .n8])
  | .mmx8 _ => some (rowMM [.e4m3, .e5m2, .i8])
  | .mmx6 _ => some (rowMM [.e3m2, .e2m3])
  | .mmx4 _ => some (rowMM [.e2m1])
  | .mmcx _ => some (rowMM [.bf16])
  | .mmf32 _ => some (rowMM [.f32])
  | .trap _ => some { rowCtl [.l64] [.n64] [] [.s, .imm] with ak := 1, x6 := .imm }
  | .tret _ => some (rowCtl [.l64] tysNone [] [])
  | .brk _ => some (rowCtl [.l64] tysNone [] [])
  | .mark _ => some { rowCtl lensCC [.n32] [] [.s, .imm] with ak := 1 }
  | .sysr _ => some { rowCtl lensCC [.n64] [.s] [] with dk := 1, x6 := .own }
  | .sysw _ => some { rowCtl lensCC [.n64] [] [.s, .imm] with ak := 1, x6 := .own }
  | .flag _ => some { rowCtl [.l64] [.n32] [.v, .s] [.v, .s, .imm] with fns := upto 2, dk := 1, ak := 1, x6 := .immOwn }
  | _ => none

def kindOk (ks : List Kind) (x : Opnd) : Bool := ks.contains (opndKind x)

/-- A source field: unused, or a permitted kind with permitted modifiers. -/
def srcOk (ks : List Kind) (arith : Bool) (x : Src) : Bool :=
  if ks = [] then x == unused else kindOk ks x.op && modsOk arith x

/-- The destination field: unused, or a permitted kind. -/
def dstOk (ks : List Kind) (x : Opnd) : Bool := if ks = [] then x == .v 0 else kindOk ks x

def isImm (x : Src) : Bool := x.op == .imm

def immCount (f : Form) : Nat :=
  (if isImm f.a then 1 else 0) + (if isImm f.b then 1 else 0) + (if isImm f.c then 1 else 0)

/-- Whether a type counts as an integer type for the immediate (R25). -/
def immInt (t : Ty) : Bool := t.isInt || t == .b32

/-- The immediate of a form lies in the range its length and type give it (R25); a form without one has a zero
extension (R39). `own` marks an entry that gives the extension a use of its own. -/
def immOk (r : Row) (f : Form) : Bool :=
  match f.len with
  | .l64 => f.ext == 0 && (immCount f == 0 || (immCount f == 1 && (r.x6 == .imm || r.x6 == .immOwn) && immInt f.ty))
  | .l96 => immCount f ≤ 1 && (immCount f == 1 || f.ext == 0) && decide (f.ext.toNat < 2 ^ 20)
  | .l128 =>
    r.desc || (immCount f ≤ 1 && (immCount f == 1 || f.ext == 0) &&
      (immCount f == 0 ||
        (if f.ty.width = 64 then true
         else if f.ty.width = 32 then f.ext == (f.ext.setWidth 32).signExtend 64
         else decide (f.ext.toNat < 2 ^ 32))))

/-- X6 and the use its row gives it (R46). -/
def x6Ok (r : Row) (f : Form) : Bool :=
  match r.x6 with
  | .imm => (f.len == .l64 && immCount f == 1) || f.x6 == 0
  | .round => decide (f.x6.toNat ≤ 4)
  | .zero => f.x6 == 0
  | .immOwn => true
  | .own => true

/-- An s destination makes the instruction uniform: no source is a v register or %lane (R81). -/
def uniformOk (r : Row) (f : Form) : Bool :=
  match f.d with
  | .s _ =>
    let ok := fun (ks : List Kind) (x : Src) => ks = [] || (opndKind x.op != .v && x.op != .special .lane)
    ok r.a f.a && ok r.b f.b && (f.len != .l96 || ok r.c f.c)
  | _ => true

-- THE DESCRIPTOR (R27)
def dSP (f : Form) : Nat := bitsAt f.ext.toNat 62 2
def dW (f : Form) : Nat := bitsAt f.ext.toNat 59 3
def dSW (f : Form) : Nat := bitsAt f.ext.toNat 56 3
def dIS (f : Form) : Nat := bitsAt f.ext.toNat 54 2
def dRes (f : Form) : Nat := bitsAt f.ext.toNat 40 14
/-- OFF, sign-extended to 64 bits. -/
def dOFF (f : Form) : DWord := (f.ext.setWidth 40).signExtend 64

/-- The W code of a width (R27). -/
def wCode (bits : Nat) : Nat :=
  if bits = 8 then 0 else if bits = 16 then 1 else if bits = 32 then 2 else if bits = 64 then 3 else if bits = 4 then 4 else 5

/-- The spaces an entry permits: 0 ls, 1 cw, 2 g (R134, R168, R176, R182). -/
def spacesOf : Instr → List Nat
  | .msred _ | .stst _ | .rdat _ | .mcst _ | .mcsq _ | .mcsqCas _ | .mldr _ | .waitv _ | .wake _ => [2]
  | .fset _ | .ftest _ | .barSync _ | .barArrive _ | .barWait _ | .blineInit _ | .blineClr _ | .aload _
  | .mmbf _ | .mmf8 _ | .mmi8 _ | .mmx8 _ | .mmx6 _ | .mmx4 _ | .mmcx _ | .mmf32 _ => [0, 1]
  | .tdload _ => [0, 2]
  | .copyMc _ => [1]
  | .copyGcm _ => [0, 1]
  | _ => [0, 1, 2]

/-- An entry with IS = 00. -/
def noIndexScale : Instr → Bool
  | .tdload _ | .copy _ | .copyMc _ | .copyGcm _ | .aload _ | .adrain _
  | .mmbf _ | .mmf8 _ | .mmi8 _ | .mmx8 _ | .mmx6 _ | .mmx4 _ | .mmcx _ | .mmf32 _ => true
  | _ => false

def descOk (i : Instr) (f : Form) : Bool :=
  match i with
  | .aread _ => f.ext == BitVec.ofNat 64 (2 * 2 ^ 59)
  | _ =>
    (spacesOf i).contains (dSP f) && dW f == wCode f.ty.width && dRes f == 0 && (!noIndexScale i || dIS f == 0)

-- WHAT SINGLE ENTRIES ADD
def isV (x : Opnd) : Bool := opndKind x == .v
def isS (x : Opnd) : Bool := opndKind x == .s

/-- A uniform memory instruction's index is an s register or zero (R135). -/
def memUniformOk (f : Form) : Bool := !(isS f.d && isV f.b.op)

/-- Floating X6: [2:0] a mode, [5:3] as given. -/
def roundOk (f : Form) : Bool := decide (bitsAt f.x6.toNat 0 3 ≤ 4)

/-- The segment field of lred, lscan and sred (R97, R99): 0 to 5 on this part, where %width is 32. -/
def segOk (f : Form) : Bool := decide (bitsAt f.x6.toNat 3 3 ≤ 5)

/-- The register width of a type in a conversion (R102). -/
def cvtWidth (t : Ty) : Nat := if t.width = 6 then 8 else t.width

/-- The type whose code FN holds. -/
def tyOfCode (n : Nat) : Ty := tysAll.getD n .b32

/-- The sub-form of cvt: 0 none, 1 .si4, 2 .di4, 3 .tofx, 4 .fromfx. -/
def cvtSub (f : Form) : Nat := bitsAt f.x6.toNat 3 3

def cvtSrcWidth (f : Form) : Nat := if cvtSub f = 1 then 4 else cvtWidth (tyOfCode f.fn.toNat)
def cvtDstWidth (f : Form) : Nat := if cvtSub f = 2 then 4 else cvtWidth f.ty

/-- N of R102. -/
def cvtCount (f : Form) : Nat :=
  let n := 32 / (min (cvtSrcWidth f) (cvtDstWidth f))
  if n = 0 then 1 else n

/-- The registers of a side of a cvt (R102). -/
def cvtRegs (n w : Nat) : Nat := let k := n * w / 32; if k = 0 then 1 else k

/-- A conversion that is always exact takes no rounding mode (R101): to the same type, from an integer to an integer, from
a floating format to one that holds every value of it, from an integer that a floating format holds. -/
def cvtExact (f : Form) : Bool :=
  let src := tyOfCode f.fn.toNat
  let srcInt := cvtSub f = 1 || src.isInt
  let dstInt := cvtSub f = 2 || f.ty.isInt
  let sw := if cvtSub f = 1 then 4 else src.width
  if cvtSub f = 4 then true
  else if cvtSub f = 3 then false
  else if srcInt && dstInt then true
  else if srcInt then
    match fmtOf f.ty with
    | some d =>
      let sgn := cvtSub f = 1 || src.signed
      decide ((if sgn then sw - 1 else sw) ≤ d.manBits + 1) &&
      fpCompare (.fin false (if sgn then 2 ^ (sw - 1) else 2 ^ sw - 1) 0) (d.read d.maxCode) != .gt
    | none => false
  else if dstInt then false
  else
    match fmtOf src, fmtOf f.ty with
    | some s, some d =>
      decide (s.manBits ≤ d.manBits) && decide (d.emin - d.manBits ≤ s.emin - s.manBits) &&
      fpCompare (s.read s.maxCode) (d.read d.maxCode) != .gt
    | _, _ => false

def cvtOk (f : Form) : Bool :=
  let sub := cvtSub f
  let srcT := tyOfCode f.fn.toNat
  let match_ :=
    if sub = 0 then true
    else if sub = 1 then f.fn == 0xC
    else if sub = 2 then f.ty == .i8
    else if sub = 3 then (srcT == .f32 || srcT == .bf16) && f.ty == .i64
    else if sub = 4 then f.fn == 2 && f.ty == .f32
    else false
  let bUse := if sub = 3 ∨ sub = 4 then kindOk srcAny f.b.op && modsOk false f.b else f.b == unused
  let round := if cvtExact f then bitsAt f.x6.toNat 0 3 == 0 else roundOk f
  let scale := (f.ds == 0 && !f.dc) || ((fmtOf f.ty).isSome && sub != 2)
  -- an s register stands for a side of one element only
  let sideOk := fun (x : Opnd) (w : Nat) => !isS x || cvtCount f * w == 32 || (cvtCount f == 1 && w == 64)
  let uni := !isS f.d || ((!isV f.a.op && f.a.op != .special .lane) && ((sub != 3 && sub != 4) || (!isV f.b.op && f.b.op != .special .lane)))
  uni && match_ && bUse && round && scale && sideOk f.d (cvtDstWidth f) && sideOk f.a.op (cvtSrcWidth f)

/-- The checks that one entry adds to its row. -/
def entryOk (i : Instr) (f : Form) : Bool :=
  match i with
  | .nop _ => f.gn == false && f.g == 0
  | .sext _ | .zext _ => !(f.fn == 2 && f.ty.width == 32)
  | .floor _ | .ceil _ | .trunc _ => f.x6 == 0
  | .classF _ => !f.b.neg && !f.b.abs
  | .padd _ | .psub _ | .pmul _ | .pfma _ | .pmin _ | .pmax _ | .pdot _ =>
    (if (fmtOf f.ty).isSome then roundOk f && bitsAt f.x6.toNat 3 3 == 0
     else decide (f.x6.toNat ≤ (match i with | .pdot _ => 0 | _ => 1)) && f.ds == 0 && !f.dc)
  | .cmp _ =>
    !(f.len == .l64 && isImm f.a) &&
    (if f.ty == .f32 then f.x6 == 0 && immCountB f
     else if f.ty == .b32 then decide (f.fn.toNat ≤ 1) else decide (f.fn.toNat ≤ 5))
  | .mpopc _ | .mffs _ => true
  | .vote _ =>
    let n := f.fn.toNat
    (n != 0 || !(opndKind f.d == .m)) &&
    (if n = 1 then isImm f.b || (f.x6 == 0 && isS f.b.op)
     else f.b == unused && f.x6 == 0) && (f.len == .l64 || f.x6 == 0)
  | .shfl _ => decide (f.fn.toNat % 4 = 2) || f.c == unused
  | .bcast _ => f.b.op != .special .lane
  | .lred _ =>
    segOk f && (if f.ty == .f32 then roundOk f && decide (f.fn.toNat ≤ 2)
                else bitsAt f.x6.toNat 0 3 == 0 && f.ds == 0 && !f.dc && (f.ty.width == 32 || decide (f.fn.toNat ≤ 2))) &&
    (!isS f.d || bitsAt f.x6.toNat 3 3 == 0 || bitsAt f.x6.toNat 3 3 == 5)
  | .lscan _ =>
    segOk f && (if f.ty == .f32 then roundOk f && decide (f.fn.toNat % 8 ≤ 2)
                else bitsAt f.x6.toNat 0 3 == 0 && f.ds == 0 && !f.dc && (f.ty.width == 32 || decide (f.fn.toNat % 8 ≤ 2)))
  | .sred _ => segOk f && bitsAt f.x6.toNat 0 3 == 0
  | .sfin _ => !f.a.neg && !f.a.abs
  | .cvt _ => cvtOk f
  | .mxq _ => bitsAt f.x6.toNat 3 3 == 0 && roundOk f && f.ds == 0 && !f.dc
  | .mxdq _ => f.x6 == 0 && f.ds == 0 && !f.dc
  | .rnd _ =>
    (match f.fn.toNat with
     | 0 => f.ty == .n64 && (isV f.d || isS f.d) && f.c == unused
     | 1 => f.ty == .f32 && (isV f.d || isS f.d) && f.c == unused
     | _ => f.ty == .n32 && opndKind f.d == .m && f.len == .l96)
    && !(isS f.d && isV f.b.op)
  | .sfq _ => noMods f.b && !(isS f.d && isV f.a.op)
  | .sfw _ =>
    f.g == 0 && !f.gn &&
    (match f.fn.toNat with
     | 2 => f.ty == .i32 && f.a == unused && f.x6 == 0
     | _ => f.ty == .n32 && (isImm f.a || (isS f.a.op && f.x6 == 0)))
  | .br _ | .call _ => f.len == .l96 || bitsAt f.ext.toNat 0 2 == 0
  | .join _ => f.g == 0 && !f.gn
  | .bind _ => !isImm f.a || bindable (immNat f)
  | .lmac _ => f.c.op != f.d || f.len == .l64
  | .ld _ | .st _ => memUniformOk f
  | .gld _ | .sct _ => if f.fn == 0 then isV f.b.op else isS f.b.op
  | .atom _ | .red _ =>
    let op := f.fn.toNat % 8
    memUniformOk f && (f.ty != .f32 || op ≤ 2 || (op == 6 && (match i with | .atom _ => true | _ => false))) && bitsAt f.x6.toNat 0 3 == 0 &&
    (if f.fn.toNat < 8 then bitsAt f.x6.toNat 3 3 == 0 else decide (bitsAt f.x6.toNat 3 3 ≤ 5))
  | .cas _ =>
    memUniformOk f && bitsAt f.x6.toNat 0 3 == 0 &&
    (if f.fn.toNat < 8 then bitsAt f.x6.toNat 3 3 == 0 else decide (bitsAt f.x6.toNat 3 3 ≤ 5))
  | .msred _ =>
    bitsAt f.x6.toNat 3 3 == 0 && decide (bitsAt f.x6.toNat 0 3 ≤ 3) &&
    (f.fn != 3 || f.ty == .f32) && (f.ty == .f32 && decide (f.fn.toNat = 0) || f.x6 == 0)
  | .fence _ => decide (0 < f.x6.toNat) && decide (f.x6.toNat < 16)
  | .mcsqCas _ | .stst _ | .rdat _ | .mcst _ | .mcsq _ | .mldr _ => memUniformOk f
  | .await _ => if f.fn == 0 then opndKind f.a.op == .a && noMods f.a else f.a == unused
  | .tdload _ => dSW f == 0
  | .adrain _ =>
    (if f.fn.toNat % 4 = 0 then f.a == unused else isV f.a.op) && noMods f.a && noMods f.b &&
    (if (fmtOf f.ty).isSome then roundOk f && bitsAt f.x6.toNat 3 3 == 0 else f.x6 == 0 && f.fn == 0)
  | .aload _ | .mmbf _ | .mmf8 _ | .mmi8 _ | .mmx8 _ | .mmx6 _ | .mmx4 _ | .mmcx _ | .mmf32 _ => noMods f.a && noMods f.b
  | .aread _ => noMods f.a && noMods f.b
  | .cstart _ => !isImm f.b || f.len == .l96
  | .carm _ => if isImm f.b then f.len == .l96 && isS f.c.op else isS f.b.op && f.c == unused
  | .tret _ => f.g == 0 && !f.gn
  | .trap _ => true
  | .brk _ => f.g == 0 && !f.gn
  | .mark _ => !isImm f.a || f.len == .l96
  | .sysr _ => decide (f.x6.toNat ≤ 9)
  | .sysw _ => f.x6 == 1
  | .flag _ =>
    (match f.fn.toNat with
     | 0 => f.a == unused && f.x6 == 0
     | 1 => f.d == .v 0 && (isImm f.a || f.x6 == 0)
     | _ => isImm f.a || f.x6 == 0)
    && !(isS f.d && f.fn != 1 && isV f.a.op && f.fn != 0)
  | _ => true
where
  immCountB (f : Form) : Bool := f.len == .l96 || immCount f == 0
  bindable (n : Nat) : Bool := [2, 4, 8, 16, 32].contains n
  immNat (f : Form) : Nat := if f.len == .l64 then f.x6.toNat else f.ext.toNat

/-- The v and s register groups of an instruction's operands, with their sizes (R42). -/
def groupsOf (i : Instr) (f : Form) : List (Opnd × Nat) :=
  match rowOf i with
  | none => []
  | some r =>
    let size := fun (k : Nat) (x : Opnd) => if k = 0 then (if f.ty.width = 64 && isV x then 2 else 1) else k
    let one := fun (ks : List Kind) (k : Nat) (x : Opnd) => if ks = [] then [] else [(x, size k x)]
    match i with
    | .cvt _ => [(f.d, if isS f.d then 1 else cvtRegs (cvtCount f) (cvtDstWidth f)),
                 (f.a.op, if isS f.a.op then 1 else cvtRegs (cvtCount f) (cvtSrcWidth f))] ++
                (if cvtSub f = 3 ∨ cvtSub f = 4 then [(f.b.op, 1)] else [])
    | .cas _ => [(f.d, if isS f.d then 2 else if f.ty.width = 64 then 4 else 2), (f.a.op, 1), (f.b.op, 1)]
    | .msred _ => [(f.d, if f.fn == 3 then 3 else if f.ty.width = 64 then 2 else 1), (f.a.op, 1), (f.b.op, 1)]
    | .adrain _ => (if f.fn.toNat % 4 = 0 then [] else [(f.a.op, 8)]) ++ [(f.b.op, 4)]
    | .brx _ | .callx _ => [(f.a.op, if isV f.a.op then 2 else 1)]
    | .rnd _ => one r.d (if f.fn == 0 then 0 else 1) f.d ++ [(f.a.op, 1), (f.b.op, if isV f.b.op then 2 else 1)] ++
                (if f.len == .l96 && f.fn == 2 then [(f.c.op, 1)] else [])
    | .await _ => []
    | .sfw _ => if f.fn == 2 then [] else [(f.a.op, 1)]
    | .flag _ => (if f.fn == 1 then [] else [(f.d, 1)]) ++ (if f.fn == 0 then [] else [(f.a.op, 1)])
    | _ =>
      one r.d r.dk f.d ++ one r.a r.ak f.a.op ++ one r.b r.bk f.b.op ++
      (if f.len == .l96 then one r.c r.ck f.c.op else [])

/-- The sizes of the register groups that A, B and C name (R42, R43). -/
def srcSizes (i : Instr) (f : Form) : Nat × Nat × Nat :=
  match rowOf i with
  | none => (1, 1, 1)
  | some r =>
    let size := fun (k : Nat) (x : Opnd) => if k = 0 then (if f.ty.width = 64 && isV x then 2 else 1) else k
    match i with
    | .cvt _ => (if isS f.a.op then 1 else cvtRegs (cvtCount f) (cvtSrcWidth f), 1, 1)
    | .cas _ | .msred _ | .await _ | .sfw _ | .flag _ => (1, 1, 1)
    | .adrain _ => (8, 4, 1)
    | .brx _ | .callx _ => (if isV f.a.op then 2 else 1, 1, 1)
    | .rnd _ => (1, if isV f.b.op then 2 else 1, 1)
    | _ => (size r.ak f.a.op, size r.bk f.b.op, size r.ck f.c.op)

/-- A group's length rounded up to a power of two (R42). -/
def groupAlign (k : Nat) : Nat := if k ≤ 1 then 1 else if k = 2 then 2 else if k ≤ 4 then 4 else if k ≤ 8 then 8 else 16

/-- A register group starts on an aligned register (R42, R134); an s group lies within s0 to s63. -/
def groupOk (g : Opnd × Nat) : Bool :=
  match g.1 with
  | .v n => n.toNat % groupAlign g.2 == 0
  | .s n => n.toNat % groupAlign g.2 == 0
  | _ => true

/-- Every v register of the instruction lies within the launch's allocation (R42); this part of check 7 needs the
launch. -/
def allocOk (i : Instr) (f : Form) (vregs : Nat) : Bool :=
  (groupsOf i f).all fun g => match g.1 with
    | .v n => decide (n.toNat + g.2 ≤ vregs)
    | _ => true

/-- The encoded instruction's fields; `none` for an event. -/
def guardOk (f : Form) : Bool := !(f.g == 0 && f.gn)

/-- The extension is used by the entry itself, and not as an immediate (R113, R186). -/
def ownExt : Instr → Bool
  | .br _ | .call _ => true
  | _ => false

/-- All static checks of one encoded instruction. -/
def formLegal (i : Instr) (f : Form) : Bool :=
  match rowOf i with
  | none => false
  | some r =>
    r.lens.contains f.len && r.fns.contains f.fn.toNat && r.tys.contains f.ty &&
    dstOk r.d f.d && srcOk r.a r.arith f.a && srcOk r.b r.arith f.b &&
    (if r.c = [] then f.c == unused
     else if f.len == .l96 then
       srcOk r.c (r.arith && r.c != maskKinds) f.c || (r.opt && !r.c.contains .v && f.c == unused)
     else r.opt && f.c == unused) &&
    guardOk f && (r.scale || (f.ds == 0 && !f.dc)) && (f.len == .l96 || f.c == unused) &&
    (match f.len with | .l64 => f.ext == 0 | .l96 => decide (f.ext.toNat < 2 ^ 20) | .l128 => true) &&
    (ownExt i || immOk r f) && (!r.uni || uniformOk r f) && x6Ok r f && (!r.desc || descOk i f) && entryOk i f && (groupsOf i f).all groupOk

end Sys2Proof.Machine
end

