-- ==== Sys2Proof/WellFormed.lean ====
section
/-! DEFINITION. Well-formed instructions: an encoded instruction whose fields pass the static checks 4 to 8 of R36. Events carry no encoding and are well formed. -/

namespace Sys2Proof

open Machine

/-- The fields of an encoded instruction; none for an event. -/
def formOf : Instr → Option Form
  | .nop f => some f
  | .mov f => some f
  | .addInt f => some f
  | .subInt f => some f
  | .mulInt f => some f
  | .mulh f => some f
  | .mad f => some f
  | .madh f => some f
  | .divInt f => some f
  | .rem f => some f
  | .minInt f => some f
  | .maxInt f => some f
  | .sadd f => some f
  | .ssub f => some f
  | .and f => some f
  | .or f => some f
  | .xor f => some f
  | .not f => some f
  | .shl f => some f
  | .shr f => some f
  | .sar f => some f
  | .rol f => some f
  | .ror f => some f
  | .popc f => some f
  | .clz f => some f
  | .ctz f => some f
  | .brev f => some f
  | .bfx f => some f
  | .bfi f => some f
  | .sel f => some f
  | .lea f => some f
  | .bsel f => some f
  | .sext f => some f
  | .zext f => some f
  | .dot4 f => some f
  | .sad f => some f
  | .addFp f => some f
  | .mulFp f => some f
  | .subFp f => some f
  | .fma f => some f
  | .minFp f => some f
  | .maxFp f => some f
  | .divFp f => some f
  | .sqrt f => some f
  | .rcp f => some f
  | .frac f => some f
  | .rint f => some f
  | .floor f => some f
  | .ceil f => some f
  | .trunc f => some f
  | .ldexp f => some f
  | .classF f => some f
  | .padd f => some f
  | .psub f => some f
  | .pmul f => some f
  | .pfma f => some f
  | .pmin f => some f
  | .pmax f => some f
  | .pdot f => some f
  | .cmp f => some f
  | .mand f => some f
  | .mor f => some f
  | .mxor f => some f
  | .mnot f => some f
  | .mpopc f => some f
  | .mffs f => some f
  | .vote f => some f
  | .shfl f => some f
  | .bcast f => some f
  | .lred f => some f
  | .lscan f => some f
  | .supd f => some f
  | .smrg f => some f
  | .sred f => some f
  | .sfin f => some f
  | .cvt f => some f
  | .mxq f => some f
  | .mxdq f => some f
  | .rnd f => some f
  | .sfq f => some f
  | .sfw f => some f
  | .br f => some f
  | .call f => some f
  | .ret f => some f
  | .exit f => some f
  | .sleep f => some f
  | .yield f => some f
  | .jset f => some f
  | .join f => some f
  | .brx f => some f
  | .callx f => some f
  | .bind f => some f
  | .unbind f => some f
  | .ladd f => some f
  | .lsub f => some f
  | .lneg f => some f
  | .lshl f => some f
  | .lshr f => some f
  | .lcmp f => some f
  | .lmov f => some f
  | .lmac f => some f
  | .ld f => some f
  | .st f => some f
  | .gld f => some f
  | .sct f => some f
  | .atom f => some f
  | .red f => some f
  | .cas f => some f
  | .msred f => some f
  | .fence f => some f
  | .wcnt f => some f
  | .fset f => some f
  | .ftest f => some f
  | .barSync f => some f
  | .barArrive f => some f
  | .barWait f => some f
  | .blineInit f => some f
  | .blineClr f => some f
  | .tnow f => some f
  | .stst f => some f
  | .rdat f => some f
  | .mcst f => some f
  | .mcsq f => some f
  | .mcsqCas f => some f
  | .mldr f => some f
  | .waitv f => some f
  | .wake f => some f
  | .tdload f => some f
  | .tddrop f => some f
  | .copy f => some f
  | .copyMc f => some f
  | .copyGcm f => some f
  | .aready f => some f
  | .await f => some f
  | .azero f => some f
  | .aload f => some f
  | .adrain f => some f
  | .aread f => some f
  | .cstart f => some f
  | .carm f => some f
  | .cstat f => some f
  | .mmbf f => some f
  | .mmf8 f => some f
  | .mmi8 f => some f
  | .mmx8 f => some f
  | .mmx6 f => some f
  | .mmx4 f => some f
  | .mmcx f => some f
  | .mmf32 f => some f
  | .trap f => some f
  | .tret f => some f
  | .brk f => some f
  | .mark f => some f
  | .sysr f => some f
  | .sysw f => some f
  | .flag f => some f
  | _ => none

/-- The static checks of R36 hold. -/
def Instr.wellFormed (i : Instr) : Bool :=
  match formOf i with
  | some f => formLegal i f
  | none => true

end Sys2Proof
end

