-- ==== Sys2Proof/Decode.lean ====
section
/-! DEFINITION. The decoder of R34 to R53 and the encoder beside it, written from the strips of R37 to R39 and the maps of R49 and R50. -/

namespace Sys2Proof

open Machine

/-- Fields packed from bit 0 upward: widths and values. -/
def packFields : List (Nat × Nat) → Nat
  | [] => 0
  | (w, x) :: r => x % 2 ^ w + 2 ^ w * packFields r

/-- The fields of a number, from bit 0 upward. -/
def unpackFields : List Nat → Nat → List Nat
  | [], _ => []
  | w :: r, x => x % 2 ^ w :: unpackFields r (x / 2 ^ w)

/-- The widths of the fields of the head, from LEN to X6 (R37). -/
def headWidths : List Nat := [2, 1, 8, 4, 3, 1, 8, 1, 2, 8, 4, 8, 4, 4, 6]

def Special.code : Special → Nat
  | .lane => 0xE1 | .grp => 0xE2 | .team => 0xE3 | .clus => 0xE4 | .grid => 0xE5 | .core => 0xE6 | .die => 0xE7
  | .pkg => 0xE8 | .width => 0xE9 | .limbs => 0xEA | .cyc => 0xEB | .tlo => 0xEC | .thi => 0xED | .eps => 0xEE
  | .tstate => 0xEF | .tcode => 0xF0

def specials : List Special :=
  [.lane, .grp, .team, .clus, .grid, .core, .die, .pkg, .width, .limbs, .cyc, .tlo, .thi, .eps, .tstate, .tcode]

/-- The code of an operand (R41). -/
def Opnd.code : Opnd → Nat
  | .v n => n.toNat
  | .s n => 0x80 + n.toNat
  | .m n => 0xC0 + n.toNat
  | .j n => 0xC8 + n.toNat
  | .a n => 0xD0 + n.toNat
  | .zero => 0xE0
  | .special k => k.code
  | .imm => 0xFF

/-- The operand of a code; the codes 0xF1 to 0xFE are reserved (R41). -/
def opndOf (c : Nat) : Option Opnd :=
  if c < 0x80 then some (.v (BitVec.ofNat 7 c))
  else if c < 0xC0 then some (.s (BitVec.ofNat 6 (c - 0x80)))
  else if c < 0xC8 then some (.m (BitVec.ofNat 3 (c - 0xC0)))
  else if c < 0xD0 then some (.j (BitVec.ofNat 3 (c - 0xC8)))
  else if c < 0xE0 then some (.a (BitVec.ofNat 4 (c - 0xD0)))
  else if c = 0xE0 then some .zero
  else if c < 0xF1 then (specials[c - 0xE1]?).map .special
  else if c = 0xFF then some .imm
  else none

def Ty.code : Ty → Nat
  | .i32 => 0 | .n32 => 1 | .i64 => 2 | .n64 => 3 | .f32 => 4 | .bf16 => 5 | .f16 => 6 | .e4m3 => 7 | .e5m2 => 8
  | .e3m2 => 9 | .e2m3 => 10 | .e2m1 => 11 | .i8 => 12 | .n8 => 13 | .i16 => 14 | .b32 => 15

def tyOf (c : Nat) : Ty := tysAll.getD c .b32

def Len.code : Len → Nat | .l64 => 0 | .l96 => 1 | .l128 => 2
def Len.bytes : Len → Nat | .l64 => 8 | .l96 => 12 | .l128 => 16

/-- The length of a LEN code; 11 names none (R36, check 2). -/
def lenOf (c : Nat) : Option Len :=
  if c = 0 then some .l64 else if c = 1 then some .l96 else if c = 2 then some .l128 else none

def b2n (b : Bool) : Nat := if b then 1 else 0

/-- The four modifier bits, negate lowest (R23). -/
def Src.mods (x : Src) : Nat := b2n x.neg + 2 * b2n x.abs + 4 * b2n x.last + 8 * b2n x.keep

def srcOf (code mods : Nat) : Option Src :=
  (opndOf code).map fun o =>
    { op := o, neg := mods.testBit 0, abs := mods.testBit 1, last := mods.testBit 2, keep := mods.testBit 3 }

/-- The head of a form under a major opcode (R37). -/
def headNat (op : Nat) (f : Form) : Nat :=
  packFields [(2, f.len.code), (1, b2n f.e), (8, op), (4, f.fn.toNat), (3, f.g.toNat), (1, b2n f.gn), (8, f.d.code),
    (1, b2n f.dc), (2, f.ds.toNat), (8, f.a.op.code), (4, f.a.mods), (8, f.b.op.code), (4, f.b.mods), (4, f.ty.code),
    (6, f.x6.toNat)]

/-- The whole value of a form under a major opcode (R37 to R39). -/
def formNat (op : Nat) (f : Form) : Nat :=
  match f.len with
  | .l64 => headNat op f
  | .l96 => headNat op f + 2 ^ 64 * packFields [(8, f.c.op.code), (4, f.c.mods), (20, f.ext.toNat)]
  | .l128 => headNat op f + 2 ^ 64 * f.ext.toNat

/-- The fields of a head, with C and the extension of its length (R37 to R39). -/
def formOfFields (len : Len) (h : List Nat) (ext : Nat) : Option (Nat × Form) :=
  match h with
  | [_, e, op, fn, g, gn, d, dc, ds, a, am, b, bm, t, x6] =>
    let cx : Option (Src × DWord) := match len with
      | .l64 => some (unused, 0)
      | .l96 => match unpackFields [8, 4, 20] ext with
                | [c, cm, im] => (srcOf c cm).map (fun s => (s, BitVec.ofNat 64 im))
                | _ => none
      | .l128 => some (unused, BitVec.ofNat 64 ext)
    match opndOf d, srcOf a am, srcOf b bm, cx with
    | some d, some a, some b, some (c, im) =>
      some (op, { len := len, e := e = 1, fn := BitVec.ofNat 4 fn, g := BitVec.ofNat 3 g, gn := gn = 1, d := d, dc := dc = 1,
                  ds := BitVec.ofNat 2 ds, a := a, b := b, c := c, ty := tyOf t, x6 := BitVec.ofNat 6 x6, ext := im })
    | _, _, _, _ => none
  | _ => none

/-- The instruction of a major opcode, with FN selecting among the mnemonics of a shared opcode (R49, R50). -/
def instrOf (op : Nat) (f : Form) : Option Instr :=
  let fn := f.fn.toNat
  match op with
  | 0x0 => some (.nop f)
  | 0x1 => some (.mov f)
  | 0x2 => some (.addInt f)
  | 0x3 => some (.subInt f)
  | 0x4 => some (.mulInt f)
  | 0x5 => some (.mulh f)
  | 0x6 => some (.mad f)
  | 0x7 => some (.madh f)
  | 0x8 => some (.divInt f)
  | 0x9 => some (.rem f)
  | 0xa => some (.minInt f)
  | 0xb => some (.maxInt f)
  | 0xc => some (.sadd f)
  | 0xd => some (.ssub f)
  | 0xe => some (.and f)
  | 0xf => some (.or f)
  | 0x10 => some (.xor f)
  | 0x11 => some (.not f)
  | 0x12 => some (.shl f)
  | 0x13 => some (.shr f)
  | 0x14 => some (.sar f)
  | 0x15 => some (.rol f)
  | 0x16 => some (.ror f)
  | 0x17 => some (.popc f)
  | 0x18 => some (.clz f)
  | 0x19 => some (.ctz f)
  | 0x1a => some (.brev f)
  | 0x1b => some (.bfx f)
  | 0x1c => some (.bfi f)
  | 0x1d => some (.sel f)
  | 0x1e => some (.lea f)
  | 0x1f => some (.bsel f)
  | 0x20 => some (.sext f)
  | 0x21 => some (.zext f)
  | 0x22 => some (.dot4 f)
  | 0x23 => some (.sad f)
  | 0x40 => some (.addFp f)
  | 0x41 => some (.mulFp f)
  | 0x42 => some (.subFp f)
  | 0x43 => some (.fma f)
  | 0x44 => some (.minFp f)
  | 0x45 => some (.maxFp f)
  | 0x46 => some (.divFp f)
  | 0x47 => some (.sqrt f)
  | 0x48 => some (.rcp f)
  | 0x49 => some (.frac f)
  | 0x4a => some (.rint f)
  | 0x4b => some (.floor f)
  | 0x4c => some (.ceil f)
  | 0x4d => some (.trunc f)
  | 0x4e => some (.ldexp f)
  | 0x4f => some (.classF f)
  | 0x50 => some (.padd f)
  | 0x51 => some (.psub f)
  | 0x52 => some (.pmul f)
  | 0x53 => some (.pfma f)
  | 0x54 => some (.pmin f)
  | 0x55 => some (.pmax f)
  | 0x56 => some (.pdot f)
  | 0x80 => some (.cmp f)
  | 0x81 => some (.mand f)
  | 0x82 => some (.mor f)
  | 0x83 => some (.mxor f)
  | 0x84 => some (.mnot f)
  | 0x85 => some (.mpopc f)
  | 0x86 => some (.mffs f)
  | 0x87 => some (.vote f)
  | 0x88 => some (.shfl f)
  | 0x89 => some (.bcast f)
  | 0x8a => some (.lred f)
  | 0x8b => some (.lscan f)
  | 0x8c => some (.supd f)
  | 0x8d => some (.smrg f)
  | 0x8e => some (.sred f)
  | 0x8f => some (.sfin f)
  | 0x90 => some (.cvt f)
  | 0x91 => some (.mxq f)
  | 0x92 => some (.mxdq f)
  | 0x93 => some (.rnd f)
  | 0x94 => some (.sfq f)
  | 0x95 => some (.sfw f)
  | 0xa0 => some (.br f)
  | 0xa1 => some (.call f)
  | 0xa2 => some (.ret f)
  | 0xa3 => some (.exit f)
  | 0xa4 => some (.sleep f)
  | 0xa5 => some (.yield f)
  | 0xa6 => some (.jset f)
  | 0xa7 => some (.join f)
  | 0xa8 => some (.brx f)
  | 0xa9 => some (.callx f)
  | 0xb0 => some (.bind f)
  | 0xb1 => some (.unbind f)
  | 0xb2 => some (.ladd f)
  | 0xb3 => some (.lsub f)
  | 0xb4 => some (.lneg f)
  | 0xb5 => some (.lshl f)
  | 0xb6 => some (.lshr f)
  | 0xb7 => some (.lcmp f)
  | 0xb8 => some (.lmov f)
  | 0xb9 => some (.lmac f)
  | 0xc0 => some (.ld f)
  | 0xc1 => some (.st f)
  | 0xc2 => some (.gld f)
  | 0xc3 => some (.sct f)
  | 0xc4 => some (.atom f)
  | 0xc5 => some (.red f)
  | 0xc6 => some (.cas f)
  | 0xc7 => some (.msred f)
  | 0xc8 => some (.fence f)
  | 0xc9 => some (.wcnt f)
  | 0xca => some (.fset f)
  | 0xcb => some (.ftest f)
  | 0xcc => if fn = 0 then some (.barSync f) else if fn = 1 then some (.barArrive f) else if fn = 2 then some (.barWait f) else none
  | 0xcd => if fn = 0 then some (.blineInit f) else if fn = 1 then some (.blineClr f) else none
  | 0xce => some (.tnow f)
  | 0xcf => some (.stst f)
  | 0xd0 => some (.rdat f)
  | 0xd1 => some (.mcst f)
  | 0xd2 => if fn = 0 then some (.mcsq f) else if fn = 1 then some (.mcsqCas f) else none
  | 0xd3 => some (.mldr f)
  | 0xd4 => some (.waitv f)
  | 0xd5 => some (.wake f)
  | 0xe0 => if fn = 0 then some (.tdload f) else if fn = 1 then some (.tddrop f) else none
  | 0xe1 => if fn = 0 then some (.copy f) else if fn = 1 then some (.copyMc f) else if fn = 2 then some (.copyGcm f) else none
  | 0xe2 => some (.aready f)
  | 0xe3 => some (.await f)
  | 0xe4 => some (.azero f)
  | 0xe5 => some (.aload f)
  | 0xe6 => if fn < 8 then some (.adrain f) else if 8 ≤ fn then some (.aread f) else none
  | 0xe7 => if fn = 0 then some (.cstart f) else if fn = 1 then some (.carm f) else if fn = 2 then some (.cstat f) else none
  | 0xe8 => some (.mmbf f)
  | 0xe9 => some (.mmf8 f)
  | 0xea => some (.mmi8 f)
  | 0xeb => some (.mmx8 f)
  | 0xec => some (.mmx6 f)
  | 0xed => some (.mmx4 f)
  | 0xee => some (.mmcx f)
  | 0xef => some (.mmf32 f)
  | 0xf0 => some (.trap f)
  | 0xf1 => some (.tret f)
  | 0xf2 => some (.brk f)
  | 0xf3 => some (.mark f)
  | 0xf4 => some (.sysr f)
  | 0xf5 => some (.sysw f)
  | 0xf6 => some (.flag f)
  | _ => none

/-- Decode of an instruction's value, checks 2 and 4 to 8 of R36; checks 1 and 3 belong to fetch (R35). -/
def decodeNat (w : Nat) : Except BadWord Instr :=
  match lenOf (w % 4) with
  | none => .error .badLen
  | some len =>
    let ext := match len with
      | .l64 => 0
      | .l96 => w / 2 ^ 64 % 2 ^ 32
      | .l128 => w / 2 ^ 64 % 2 ^ 64
    match formOfFields len (unpackFields headWidths w) ext with
    | none => .error .illegal
    | some (op, f) =>
      match instrOf op f with
      | none => .error .illegal
      | some i => if i.wellFormed then .ok i else .error .illegal

/-- Decode of bytes, lowest address first (R34). -/
def decode (bs : List Byte) : Except BadWord Instr := decodeNat (ofBytes bs)

/-- The major opcode of an encoded instruction (R49). -/
def opcodeOf : Instr → Option Nat
  | .nop _ => some 0x0
  | .mov _ => some 0x1
  | .addInt _ => some 0x2
  | .subInt _ => some 0x3
  | .mulInt _ => some 0x4
  | .mulh _ => some 0x5
  | .mad _ => some 0x6
  | .madh _ => some 0x7
  | .divInt _ => some 0x8
  | .rem _ => some 0x9
  | .minInt _ => some 0xa
  | .maxInt _ => some 0xb
  | .sadd _ => some 0xc
  | .ssub _ => some 0xd
  | .and _ => some 0xe
  | .or _ => some 0xf
  | .xor _ => some 0x10
  | .not _ => some 0x11
  | .shl _ => some 0x12
  | .shr _ => some 0x13
  | .sar _ => some 0x14
  | .rol _ => some 0x15
  | .ror _ => some 0x16
  | .popc _ => some 0x17
  | .clz _ => some 0x18
  | .ctz _ => some 0x19
  | .brev _ => some 0x1a
  | .bfx _ => some 0x1b
  | .bfi _ => some 0x1c
  | .sel _ => some 0x1d
  | .lea _ => some 0x1e
  | .bsel _ => some 0x1f
  | .sext _ => some 0x20
  | .zext _ => some 0x21
  | .dot4 _ => some 0x22
  | .sad _ => some 0x23
  | .addFp _ => some 0x40
  | .mulFp _ => some 0x41
  | .subFp _ => some 0x42
  | .fma _ => some 0x43
  | .minFp _ => some 0x44
  | .maxFp _ => some 0x45
  | .divFp _ => some 0x46
  | .sqrt _ => some 0x47
  | .rcp _ => some 0x48
  | .frac _ => some 0x49
  | .rint _ => some 0x4a
  | .floor _ => some 0x4b
  | .ceil _ => some 0x4c
  | .trunc _ => some 0x4d
  | .ldexp _ => some 0x4e
  | .classF _ => some 0x4f
  | .padd _ => some 0x50
  | .psub _ => some 0x51
  | .pmul _ => some 0x52
  | .pfma _ => some 0x53
  | .pmin _ => some 0x54
  | .pmax _ => some 0x55
  | .pdot _ => some 0x56
  | .cmp _ => some 0x80
  | .mand _ => some 0x81
  | .mor _ => some 0x82
  | .mxor _ => some 0x83
  | .mnot _ => some 0x84
  | .mpopc _ => some 0x85
  | .mffs _ => some 0x86
  | .vote _ => some 0x87
  | .shfl _ => some 0x88
  | .bcast _ => some 0x89
  | .lred _ => some 0x8a
  | .lscan _ => some 0x8b
  | .supd _ => some 0x8c
  | .smrg _ => some 0x8d
  | .sred _ => some 0x8e
  | .sfin _ => some 0x8f
  | .cvt _ => some 0x90
  | .mxq _ => some 0x91
  | .mxdq _ => some 0x92
  | .rnd _ => some 0x93
  | .sfq _ => some 0x94
  | .sfw _ => some 0x95
  | .br _ => some 0xa0
  | .call _ => some 0xa1
  | .ret _ => some 0xa2
  | .exit _ => some 0xa3
  | .sleep _ => some 0xa4
  | .yield _ => some 0xa5
  | .jset _ => some 0xa6
  | .join _ => some 0xa7
  | .brx _ => some 0xa8
  | .callx _ => some 0xa9
  | .bind _ => some 0xb0
  | .unbind _ => some 0xb1
  | .ladd _ => some 0xb2
  | .lsub _ => some 0xb3
  | .lneg _ => some 0xb4
  | .lshl _ => some 0xb5
  | .lshr _ => some 0xb6
  | .lcmp _ => some 0xb7
  | .lmov _ => some 0xb8
  | .lmac _ => some 0xb9
  | .ld _ => some 0xc0
  | .st _ => some 0xc1
  | .gld _ => some 0xc2
  | .sct _ => some 0xc3
  | .atom _ => some 0xc4
  | .red _ => some 0xc5
  | .cas _ => some 0xc6
  | .msred _ => some 0xc7
  | .fence _ => some 0xc8
  | .wcnt _ => some 0xc9
  | .fset _ => some 0xca
  | .ftest _ => some 0xcb
  | .barSync _ => some 0xcc
  | .barArrive _ => some 0xcc
  | .barWait _ => some 0xcc
  | .blineInit _ => some 0xcd
  | .blineClr _ => some 0xcd
  | .tnow _ => some 0xce
  | .stst _ => some 0xcf
  | .rdat _ => some 0xd0
  | .mcst _ => some 0xd1
  | .mcsq _ => some 0xd2
  | .mcsqCas _ => some 0xd2
  | .mldr _ => some 0xd3
  | .waitv _ => some 0xd4
  | .wake _ => some 0xd5
  | .tdload _ => some 0xe0
  | .tddrop _ => some 0xe0
  | .copy _ => some 0xe1
  | .copyMc _ => some 0xe1
  | .copyGcm _ => some 0xe1
  | .aready _ => some 0xe2
  | .await _ => some 0xe3
  | .azero _ => some 0xe4
  | .aload _ => some 0xe5
  | .adrain _ => some 0xe6
  | .aread _ => some 0xe6
  | .cstart _ => some 0xe7
  | .carm _ => some 0xe7
  | .cstat _ => some 0xe7
  | .mmbf _ => some 0xe8
  | .mmf8 _ => some 0xe9
  | .mmi8 _ => some 0xea
  | .mmx8 _ => some 0xeb
  | .mmx6 _ => some 0xec
  | .mmx4 _ => some 0xed
  | .mmcx _ => some 0xee
  | .mmf32 _ => some 0xef
  | .trap _ => some 0xf0
  | .tret _ => some 0xf1
  | .brk _ => some 0xf2
  | .mark _ => some 0xf3
  | .sysr _ => some 0xf4
  | .sysw _ => some 0xf5
  | .flag _ => some 0xf6
  | _ => none

/-- The value of an encoded instruction; an event has none. -/
def encodeNat (i : Instr) : Option Nat :=
  match opcodeOf i, formOf i with
  | some op, some f => some (formNat op f)
  | _, _ => none

/-- The bytes of an encoded instruction, lowest address first (R34). -/
def encode (i : Instr) : Option (List Byte) :=
  match opcodeOf i, formOf i with
  | some op, some f => some (bytesOf f.len.bytes (formNat op f))
  | _, _ => none

/-- The instruction the decoder reads from the bits of an opcode-table row. -/
def decodeTableWord (nbits w : Nat) : Option Instr :=
  match decode (bytesOf 16 (w % 2 ^ nbits)) with
  | .ok i => some i
  | .error _ => none

end Sys2Proof
end

