-- ==== Sys2Proof/Machine/Map.lean ====
section
/-! DEFINITION. Sparse maps as plain data: a list of key and value pairs with rising keys that lists no default value. Registers, memory and every table of the state are kept in this form. -/

namespace Sys2Proof.Machine

/-- The value listed for a key, or the default. -/
def mapGet {α : Type} (d : α) : List (Nat × α) → Nat → α
  | [], _ => d
  | (k, x) :: m, i => if i = k then x else mapGet d m i

/-- The map without a key. -/
def mapErase {α : Type} : List (Nat × α) → Nat → List (Nat × α)
  | [], _ => []
  | (k, x) :: m, i => if i = k then mapErase m i else (k, x) :: mapErase m i

/-- The map with a key listed at its place. -/
def mapInsert {α : Type} : List (Nat × α) → Nat → α → List (Nat × α)
  | [], i, y => [(i, y)]
  | (k, x) :: m, i, y =>
    if i < k then (i, y) :: (k, x) :: m
    else if i = k then (i, y) :: m
    else (k, x) :: mapInsert m i y

/-- The map with a key's value replaced; the default is never listed. -/
def mapSet {α : Type} [DecidableEq α] (d : α) (m : List (Nat × α)) (i : Nat) (y : α) : List (Nat × α) :=
  if y = d then mapErase m i else mapInsert m i y

/-- The canonical form: keys strictly rise from above `lo`, and no default is listed. -/
def mapWfFrom {α : Type} [DecidableEq α] (d : α) : Option Nat → List (Nat × α) → Bool
  | _, [] => true
  | lo, (k, x) :: m => (match lo with | none => true | some l => decide (l < k)) && decide (x ≠ d) && mapWfFrom d (some k) m

def mapWf {α : Type} [DecidableEq α] (d : α) (m : List (Nat × α)) : Bool := mapWfFrom d none m

/-- The keys that hold a value other than the default, in rising order. -/
def mapKeys {α : Type} (m : List (Nat × α)) : List Nat := m.map (·.1)

/-- Replace a listed or default value by a function of it. -/
def mapUpd {α : Type} [DecidableEq α] (d : α) (m : List (Nat × α)) (i : Nat) (f : α → α) : List (Nat × α) :=
  mapSet d m i (f (mapGet d m i))

end Sys2Proof.Machine
end

