-- ==== Sys2Proof/Machine/State.lean ====
section
/-! DEFINITION. The state of one module, as plain data: every piece of state the spec gives it, and after it the state at reset. -/

namespace Sys2Proof.Machine

-- PLACES AND PATHS
/-- Where a byte lives (R228, R229 fact 4): a vault byte of a team's window, a byte of device memory (R365), a byte of a
stamped line (R155), a byte of the bf16 view of alias region k of function f, numbered 16 f + k (R280), or a byte of a
function's basic page (R276, TGT = 11). -/
inductive Place where
  | vault (team off : Nat)
  | mem (addr : Nat)
  | stamped (addr : Nat)
  | view (region off : Nat)
  | page (fn off : Nat)
  deriving DecidableEq, Repr

/-- The five store paths of a group (R229 fact 1). -/
inductive Path where
  | ls | cw | g | fabric | stamped
  deriving DecidableEq, Repr

/-- A register destination of a result that arrives later: `wide` is a pair or a whole s register. -/
structure Dst where
  isS  : Bool
  reg  : Nat
  lane : Nat
  ty   : Ty
  deriving DecidableEq, Repr

-- LANES AND GROUPS
/-- The condition of a lane (R109), with ended lanes (R117) and lanes suspended on fault records (R277). -/
inductive Cond where
  | voting
  | join (j : Nat)
  | barrier (cw : Bool) (team off : Nat) (phase : Word) (until_ : Nat)  -- %cyc of BARRIER_TIMEOUT
  | asleep (until_ : Nat)
  | waitv (key : Nat) (until_ : Nat)
  | suspended (fids : List Nat)
  | ended
  deriving DecidableEq, Repr

structure Lane where
  pc       : DWord
  stack    : List DWord      -- call stack, top first (R109)
  standing : Nat             -- 0: not demoted; otherwise the place in the order of demotions
  cond     : Cond
  flags    : Word            -- sticky flag word (R62)
  deriving DecidableEq, Repr

/-- A lane of no group. -/
def Lane.none : Lane := { pc := 0, stack := [], standing := 0, cond := .ended, flags := 0 }

/-- A special-function token (R106, R107): acting lanes, destination, and the results once they have arrived. -/
structure Token where
  num     : Nat
  fn      : Nat
  dst     : Opnd
  lanes   : Mask
  args    : List (Nat × Word)
  arrived : Bool
  deriving DecidableEq, Repr

/-- A load that is issued and not yet bound (R228): one lane's element. -/
structure Load where
  seq   : Nat
  path  : Path
  places : List Place        -- its bytes, in the order of their addresses before the swizzle
  bit   : Nat                -- bit of the first byte, for sub-byte elements (R137)
  bits  : Nat                -- element width
  dst   : Dst
  acq   : Nat                -- scope code of .acq (R140)
  pc    : DWord              -- address of its instruction, which a trace record names (R346)
  got   : List (Place × Byte) := []  -- bytes read at the home while others, or an earlier .acq, are still to come
  deriving DecidableEq, Repr

/-- One byte written with its enabled bits (R78). -/
structure ByteWrite where
  place : Place
  val   : Byte
  en    : Byte
  deriving DecidableEq, Repr

/-- The read-modify-write operations of R144 to R146. -/
inductive RmwOp where
  | add | min | max | and | or | xor | exch | cas | stat
  deriving DecidableEq, Repr

/-- What an entry of a store FIFO does when it is applied at its home. -/
inductive StoreOp where
  | write (bytes : List ByteWrite)
  | rmw (op : RmwOp) (ty : Ty) (bytes : List Place) (operand cmp : Nat) (dst : Option Dst) (lanes : Mask)
  | fset (full : Bool) (team line : Nat)
  | bline (init : Bool) (team line : Nat) (count : Word)
  | mark (copy : Nat) (team line : Nat)
  | fabric (id : Nat) (letter : Letter)
  deriving DecidableEq, Repr

/-- An entry of a group's store FIFOs, in issue order (R229 fact 1). -/
structure Store where
  seq  : Nat
  path : Path
  rel  : Nat                 -- scope code of .rel (R140)
  acq  : Nat
  va   : Nat                 -- virtual address, for records of a deterministic launch (R268)
  kind : Nat                 -- KIND of R268
  opc  : Nat
  ty   : Ty
  rval : DWord               -- reservation value it returned (R267)
  fwd  : Bool                -- a load of the group has bound to it (R229 fact 3)
  pc   : DWord               -- address of its instruction
  op   : StoreOp
  deriving DecidableEq, Repr

/-- An update sent to a MSAU (R146), outside the FIFO order. -/
structure Msred where
  seq  : Nat
  op   : RmwOp
  mode : Mode
  ty   : Ty
  va   : Nat
  places : List Place
  operand : Nat
  opc  : Nat
  pc   : DWord
  deriving DecidableEq, Repr

/-- An rdat that waits for earliest > t + D (R157). -/
structure RdatWait where
  lanes : Mask
  path  : Mask               -- the issuing path
  pc    : DWord
  t     : DWord
  line  : DWord              -- address of the line, as the instruction named it
  home  : Option Nat         -- device address of the line, none for another module's window
  offs  : List (Nat × List Nat)  -- lane and the offsets of its bytes in the line
  dst   : Opnd
  ty    : Ty
  sreg  : Nat                -- sk of the quad
  sent  : Bool               -- the request has gone to another module
  failed : Bool              -- the timebase has entered FAILED during the wait
  seq    : Nat               -- its place in issue order
  deriving DecidableEq, Repr

/-- A trap of class Next that waits for the group's next issue (R332). -/
structure NextTrap where
  code : Nat
  arg  : DWord
  at_  : Option DWord                -- address the trace record names, where it is not that of the trap (R346)
  deriving DecidableEq, Repr

/-- Why a group's paths[0] instruction waits (R204). -/
inductive Why where
  | none
  | result
  | empty (cw : Bool) (lines : List (Nat × Nat))  -- empty lines, named in cw or in ls
  | count
  | drain
  | token
  | matrix
  | clock
  | walk
  | script
  | staging
  | slot
  deriving DecidableEq, Repr

structure Group where
  team    : Nat                      -- key of its team
  grp     : Nat                      -- %grp (R18)
  slot    : Nat                      -- group slot of its core (R198)
  present : Bool                     -- placed and not ended
  lanes   : List (Nat × Lane)        -- R109
  v       : List (Nat × Word)        -- register r of lane L at 32 r + L (R31, R42)
  s       : List (Nat × DWord)
  m       : List (Nat × Mask)        -- m1 to m7; m0 reads the live lanes (R31, R41)
  j       : List (Nat × Mask)
  binding : Nat                      -- %limbs (R125)
  places  : Nat                      -- demotions so far (R112)
  frame   : Bool                     -- the trap frame is active (R188)
  tcode   : Nat
  tresume : DWord
  tmask   : Mask
  targ    : DWord
  tlane   : Nat
  rcnt    : Nat                      -- rounding counter (R61)
  sfcnt   : Nat                      -- token counter (R106)
  tokens  : List Token
  tlo     : DWord                    -- R320
  thi     : DWord
  run     : Nat                      -- instructions issued in the current run (R48)
  seq     : Nat                      -- issue order of memory accesses (R111)
  loads   : List Load
  stores  : List Store
  msreds  : List Msred
  casRecs : List (Nat × Nat × Mask)  -- cas in flight: sequence number, place of its demotions, demoted lanes (R112)
  await   : List (Nat × Nat)         -- tiles and issue counts that an await waits for (R180)
  rdat    : Option RdatWait
  hold    : Option DWord             -- stamp s of the commit wait (R156)
  nexts   : List NextTrap
  acks    : List (Nat × Nat)         -- A_g[a] (R174)
  used    : Nat                      -- reservations used (R267)
  stall   : Option Nat               -- %cyc beyond which a full/empty stall traps (R139, R211)
  held    : Option Nat               -- the same for an issued access that has found its line empty
  why     : Why
  ready   : Nat                      -- %cyc since which it has been ready (R203)
  deriving DecidableEq, Repr

/-- A group slot that holds no group, and the registers of R31: every v, s, m and j register reads zero, the binding is 1. -/
def Group.none : Group :=
  { team := 0, grp := 0, slot := 0, present := false, lanes := [], v := [], s := [], m := [], j := [], binding := 1,
    places := 0, frame := false, tcode := 0, tresume := 0, tmask := 0, targ := 0, tlane := 0, rcnt := 0, sfcnt := 0,
    tokens := [], tlo := 0, thi := 0, run := 0, seq := 0, loads := [], stores := [], msreds := [], casRecs := [], await := [],
    rdat := Option.none, hold := Option.none, nexts := [], acks := [], used := 0, stall := Option.none,
    held := Option.none, why := .none, ready := 0 }

-- TEAMS, CLUSTERS, LAUNCHES
/-- A barrier line at its home (R151, R207 to R209): the words, and who has arrived in the phase. -/
structure BarLine where
  expected : Word
  arrivals : Word
  phase    : Word
  arrived  : List Nat                -- groups (team barrier) or teams (cluster barrier) arrived in the phase
  deriving DecidableEq, Repr

/-- The bay barrier hardware's record of a line in one team (R207, R208): arrival masks by group. -/
structure BarRec where
  cw    : Bool
  team  : Nat                        -- team whose window holds the line
  off   : Nat
  phase : Word
  masks : List (Nat × Mask)
  arrived : List Nat                 -- groups that have arrived at a cluster line, ended since or not (R208)
  sent  : Bool                       -- the team's arrival message has been sent
  deriving DecidableEq, Repr

/-- A 64-byte tensor slot record (R165). -/
structure SlotRec where
  fmt     : Nat
  mx      : Bool
  tr      : Bool
  cplx    : Bool
  rstride : Nat
  sbase   : Int
  sstride : Nat
  deriving DecidableEq, Repr

/-- An operand of a matrix operation, aload or bias: where byte `o` from its address lies is fixed at issue. -/
structure TileOp where
  isCw : Bool
  base : Nat
  sw   : Nat
  slot : SlotRec
  deriving DecidableEq, Repr

/-- A drain (R182, R183): whether it reads POISON, the destination rows byte by byte, and what its quad and registers held at
issue. -/
structure Drain where
  fn       : Nat
  x6       : Nat
  ty       : Ty
  poisoned : Bool
  space    : Nat
  rows     : List (List Place)
  addrs    : List Nat                -- address of each row
  eps      : Word
  scl      : Int
  bias     : List Place
  tregs    : Nat                     -- number of the first triple register
  norm     : List Word               -- with .norm alone: three words for each row
  count    : Nat                     -- rounding counter
  deriving DecidableEq, Repr

/-- What an entry of the matrix queue does (R175 to R183). -/
inductive Entry where
  | mm (op : Nat) (ty : Ty) (ovw : Bool) (a b : TileOp)
  | azero
  | aload (ty : Ty) (isCw : Bool) (base sw stride : Nat)
  | adrain (d : Drain)
  deriving DecidableEq, Repr

/-- An entry: its issuing group and place in issue order, its tile, and the issue count it raised the tile to (0 for a
drain). -/
structure QEntry where
  grp  : Nat
  seq  : Nat
  tile : Nat
  cnt  : Nat
  pc   : DWord
  what : Entry
  deriving DecidableEq, Repr

/-- A staged record of a deterministic launch (R264, R268). -/
structure Record where
  grp   : Nat
  seq   : Nat                        -- place of its instruction in issue order
  pc    : DWord
  kind  : Nat
  opc   : Nat
  ty    : Ty
  va    : Nat
  rval  : DWord
  op    : StoreOp
  data  : List Byte
  enab  : DWord
  row   : Bool := false              -- a row of a copy or a drain, which its home applies by itself
  deriving DecidableEq, Repr

structure Team where
  launch  : Nat
  index   : Nat                      -- %team
  core    : Nat
  base    : Nat                      -- vault base of the window (R213)
  sbase   : Nat                      -- vault base of the staging region (R213)
  present : Bool                     -- placed; its window is allocated
  stopped : Bool                     -- issues nothing: stopped by R225, R337 or SSTOP, or saved (R262)
  dead    : Bool                     -- performs no further access (R225)
  win     : List (Nat × Byte)        -- window bytes; zero at placement (R215)
  bad     : List Nat                 -- words of the window found uncorrectable, which an image shows as zero (R354)
  empty   : List (Nat × Bool)        -- lines whose full/empty bit is empty (R221)
  blines  : List (Nat × Option BarLine)
  recs    : List BarRec
  tiles   : List (Nat × Word)        -- word (i, j) of tile a at 4096 a + 64 i + j (R174)
  issued  : List (Nat × Nat)         -- I[a]
  queue   : List QEntry              -- the matrix queue (R175)
  staging : List Record              -- staged and not yet released (R264)
  kept    : List Record              -- released and discarded in the second run of checking mode, which the team still reads (R270)
  logs    : List (Nat × List Byte)   -- bytes of released records, by group (R268)
  released : Nat                     -- released records not needed elsewhere: count of them
  deriving DecidableEq, Repr

def Team.none : Team :=
  { launch := 0, index := 0, core := 0, base := 0, sbase := 0, present := false, stopped := false, dead := false, win := [], bad := [], empty := [], blines := [],
    recs := [], tiles := [], issued := [], queue := [], staging := [], kept := [], logs := [], released := 0 }

/-- The phase of a cluster: not placed, running, draining for pre-emption, on the resume list, ended. -/
inductive Stage where
  | idle | running | leaving | saved | ended
  deriving DecidableEq, Repr

structure Cluster where
  launch : Nat
  index  : Nat
  stage  : Stage
  cores  : List Nat                  -- cores of the ranks
  since  : Nat                       -- order of joining the resume list
  halted  : Option (Nat × Nat)        -- fault identifier and team of a debug stop (R278)
  staged : Bool                      -- pre-empted under R266: resumes when the token reaches it
  deriving DecidableEq, Repr

def Cluster.none : Cluster := { launch := 0, index := 0, stage := .idle, cores := [], since := 0, halted := Option.none, staged := false }

/-- The fields of a launch record (R252). -/
structure LaunchRec where
  flags  : Nat
  groups : Nat
  cw     : Nat
  ch     : Nat
  vregs  : Nat
  argc   : Nat
  wdog   : Nat
  teams  : Nat
  lsz    : Nat
  image  : Nat
  ilen   : Nat
  hoff   : Nat
  args   : Nat
  rkey   : DWord
  resv   : DWord
  done   : Nat
  deriving DecidableEq, Repr

def LaunchRec.none : LaunchRec :=
  { flags := 0, groups := 0, cw := 1, ch := 1, vregs := 0, argc := 0, wdog := 0, teams := 0, lsz := 0, image := 0,
    ilen := 0, hoff := 0xFFFFFFFF, args := 0, rkey := 0, resv := 0, done := 0 }

structure Launch where
  fn       : Nat
  ctx      : Nat
  pri      : Nat
  queue    : Nat                     -- queue of the record; 8 for a fragment of a script
  order    : Nat                     -- order of beginning
  active   : Bool                    -- accepted and not completed
  r        : LaunchRec
  argv     : List (Nat × DWord)      -- s register and argument (R253)
  counts   : List Nat                -- reservation counts of the teams (R267)
  one      : Option Nat              -- the count of every team, where RESV gives one
  ranges   : List (Nat × Nat × Nat)  -- die, lowest and one past the highest remaining index (R259)
  token    : Nat                     -- team that holds the release token (R265)
  relaunch : Nat                     -- cluster relaunches (RELN)
  fatal    : Option Nat              -- first fatal trap code
  images   : Nat                     -- images requested
  pending  : Nat                     -- images not yet reported done
  extra    : Nat                     -- further fatal traps
  usesTile : Bool                    -- tile-using kernel (R197)
  second   : Bool                    -- the second run of checking mode (R269)
  digests  : List (Nat × List Byte)  -- team digests of the first run
  rvals    : List (Nat × List DWord) -- reserved values of the first run, by group key
  differ   : Option Nat              -- the lowest team whose digests of the two runs differ, once it has ended (R269)
  script   : Option (Nat × Nat)      -- script and step that wait for this fragment launch
  deriving DecidableEq, Repr

def Launch.none : Launch :=
  { fn := 0, ctx := 0, pri := 0, queue := 0, order := 0, active := false, r := LaunchRec.none, argv := [], counts := [],
    one := Option.none, ranges := [], token := 0, relaunch := 0, fatal := Option.none, images := 0, pending := 0, extra := 0, usesTile := false,
    second := false, digests := [], rvals := [], differ := Option.none, script := Option.none }

-- CORES AND BAYS
/-- The engines of R51. -/
inductive Engine where
  | none | vector | special | loadStore | fabric | copy | matrix | collective
  deriving DecidableEq, Repr

/-- A holder of an issue slot (R202): its group, the cycle its run begins, what its ports did this cycle, the path of port 1 in
this cycle's vote (R110), its group and the last access as they were before the cycle (R83, R111), and whether its run ends with
the cycle (R48, R204). -/
structure Holder where
  grp    : Nat
  began  : Nat
  tried0 : Bool
  done0  : Bool
  tried1 : Bool
  second : Mask                      -- 0: no second path
  pc1    : DWord
  old    : Group
  seq0   : Nat
  ends   : Bool
  deriving DecidableEq, Repr

/-- A translation (R276). -/
structure Tr where
  addr  : Nat                        -- device address of the page
  bf    : Bool                       -- ALIAS: a BF16 view page
  stmp  : Bool
  x     : Bool
  w     : Bool
  basic : Bool                       -- TGT = 11: the function's basic page
  deriving DecidableEq, Repr

structure TlbEntry where
  ctx  : Nat
  page : Nat
  tr   : Tr
  deriving DecidableEq, Repr

structure Core where
  holders : List (Nat × Option Holder)  -- issue slots 0 and 1
  used    : List Engine                 -- engines that accepted an instruction this cycle
  count   : Nat                         -- instructions issued this cycle
  last    : List (Nat × Nat)            -- %cyc at which an engine last accepted one, by number of the engine
  ring    : List (Nat × Nat)            -- trace records not yet drained: header and payload (R345)
  head    : Nat                         -- records ever written to the ring
  lost    : Nat                         -- records dropped since the last record that says so (R346)
  sampled : Nat                         -- memory instructions issued (R346)
  held    : Bool                        -- held stopped under SSTOP (R348)
  ctx     : Nat                         -- context whose records the ring holds
  tlb     : List TlbEntry               -- the core's translation buffer (R277)
  all     : List (Nat × Nat)            -- the ring: the last 512 records
  vault   : List (Nat × Byte)           -- bytes of the vault that no team's window holds
  deriving DecidableEq, Repr

def Core.none : Core :=
  { holders := [], used := [], count := 0, last := [], ring := [], head := 0, lost := 0, sampled := 0, held := false,
    ctx := 0, tlb := [], all := [], vault := [] }

/-- The RV64IMAC core of a bay steward (R11, R348): the registers of RISC-V's machine mode (log entry 71). -/
structure Hart where
  x    : List (Nat × DWord)          -- x1 to x31
  pc   : DWord
  csr  : List (Nat × DWord)          -- machine-mode CSRs by number
  resv : Option Nat                  -- address of a load reservation
  deriving DecidableEq, Repr

def Hart.none : Hart := { x := [], pc := 0, csr := [], resv := Option.none }

/-- A bay: its clock region (R311, R312), its translation buffer (R277), its steward (R348). -/
structure Bay where
  cyc     : Nat                      -- %cyc
  freq    : Nat                      -- FREQ code of the region
  stretch : List Nat                 -- %cyc of the stretched cycles of the last 64
  tlb     : List TlbEntry
  sram    : List (Nat × Byte)        -- the steward's 256 KiB
  inbox   : Option (List Byte)       -- inbound mailbox message
  outbox  : List Byte                -- outbound slot
  ready   : Bool                     -- an outbound message is ready (SMBX)
  seq     : Nat                      -- messages the bench has sent it
  sent    : Nat                      -- messages it has sent the bench
  queued  : List (List Byte)         -- its messages that wait for the outbound slot
  job     : Option ImageReq          -- the image asked for
  done    : Option (Bool × List Byte) -- whether it was written to the ring, and its envelope
  ces     : List Nat                 -- est of the corrected vault words that count towards VAULTCE (R347)
  hart    : Hart
  deriving DecidableEq, Repr

def Bay.none : Bay :=
  { cyc := 0, freq := 0, stretch := [], tlb := [], sram := [], inbox := Option.none, outbox := [], ready := false,
    seq := 0, sent := 0, queued := [], job := Option.none, done := Option.none, ces := [], hart := Hart.none }

-- COPIES AND WALKS
/-- A unit of a copy (R170): a vault line or a 64-byte granule of one row, with its words and where each comes from. -/
structure Unit_ where
  team  : Option Nat                 -- team whose vault line it is
  line  : Nat
  words : List (Place × Place × Option Byte)  -- byte of the destination, byte of the source, and its value once it is read
  held  : List (Nat × Byte)          -- bytes of the line when it was marked empty
  row   : Nat
  deriving DecidableEq, Repr

/-- The message of a copy.gcm (R173): context, stream, counter, and the bytes of its source with the tag and of its
destination with the status record. -/
structure Gcm where
  ctx    : Nat
  stream : Nat
  ctr    : DWord
  src    : List Place
  dst    : List Place
  text   : Option (List Byte)        -- the bytes of its source, once they are read
  deriving DecidableEq, Repr

structure Copy where
  id    : Nat
  path  : Path                       -- path of its source
  grp   : Nat
  seq   : Nat
  pc    : DWord
  units : List Unit_
  gcm   : Option Gcm
  deriving DecidableEq, Repr

/-- A page walk in flight (R277). -/
structure Walk where
  ctx    : Nat
  page   : Nat
  kind   : Nat                       -- kind of the fault record (R278)
  joined : List (Nat × Mask)         -- groups and lanes that wait for it
  held   : Option Nat                -- level of a fault that waits for space in the ring
  deriving DecidableEq, Repr

-- CONTEXTS AND FUNCTIONS
/-- A decryption stream (R173, R285). -/
structure Stream where
  num  : Nat
  key  : List Byte
  salt : List Byte
  high : Nat
  win  : Nat                         -- bit i: counter high − i accepted
  deriving DecidableEq, Repr

/-- What the sequencer keeps of a script that has ended: its final status word, the group that started it, its counters
(R187, R299). -/
structure Final where
  handle : Nat
  word   : DWord
  grp    : Nat
  arms   : List (Nat × Nat)
  deriving DecidableEq, Repr

structure Ctx where
  enabled : Bool
  root    : Nat
  fqb     : Nat
  fqs     : Nat
  written : Nat                      -- fault records written
  open_   : List (Nat × Nat)         -- fault identifiers not yet resumed, each with the place of its record in the ring
  slots   : List (Nat × Option SlotRec)
  streams : List Stream
  rwbase  : DWord
  rwlen   : DWord
  finals  : List Final               -- ended scripts, newest first (R187)
  handles : Nat                      -- handles given
  deriving DecidableEq, Repr

def Ctx.none : Ctx :=
  { enabled := false, root := 0, fqb := 0, fqs := 0, written := 0, open_ := [], slots := [], streams := [],
    rwbase := 0, rwlen := 0, finals := [], handles := 0 }

structure Queue where
  base : DWord
  en   : Bool
  pri  : Nat
  size : Nat                         -- SIZE; 4 at reset
  head : Nat
  tail : Nat
  last : Nat                         -- launch of the record begun last (R258)
  deriving DecidableEq, Repr

def Queue.none : Queue := { base := 0, en := false, pri := 0, size := 4, head := 0, tail := 0, last := 0 }

/-- An alias region (R280). -/
structure Region where
  vbase : DWord
  len   : DWord
  elems : DWord
  scale : DWord
  deriving DecidableEq, Repr

def Region.none : Region := { vbase := 0, len := 0, elems := 0, scale := 0 }

/-- The states of a TDI (R284). -/
inductive Tdi where
  | unlocked | locked | run | error
  deriving DecidableEq, Repr

/-- An SPDM session of a function (R359). -/
inductive Spdm where
  | none | versioned | capable | negotiated | keyed | secure
  deriving DecidableEq, Repr

-- MEMBERSHIPS
/-- A membership of a multicast group (R290, R291). -/
structure Member where
  fn    : Nat
  ctx   : Nat
  size  : Nat
  rank  : Nat
  wbase : Nat
  wlen  : Nat
  acnt  : Nat
  list  : List Nat
  rlim  : Nat
  root  : Nat
  count : Nat
  stale : Bool
  live  : List Nat                   -- ranks that are members and not stale, as the crier last told it (log entry 67)
  deriving DecidableEq, Repr

/-- An invalidation in progress (R279): its context and page, and for each group of the context the last access it had
issued. -/
structure Inval where
  ctx  : Nat
  page : Option Nat
  seqs : List (Nat × Nat)
  deriving DecidableEq, Repr

/-- A function's registers (R272, R273, R256, R342, R345, R290) and the state behind them. -/
structure Fn where
  ctxt    : DWord
  ctxen   : BitVec 16
  enWant  : BitVec 16                -- EN as written, until the change takes effect
  qctx    : Word
  wakea   : DWord
  waken   : Word
  invst   : Word
  slotrec : DWord
  slotst  : Word
  queues  : List (Nat × Queue)
  part    : Nat
  tslice  : Nat
  dbg     : Bool
  regions : List (Nat × Region)
  mcgd    : DWord
  mcgst   : Nat
  joining : List (Nat × Member)      -- groups and memberships of the joins that wait for the crier
  mcgLast : Nat                      -- group of the last MCGCMD, whose end MCGST reports
  dumpb   : DWord
  dumpc   : DWord
  dumph   : Word
  trcb    : DWord
  trcl    : Word
  trch    : DWord
  late    : DWord                    -- LATE of the last TBNOW read (R318)
  dumpKey : Option (List Byte)
  images  : Nat                      -- the function's image counter (R343)
  tdi     : Tdi
  spdm    : Spdm
  spdmLog : List (List Byte)         -- responses given on the DOE mailbox, newest first
  invals  : List Inval
  turn    : Nat                      -- queue served last (R258)
  nextFid : Nat                      -- next fault identifier (R278)
  deriving DecidableEq, Repr

def Fn.none : Fn :=
  { ctxt := 0, ctxen := 0, enWant := 0, qctx := 0, wakea := 0, waken := 0, invst := 0, slotrec := 0, slotst := 0,
    queues := [], part := 0, tslice := 1000, dbg := false, regions := [], mcgd := 0, mcgst := 0, joining := [], mcgLast := 0, dumpb := 0, dumpc := 0,
    dumph := 0, trcb := 0, trcl := 0, trch := 0, late := 0, dumpKey := Option.none, images := 0, tdi := .unlocked,
    spdm := .none, spdmLog := [], invals := [], turn := 0, nextFid := 1 }

-- MULTICAST AND THE FABRIC
/-- The crier's record of a member of its group. -/
structure CrierMember where
  rank  : Nat
  pkg   : Nat
  stale : Bool
  acked : Nat                        -- last number it acknowledged
  deriving DecidableEq, Repr

/-- A sequenced store that a live member has not yet acknowledged: its number, est at its sending, its name at its sender. -/
structure Sent where
  num      : Nat
  at_      : Nat
  id       : Nat
  sender   : Nat
  answered : Bool                    -- the crier has answered for a stale sender (R307)
  deriving DecidableEq, Repr

/-- A resync in progress (R294): the rank that resynchronises and its module, the member that sends its copy, n0. -/
structure Hold where
  rank   : Nat
  pkg    : Nat
  source : Option Nat
  n0     : Nat
  deriving DecidableEq, Repr

/-- A crier (R290, R292, R294): the values of the first join, the last number given, the members. -/
structure Crier where
  size    : Nat
  list    : List Nat
  wlen    : Nat
  rlim    : Nat
  root    : Nat
  number  : Nat
  members : List CrierMember
  sent    : List Sent
  olds    : List (Nat × Nat × Nat)   -- number, rank and the old value met there, for numbers in `sent`
  hold    : Option Hold
  deriving DecidableEq, Repr

def Crier.none : Crier :=
  { size := 0, list := [], wlen := 0, rlim := 0, root := 0, number := 0, members := [], sent := [], olds := [], hold := Option.none }

/-- A fabric access of a group that waits for its reply (R159 to R161). -/
structure Pending where
  id     : Nat
  grp    : Nat
  seq    : Nat
  kind   : Nat                       -- 0 mcst, 1 mcsq, 2 mcsq.cas, 3 mldr, 4 stst
  group  : Nat                       -- multicast group; the stamp of a stst
  pc     : DWord
  va     : DWord
  sreg   : Nat
  dst    : List Dst
  ty     : Ty
  waits  : List Nat                  -- ranks that have not acknowledged
  replied : Bool                     -- the reply registers are written
  placed : Bool                      -- the crier has numbered it (R228)
  cancel : Bool                      -- its sender has asked the crier to drop it (R293)
  issued : Nat                       -- est at its sending
  deriving DecidableEq, Repr

/-- A request in the crier's switch (R296): the running fold. -/
structure Fold where
  id     : Nat
  sender : Nat
  group  : Nat
  op     : Nat
  ty     : Ty
  waits  : List Nat
  lanes  : Nat                       -- elements asked for
  answers : List (Nat × List Int)    -- the answers in hand, by rank
  since  : Nat
  deriving DecidableEq, Repr

-- SCRIPTS
/-- The kinds of script step (R297). -/
inductive StepKind where
  | end_ | send | recv | rrs | copy | wait | loop | comm
  deriving DecidableEq, Repr

structure SStep where
  slot : Nat                         -- index of its first slot
  kind : StepKind
  len  : Nat
  k    : Nat
  pm   : Nat
  tag  : Nat
  kl   : Bool
  am   : Nat
  addr : Nat
  k2   : Nat                         -- forwarding peer of an rrs
  pm2  : Nat
  kl2  : Bool
  tag2 : Nat
  addr2 : Nat                        -- fragment record or copy destination
  deriving DecidableEq, Repr

/-- The sending side of a step: the chunks not yet acknowledged. -/
structure Sending where
  peer  : Nat
  tag   : Nat
  addr  : Nat
  len   : Nat
  toStep : Nat                       -- step of the receiver that gave credit
  toName : Nat                       -- name of the receiving script
  next  : Nat                        -- chunks sent
  acked : Nat
  id    : Nat                        -- names its chunks and acknowledgements
  deriving DecidableEq, Repr

structure Script where
  handle : Nat
  fn     : Nat
  ctx    : Nat
  grp    : Nat                       -- group that issued the cstart
  core   : Nat                       -- its core and team at the time (R366)
  team   : Nat
  rank   : Nat
  size   : Nat
  group  : Nat                       -- multicast group of the comm step
  steps  : List SStep
  cur    : Nat                       -- position in `steps`
  ctrs   : List (Nat × Nat)          -- loop counters c0 to c3
  arms   : List (Nat × Nat)          -- launch counters by slot: not listed until armed, 0 when counted down
  fresh   : List Nat                 -- receiving steps whose counter stands for the next time they are reached (R298)
  sending : Option Sending
  frag   : Option Nat                -- fragment launch of an rrs; 0 once it has completed and the step forwards
  since  : Nat                       -- est of the last progress
  held   : List (Nat × Nat)          -- steps held by fault records, each with its record (R366); 0: the record waits for space
  ovr    : Bool
  absent : Bool
  closing : Option (Nat × List (Nat × Nat))  -- it has ended with a status: status words still to write, by slot (R299, R366)
  deriving DecidableEq, Repr

-- TIME
/-- An exchange in progress (R317): its port, t1, and whether it is a scheduled one with PAR0. -/
structure Asked where
  port  : Nat
  t1    : DWord
  first : Bool
  deriving DecidableEq, Repr

/-- The timebase (R315 to R318). -/
structure Timebase where
  est     : DWord
  epsx    : Nat
  tx      : DWord
  state   : Nat                      -- %tstate
  pod     : Bool
  ref     : Bool
  pxlog   : Nat
  par1    : Nat
  par0    : Nat
  drift   : Nat
  driftfb : Nat
  epsfail : Nat
  refeps  : Nat
  dlvb    : Nat
  epslim  : Nat
  tinLost : Bool
  edge    : Bool                     -- the frame's time-input edge has come
  conflict : Bool
  refLost : Bool
  reacq   : Bool                     -- a reacquire waits for its exchange
  newCfg  : Option DWord             -- TBCFG as written, until the next frame
  newLim  : Option DWord
  lastOk  : DWord                    -- est of the last successful exchange
  asked   : List Asked               -- exchanges in progress
  retry   : Bool                     -- an extra exchange with PAR1 is due
  deriving DecidableEq, Repr

/-- TBCFG and TBLIM at reset (R318); ALONE, because POD = 0. -/
def Timebase.atReset : Timebase :=
  { est := 0, epsx := 0, tx := 0, state := 0, pod := false, ref := false, pxlog := 6, par1 := 15, par0 := 15, drift := 64,
    driftfb := 4096, epsfail := 0x400000, refeps := 1, dlvb := 512, epslim := 32, tinLost := false, edge := false, conflict := false,
    refLost := false, reacq := false, newCfg := none, newLim := none, lastOk := 0, asked := [], retry := false }

/-- The clock registers (R313). -/
structure Clock where
  count   : DWord
  refused : Bool
  pend    : Bool
  next    : Nat
  cur     : Nat
  at_     : Nat                      -- COUNT of the armed change
  stopped : Bool                     -- the PLLs have no reference and no fallback (R314)
  made    : List Nat                 -- regions that have made the armed change
  forced  : List Nat                 -- regions that are still to change to code 4 (R314)
  deriving DecidableEq, Repr

def Clock.atReset : Clock := { count := 0, refused := false, pend := false, next := 0, cur := 0, at_ := 0, stopped := false, made := [], forced := [] }

-- PORTS, LINKS, ERRORS, POWER, FIRMWARE, CHECKPOINTS
/-- A flit in a replay buffer (R286, R287): its sequence number and TYPE, and the part of a transaction that is its payload. -/
structure FlitOut where
  seq   : Nat
  typ   : Nat
  part  : Option (Letter × Nat)
  last  : Bool                       -- it completes its transaction
  tries : Nat                        -- replays of it with no acknowledgement (R288)
  deriving DecidableEq, Repr

/-- A flit as a port puts it on its link (R286). -/
structure FlitSent where
  seq  : Nat
  typ  : Nat
  ack  : Nat
  nak  : Bool
  part : Option (Letter × Nat)
  deriving DecidableEq, Repr

structure Port where
  state   : Nat                      -- 0 down, 1 training, 2 up, 3 retraining
  peer    : Nat
  peerPkg : Nat
  cei     : Bool
  replays : Nat
  window  : Nat                      -- replays in the current window
  raised  : Bool                     -- the window has raised its corrected-error interrupt
  sent    : Nat                      -- flits sent in the current window
  nextSeq : Nat
  buffer  : List FlitOut
  lastIn  : Nat                      -- last sequence number accepted
  owed    : Option Bool              -- an acknowledgement, or a NAK, waits for room to leave
  wire    : List FlitSent            -- the flits that it has put on its link: an output
  since   : Nat                      -- est at which retraining began
  deriving DecidableEq, Repr

def Port.none : Port :=
  { state := 0, peer := 0, peerPkg := 0, cei := false, replays := 0, window := 0, raised := false, sent := 0, nextSeq := 0, buffer := [],
    lastIn := 4095, owed := Option.none, wire := [], since := 0 }

/-- The error registers (R347). -/
structure Err where
  st   : Nat
  msk  : Nat
  lb   : DWord
  lh   : DWord
  irqs : Nat                         -- error interrupts raised
  hbm  : List (Nat × Nat)            -- corrected HBM errors by stack (R340)
  deriving DecidableEq, Repr

/-- The injection registers (R350): %team, word offset, function and context of the target. -/
structure Inject where
  team : Nat
  off  : Nat
  arm  : Bool
  fn   : Nat
  ctx  : Nat
  deriving DecidableEq, Repr

/-- Firmware banks and registers (R358): the images of the banks; a bank that is not listed holds the one of its manufacture. -/
structure Firmware where
  base    : DWord
  st      : Nat
  active  : Nat
  banks   : List (Nat × List Byte)
  fuse    : Nat
  boots   : Nat                      -- boots in a row of the active bank that have not reached step 6
  deriving DecidableEq, Repr

/-- A complete checkpoint of this module in a slot of its buddy: the saved teams (R360). -/
structure Snap where
  groups   : List (Nat × Group)
  teams    : List (Nat × Team)
  clusters : List (Nat × Cluster)
  launches : List (Nat × Launch)
  deriving DecidableEq, Repr

/-- Checkpoint registers (R360). -/
structure Check where
  buddy : Nat
  en    : Bool
  base  : DWord
  list  : DWord
  t     : DWord
  fail  : Bool
  busy  : Bool
  slot  : Nat
  last  : DWord
  stage : Nat                        -- 0 idle, 1 armed, 2 pausing, 3 written and waiting for the buddy
  next  : Option Snap                -- the saved teams of the checkpoint being written
  snaps : List (Nat × Option Snap)   -- complete checkpoints, by slot
  spare : Bool                       -- a spare that has taken a failed module's %pkg and not yet restored its teams (R362)
  kept  : Option Nat                 -- as a buddy: the bulk-tier offset of the 768 GiB reserved here for another module's slots
  deriving DecidableEq, Repr

/-- Diagnostics, power and temperature (R357, R364). -/
structure Health where
  pstate : Nat
  nfail  : Nat
  first  : Nat
  diag   : Nat                       -- DIAGST.STATE; 1 at reset
  diagu  : DWord
  watts  : Nat
  tj     : Nat
  pacing : Bool
  powered : Bool
  before : Nat                       -- FREQ code to restore after a power limit
  test   : Option (Nat × DWord)      -- a self-test in progress: its next step, and the units that will fail
  deriving DecidableEq, Repr

/-- An entry of the wait-and-wake table (R162, R283). -/
structure Sleeper where
  key   : Nat
  grp   : Nat
  lanes : Mask
  order : Nat
  deriving DecidableEq, Repr

/-- What moves next: an event, an issue port of a core, a cycle of a bay's region, a write of the host, a bay's steward, the
messages that wait for a port, an instruction of a bay steward, the bench's reading of a bay's outbound message, the release of a
deterministic launch's next record, the stamped traffic of a frame, the next step of the self-test, the buddy's answer to a
checkpoint. -/
inductive Move where
  | event (i : Instr)
  | issue (core : Nat)
  | cycle (bay : Nat)
  | hostWrite (addr : Nat) (bytes : List Byte)
  | steward (bay : Nat)
  | hart (bay : Nat)
  | links
  | bench (bay : Nat)
  | release (launch : Nat)
  | stamped
  | selfTest
  | buddy (ack : Bool)
  deriving DecidableEq, Repr

/-- The path an instruction issues on (R110): its group, lanes, address and port, the group as it was before the cycle (R83,
R111), and what the instruction left behind for the issue logic. -/
structure Focus where
  grp    : Nat
  path   : Mask
  pc     : DWord
  port   : Nat
  old    : Group
  waited : Bool                      -- the instruction waits: it did not issue (R204)
  edge   : Bool                      -- a run boundary follows it (R48)
  deriving DecidableEq, Repr

def Focus.none : Focus := { grp := 0, path := 0, pc := 0, port := 0, old := Group.none, waited := false, edge := false }

/-- The module. -/
structure State where
  mem      : List Host.Cell          -- device memory (R365)
  poisoned : List Nat                -- poisoned 64-byte granules (R340)
  lines    : List (Nat × List Version)
  groups   : List (Nat × Group)
  teams    : List (Nat × Team)
  clusters : List (Nat × Cluster)
  launches : List (Nat × Launch)
  nextLaunch : Nat
  cores    : List (Nat × Core)
  bays     : List (Nat × Bay)
  copies   : List Copy
  nextCopy : Nat
  walks    : List Walk
  ctxs     : List (Nat × Ctx)        -- context c of function f at 16 f + c
  fns      : List (Nat × Fn)
  sleepers : List Sleeper
  order    : Nat                     -- order numbers given
  members  : List (Nat × Option Member)
  criers   : List (Nat × Crier)
  net      : List Letter             -- letters on their way to a part of this module
  outbox   : List Letter             -- letters on their way to other modules
  pendings : List Pending
  folds    : List Fold
  nextId   : Nat
  refused  : List Nat                -- sequenced stores of this module that it has rejected and that may have a number (R293)
  scripts  : List Script
  credits  : List Credit             -- credits that the module's ranks hold (R299)
  tb       : Timebase
  clock    : Clock
  ports    : List (Nat × Port)
  links    : List (Nat × Nat)        -- failed replays of a dovetail link; 8 and more: retired (R341)
  err      : Err
  inject   : Inject
  fw       : Firmware
  ck       : Check
  health   : Health
  pkg      : Nat                     -- %pkg (R12)
  rotate   : List (Nat × Nat)        -- die pairs: the function whose turn it is (R258)
  owner    : List (Nat × (Nat × Nat)) -- die pairs: the function whose slice it is, and its first whole frame (R274)
  agenda   : List Move
  picks    : Nat                     -- moves chosen by Config.pickMove so far
  frees    : Nat                     -- free values used so far
  images   : List ImageReq           -- core images asked for and not yet requested of a steward (R337)
  cur      : Focus
  deriving DecidableEq, Repr

-- OUTCOMES
/-- Why the module stops with a fault. -/
inductive Fault where
  /-- Raised by the step when the module has no power after a thermal trip (R364): nothing moves. Safe: the model stops. -/
  | noPower
  deriving DecidableEq, Repr

/-- Why a step has no meaning. -/
inductive Refusal where
  /-- Raised by the dispatch for an instruction whose meaning is not written. Safe: the model stops. -/
  | notModelled (mnemonic : String)
  deriving DecidableEq, Repr

/-- The module at power-good (R356): nothing runs, every register holds the value its table gives for reset, and the
registers for which the spec gives none hold zero (log entry 2). -/
def State.reset : State :=
  { mem := [], poisoned := [], lines := [], groups := [], teams := [], clusters := [], launches := [], nextLaunch := 1,
    cores := [], bays := [], copies := [], nextCopy := 1, walks := [], ctxs := [], fns := [], sleepers := [], order := 1,
    members := [], criers := [], net := [], outbox := [], pendings := [], folds := [], nextId := 1, refused := [], scripts := [], credits := [],
    tb := Timebase.atReset, clock := Clock.atReset, ports := [], links := [],
    err := { st := 0, msk := 0x1FF, lb := 0, lh := 0, irqs := 0, hbm := [] },
    inject := { team := 0, off := 0, arm := false, fn := 0, ctx := 0 },
    fw := { base := 0, st := 0, active := 0, banks := [], fuse := 0, boots := 0 },
    ck := { buddy := 0, en := false, base := 0, list := 0, t := 0, fail := false, busy := false, slot := 0, last := 0,
            stage := 0, next := none, snaps := [], spare := false, kept := none },
    health := { pstate := 0, nfail := 0, first := 0, diag := 1, diagu := 0, watts := 0, tj := 0, pacing := false,
                powered := true, before := 0, test := none },
    pkg := 0, rotate := [], owner := [], agenda := [], picks := 0, frees := 0, images := [], cur := Focus.none }

end Sys2Proof.Machine
end

