-- ==== Sys2Proof/Machine/Ops.lean ====
section
/-! DEFINITION. The named operations over the state: its tables, registers and lanes, the lanes an instruction acts in, the trace ring, taking a trap and returning from one, and the one frame in which every encoded instruction runs. -/

namespace Sys2Proof.Machine

-- TABLES
def State.group (s : State) (k : Nat) : Group := mapGet Group.none s.groups k
def State.setGroup (s : State) (k : Nat) (g : Group) : State := { s with groups := mapSet Group.none s.groups k g }
def State.updGroup (s : State) (k : Nat) (h : Group → Group) : State := s.setGroup k (h (s.group k))
def State.team (s : State) (k : Nat) : Team := mapGet Team.none s.teams k
def State.setTeam (s : State) (k : Nat) (t : Team) : State := { s with teams := mapSet Team.none s.teams k t }
def State.updTeam (s : State) (k : Nat) (h : Team → Team) : State := s.setTeam k (h (s.team k))
def State.cluster (s : State) (k : Nat) : Cluster := mapGet Cluster.none s.clusters k
def State.setCluster (s : State) (k : Nat) (c : Cluster) : State := { s with clusters := mapSet Cluster.none s.clusters k c }
def State.launch (s : State) (k : Nat) : Launch := mapGet Launch.none s.launches k
def State.setLaunch (s : State) (k : Nat) (l : Launch) : State := { s with launches := mapSet Launch.none s.launches k l }
def State.updLaunch (s : State) (k : Nat) (h : Launch → Launch) : State := s.setLaunch k (h (s.launch k))
def State.core (s : State) (k : Nat) : Core := mapGet Core.none s.cores k
def State.setCore (s : State) (k : Nat) (c : Core) : State := { s with cores := mapSet Core.none s.cores k c }
def State.updCore (s : State) (k : Nat) (h : Core → Core) : State := s.setCore k (h (s.core k))
def State.bay (s : State) (k : Nat) : Bay := mapGet Bay.none s.bays k
def State.setBay (s : State) (k : Nat) (b : Bay) : State := { s with bays := mapSet Bay.none s.bays k b }
def State.updBay (s : State) (k : Nat) (h : Bay → Bay) : State := s.setBay k (h (s.bay k))
def State.ctx (s : State) (k : Nat) : Ctx := mapGet Ctx.none s.ctxs k
def State.setCtx (s : State) (k : Nat) (c : Ctx) : State := { s with ctxs := mapSet Ctx.none s.ctxs k c }
def State.updCtx (s : State) (k : Nat) (h : Ctx → Ctx) : State := s.setCtx k (h (s.ctx k))
def State.fn (s : State) (k : Nat) : Fn := mapGet Fn.none s.fns k
def State.setFn (s : State) (k : Nat) (x : Fn) : State := { s with fns := mapSet Fn.none s.fns k x }
def State.updFn (s : State) (k : Nat) (h : Fn → Fn) : State := s.setFn k (h (s.fn k))
def State.port (s : State) (k : Nat) : Port := mapGet Port.none s.ports k
def State.setPort (s : State) (k : Nat) (x : Port) : State := { s with ports := mapSet Port.none s.ports k x }
/-- A function enumerates: function 0 from the start, every other once self-test has passed (R356). -/
def State.present (s : State) (fn : Nat) : Bool := s.health.pstate == 1 || fn == 0

/-- A port that is up. -/
def State.portUp (s : State) (p : Nat) : Bool := p < 12 && (s.port p).state == 2
def State.crier (s : State) (k : Nat) : Crier := mapGet Crier.none s.criers k
def State.setCrier (s : State) (k : Nat) (x : Crier) : State := { s with criers := mapSet Crier.none s.criers k x }
def State.member (s : State) (k : Nat) : Option Member := mapGet none s.members k
def State.setMember (s : State) (k : Nat) (x : Option Member) : State := { s with members := mapSet none s.members k x }

-- DEVICE MEMORY (R365)
/-- What a byte of device memory reads as before anything has written it (log entry 1). -/
def memDefault : Byte := 0

/-- The canonical form of a memory: addresses rise, and no listed byte equals what an unlisted one reads as. -/
def Memory.wf (m : List Host.Cell) : Bool := mapWf memDefault m

def State.memByte (s : State) (a : Nat) : Byte := mapGet memDefault s.mem a
def State.setMemByte (s : State) (a : Nat) (b : Byte) : State := { s with mem := mapSet memDefault s.mem a b }
def State.setMemBytes (s : State) (a : Nat) : List Byte → State
  | [] => s
  | b :: bs => (s.setMemByte a b).setMemBytes (a + 1) bs

/-- A free value, and the state with the next one (log entry 12). -/
def State.draw (s : State) : DWord × State := (Config.freeValue s.frees, { s with frees := s.frees + 1 })

/-- An event for the error log of function 0 (R347): its status bit, the interrupt, and a record in the log ring, if one is
set; `envelope` stands in records of kind 8. -/
def State.logErr (s : State) (kind unit_ : Nat) (detail : DWord) (envelope : List Byte) : State :=
  let e := s.err
  let raised := !e.msk.testBit kind
  let rec_ := bytesOf 4 kind ++ bytesOf 4 unit_ ++ bytesOf 8 s.tb.est.toNat ++ bytesOf 8 detail.toNat ++ bytesOf 8 0 ++
    envelope ++ List.replicate (64 - envelope.length) 0
  let s := if e.lb = 0 then s else s.setMemBytes (2 ^ 53 + e.lb.toNat % 2 ^ 52 + 96 * (e.lh.toNat % 1024)) rec_
  { s with err := { e with st := e.st ||| 2 ^ kind, irqs := e.irqs + (if raised then 1 else 0)
                           lh := if e.lb = 0 then e.lh else e.lh + 1 } }

/-- An event whose detail the spec does not state. -/
def State.logOpen (s : State) (kind unit_ : Nat) : State :=
  let d := s.draw
  d.2.logErr kind unit_ d.1 []

/-- Groups of a team, teams of a launch and clusters of a launch, by key. -/
def groupKey (team grp : Nat) : Nat := 32 * team + grp
def teamKey (launch index : Nat) : Nat := 2 ^ 32 * launch + index
def teamLaunch (key : Nat) : Nat := key / 2 ^ 32
def teamIndex (key : Nat) : Nat := key % 2 ^ 32
def clusterKey (launch index : Nat) : Nat := 2 ^ 32 * launch + index
/-- Context c of function f. -/
def ctxKey (fn ctx : Nat) : Nat := 16 * fn + ctx

-- THE MESH (R9, R10)
def dieOf (core : Nat) : Nat := core / 192
def rowOfCore (core : Nat) : Nat := core % 192 / 12
def colOfCore (core : Nat) : Nat := core % 12
def bayOf (core : Nat) : Nat := 16 * dieOf core + 4 * (rowOfCore core / 4) + colOfCore core / 3
/-- The combined column of R199. -/
def combinedCol (core : Nat) : Nat := 12 * (dieOf core % 2) + colOfCore core
/-- The twelve cores of a bay, by c of R348. -/
def bayCore (bay c : Nat) : Nat :=
  192 * (bay / 16) + 12 * (4 * (bay % 16 / 4) + c / 3) + 3 * (bay % 4) + c % 3

/-- %cyc of the region of a core (R311). -/
def State.cyc (s : State) (core : Nat) : Nat := (s.bay (bayOf core)).cyc

-- A GROUP'S TEAM AND LAUNCH
def State.teamOf (s : State) (g : Group) : Team := s.team g.team
def State.launchOf (s : State) (g : Group) : Launch := s.launch (teamLaunch g.team)
def State.groupCore (s : State) (g : Group) : Nat := (s.teamOf g).core
def State.groupCyc (s : State) (g : Group) : Nat := s.cyc (s.groupCore g)
def Launch.ctxKey (l : Launch) : Nat := Machine.ctxKey l.fn l.ctx
/-- Teams in a cluster (R200). -/
def Launch.size (l : Launch) : Nat := l.r.cw * l.r.ch
def Launch.det (l : Launch) : Bool := l.r.flags.testBit 0
def Launch.chk (l : Launch) : Bool := l.r.flags.testBit 1
def Launch.idem (l : Launch) : Bool := l.r.flags.testBit 2
def Launch.ser (l : Launch) : Bool := l.r.flags.testBit 3
/-- Lw (R211). -/
def Launch.watchdog (l : Launch) : Nat := 2 ^ (if l.r.wdog = 0 then 26 else l.r.wdog)
def State.clusterOf (_ : State) (l : Launch) (team : Nat) : Nat := clusterKey (teamLaunch team) (teamIndex team / l.size)
/-- The teams of a cluster, by rank (R200). -/
def clusterTeams (l : Launch) (launch index : Nat) : List Nat :=
  (List.range l.size).map fun r => teamKey launch (index * l.size + r)

/-- The groups of a team, by key. -/
def State.teamGroups (s : State) (tk : Nat) : List Nat :=
  (List.range (s.launch (teamLaunch tk)).r.groups).map (groupKey tk)

-- LANES
def Group.lane (g : Group) (l : Nat) : Lane := mapGet Lane.none g.lanes l
def Group.setLane (g : Group) (l : Nat) (x : Lane) : Group := { g with lanes := mapSet Lane.none g.lanes l x }
def Group.updLane (g : Group) (l : Nat) (h : Lane → Lane) : Group := g.setLane l (h (g.lane l))
def Group.updLanes (g : Group) (m : Mask) (h : Lane → Lane) : Group := (maskLanes m).foldl (fun g l => g.updLane l h) g

/-- A lane that has not ended (R117). -/
def Group.live (g : Group) : Mask := maskOf fun l => (g.lane l).cond != .ended
def Group.voting (g : Group) : Mask := maskOf fun l => (g.lane l).cond == .voting

/-- Whether a lane is on the path of an address as R94 has it: it is live, its program counter is that address, and it is not
parked at a join or a barrier. -/
def Group.atPc (g : Group) (pc : DWord) (l : Nat) : Bool :=
  (g.lane l).pc == pc && (match (g.lane l).cond with | .ended | .join _ | .barrier .. => false | _ => true)

-- REGISTERS (R17, R31, R41)
def Group.vreg (g : Group) (r l : Nat) : Word := mapGet 0 g.v (32 * r + l)
def Group.setV (g : Group) (r l : Nat) (x : Word) : Group := { g with v := mapSet 0 g.v (32 * r + l) x }
def Group.sreg (g : Group) (r : Nat) : DWord := mapGet 0 g.s r
def Group.setS (g : Group) (r : Nat) (x : DWord) : Group := { g with s := mapSet 0 g.s r x }
/-- m0 reads the live lanes. -/
def Group.mreg (g : Group) (r : Nat) : Mask := if r = 0 then g.live else mapGet 0 g.m r
/-- A write to m0 is discarded (R41). -/
def Group.setM (g : Group) (r : Nat) (x : Mask) : Group := if r = 0 then g else { g with m := mapSet 0 g.m r x }
def Group.jreg (g : Group) (r : Nat) : Mask := mapGet 0 g.j r
def Group.setJ (g : Group) (r : Nat) (x : Mask) : Group := { g with j := mapSet 0 g.j r x }
/-- A 64-bit value in a v pair (R42). -/
def Group.vpair (g : Group) (r l : Nat) : Nat := (g.vreg r l).toNat + 2 ^ 32 * (g.vreg (r + 1) l).toNat
def Group.setVpair (g : Group) (r l x : Nat) : Group :=
  (g.setV r l (BitVec.ofNat 32 x)).setV (r + 1) l (BitVec.ofNat 32 (x / 2 ^ 32))

/-- Flags OR into the sticky word of a lane (R62). -/
def Group.orFlags (g : Group) (l : Nat) (f : Word) : Group :=
  if f = 0 then g else g.updLane l fun x => { x with flags := x.flags ||| f }
def Group.orFlagsIn (g : Group) (m : Mask) (f : Word) : Group := (maskLanes m).foldl (fun g l => g.orFlags l f) g

-- TRACE RINGS (R345, R346)
/-- The last 512 records. -/
def lastRecords (l : List (Nat × Nat)) : List (Nat × Nat) := l.drop (l.length - 512)

/-- A record enters a core's ring, where it overwrites the oldest once there are 512 (R191); one overwritten before it was drained
counts as lost (log entry 10). -/
def Core.push (c : Core) (r : Nat × Nat) : Core :=
  { c with ring := lastRecords (c.ring ++ [r]), head := c.head + 1, all := lastRecords (c.all ++ [r])
           lost := if 512 ≤ c.ring.length then min (c.lost + 1) (2 ^ 32 - 1) else c.lost }

/-- The record in a slot of the ring: record n lies in slot n mod 512. -/
def Core.slotRecord (c : Core) (i : Nat) : Nat × Nat :=
  c.all.getD ((i + 512 - (c.head - c.all.length) % 512) % 512) (0, 0)

/-- A record enters behind a KIND 6 record that counts those lost before it, which takes its header fields (log entry 72); the
count waits while no slot is free. -/
def Core.record (c : Core) (hdr payload : Nat) : Core :=
  let c := if c.lost = 0 || 512 ≤ c.ring.length then c else { c with lost := 0 }.push (6 * 2 ^ 60 + hdr % 2 ^ 60, c.lost)
  c.push (hdr, payload)

/-- One record of a kind and payload for a group, at its core's ring. -/
def State.trace (s : State) (gk : Nat) (kind payload : Nat) : State :=
  let g := s.group gk
  let core := s.groupCore g
  let hdr := kind * 2 ^ 60 + g.slot % 64 * 2 ^ 54 + g.grp % 32 * 2 ^ 49 + s.cyc core % 2 ^ 48
  s.updCore core fun c => c.record hdr payload

/-- The byte offset of an address in the group's kernel image (R346). -/
def State.imageOff (s : State) (gk : Nat) (pc : DWord) : Nat :=
  (pc.toNat + 2 ^ 64 - (s.launchOf (s.group gk)).r.image) % 2 ^ 32

-- TRAPS (R188, R332)
def trapIllegal : Nat := 0x01
def trapFetchAlign : Nat := 0x02
def trapMisalign : Nat := 0x03
def trapPageFault : Nat := 0x04
def trapAccess : Nat := 0x05
def trapLsBound : Nat := 0x06
def trapLsUncorr : Nat := 0x07
def trapBarrierClobber : Nat := 0x08
def trapBarrierTimeout : Nat := 0x09
def trapMatrixPartial : Nat := 0x0A
def trapLimbDiverge : Nat := 0x0B
def trapLimbOvf : Nat := 0x0C
def trapSealBad : Nat := 0x0D
def trapSlotEmpty : Nat := 0x0E
def trapTimeEps : Nat := 0x0F
def trapTimeFail : Nat := 0x10
def trapStampLate : Nat := 0x11
def trapCollOverrun : Nat := 0x12
def trapReserve : Nat := 0x13
def trapBreak : Nat := 0x14
def trapUser : Nat := 0x15
def trapWatchdog : Nat := 0x16
def trapHbmUncorr : Nat := 0x17
def trapCallDepth : Nat := 0x18
def trapSlotMismatch : Nat := 0x19
def trapSlotOccupied : Nat := 0x1A
def trapBarrierLimit : Nat := 0x1B
def trapCheckFail : Nat := 0x1C
def trapLinkUncorr : Nat := 0x1D
def trapRegUncorr : Nat := 0x1E

/-- The recoverable codes (R332). -/
def trapRecoverable (code : Nat) : Bool :=
  !([trapPageFault, trapAccess, trapLsUncorr, trapHbmUncorr, trapCheckFail, trapLinkUncorr, trapRegUncorr].contains code)

/-- A team stops at once: its groups issue no further access and give up their issue slots (R337). -/
def State.stopTeam (s : State) (tk : Nat) : State :=
  let s := s.updTeam tk fun t => { t with stopped := true }
  s.updCore (s.team tk).core fun c =>
    { c with holders := c.holders.filter fun h => match h.2 with
                                                   | some x => x.grp / 32 != tk
                                                   | none => false }

/-- A team performs no further access (R225). -/
def State.deadTeam (s : State) (tk : Nat) : State := (s.stopTeam tk).updTeam tk fun t => { t with dead := true }

/-- A team's image is asked for: up to 8 images for a launch, and further fatal traps are counted (R338). -/
def State.askImage (s : State) (tk code code2 : Nat) : State :=
  let lk := teamLaunch tk
  let l := s.launch lk
  if l.images < 8 then
    let s := s.setLaunch lk { l with images := l.images + 1, pending := l.pending + 1 }
    { s with images := s.images ++ [{ core := (s.team tk).core, team := teamIndex tk, code := code, code2 := code2,
                                      launch := lk }] }
  else s.setLaunch lk { l with extra := l.extra + 1 }

/-- The first step of R337 for a team, and the request of its image. -/
def State.fatalTeam (s : State) (tk code code2 : Nat) : State :=
  let lk := teamLaunch tk
  if (s.team tk).stopped && (s.launch lk).fatal.isSome then s else
  ((s.stopTeam tk).updLaunch lk fun l =>
    { l with fatal := match l.fatal with | some c => some c | none => some code }).askImage tk code code2

/-- The second code of a fatal trap of a group: that of its active frame (R337). -/
def Group.code2 (g : Group) : Nat := if g.frame then g.tcode else 0

/-- A fatal trap of a group (R188, R337): the code of an active frame is recorded as the second code. -/
def State.fatalTrap (s : State) (gk code : Nat) : State := s.fatalTeam (s.group gk).team code (s.group gk).code2

/-- The clusters of a launch that wait for their relaunch (R225). -/
def State.relaunching (s : State) (lk : Nat) : Nat :=
  let l := s.launch lk
  (s.clusters.filter fun p => p.2.launch == lk && p.2.stage == .leaving &&
    (clusterTeams l lk p.2.index).any fun tk => (s.team tk).dead).length

/-- What an uncorrectable word of a team's window, staging region, registers or tiles does (R225, R339): its whole cluster stops
and discards what it has staged, and the launch or the cluster ends as the launch's flags say (CLUSTER_RELAUNCH,
FATAL_TRAP_STOP). -/
def State.wordFails (s : State) (tk code code2 : Nat) : State :=
  let lk := teamLaunch tk
  let l := s.launch lk
  let ck := s.clusterOf l tk
  if (s.team tk).dead then s else
  let again := l.idem && l.relaunch + s.relaunching lk < 4 && l.fatal.isNone
  let s := if again then s.askImage tk code code2 else s.fatalTeam tk code code2
  let s := (clusterTeams l lk (teamIndex tk / l.size)).foldl
    (fun s k => (s.deadTeam k).updTeam k fun t => { t with staging := [] }) s
  -- an idempotent cluster waits for its relaunch
  if again then s.setCluster ck { s.cluster ck with stage := .leaving, since := 0 } else s

/-- A read finds an uncorrectable word of a team: VAULTUE is logged, and the word fails. -/
def State.uncorrectable (s : State) (tk code code2 : Nat) : State :=
  if (s.team tk).dead then s else (s.logOpen 6 (bayOf (s.team tk).core)).wordFails tk code code2

/-- A read finds the armed word at an offset of a team's window uncorrectable: the injection is over (R350), and R225 applies. -/
def State.findsWord (s : State) (tk off code2 : Nat) : State :=
  { s.updTeam tk (fun t => { t with bad := t.bad ++ [off / 4] }) with inject := { s.inject with arm := false } }.uncorrectable tk trapLsUncorr code2

/-- The handler's address of a group's kernel, if it has one (K21, R252). -/
def State.handler (s : State) (g : Group) : Option DWord :=
  let l := s.launchOf g
  if l.r.hoff = 0xFFFFFFFF then none else some (BitVec.ofNat 64 (l.r.image + l.r.hoff))

/-- The detail of a trap in TARG and TLANE (R188, R332). -/
def State.setDetail (s : State) (gk : Nat) (arg : DWord) (tlane : Nat) : State :=
  s.updGroup gk fun g => { g with targ := arg, tlane := tlane }

/-- TAKING A TRAP (R188): a recoverable code with a handler and no active frame opens the frame; TMASK takes the live lanes of
the trapping path, TRESUME the address the trap returns to, and every lane of TMASK goes to the handler. Otherwise the trap
is fatal, and TARG and TLANE alone take its detail (log entry 81). `at_` is the address the trace record names. -/
def State.takeTrap (s : State) (gk code : Nat) (arg : DWord) (tlane : Nat) (path : Mask) (at_ resume : DWord) : State :=
  let g := s.group gk
  let s := s.trace gk 3 (code * 2 ^ 56 + s.imageOff gk at_)
  let fatal := fun (s : State) => (s.setDetail gk arg tlane).fatalTrap gk code
  match s.handler g with
  | some h =>
    if trapRecoverable code && !g.frame then
      let tmask := path &&& g.live
      s.setGroup gk { (g.updLanes tmask fun x => { x with pc := h }) with
        frame := true, tcode := code, tresume := resume, tmask := tmask, targ := arg, tlane := tlane }
    else fatal s
  | none => fatal s

/-- RETURNING FROM A TRAP (R189): the lanes of the issuing path take TRESUME and the frame closes. -/
def State.trapReturn (s : State) (gk : Nat) (path : Mask) : State :=
  s.updGroup gk fun g => { (g.updLanes path fun x => { x with pc := g.tresume }) with frame := false }

/-- A frame also closes when every lane of TMASK has exited (R189). -/
def Group.closeFrame (g : Group) : Group :=
  if g.frame && g.tmask &&& g.live = 0 then { g with frame := false } else g

-- THE FRAME OF AN ENCODED INSTRUCTION
/-- What an instruction sees: its form, the group it reads, its issuing path and acting lanes, the state before it, and the
state its effects start from, in which last-use marks have taken effect (R43, R80). -/
structure View where
  i    : Instr
  f    : Form
  gk   : Nat
  g    : Group
  seen : Group      -- the group as the sources read it
  path : Mask
  act  : Mask
  pc   : DWord
  s0   : State
  s    : State

/-- How an instruction ends. -/
inductive Eff where
  | done (s : State)                                  -- the issuing path goes on to the next instruction
  | jump (s : State) (edge : Bool)                    -- the effect set the counters of the acting lanes itself
  | trap (code : Nat) (arg : DWord) (tlane : Nat)     -- before any effect
  | after (s : State) (code : Nat) (arg : DWord)      -- after completion
  | wait (s : State) (why : Why)                      -- it does not issue in this cycle (R204)

def View.size (x : View) : DWord := BitVec.ofNat 64 x.f.len.bytes
def View.next (x : View) : DWord := x.pc + x.size

/-- The register marks of R43: v registers in the acting lanes, s registers when any lane acts. -/
def markSrc (k : Nat) (act : Mask) (src : Src) (g : Group) : Group :=
  if !src.last then g else
  match src.op with
  | .v n => (List.range k).foldl (fun g r => (maskLanes act).foldl (fun g l => g.setV (n.toNat + r) l poison) g) g
  | .s n => if act = 0 then g else (List.range k).foldl (fun g r => g.setS (n.toNat + r) 0x7FF00BAD#64) g
  | _ => g

/-- Every last-use mark of an instruction. -/
def markAll (i : Instr) (f : Form) (act : Mask) (g : Group) : Group :=
  let k := srcSizes i f
  markSrc k.1 act f.a (markSrc k.2.1 act f.b (if f.len == .l96 then markSrc k.2.2 act f.c g else g))

/-- The lanes of the segment of a lane under a binding (R125). -/
def segmentOf (n l : Nat) : Mask := maskOf fun k => k / n == l / n

/-- The segments a mask meets, by their first lane. -/
def segments (n : Nat) : List Nat := (List.range (32 / n)).map (· * n)

/-- R126: the guard differs within a segment, or the path holds only part of one. -/
def diverges (g : Group) (path guard : Mask) : Bool :=
  (segments g.binding).any fun b =>
    let seg := segmentOf g.binding b &&& g.live
    (seg &&& path) != 0 && ((seg &&& path) != seg || ((seg &&& guard) != 0 && (seg &&& guard) != seg))

/-- The guard bits of a form (R47). -/
def guardMask (g : Group) (f : Form) : Mask :=
  let m := g.mreg f.g.toNat
  if f.gn then ~~~m else m

/-- The value of the form's head, which TARG reports (R36). -/
def headWord (i : Instr) (f : Form) : DWord := BitVec.ofNat 64 (headNat ((opcodeOf i).getD 0) f)

/-- Lanes of the path go on to the next instruction. -/
def State.advance (s : State) (gk : Nat) (m : Mask) (pc : DWord) : State :=
  s.updGroup gk fun g => g.updLanes m fun x => { x with pc := pc }

/-- The run counts one more instruction, and a boundary may follow (R48). -/
def State.issued (s : State) (gk : Nat) (edge : Bool) : State :=
  let s := s.updGroup gk fun g => { g with run := g.run + 1, why := .none, stall := none }
  { s with cur := { s.cur with waited := false, edge := edge || decide (24 ≤ (s.group gk).run) } }

/-- A run boundary without an issue: a precise trap changes no run count (R36, R48). -/
def State.cut (s : State) (gk : Nat) : State :=
  let s := s.updGroup gk fun g => { g with why := .none, stall := none }
  { s with cur := { s.cur with waited := false, edge := true } }

/-- The end of an instruction. -/
def finish (x : View) (e : Eff) : State :=
  match e with
  | .done s => (s.advance x.gk x.path x.next).issued x.gk x.f.e
  | .jump s edge => (s.advance x.gk (x.path &&& ~~~x.act) x.next).issued x.gk (x.f.e || edge)
  | .trap code arg tlane => (x.s0.takeTrap x.gk code arg tlane x.path x.pc x.pc).cut x.gk
  | .after s code arg => (((s.advance x.gk x.path x.next).issued x.gk true).takeTrap x.gk code arg 0 x.path x.pc x.next)
  | .wait s why =>
    let s := s.updGroup x.gk fun g =>
      { g with why := why
               stall := match why, g.stall with
                 | .empty .., some c => some c
                 | .empty .., none => some (s.groupCyc g + (s.launchOf g).watchdog)
                 | _, _ => none }
    { s with cur := { s.cur with waited := true, edge := true } }

/-- A group as port 1 reads it: the registers, lanes, trap registers and counters that its sources name stand as they were before the
cycle (R83, R111). -/
def Group.reading (g old : Group) : Group :=
  { g with lanes := old.lanes, v := old.v, s := old.s, m := old.m, j := old.j, frame := old.frame, tcode := old.tcode
           tresume := old.tresume, tmask := old.tmask, targ := old.targ, tlane := old.tlane, rcnt := old.rcnt, sfcnt := old.sfcnt
           tlo := old.tlo, thi := old.thi }

/-- What an instruction sees when it issues on the focus of the state. -/
def viewOf (i : Instr) (f : Form) (s : State) : View :=
  let gk := s.cur.grp
  let g := s.group gk
  let seen := if s.cur.port = 1 then g.reading s.cur.old else g
  let act := s.cur.path &&& g.live &&& guardMask seen f
  { i := i, f := f, gk := gk, g := g, seen := seen, path := s.cur.path, act := act, pc := s.cur.pc,
    s0 := s, s := s.setGroup gk (markAll i f act g) }

/-- The checks every encoded instruction shares, in the order of R334: the allocation of check 7, LIMB_DIVERGE. -/
def sharedTrap (x : View) : Option (Nat × DWord) :=
  if !allocOk x.i x.f (x.s0.launchOf x.g).r.vregs then some (trapIllegal, headWord x.i x.f)
  else if x.g.binding != 1 && diverges x.g x.path (guardMask x.seen x.f) then
    some (trapLimbDiverge, BitVec.ofNat 64 x.g.binding)
  else none

/-- AN ENCODED INSTRUCTION RUNS: the shared checks, then its effect. -/
def runForm (i : Instr) (f : Form) (eff : View → Eff) (s : State) : Host.Outcome State Fault Refusal :=
  let x := viewOf i f s
  match sharedTrap x with
  | some (code, arg) => .next (finish x (.trap code arg 0))
  | none => .next (finish x (eff x))

/-- The same for an instruction that does nothing when it acts in no lane (R47). -/
def runActing (i : Instr) (f : Form) (eff : View → Eff) (s : State) : Host.Outcome State Fault Refusal :=
  runForm i f (fun x => if x.act = 0 then .done x.s else eff x) s

end Sys2Proof.Machine
end

