-- ==== Sys2Proof/Machine/Clockwork.lean ====
section
/-! DEFINITION. The uncertainty and the interval of the timebase as an instruction reads them (R154, R315, R316). -/

namespace Sys2Proof.Machine

/-- Largest 64-bit value. -/
def allOnes64 : Nat := 2 ^ 64 - 1

/-- The drift bound in force (R315). -/
def Timebase.dr (t : Timebase) : Nat := if t.refLost then t.driftfb else t.drift

/-- eps of R315 outside FAILED: 0 when ALONE (R316). -/
def Timebase.eps (t : Timebase) : Nat :=
  if t.state = 0 then 0
  else t.epsx + (t.dr * (t.est - t.tx).toNat + (2 ^ 20 - 1)) / 2 ^ 20

/-- %eps: all ones in FAILED (R315). -/
def Timebase.epsRead (t : Timebase) : Nat := if t.state = 3 then allOnes64 else t.eps % 2 ^ 64

/-- The interval tnow gives: [0, 2^64 − 1] in FAILED, and otherwise est ∓ eps within 0 to 2^64 − 1 (R154). -/
def Timebase.earliest (t : Timebase) : Nat := if t.state = 3 then 0 else t.est.toNat - t.eps
def Timebase.latest (t : Timebase) : Nat :=
  if t.state = 3 then allOnes64 else min (t.est.toNat + t.eps) allOnes64

end Sys2Proof.Machine
end

