-- ==== Sys2Proof/Machine/Operands.lean ====
section
/-! DEFINITION. Every operand form: specials (R18, R24), immediates (R25), source modifiers (R23), reads of v, s, mask and zero operands (R42, R81, R82), and writes of destinations (R41, R81, R82, R83). -/

namespace Sys2Proof.Machine

-- SPECIALS
/-- The value of a special in a lane (R18, R24, R125, R188, R311, R315, R316, R320). -/
def specialVal (s : State) (g : Group) (l : Nat) : Special → Nat
  | .lane => l
  | .grp => g.grp
  | .team => teamIndex g.team
  | .clus => teamIndex g.team / (s.launchOf g).size
  | .grid => (s.launchOf g).r.teams
  | .core => s.groupCore g
  | .die => dieOf (s.groupCore g)
  | .pkg => s.pkg
  | .width => 32
  | .limbs => g.binding
  | .cyc => s.groupCyc g
  | .tlo => g.tlo.toNat
  | .thi => g.thi.toNat
  | .eps => s.tb.epsRead
  | .tstate => s.tb.state
  | .tcode => if g.frame && maskBit g.tmask l then g.tcode else 0

-- IMMEDIATES (R25)
/-- The immediate as an integer of `w` bits: X6 unsigned, IMM20 sign-extended, IMM64 as it stands. -/
def immInteger (w : Nat) (f : Form) : Nat :=
  match f.len with
  | .l64 => f.x6.toNat
  | .l96 => wrapInt w (signedNat 20 f.ext.toNat)
  | .l128 => f.ext.toNat % 2 ^ w

/-- IMM20 zero-extended (class, mark: R87, R191). -/
def immZero (w : Nat) (f : Form) : Nat :=
  match f.len with
  | .l64 => f.x6.toNat
  | .l96 => f.ext.toNat % 2 ^ 20
  | .l128 => f.ext.toNat % 2 ^ w

/-- One element in every element of a 32-bit lane (R90). -/
def replicate (w x : Nat) : Nat :=
  if 32 ≤ w ∨ w = 6 then x else (List.range (32 / w)).foldl (fun a i => a + x % 2 ^ w * 2 ^ (w * i)) 0

/-- The immediate as the lane value of a type. -/
def immLane (ty : Ty) (f : Form) : Nat :=
  match f.len with
  | .l96 =>
    match fmtOf ty with
    | some fm => replicate ty.width (roundTo fm .rne 0 (exactOf (readF32 (BitVec.ofNat 32 (f.ext.toNat * 2 ^ 12))))).1
    | none => replicate ty.width (wrapInt ty.width (signedNat 20 f.ext.toNat))
  | .l64 => f.x6.toNat
  | .l128 => f.ext.toNat % 2 ^ (if ty.width = 64 then 64 else 32)

-- MODIFIERS (R23)
/-- abs, then negate, of one element: integers and b32 wrap, floating codes change their sign bit. -/
def modElem (ty : Ty) (neg abs : Bool) (w x : Nat) : Nat :=
  match fmtOf ty with
  | some fm =>
    let sb := fm.signBit
    let x := if abs && x.testBit (fm.expBits + fm.manBits) then x - sb else x
    if neg then (if x.testBit (fm.expBits + fm.manBits) then x - sb else x + sb) else x
  | none =>
    let n := signedNat w x
    let n := if abs then (n.natAbs : Int) else n
    wrapInt w (if neg then -n else n)

/-- The width an element of a type takes in a lane (R56, R102). -/
def laneWidth (ty : Ty) : Nat := if ty.width = 6 then 8 else ty.width

def modLane (ty : Ty) (src : Src) (x : Nat) : Nat :=
  if !src.neg && !src.abs then x else
  let w := laneWidth ty
  if 32 ≤ w then modElem ty src.neg src.abs w x
  else (List.range (32 / w)).foldl (fun a i => a + modElem ty src.neg src.abs w (bitsAt x (w * i) w) * 2 ^ (w * i)) 0

-- SOURCES
/-- An s register as the instruction sees it (R83). -/
def View.sval (x : View) (r : Nat) : DWord := x.seen.sreg r

/-- An operand's bits in a lane, as a type of its width reads it (R42, R82). -/
def rawOpnd (x : View) (ty : Ty) (o : Opnd) (l : Nat) : Nat :=
  let cut := fun (n : Nat) => if ty.width = 64 then n else n % 2 ^ 32
  match o with
  | .v n => if ty.width = 64 then x.seen.vpair n.toNat l else (x.seen.vreg n.toNat l).toNat
  | .s n => cut (x.sval n.toNat).toNat
  | .zero => 0
  | .special k => cut (specialVal x.s0 x.seen l k)
  | .imm => immLane ty x.f
  | .m _ => 0
  | .j _ => 0
  | .a _ => 0

/-- A source in a lane, with its modifiers. -/
def readAs (x : View) (ty : Ty) (src : Src) (l : Nat) : Nat := modLane ty src (rawOpnd x ty src.op l)

def readA (x : View) (l : Nat) : Nat := readAs x x.f.ty x.f.a l
def readB (x : View) (l : Nat) : Nat := readAs x x.f.ty x.f.b l
/-- C is 0 in a form without it (R84, R90, R91). -/
def readC (x : View) (ty : Ty) (l : Nat) : Nat := if x.f.len == .l96 then readAs x ty x.f.c l else 0

/-- The lane an operand that has one value for the group is read in: the lowest acting lane. -/
def View.low (x : View) : Nat := (maskLanes x.act).headD 0

/-- A uniform 32-bit or 64-bit source. -/
def uniform32 (x : View) (src : Src) : Nat := readAs x .n32 src x.low
def uniform64 (x : View) (src : Src) : Nat := readAs x .n64 src x.low

/-- A mask operand: m0 to m7 or j0 to j7 (R93); any other reads no lane. -/
def maskOpnd (g : Group) (o : Opnd) : Mask :=
  match o with
  | .m n => g.mreg n.toNat
  | .j n => g.jreg n.toNat
  | _ => 0

-- DESTINATIONS
/-- A value written to an s register (R82): i32 sign-extends, other 32-bit and narrower types zero-extend. -/
def sExtend (ty : Ty) (x : Nat) : DWord :=
  match ty with
  | .i32 => (BitVec.ofNat 32 x).signExtend 64
  | _ => if ty.width = 64 then BitVec.ofNat 64 x else BitVec.ofNat 64 (x % 2 ^ 32)

/-- One lane's result in a v register or pair; other destinations are written elsewhere. -/
def putLane (ty : Ty) (d : Opnd) (l x : Nat) (g : Group) : Group :=
  match d with
  | .v n => if ty.width = 64 then g.setVpair n.toNat l x else g.setV n.toNat l (BitVec.ofNat 32 x)
  | _ => g

/-- A mask or rejoin destination takes its bits in the given lanes (R93). -/
def putMask (d : Opnd) (w val : Mask) (g : Group) : Group :=
  match d with
  | .m n => g.setM n.toNat (maskMerge w val (g.mreg n.toNat))
  | .j n => g.setJ n.toNat (maskMerge w val (g.jreg n.toNat))
  | _ => g

/-- The group of the state an instruction's effects start from. -/
def View.g1 (x : View) : Group := x.s.group x.gk

/-- The effects' state with the group replaced. -/
def View.put (x : View) (g : Group) : State := x.s.setGroup x.gk g

/-- A result for each acting lane, with its flags (R80, R81): an s destination takes the value of the lowest acting lane,
once, and its flags go to every acting lane. -/
def writeEach (x : View) (ty : Ty) (r : Nat → Nat × Word) : State :=
  match x.f.d with
  | .s n =>
    if x.act = 0 then x.s else
    let v := r x.low
    x.put ((x.g1.setS n.toNat (sExtend ty v.1)).orFlagsIn x.act v.2)
  | d =>
    x.put ((maskLanes x.act).foldl (fun g l => let v := r l; (putLane ty d l v.1 g).orFlags l v.2) x.g1)

/-- A truth value for each acting lane of a mask destination, with its flags (R89, R92). -/
def writeMaskEach (x : View) (r : Nat → Bool × Word) : State :=
  let bits := maskOf fun l => maskBit x.act l && (r l).1
  x.put ((maskLanes x.act).foldl (fun g l => g.orFlags l (r l).2) (putMask x.f.d x.act bits x.g1))

/-- A mask for the acting lanes (R93). -/
def writeMask (x : View) (bits : Mask) : State := x.put (putMask x.f.d x.act bits x.g1)

/-- A 64-bit value for an s destination, written once if a lane acts. -/
def writeS (x : View) (d : Opnd) (v : Nat) : State :=
  match d with
  | .s n => if x.act = 0 then x.s else x.put (x.g1.setS n.toNat (BitVec.ofNat 64 v))
  | _ => x.s

end Sys2Proof.Machine
end

