-- ==== Sys2Proof/Machine/Flags.lean ====
section
/-! DEFINITION. Rounding modes (R46, R60), the stochastic coordinate and the group's rounding counter (R61), and the flag word as the flag instruction names it (R62). -/

namespace Sys2Proof.Machine

/-- The mode of X6[2:0] (R46). -/
def modeOf (n : Nat) : Mode :=
  if n = 0 then .rne else if n = 1 then .rtz else if n = 2 then .rup else if n = 3 then .rdn else .rsr

def roundingOf (f : Form) : Mode := modeOf (bitsAt f.x6.toNat 0 3)

/-- The coordinate of R61. -/
def rsrCoord (team grp lane elem count : Nat) : DWord :=
  BitVec.ofNat 64 (team % 2 ^ 24 * 2 ^ 40 + grp % 32 * 2 ^ 35 + lane % 32 * 2 ^ 30 + elem % 8 * 2 ^ 27 + count % 2 ^ 27)

/-- u of R61 for an element of a lane of the instruction. -/
def View.rnd (x : View) (lane elem : Nat) : Nat :=
  rndU (x.s0.launchOf x.g).r.rkey (rsrCoord (teamIndex x.g.team) x.g.grp lane elem x.g.rcnt)

/-- The counter advances by 1 after an rsr instruction that acts in a lane (R61). -/
def bumpRcnt (x : View) (mode : Mode) (s : State) : State :=
  if mode = .rsr && x.act != 0 then s.updGroup x.gk fun g => { g with rcnt := g.rcnt + 1 } else s

/-- The bits that the flag word keeps (R62). -/
def flagBits : Word := 0xFF#32

end Sys2Proof.Machine
end

