-- ==== Sys2Proof/Machine/Stat.lean ====
section
/-! DEFINITION. STAT triples (R65 to R71) and microscaling blocks (R59, R75, R76, R103, R104). -/

namespace Sys2Proof.Machine

/-- A STAT triple (R65): weight, mean and centred second moment. -/
structure Triple where
  w : Word
  m : Word
  q : Word
  deriving DecidableEq, Repr

/-- The empty code (R66). -/
def emptyTriple : Triple := { w := 0, m := emptyCode, q := emptyCode }
def invalidTriple : Triple := { w := canonNaN, m := canonNaN, q := canonNaN }

/-- w is +0.0 or −0.0 (R66). -/
def Triple.isEmpty (t : Triple) : Bool := (readF32 t.w).isZero

/-- A non-empty triple whose w is negative or NaN (R66). -/
def Triple.invalid (t : Triple) : Bool :=
  !t.isEmpty && ((readF32 t.w).isNaN || (readF32 t.w).isNeg)

/-- An empty triple is written as the empty code (R66). -/
def Triple.normal (t : Triple) : Triple := if t.isEmpty then emptyTriple else t

/-- R67. -/
def statUpdate (t : Triple) (x c : Word) : Triple × Word :=
  if t.invalid then (invalidTriple, flagNV)
  else if (readF32 c).isZero then (t.normal, 0)
  else if (readF32 c).isNaN || (readF32 c).isNeg then (t.normal, flagNV)
  else
    let t := if t.isEmpty then { w := 0, m := x, q := 0 } else t
    let (w', f1) := addR t.w c
    let (d, f2) := subR x t.m
    let (cw, f3) := divR c w'
    let (dcw, f4) := mulR d cw
    let (m', f5) := addR t.m dcw
    let (cd, f6) := mulR c d
    let (xm, f7) := subR x m'
    let (p, f8) := mulR cd xm
    let (q', f9) := addR t.q p
    ({ w := w', m := m', q := q' }, f1 ||| f2 ||| f3 ||| f4 ||| f5 ||| f6 ||| f7 ||| f8 ||| f9)

/-- R68: A then B. -/
def statMerge (a b : Triple) : Triple × Word :=
  if a.invalid || b.invalid then (invalidTriple, flagNV)
  else if b.isEmpty then (a.normal, 0)
  else if a.isEmpty then (b, 0)
  else
    let (w, f1) := addR a.w b.w
    let (d, f2) := subR b.m a.m
    let (bw, f3) := divR b.w w
    let (dbw, f4) := mulR d bw
    let (m, f5) := addR a.m dbw
    let (qq, f6) := addR a.q b.q
    let (dd, f7) := mulR d d
    let (ab, f8) := mulR a.w b.w
    let (abw, f9) := divR ab w
    let (r, f10) := mulR dd abw
    let (q, f11) := addR qq r
    ({ w := w, m := m, q := q },
      f1 ||| f2 ||| f3 ||| f4 ||| f5 ||| f6 ||| f7 ||| f8 ||| f9 ||| f10 ||| f11)

/-- R70: var and isd. -/
def statFinal (t : Triple) (eps : Word) : (Word × Word) × Word :=
  if t.invalid then ((canonNaN, canonNaN), flagNV)
  else if t.isEmpty then ((emptyCode, emptyCode), 0)
  else
    let (var, f1) := divR t.q t.w
    let (ve, f2) := addR var eps
    let (isd, f3) := f32Of (fpRsq (readF32 ve))
    ((var, isd), f1 ||| f2 ||| f3)

/-- One step of the fixed tree of R69 over a list of lanes' triples: lane i mod 2^(k+1) = 0 merges lane i + 2^k. -/
def treeStep (k : Nat) (base size : Nat) (t : List (Triple × Word)) : List (Triple × Word) :=
  t.mapIdx fun i x =>
    if base ≤ i ∧ i < base + size ∧ (i - base) % 2 ^ (k + 1) = 0 ∧ i + 2 ^ k < base + size then
      let y := t.getD (i + 2 ^ k) (emptyTriple, 0)
      let (r, f) := statMerge x.1 y.1
      (r, x.2 ||| y.2 ||| f)
    else x

-- MICROSCALING (R59)
/-- The element formats of an MX block; `none` is MXINT8. -/
def mxEmax : Option Fmt → Int
  | some .e4m3 => 8 | some .e5m2 => 15 | some .e3m2 => 4 | some .e2m3 => 2 | some .e2m1 => 2 | _ => 0

/-- X × v_k (R59): `none` for a NaN element or scale 0xFF. -/
def mxElem (fmt : Option Fmt) (code scale : Nat) : Fv :=
  if scale = 0xFF then .nan false (2 ^ 22) false else
  let k : Int := (scale : Int) - 127
  match fmt with
  | some f => match f.read code with
              | .fin neg m e => .fin neg m (e + k)
              | x => x
  | none => let i := signedNat 8 code
            .fin (decide (i < 0)) i.natAbs (k - 6)

/-- The larger magnitude of two finite values. -/
def magMax (a b : Nat × Int) : Nat × Int :=
  match fpCompare (.fin false a.1 a.2) (.fin false b.1 b.2) with
  | .lt => b
  | _ => a

/-- The scale code of a block of largest magnitude `amax` (R76, R103). -/
def mxScale (fmt : Option Fmt) (amax : Nat × Int) : Nat :=
  if amax.1 = 0 then 0 else
  let x := expOf amax.1 amax.2 - mxEmax fmt + 127
  if x < 0 then 0 else if 254 < x then 254 else x.toNat

/-- value ÷ scale in the element format, saturating (R76, R103). -/
def mxQuant (fmt : Option Fmt) (mode : Mode) (u : Nat) (scale : Nat) (x : Fv) : Nat × Word :=
  let k : Int := (scale : Int) - 127
  match fmt with
  | some f => roundTo f mode u (scaleExact (-k) (exactOf x))
  | none =>
    match x with
    | .nan .. => (0, flagNV)
    | .inf neg => (wrapInt 8 (if neg then -128 else 127), flagOF)
    | .fin neg m e =>
      if m ≠ 0 ∧ 80 < expOf m (e + 6 - k) then (wrapInt 8 (if neg then -128 else 127), flagOF)
      else
      let (r, nx) := roundMag mode u neg 0 m (e + 6 - k) false
      let (v, out) := saturate true 8 (signedMag neg r)
      (wrapInt 8 v, (if out then flagOF else 0) ||| (if nx then flagNX else 0))

/-- The magnitude an element gives amax; an infinity counts as +∞ (R103). -/
def mxMag : Fv → Nat × Int
  | .fin _ m e => (m, e)
  | .inf _ => (1, 1000)
  | .nan .. => (0, 0)

end Sys2Proof.Machine
end

