-- ==== Sys2Proof/Machine/Mem.lean ====
section
/-! DEFINITION. Memory by the byte: device memory (R365), vault windows and barrier lines (R151, R213), stamped lines (R155), BF16 alias views (R75, R76, R280), and address translation (R276, R277). -/

namespace Sys2Proof.Machine

-- DEVICE MEMORY (R365)
def State.memBytes (s : State) (a n : Nat) : List Byte := (List.range n).map fun i => s.memByte (a + i)
def State.memNat (s : State) (a n : Nat) : Nat := ofBytes (s.memBytes a n)
def State.setMemNat (s : State) (a n x : Nat) : State := s.setMemBytes a (bytesOf n x)

/-- The target of a device address: 0 HBM, 1 bulk tier, 2 host memory (R365). -/
def devTarget (a : Nat) : Nat := a / 2 ^ 52
def devAddr (a : Nat) : Nat := a % 2 ^ 52

/-- The bytes of a target: 512 GiB of HBM (R15), 1.5 TiB of bulk tier (R16), the host port's addresses. -/
def devSize (target : Nat) : Nat :=
  if target = 0 then 2 ^ 39 else if target = 1 then 3 * 2 ^ 39 else if target = 2 then 2 ^ 52 else 0

/-- A device address that names `n` bytes of memory (R365). -/
def devOk (a n : Nat) : Bool := decide (devAddr a + n ≤ devSize (devTarget a))

/-- A device address in the two slots of 384 GiB that the bench steward reserves as another module's buddy: only checkpoint
traffic reaches them (R360). -/
def State.inSlots (s : State) (a : Nat) : Bool :=
  match s.ck.kept with
  | none => false
  | some base => devTarget a == 1 && decide (base ≤ devAddr a) && decide (devAddr a < base + 768 * 2 ^ 30)

/-- The home stack of an HBM physical address (R15). -/
def homeStack (pa : Nat) : Nat := bitsAt pa 10 3 ^^^ bitsAt pa 13 3

/-- The 64-byte granule of a device address. -/
def granule (a : Nat) : Nat := a / 64 * 64

-- VAULTS (R151, R213, R221)
def Team.bline (t : Team) (line : Nat) : Option BarLine := mapGet Option.none t.blines line
def Team.setBline (t : Team) (line : Nat) (b : Option BarLine) : Team := { t with blines := mapSet Option.none t.blines line b }
def Team.isEmpty (t : Team) (line : Nat) : Bool := mapGet false t.empty line
def Team.setEmpty (t : Team) (line : Nat) (e : Bool) : Team := { t with empty := mapSet false t.empty line e }

/-- A byte of a barrier line's words (R151). -/
def barByte (b : BarLine) (i : Nat) : Byte :=
  if i < 4 then byteAt b.expected.toNat i
  else if i < 8 then byteAt b.arrivals.toNat (i - 4)
  else if i < 12 then byteAt b.phase.toNat (i - 8)
  else 0

/-- A byte of a team's window. -/
def Team.byte (t : Team) (off : Nat) : Byte :=
  match t.bline (off / 128) with
  | some b => barByte b (off % 128)
  | .none => mapGet 0 t.win off

def Team.setByte (t : Team) (off : Nat) (b : Byte) : Team := { t with win := mapSet 0 t.win off b }

-- STAMPED LINES (R155)
/-- The versions a home retains, earliest first: at first one version of zeros. -/
def State.versions (s : State) (line : Nat) : List Version := mapGet [Version.zero] s.lines line

/-- The order of versions (R155). -/
def versionBefore (a b : Version) : Bool :=
  let k := fun (v : Version) => ((v.stamp.toNat * 2 ^ 16 + v.pkg) * 2 ^ 16 + v.core) * 2 ^ 16 + v.slot
  decide (k a < k b)

def insertVersion (v : Version) : List Version → List Version
  | [] => [v]
  | w :: ws => if versionBefore v w then v :: w :: ws else w :: insertVersion v ws

/-- A version is retained, and a fifth discards the earliest. -/
def State.addVersion (s : State) (line : Nat) (v : Version) : State :=
  let vs := insertVersion v (s.versions line)
  { s with lines := mapSet [Version.zero] s.lines line (if 4 < vs.length then vs.drop 1 else vs) }

/-- The version with the largest stamp that has reached the home (R141). -/
def State.latestVersion (s : State) (line : Nat) : Version := (s.versions line).getLastD Version.zero

-- ALIAS VIEWS (R75, R76, R280)
/-- The element format of an alias region: bits [59:56] of its scale word; `none` is MXINT8 (bit 60). DESIGN
CHOICE (log entry 80): a type code that names no MX element. -/
def regionFmt (r : Region) : Option Fmt :=
  if r.scale.getLsbD 60 then none else fmtOf (tysOf.getD (bitsAt r.scale.toNat 56 4) .b32)
where
  tysOf : List Ty := [.i32, .n32, .i64, .n64, .f32, .bf16, .f16, .e4m3, .e5m2, .e3m2, .e2m3, .e2m1, .i8, .n8, .i16, .b32]

/-- Bits of an element of a block (R59). -/
def mxBits (fm : Option Fmt) : Nat := match fm with | some f => f.bits | none => 8

/-- Where block b of a region lies: its first bit in the element array, and its scale byte. -/
def blockBase (r : Region) (b : Nat) : Nat := r.elems.toNat + b * (4 * mxBits (regionFmt r))
def scaleAddr (r : Region) (b : Nat) : Nat := r.scale.toNat % 2 ^ 52 + b

/-- The value of element e of a region as the controller decodes it. -/
def viewValue (s : State) (r : Region) (e : Nat) : Fv :=
  let fm := regionFmt r
  let w := mxBits fm
  let bit := e % 32 * w
  let raw := s.memNat (blockBase r (e / 32) + bit / 8) 2 / 2 ^ (bit % 8) % 2 ^ w
  mxElem fm raw (s.memByte (scaleAddr r (e / 32))).toNat

/-- The bf16 code that a view read gives (R75): saturating at ±0x7F7F, NaN as 0x7FC0. DEDUCED (log
entry 78): an element's own NaN, too, as 0x7FC0. -/
def bf16Of (v : Fv) : Nat :=
  match v with
  | .nan .. => 0x7FC0
  | v =>
    let c := (roundTo .bf16 .rne 0 (exactOf v)).1
    if c % 2 ^ 15 = 0x7F80 then c - 1 else c

def viewRead (s : State) (r : Region) (e : Nat) : Nat := bf16Of (viewValue s r e)

/-- The whole of R76 for one block: elements and codes written. -/
def viewWriteBlock (s : State) (r : Region) (b : Nat) (ws : List (Nat × Nat)) : State :=
  let fm := regionFmt r
  let w := mxBits fm
  let vals := (List.range 32).map fun i =>
    match ws.find? (fun p => p.1 == i) with
    | some p => match Fmt.bf16.read p.2 with
                | .inf neg => Fmt.bf16.read (if neg then 0xFF7F else 0x7F7F)
                | v => v
    | none => Fmt.bf16.read (viewRead s r (b * 32 + i))
  let bad := vals.any Fv.isNaN
  let amax := vals.foldl (fun a v => magMax a (mxMag v)) (0, 0)
  let sc := if bad then 0xFF else mxScale fm amax
  let codes := vals.map fun v => if bad then 0 else (mxQuant fm .rne 0 sc v).1
  let block := codes.foldr (fun c a => c % 2 ^ w + a * 2 ^ w) 0
  (s.setMemNat (blockBase r b) (4 * w) block).setMemByte (scaleAddr r b) (BitVec.ofNat 8 sc)

/-- A region of a function. -/
def State.region (s : State) (k : Nat) : Region := mapGet Region.none (s.fn (k / 16)).regions (k % 16)

/-- The region of a function that holds a virtual address. -/
def State.regionAt (s : State) (fn va : Nat) : Option Nat :=
  (List.range 16).find? fun k =>
    let r := s.region (16 * fn + k)
    decide (r.vbase.toNat ≤ va ∧ va < r.vbase.toNat + r.len.toNat)

-- BYTES AT THEIR HOMES (R229 fact 4)
/-- A byte read at its home; a byte of a basic page is read through the registers, not here. -/
def State.byteAtHome (s : State) : Place → Byte
  | .vault team off => (s.team team).byte off
  | .mem a => s.memByte a
  | .stamped a => ((s.latestVersion (a / 64)).bytes.getD (a % 64) 0)
  | .view k off => byteAt (viewRead s (s.region k) (off / 2)) (off % 2)
  | .page _ _ => 0

/-- `new` in the bits of `en`, `old` elsewhere (R78). -/
def mergeByte (en new old : Byte) : Byte := (new &&& en) ||| (old &&& ~~~en)

/-- One byte written at its home. A barrier line's words are not written (R151), and stamped lines, views and pages are
written by operations of their own. -/
def State.writeByte (s : State) (b : ByteWrite) : State :=
  match b.place with
  | .vault team off =>
    s.updTeam team fun t =>
      match t.bline (off / 128) with
      | some _ => t
      | none => t.setByte off (mergeByte b.en b.val (t.byte off))
  | .mem a => s.setMemByte a (mergeByte b.en b.val (s.memByte a))
  | _ => s

-- ERRORS FOUND ON A READ (R225, R340)
/-- The first byte of some places whose read finds an error: an injected vault word, or a poisoned granule. -/
def State.badRead (s : State) (ps : List Place) : Option Place :=
  ps.find? fun p => match p with
    | .vault tk off =>
      s.inject.arm && s.inject.team == teamIndex tk && s.inject.off == off / 4 &&
      s.inject.fn == (s.launch (teamLaunch tk)).fn && s.inject.ctx == (s.launch (teamLaunch tk)).ctx
    | .mem a => s.poisoned.contains (granule a)
    | .stamped a => s.poisoned.contains (granule a)
    | .view k off =>
      let r := s.region k
      let e := off / 2
      s.poisoned.contains (granule (blockBase r (e / 32))) || s.poisoned.contains (granule (scaleAddr r (e / 32)))
    | .page _ _ => false

/-- TARG of an error found on a read (R332): the window offset of the word, or the address of the poisoned granule. -/
def State.errorArg (s : State) (p : Place) : Nat :=
  match p with
  | .vault _ off => off / 4 * 4
  | .mem a => granule a
  | .stamped a => granule a
  | .view k off =>
    let block := granule (blockBase (s.region k) (off / 64))
    if s.poisoned.contains block then block else granule (scaleAddr (s.region k) (off / 64))
  | .page _ _ => 0

/-- What the group that reads, by an instruction at `pc`, or the cluster that owns the word, meets. -/
def State.raiseRead (s : State) (gk : Nat) (pc : DWord) (p : Place) : State :=
  let code := match p with | .vault .. => trapLsUncorr | _ => trapHbmUncorr
  let s := (s.trace gk 3 (code * 2 ^ 56 + s.imageOff gk pc)).setDetail gk (BitVec.ofNat 64 (s.errorArg p)) 0
  match p with
  | .vault tk off => s.findsWord tk off (s.group gk).code2
  | _ => s.fatalTrap gk code

-- TRANSLATION (R276)
/-- Index of a level in a virtual address. -/
def walkIndex (level va : Nat) : Nat := if level = 0 then bitsAt va 16 5 else bitsAt va (12 + 9 * level) 9

/-- Bytes a leaf of a level maps. -/
def leafSize (level : Nat) : Nat := if level = 2 then 2 ^ 30 else if level = 1 then 2 ^ 21 else 2 ^ 16

/-- Whether the bits of an entry are a forbidden combination at its level. -/
def badEntry (level e : Nat) : Bool :=
  let leaf := bitOf e 1
  let tgt := bitsAt e 6 2
  let bf := bitOf e 5
  let stmp := bitOf e 4
  !bitOf e 0 || bitsAt e 52 12 != 0 || (leaf && 3 ≤ level) || (!leaf && level == 0) ||
  (leaf && ((bf || stmp) && tgt != 0 || (bf && stmp) || (tgt == 3 && level != 0))) || (!leaf && tgt == 3)

/-- The table that an entry of a level names. -/
def tableOf (level e : Nat) : Nat :=
  let align := if level = 1 then 256 else 4096
  bitsAt e 6 2 * 2 ^ 52 + bitsAt e 8 44 * 256 / align * align

/-- The walk from a level down; the level of the entry that fails, or the translation of the 64 KiB page. -/
def walkFrom (s : State) (va : Nat) : Nat → Nat → Except Nat Tr
  | 0, _ => .error 0
  | level + 1, table =>
    let e := s.memNat (table + 8 * walkIndex level va) 8
    let pa := bitsAt e 8 44 * 256
    let tgt := bitsAt e 6 2
    if badEntry level e then .error level
    else if bitOf e 1 then
      let base := pa / leafSize level * leafSize level + va % leafSize level / 2 ^ 16 * 2 ^ 16
      .ok { addr := tgt * 2 ^ 52 + base, bf := bitOf e 5, stmp := bitOf e 4, x := bitOf e 3, w := bitOf e 2,
            basic := tgt == 3 }
    else walkFrom s va level (tableOf level e)

/-- The level of the entry at which a walk ends. -/
def walkLevel (s : State) (va : Nat) : Nat → Nat → Nat
  | 0, _ => 0
  | level + 1, table =>
    let e := s.memNat (table + 8 * walkIndex level va) 8
    if badEntry level e || bitOf e 1 then level else walkLevel s va level (tableOf level e)

/-- The entries of a table that are not all zero. -/
def State.tableEntries (s : State) (table size : Nat) : List Nat :=
  (((s.mem.filter fun c => decide (table ≤ c.1 ∧ c.1 < table + size)).map fun c => c.1 / 8 * 8).eraseDups).map fun a => s.memNat a 8

/-- Whether a device address lies in the tables that a table of a level leads to. -/
def State.inTables (s : State) (a : Nat) : Nat → Nat → Bool
  | 0, _ => false
  | level + 1, table =>
    let size := if level = 0 then 256 else 4096
    decide (table ≤ a ∧ a < table + size) ||
    (s.tableEntries table size).any fun e => !badEntry level e && !bitOf e 1 && s.inTables a level (tableOf level e)

/-- Whether a table of a level leads to a stamped page. -/
def State.hasStamped (s : State) : Nat → Nat → Bool
  | 0, _ => false
  | level + 1, table =>
    (s.tableEntries table (if level = 0 then 256 else 4096)).any fun e =>
      !badEntry level e && if bitOf e 1 then bitOf e 4 else s.hasStamped level (tableOf level e)

/-- The translation of a page of a context, an alias page only within an enabled region (R280). -/
def State.walkPage (s : State) (ck page : Nat) : Except Nat Tr :=
  match walkFrom s (page * 2 ^ 16) 5 (s.ctx ck).root with
  | .error l => .error l
  | .ok t => if t.bf && (s.regionAt (ck / 16) (page * 2 ^ 16)).isNone then .error (walkLevel s (page * 2 ^ 16) 5 (s.ctx ck).root)
             else .ok t

/-- A translation held in a core's buffer, or in its bay's (R277). -/
def State.lookup (s : State) (core ck page : Nat) : Option Tr :=
  let hit := fun (l : List TlbEntry) => (l.find? fun e => e.ctx == ck && e.page == page).map (·.tr)
  match hit (s.core core).tlb with
  | some t => some t
  | none => hit (s.bay (bayOf core)).tlb

/-- A new entry of a buffer of `cap` entries; a full buffer drops one (log entry 9). -/
def tlbInsert (n cap : Nat) (e : TlbEntry) (l : List TlbEntry) : List TlbEntry :=
  let l := l.filter fun x => !(x.ctx == e.ctx && x.page == e.page)
  if l.length < cap then e :: l else e :: l.eraseIdx (Config.evictEntry n l.length % l.length)

def State.fillTlb (s : State) (core : Nat) (e : TlbEntry) : State :=
  let n := s.frees
  let s := s.updCore core fun c => { c with tlb := tlbInsert n 64 e c.tlb }
  let s := s.updBay (bayOf core) fun b => { b with tlb := tlbInsert (n + 1) 2048 e b.tlb }
  { s with frees := n + 2 }

/-- The place of a byte of a virtual address under a translation; an alias page needs its region. -/
def State.placeOf (s : State) (fn : Nat) (t : Tr) (va : Nat) : Option Place :=
  let off := va % 2 ^ 16
  if t.basic then some (.page fn off)
  else if t.bf then
    match s.regionAt fn va with
    | some k => some (.view (16 * fn + k) (va - (s.region (16 * fn + k)).vbase.toNat))
    | none => none
  else if t.stmp then some (.stamped (t.addr + off))
  else some (.mem (t.addr + off))

/-- The walkers of a die in use (R277). -/
def State.walksOn (s : State) (die : Nat) : Nat :=
  (s.walks.filter fun w => match w.joined with
                            | (gk, _) :: _ => dieOf (s.groupCore (s.group gk)) == die
                            | [] => false).length

/-- A group's miss joins a walk in flight for the page, starts one, or waits for a walker. -/
def State.joinWalk (s : State) (ck page kind gk : Nat) (m : Mask) : State :=
  if s.walks.any (fun w => w.ctx == ck && w.page == page) then
    { s with walks := s.walks.map fun w =>
        if w.ctx == ck && w.page == page then
          { w with joined := if w.joined.any (fun p => p.1 == gk && p.2 == m) then w.joined else w.joined ++ [(gk, m)] }
        else w }
  else if s.walksOn (dieOf (s.groupCore (s.group gk))) < 64 then
    { s with walks := s.walks ++ [{ ctx := ck, page := page, kind := kind, joined := [(gk, m)], held := none }] }
  else s

end Sys2Proof.Machine
end

