-- ==== Sys2Proof/Machine/Access.lean ====
section
/-! DEFINITION. Memory accesses before they leave a group: effective addresses and the swizzle (R27, R28, R136), the checks of R138 in their order, waits for walks, counts, acquires and empty lines (R139, R140, R147, R204), and the demotion of lanes (R112). -/

namespace Sys2Proof.Machine

-- ADDRESSES
/-- base + sext32(index) × scale + sext40(OFF), modulo 2^64 (R27). -/
def effAddr (x : View) (l : Nat) : Nat :=
  (BitVec.ofNat 64 (readAs x .n64 x.f.a l) +
   BitVec.ofInt 64 (signedNat 32 (readAs x .n32 x.f.b l) * (2 ^ dIS x.f : Nat)) + dOFF x.f).toNat

/-- base + OFF, of an entry without an index: every lane's (R166, R168, R176). -/
def baseAddr (x : View) : Nat := (BitVec.ofNat 64 (uniform64 x x.f.a) + dOFF x.f).toNat

/-- R28: pattern k replaces address bits [6:2]. -/
def swizzle (k a : Nat) : Nat :=
  if k = 0 then a
  else a / 128 * 128 + (bitsAt a 2 5 ^^^ (bitsAt a 7 5 * (2 * k - 1)) % 32) * 4 + a % 4

/-- The lanes whose accesses an instruction performs: one, for a uniform instruction (R135). -/
def accessLanes (x : View) : List Nat := if isS x.f.d then [x.low] else maskLanes x.act

/-- The bytes of an element: its first byte, how many, and the bit it starts at (R56, R137). -/
def elemSpan (bits ea : Nat) : Nat × Nat × Nat :=
  if bits < 8 then (ea * bits / 8, (ea * bits % 8 + bits + 7) / 8, ea * bits % 8) else (ea, bits / 8, 0)

-- CHECKS (R138)
/-- What an access asks of an address. -/
structure Acc where
  space   : Nat               -- 0 ls, 1 cw, 2 g
  bits    : Nat               -- width
  sw      : Nat               -- swizzle pattern
  write   : Bool              -- writes memory
  atomic  : Bool              -- is performed at an MSAU or vault: no bulk tier, host memory, alias or stamped page
  stamped : Bool              -- stst and rdat: a stamped page and no other
  kind    : Nat               -- kind of its fault record (R278)
  deriving DecidableEq, Repr

/-- One lane's element, located. -/
structure Loc where
  lane   : Nat
  ea     : Nat
  places : List Place
  bit    : Nat
  deriving DecidableEq, Repr

/-- A failed check: its place in the order of R138, the lane, the trap and its detail; a page fault carries its page. -/
structure Bad where
  step : Nat
  lane : Nat
  code : Nat
  arg  : Nat
  deriving DecidableEq, Repr

def badBefore (a b : Bad) : Bool := a.step < b.step || (a.step == b.step && a.lane < b.lane)

def firstBad : Option Bad → List Bad → Option Bad
  | r, [] => r
  | none, b :: bs => firstBad (some b) bs
  | some a, b :: bs => firstBad (some (if badBefore b a then b else a)) bs

/-- The team of a cluster that a cw address names, if its reserved bits, rank and X are right (R217). -/
def State.cwTeam (s : State) (g : Group) (a : Nat) : Option Nat :=
  let l := s.launchOf g
  let rank := bitsAt a 24 4
  let tk := teamKey (teamLaunch g.team) (teamIndex g.team / l.size * l.size + rank)
  if a < 2 ^ 32 ∧ bitsAt a 28 3 = 0 ∧ bitsAt a 21 3 = 0 ∧ rank < l.size ∧
     bitOf a 31 = (dieOf (s.team tk).core != dieOf (s.groupCore g)) then some tk else none

/-- Whether a virtual address lies in the context's copy of a multicast group (R290). -/
def State.inCopy (s : State) (ck va : Nat) : Bool :=
  s.members.any fun m => match m.2 with
    | some c => ctxKey c.fn c.ctx == ck && decide (c.wbase ≤ va ∧ va < c.wbase + c.wlen)
    | none => false

/-- One byte of g: where it lies, or the step and trap it fails. -/
def placeG (s : State) (core ck : Nat) (acc : Acc) (va : Nat) : Except (Nat × Nat) Place :=
  if 2 ^ 57 ≤ va then .error (2, trapAccess) else
  match s.lookup core ck (va / 2 ^ 16) with
  | none => .error (4, trapPageFault)
  | some t =>
    match s.placeOf (ck / 16) t va with
    | none => .error (4, trapPageFault)
    | some p =>
      if t.bf && !(acc.bits == 16 || acc.bits == 32) then .error (1, trapMisalign)
      else if t.x || (acc.write && !t.w) || (acc.stamped != t.stmp && (acc.stamped || acc.write)) ||
              (acc.atomic && (t.bf || t.stmp || t.basic || 2 ^ 52 ≤ t.addr)) || (acc.write && s.inCopy ck va) || s.inSlots t.addr
      then .error (5, trapAccess)
      else .ok p

/-- One byte of a vault window: bound, then barrier line (R136, R138). -/
def placeV (s : State) (tk lsz : Nat) (acc : Acc) (off : Nat) : Except (Nat × Nat) Place :=
  if lsz ≤ off then .error (3, trapLsBound)
  else if acc.write && ((s.team tk).bline (off / 128)).isSome then .error (6, trapBarrierClobber)
  else .ok (.vault tk off)

/-- One byte of any space. -/
def placeByte (s : State) (g : Group) (acc : Acc) (a : Nat) : Except (Nat × Nat) Place :=
  let l := s.launchOf g
  match acc.space with
  | 0 => placeV s g.team l.r.lsz acc a
  | 1 => match s.cwTeam g a with
         | none => .error (2, trapAccess)
         | some tk => placeV s tk l.r.lsz acc (a % 2 ^ 21)
  | _ => placeG s (s.groupCore g) l.ctxKey acc a

/-- The detail a failed check reports: an effective address, a window offset, a line or a page (R332). -/
def badArg (acc : Acc) (ea first : Nat) (code : Nat) : Nat :=
  if code = trapLsBound then (if acc.space = 1 then first % 2 ^ 21 else first)
  else if code = trapBarrierClobber then first / 128 * 128
  else if code = trapPageFault then first / 2 ^ 16
  else ea

/-- One lane's element against every check. -/
def locate (s : State) (g : Group) (acc : Acc) (lane ea : Nat) : Except Bad Loc :=
  if 8 ≤ acc.bits && ea % (acc.bits / 8) != 0 then .error { step := 1, lane := lane, code := trapMisalign, arg := ea } else
  let sp := elemSpan acc.bits ea
  let addrs := (List.range sp.2.1).map fun i => sp.1 + i
  let rs := addrs.map fun a => (a, placeByte s g acc (swizzle acc.sw a))
  let bads := rs.filterMap fun r => match r.2 with
    | .error (step, code) => some { step := step, lane := lane, code := code, arg := badArg acc ea r.1 code : Bad }
    | .ok _ => none
  match firstBad none bads with
  | some b => .error b
  | none => .ok { lane := lane, ea := ea, bit := sp.2.2
                  places := rs.filterMap fun r => match r.2 with | .ok p => some p | .error _ => none }

/-- The outcome of the checks over every lane. -/
inductive Access where
  | locs (ls : List Loc)
  | trap (code arg lane : Nat)
  | miss (pages : List Nat)
  deriving DecidableEq, Repr

/-- R138: the first trap of its order that any lane fails, with the lowest lane; a miss walks first. -/
def accessAll (s : State) (g : Group) (acc : Acc) (eas : List (Nat × Nat)) : Access :=
  let rs := eas.map fun p => locate s g acc p.1 p.2
  let bads := rs.filterMap fun r => match r with | .error b => some b | .ok _ => none
  match firstBad none bads with
  | none => .locs (rs.filterMap fun r => match r with | .ok l => some l | .error _ => none)
  | some b =>
    if b.code = trapPageFault then
      .miss ((bads.filter (·.code == trapPageFault)).map (·.arg)).eraseDups
    else .trap b.code b.arg b.lane

/-- The pages a path misses: walks begin and the path waits (R277). -/
def waitWalks (x : View) (kind : Nat) (pages : List Nat) : Eff :=
  .wait (pages.foldl (fun s p => s.joinWalk (x.s0.launchOf x.g).ctxKey p kind x.gk x.path) x.s0) .walk

/-- The checks of several accesses of one instruction as one (R169, R176): every page that misses with the kind of its record. -/
def withAccesses (x : View) (reqs : List (Acc × List (Nat × Nat))) (k : List (List Loc) → Eff) : Eff :=
  let rs := reqs.map fun r => r.2.map fun p => locate x.s0 x.g r.1 p.1 p.2
  let badsOf := fun (l : List (Except Bad Loc)) => l.filterMap fun r => match r with | .error b => some b | .ok _ => none
  match firstBad none (rs.map badsOf).flatten with
  | none => k (rs.map fun l => l.filterMap fun r => match r with | .ok c => some c | .error _ => none)
  | some b =>
    if b.code = trapPageFault then
      let ck := (x.s0.launchOf x.g).ctxKey
      .wait ((List.zip reqs rs).foldl (fun s p =>
        (((badsOf p.2).filter (·.code == trapPageFault)).map (·.arg)).eraseDups.foldl
          (fun s page => s.joinWalk ck page p.1.1.kind x.gk x.path) s) x.s0) .walk
    else .trap b.code (BitVec.ofNat 64 b.arg) b.lane

/-- An access after its checks. -/
def withAccess (x : View) (acc : Acc) (eas : List (Nat × Nat)) (k : List Loc → Eff) : Eff :=
  match accessAll x.s0 x.g acc eas with
  | .trap code arg lane => .trap code (BitVec.ofNat 64 arg) lane
  | .miss pages => waitWalks x acc.kind pages
  | .locs ls => k ls

-- COUNTS (R147)
def distinct (l : List Nat) : Nat := l.eraseDups.length

def isRmwLoad (e : Store) : Bool := match e.op with | .rmw _ _ _ _ _ (some _) _ => true | _ => false
def isMark (e : Store) : Bool := match e.op with | .mark .. => true | _ => false

/-- A fabric access that is not yet performed at a scope (R228): an mcst is performed below pod scope when it is sent, a
sequenced store when the crier has numbered it. -/
def Pending.dueAt (p : Pending) (scope : Nat) : Bool :=
  p.kind != 3 && (5 ≤ scope || (p.kind != 0 && !p.placed))

/-- The four outstanding counts of a group, by class bit. -/
def State.counts (s : State) (gk : Nat) : List Nat :=
  let g := s.group gk
  let pend := s.pendings.filter (·.grp == gk)
  [ distinct (g.loads.map (·.seq) ++ (g.stores.filter isRmwLoad).map (·.seq) ++
      (pend.filter (fun p => (p.kind == 2 || p.kind == 3) && !p.replied)).map (·.seq)) + (if g.rdat.isSome then 1 else 0),
    distinct ((g.stores.filter (fun e => !isMark e)).map (·.seq) ++ g.msreds.map (·.seq) ++
      (pend.filter (fun p => p.kind != 3)).map (·.seq)),
    (s.copies.filter (·.grp == gk)).length,
    ((s.teamOf g).queue.filter (·.grp == gk)).length ]

/-- Whether the counts of the named classes (bits) are all at most n. -/
def State.countsAtMost (s : State) (gk classes n : Nat) : Bool :=
  (List.range 4).all fun i => !bitOf classes i || (s.counts gk).getD i 0 ≤ n

/-- An outstanding .acq of wider scope than the group holds back every later access (R140). -/
def Group.acquiring (g : Group) : Bool :=
  g.loads.any (fun l => 2 ≤ l.acq) || g.stores.any (fun e => 2 ≤ e.acq)

/-- The same for a plain load of memory, which may read ahead of an .acq load of team or cluster scope (R230, `Load.behind`). -/
def Group.acquiringWide (g : Group) : Bool :=
  g.loads.any (fun l => 4 ≤ l.acq) || g.stores.any (fun e => 2 ≤ e.acq)

/-- Whether a group is the only one within a scope of teams: its team, or its cluster. -/
def State.alone (s : State) (gk scope : Nat) : Bool :=
  let tk := (s.group gk).team
  let l := s.launch (teamLaunch tk)
  let tks := if scope = 2 then [tk] else clusterTeams l (teamLaunch tk) (teamIndex tk / l.size)
  tks.all fun t => (s.teamGroups t).all fun k => k == gk || !(s.group k).present

/-- The scope at which an ordering modifier acts: a promise of team or cluster scope binds towards the groups within it (R230),
so where there are none it acts at group scope (log entry 7). -/
def View.scope (x : View) (code : Nat) : Nat := if (code = 2 || code = 3) && x.s0.alone x.gk code then 1 else code

/-- Issue of a memory instruction of the named classes that an acquire does or does not hold back. -/
def withIssueIf (x : View) (held : Bool) (classes : Nat) (k : Eff) : Eff :=
  if held then .wait x.s0 .drain
  else if !x.s0.countsAtMost x.gk classes 62 then .wait x.s0 .count
  else k

/-- Issue of a memory instruction of the named classes. -/
def withIssue (x : View) (classes : Nat) (k : Eff) : Eff := withIssueIf x x.g.acquiring classes k

-- FULL/EMPTY LINES (R139, R221)
/-- The vault lines of some places. -/
def linesOf (ps : List Place) : List (Nat × Nat) :=
  (ps.filterMap fun p => match p with | .vault t o => some (t, o / 128) | _ => none).eraseDups

/-- An entry of the group's own FIFOs that changes a line's attributes, or a copy's mark on any line of the same vault: no later
access of the group reaches that vault before it (R221). -/
def touchesLine (e : Store) (ls : List (Nat × Nat)) : Bool :=
  match e.op with
  | .fset _ t l => ls.contains (t, l)
  | .bline _ t l _ => ls.contains (t, l)
  | .mark _ t _ => ls.any (·.1 == t)
  | _ => false

def State.emptyLines (s : State) (ls : List (Nat × Nat)) : List (Nat × Nat) :=
  ls.filter fun p => (s.team p.1).isEmpty p.2

/-- The group's own attribute changes come first (R221). -/
def withOwnMarks (x : View) (ls : List (Nat × Nat)) (k : Eff) : Eff :=
  if x.g.stores.any (fun e => touchesLine e ls) then .wait x.s0 .drain else k

/-- A loading instruction stalls while a line it reads is empty. -/
def withFullLines (x : View) (ls : List (Nat × Nat)) (k : Eff) : Eff :=
  withOwnMarks x ls (if x.s0.emptyLines ls = [] then k else .wait x.s0 (.empty (dSP x.f == 1) (x.s0.emptyLines ls)))

/-- The path an access takes (R229 fact 1). -/
def pathOf (space : Nat) : Path := if space = 0 then .ls else if space = 1 then .cw else .g

-- DEMOTION (R112)
/-- Lanes widened to whole segments of a bound group. -/
def Group.segmentsOf (g : Group) (m : Mask) : Mask :=
  if g.binding = 1 then m
  else maskOf fun l => segmentOf g.binding l &&& m != 0

/-- Lanes take a place in the order of demotions. -/
def Group.demoteTo (g : Group) (place : Nat) (m : Mask) : Group :=
  g.updLanes (g.segmentsOf m) fun x => { x with standing := place }

/-- Lanes demoted by one instruction share a new place behind every earlier one. -/
def Group.demote (g : Group) (m : Mask) : Group :=
  if m = 0 then g else { g.demoteTo (g.places + 1) m with places := g.places + 1 }

def Group.undemote (g : Group) (m : Mask) : Group := g.demoteTo 0 m

end Sys2Proof.Machine
end

