-- ==== Sys2Proof/Machine/Barrier.lean ====
section
/-! DEFINITION. Team and cluster barriers: arrivals, the test of a phase, releases, and the instructions bar and bline (R151 to R153, R207 to R211, R223); before them the join tests of a group (R121). -/

namespace Sys2Proof.Machine

-- JOINS (R121)
/-- The joins of a group at which lanes are parked, by address and register. -/
def Group.joins (g : Group) : List (DWord × Nat) :=
  (Machine.lanes.filterMap fun l => match (g.lane l).cond with
    | .join j => some ((g.lane l).pc, j)
    | _ => .none).eraseDups

/-- W of R121. -/
def Group.parkedAt (g : Group) (k : DWord × Nat) : Mask :=
  maskOf fun l => (g.lane l).cond == .join k.2 && (g.lane l).pc == k.1

/-- Lanes parked at any join or barrier. -/
def Group.parked (g : Group) : Mask :=
  maskOf fun l => match (g.lane l).cond with | .join _ => true | .barrier .. => true | _ => false

/-- The test of R121: none stays parked; otherwise whether JLOST is set. -/
def Group.joinTest (g : Group) (k : DWord × Nat) : Option Bool :=
  let op := g.jreg k.2 &&& g.live &&& ~~~ g.parkedAt k
  if op = 0 then some false else if op &&& ~~~ g.parked = 0 then some true else .none

def Group.releaseJoin (g : Group) (k : DWord × Nat) (w : Mask) (lost : Bool) : Group :=
  (g.updLanes w fun y =>
    { y with pc := k.1 + 8, standing := 0, cond := .voting, flags := if lost then y.flags ||| flagJLOST else y.flags }).setJ k.2 0

/-- Every join of a group tested at once, on the state from before. -/
def Group.testJoins (g : Group) : Group :=
  g.joins.foldl (fun h k => match g.joinTest k with
    | some lost => h.releaseJoin k (g.parkedAt k) lost
    | .none => h) g

-- BARRIERS
/-- The barrier line that lies at an offset of a team's window. -/
def State.barLine (s : State) (tm off : Nat) : Option BarLine := (s.team tm).bline (off / 128)

/-- A team's record of a line, if it belongs to the line's current phase (R207). -/
def State.barRec (s : State) (tk : Nat) (cw : Bool) (tm off : Nat) : Option BarRec :=
  match s.barLine tm off with
  | none => none
  | some b => (s.team tk).recs.find? fun r => r.cw == cw && r.team == tm && r.off == off && r.phase == b.phase

def State.putRec (s : State) (tk : Nat) (r : BarRec) : State :=
  s.updTeam tk fun t =>
    { t with recs := r :: t.recs.filter fun q => !(q.cw == r.cw && q.team == r.team && q.off == r.off) }

/-- A team that was placed and whose groups have all ended (R117). -/
def State.teamEnded (s : State) (tk : Nat) : Bool :=
  (s.team tk).present && (s.teamGroups tk).all fun k => !(s.group k).present

/-- A group whose live lanes are all recorded (R207). -/
def groupArrived (g : Group) (r : BarRec) : Bool :=
  g.present && g.live != 0 && g.live &&& ~~~ (mapGet 0 r.masks g.grp) = 0

/-- The lanes of a team that are parked at a line for the phase before `phase` are released (R112, R209). The joins of their groups are tested at the same time, on the state in which those lanes are still parked (R121). -/
def State.releaseLanes (s : State) (tk : Nat) (cw : Bool) (tm off : Nat) (phase : Word) : State :=
  (s.teamGroups tk).foldl (fun s gk => s.updGroup gk fun g =>
    let out := maskOf fun l => match (g.lane l).cond with
      | .barrier c t o p _ => c == cw && t == tm && o == off && p + 1 == phase
      | _ => false
    if out = 0 then g else g.testJoins.updLanes out fun x => { x with cond := .voting, standing := 0 }) s

/-- The teams of the cluster of a team. -/
def State.clusterOfTeam (s : State) (tk : Nat) : List Nat :=
  let l := s.launch (teamLaunch tk)
  clusterTeams l (teamLaunch tk) (teamIndex tk / l.size)

/-- A phase completes (R209): for a team barrier its lanes leave at once, for a cluster barrier a release goes to each team
(R208). -/
def State.completePhase (s : State) (tm off : Nat) (b : BarLine) (cw : Bool) : State :=
  let phase := b.phase + 1
  let s := s.updTeam tm fun t => t.setBline (off / 128) (some { b with arrivals := 0, phase := phase, arrived := [] })
  if cw then
    { s with net := s.net ++ (s.clusterOfTeam tm).map fun tk =>
        { to_ := s.pkg, from_ := s.pkg, msg := .barRelease tm off tk phase } }
  else s.releaseLanes tm false tm off phase

/-- The arrivals of a line are groups below 32 and ranks from 32 upward. -/
def rankArrival (rank : Nat) : Nat := 32 + rank

/-- The arrival message of a rank is on its way to a line (R208). -/
def State.arriving (s : State) (tm off rank : Nat) : Bool :=
  s.net.any fun m => match m.msg with | .barArrive t o r _ => t == tm && o == off && r == rank | _ => false

/-- The test of R209: arrivals and units that ended without arriving reach the expected count. -/
def State.testLine (s : State) (tm off : Nat) : State :=
  match s.barLine tm off with
  | none => s
  | some b =>
    let cw := b.arrived.any (32 ≤ ·)
    let gone :=
      if cw then ((s.clusterOfTeam tm).mapIdx fun r tk => (rankArrival r, s.teamEnded tk && !s.arriving tm off r)).filter
        fun p => p.2 && !b.arrived.contains p.1
      else ((s.teamGroups tm).mapIdx fun i gk => (i, !(s.group gk).present)).filter fun p => p.2 && !b.arrived.contains p.1
    if 1 ≤ b.arrivals.toNat && b.expected.toNat ≤ b.arrivals.toNat + gone.length then s.completePhase tm off b cw else s

/-- Arrivals that a team's record now makes complete are counted (R207, R208). -/
def State.settleLine (s : State) (tk : Nat) (cw : Bool) (tm off : Nat) : State :=
  match s.barRec tk cw tm off, s.barLine tm off with
  | some r, some b =>
    if cw then
      let new := ((s.teamGroups tk).filter fun k => groupArrived (s.group k) r).map fun k => (s.group k).grp
      let r := { r with arrived := r.arrived ++ new.filter (!r.arrived.contains ·) }
      let s := s.putRec tk r
      if !r.sent && !r.arrived.isEmpty &&
         (s.teamGroups tk).all (fun k => !(s.group k).present || r.arrived.contains (s.group k).grp) then
        let s := s.putRec tk { r with sent := true }
        { s with net := s.net ++ [{ to_ := s.pkg, from_ := s.pkg
                                    msg := .barArrive tm off (teamIndex tk % (s.launch (teamLaunch tk)).size) r.phase }] }
      else s
    else
      let new := (s.teamGroups tk).filterMap fun k =>
        let g := s.group k
        if groupArrived g r && !b.arrived.contains g.grp then some g.grp else none
      let s := s.updTeam tm fun t => t.setBline (off / 128)
        (some { b with arrivals := b.arrivals + BitVec.ofNat 32 new.length, arrived := b.arrived ++ new })
      s.testLine tm off
  | _, _ => s

/-- When lanes or groups end, the lines of the cluster are settled and tested again (R123, R209). -/
def State.settleAll (s : State) (tk : Nat) : State :=
  let s := (s.team tk).recs.foldl (fun s r => s.settleLine tk r.cw r.team r.off) s
  (s.clusterOfTeam tk).foldl (fun s tm => (s.team tm).blines.foldl (fun s p => s.testLine tm (128 * p.1)) s) s

/-- The barrier lines of a team whose current phase holds a recorded lane (R210). -/
def State.openLines (s : State) (tk : Nat) : Nat :=
  ((s.team tk).recs.filter fun r =>
    (s.barRec tk r.cw r.team r.off).isSome && r.masks.any (fun p => p.2 != 0)).length

/-- The address of a barrier line as a program names it (R211, R217). -/
def State.lineAddr (s : State) (g : Group) (cw : Bool) (tm off : Nat) : Nat :=
  if cw then
    (if dieOf (s.team tm).core = dieOf (s.groupCore g) then 0 else 2 ^ 31) +
      teamIndex tm % (s.launchOf g).size * 2 ^ 24 + off
  else off

/-- Lanes park at a barrier; their program counters already hold the next instruction (R211). -/
def Group.parkAt (g : Group) (m : Mask) (cw : Bool) (tm off : Nat) (phase : Word) (until_ : Nat) (pc : DWord) : Group :=
  g.updLanes m fun x => { x with cond := .barrier cw tm off phase until_, pc := pc }

-- BAR AND BLINE
/-- The access that bar, fset, ftest and bline make of their line. -/
def lineAcc (x : View) (write : Bool) : Acc :=
  { space := dSP x.f, bits := 32, sw := dSW x.f, write := write, atomic := false, stamped := false, kind := 1 }

/-- The line that a uniform access names: its team, the offset of the line and the address. -/
def withLine (x : View) (write : Bool) (k : Nat → Nat → Nat → Eff) : Eff :=
  let ea := effAddr x x.low
  withAccess x (lineAcc x write) [(x.low, ea)] fun ls =>
    match linesOf (ls.foldr (fun l a => l.places ++ a) []) with
    | (tm, line) :: _ => k tm (128 * line) (ea / 128 * 128)
    | [] => .done x.s

/-- The low word of an s operand, or 0. -/
def sLow (x : View) (o : Opnd) : Word :=
  match o with
  | .s n => (x.sval n.toNat).setWidth 32
  | _ => 0

/-- An arrival, before any park: BARRIER_CLOBBER for a lane already recorded, BARRIER_LIMIT for a 17th line, otherwise the
record of R207. -/
def arrive (x : View) (cw : Bool) (tm off addr : Nat) (b : BarLine) (k : State → Eff) : Eff :=
  let tk := x.g.team
  let r := (x.s0.barRec tk cw tm off).getD { cw := cw, team := tm, off := off, phase := b.phase, masks := [], arrived := [], sent := false }
  let old := mapGet 0 r.masks x.g.grp
  if old &&& x.act != 0 then .trap trapBarrierClobber (BitVec.ofNat 64 addr) 0
  else if r.masks.all (fun p => p.2 == 0) && 16 ≤ x.s0.openLines tk then
    .trap trapBarrierLimit (BitVec.ofNat 64 addr) 0
  else k (x.s.putRec tk { r with masks := mapSet 0 r.masks x.g.grp (old ||| x.act) })

/-- bar (R153): a release of the group's earlier accesses of every class first (R208), then arrive, wait or both. -/
def barEff (x : View) : Eff :=
  let cw := dSP x.f == 1
  withLine x false fun tm off addr =>
    if x.g.acquiring || !x.s0.countsAtMost x.gk 15 0 then .wait x.s0 .drain else
    match x.s0.barLine tm off with
    | none => .trap trapAccess (BitVec.ofNat 64 (effAddr x x.low)) 0
    | some b =>
      let park := fun (s : State) (phase : Word) => s.updGroup x.gk fun g =>
        g.parkAt x.act cw tm off phase (x.s0.groupCyc x.g + (x.s0.launchOf x.g).watchdog) x.next
      match x.f.fn.toNat with
      | 1 =>
        arrive x cw tm off addr b fun s =>
          let s := match x.f.d with
            | .s n => s.updGroup x.gk fun g => g.setS n.toNat (b.phase.setWidth 64)
            | _ => s
          .done (s.settleLine x.g.team cw tm off)
      | 2 =>
        if b.phase == sLow x x.f.d then .jump (park x.s (sLow x x.f.d)) false else .done x.s
      | _ =>
        arrive x cw tm off addr b fun s => .jump ((park s b.phase).settleLine x.g.team cw tm off) false

/-- bline (R152, R223): the checks are made at issue, after the group's own earlier changes of the line. -/
def blineEff (init : Bool) (x : View) : Eff :=
  withLine x false fun tm off addr =>
    withOwnMarks x [(tm, off / 128)] (withIssue x 2 (
      let busy := match x.s0.barLine tm off with | some b => b.arrivals != 0 | none => false
      let bad := busy || (init && (sLow x x.f.d == 0 || (x.s0.team tm).isEmpty (off / 128)))
      if bad then .trap trapBarrierClobber (BitVec.ofNat 64 addr) 0
      else .done (x.put { x.g1 with
        seq := x.g.seq + 1
        stores := x.g1.stores ++ [{ seq := x.g.seq + 1, path := pathOf (dSP x.f), rel := 0, acq := 0, va := 0, kind := 0, opc := 0,
                                    ty := .i32, rval := 0, fwd := false, pc := x.pc, op := .bline init tm (off / 128) (sLow x x.f.d) }] })))

/-- bline applied at its vault: a fresh barrier line, or an ordinary line of zeros. -/
def State.applyBline (s : State) (init : Bool) (tm line : Nat) (count : Word) : State :=
  let s := s.updTeam tm fun t =>
    let t := (List.range 128).foldl (fun t i => t.setByte (128 * line + i) 0) t
    t.setBline line (if init then some { expected := count, arrivals := 0, phase := 0, arrived := [] } else none)
  (s.clusterOfTeam tm).foldl (fun s tk => s.updTeam tk fun t =>
    { t with recs := t.recs.filter fun r => !(r.team == tm && r.off == 128 * line) }) s

-- MEANINGS
def execBarSync (f : Form) (s : State) : Host.Outcome State Fault Refusal := runActing (.barSync f) f barEff s
def execBarArrive (f : Form) (s : State) : Host.Outcome State Fault Refusal := runActing (.barArrive f) f barEff s
def execBarWait (f : Form) (s : State) : Host.Outcome State Fault Refusal := runActing (.barWait f) f barEff s
def execBlineInit (f : Form) (s : State) : Host.Outcome State Fault Refusal := runActing (.blineInit f) f (blineEff true) s
def execBlineClr (f : Form) (s : State) : Host.Outcome State Fault Refusal := runActing (.blineClr f) f (blineEff false) s

-- EVENTS
/-- A lane that has been parked at a barrier for Lw cycles: every lane of its group parked at that line leaves and traps
(R211). TRESUME comes from the bar of the lane whose limit it is (log entry 19). -/
def execBarrierTimeout (gk lane : Nat) (s : State) : Host.Outcome State Fault Refusal :=
  let g := s.group gk
  let x := g.lane lane
  match x.cond with
  | .barrier cw tm off _ until_ =>
    if (s.teamOf g).stopped || s.groupCyc g < until_ then .next s else
    let m := maskOf fun l => match (g.lane l).cond with
      | .barrier c t o _ _ => c == cw && t == tm && o == off
      | _ => false
    let s := s.setGroup gk (g.updLanes m fun x => { x with cond := .voting })
    .next (s.takeTrap gk trapBarrierTimeout (BitVec.ofNat 64 (s.lineAddr g cw tm off)) 0 m (x.pc - 16) x.pc)
  | _ => .next s

/-- The message of an arrived team reaches the line's home (R208). -/
def execClusterBarrierArrival (i : Nat) (s : State) : Host.Outcome State Fault Refusal :=
  match s.net[i]? with
  | some { msg := .barArrive tm off rank _, .. } =>
    let s := { s with net := s.net.eraseIdx i }
    match s.barLine tm off with
    | none => .next s
    | some b =>
      let s := s.updTeam tm fun t => t.setBline (off / 128)
        (some { b with arrivals := b.arrivals + 1, arrived := b.arrived ++ [rankArrival rank] })
      .next (s.testLine tm off)
  | _ => .next s

/-- A release reaches a team of the cluster (R208): one that SSTOP has stopped takes it when it goes on (R348). -/
def execClusterBarrierRelease (i : Nat) (s : State) : Host.Outcome State Fault Refusal :=
  match s.net[i]? with
  | some { msg := .barRelease tm off tk phase, .. } =>
    let t := { s with net := s.net.eraseIdx i }
    if !(s.team tk).stopped then .next (t.releaseLanes tk true tm off phase)
    else if (s.team tk).dead || (s.launch (teamLaunch tk)).fatal.isSome then .next t
    else .next s
  | _ => .next s

end Sys2Proof.Machine
end

