-- ==== Sys2Proof/Machine/Fences.lean ====
section
/-! DEFINITION. Fences, wait counters and full/empty bits, opcodes 0xC8 to 0xCB (R147 to R150, R221). -/

namespace Sys2Proof.Machine

/-- Accesses of the store class not yet performed at a scope (R228): at group scope a store is performed when it has entered
its FIFO; at module scope and below an mcst once it is sent, and a sequenced store once the crier has numbered it. -/
def State.storesDue (s : State) (gk scope : Nat) : Bool :=
  let g := s.group gk
  decide (2 ≤ scope) &&
  (!g.stores.isEmpty || !g.msreds.isEmpty ||
   s.pendings.any fun p => p.grp == gk && p.dueAt scope)

/-- Accesses of the load class not yet performed at a scope (R228): a load and an mldr when bound, and from team scope upward one
bound to a store in the FIFO with that store; an atom, a cas and an mcsq.cas as the stores they are. -/
def State.loadsDue (s : State) (gk scope : Nat) : Bool :=
  let g := s.group gk
  !g.loads.isEmpty || g.rdat.isSome || s.pendings.any (fun p => p.grp == gk && p.kind == 3) ||
  (decide (2 ≤ scope) && (g.stores.any (fun e => e.fwd || isRmwLoad e) ||
    s.pendings.any fun p => p.grp == gk && p.kind == 2 && p.dueAt scope))

/-- Whether every earlier access of the named classes is performed at a scope (R148). -/
def State.performed (s : State) (gk classes scope : Nat) : Bool :=
  !(bitOf classes 0 && s.loadsDue gk scope) && !(bitOf classes 1 && s.storesDue gk scope) &&
  s.countsAtMost gk (classes / 4 * 4) 0

def fenceEff (x : View) : Eff :=
  if x.s0.performed x.gk x.f.x6.toNat x.f.fn.toNat then .done x.s else .wait x.s0 .drain

/-- n of wcnt (R149). -/
def wcntLimit (x : View) : Nat := if isImm x.f.a then x.f.x6.toNat else min (uniform32 x x.f.a) 63

def wcntEff (x : View) : Eff :=
  if x.s0.countsAtMost x.gk x.f.fn.toNat (wcntLimit x) then .done x.s else .wait x.s0 .count

/-- fset: each line once, in the group's store order; a bline of the group that is still on its way comes first (R223). -/
def fsetEff (x : View) : Eff :=
  withAccess x (lineAcc x true) ((maskLanes x.act).map fun l => (l, effAddr x l)) fun ls =>
    let lines := linesOf (ls.foldr (fun l a => l.places ++ a) [])
    withOwnMarks x lines (withIssue x 2 (.done (x.put { x.g1 with
      seq := x.g.seq + 1
      stores := x.g1.stores ++ lines.map fun p =>
        { seq := x.g.seq + 1, path := pathOf (dSP x.f), rel := 0, acq := 0, va := 0, kind := 0, opc := 0, ty := .i32, rval := 0,
          fwd := false, pc := x.pc, op := .fset (x.f.fn == 1) p.1 p.2 } })))

/-- A load of the group from some lines that is not yet bound: loads of one address on one path bind in issue order (R229
fact 3). -/
def Group.loadsFrom (g : Group) (ls : List (Nat × Nat)) : Bool := g.loads.any fun l => (linesOf l.places).any ls.contains

/-- ftest: whether each lane's line is full, after the group's own earlier changes of it and its earlier loads from it. -/
def ftestEff (x : View) : Eff :=
  withAccess x (lineAcc x false) ((maskLanes x.act).map fun l => (l, effAddr x l)) fun ls =>
    let lines := linesOf (ls.foldr (fun l a => l.places ++ a) [])
    withOwnMarks x lines (withIssue x 1 (
      if x.g.loadsFrom lines then .wait x.s0 .drain else
      .done (writeMask x (maskOf fun l => match ls.find? (·.lane == l) with
        | some c => (x.s0.emptyLines (linesOf c.places)).isEmpty
        | none => false))))

-- MEANINGS
def execFence (f : Form) (s : State) : Host.Outcome State Fault Refusal := runActing (.fence f) f fenceEff s
def execWcnt (f : Form) (s : State) : Host.Outcome State Fault Refusal := runActing (.wcnt f) f wcntEff s
def execFset (f : Form) (s : State) : Host.Outcome State Fault Refusal := runActing (.fset f) f fsetEff s
def execFtest (f : Form) (s : State) : Host.Outcome State Fault Refusal := runActing (.ftest f) f ftestEff s

end Sys2Proof.Machine
end

