-- ==== Sys2Proof/Machine/IntOps.lean ====
section
/-! DEFINITION. The integer and address instructions, opcodes 0x00 to 0x23 (R29, R84 to R86): the arithmetic on numbers, then one meaning for each instruction. -/

namespace Sys2Proof.Machine

-- ARITHMETIC (R84)
/-- What an instruction computes: width, signedness and the three sources in; the result modulo 2^w and its flags out. -/
abbrev IntFn := Nat → Bool → Nat → Nat → Nat → Nat × Word

/-- An exact integer, narrowed to the width. -/
def narrow (w : Nat) (x : Int) : Nat × Word := (wrapInt w x, 0)

def iMov : IntFn := fun w _ a _ _ => (a % 2 ^ w, 0)
def iAdd : IntFn := fun w _ a b _ => ((a + b) % 2 ^ w, 0)
def iSub : IntFn := fun w _ a b _ => narrow w ((a : Int) - b)
def iMul : IntFn := fun w _ a b _ => ((a * b) % 2 ^ w, 0)
def iMulh : IntFn := fun w sg a b _ => narrow w (intVal sg w a * intVal sg w b / (2 ^ w : Nat))
def iMad : IntFn := fun w _ a b c => ((a * b + c) % 2 ^ w, 0)
def iMadh : IntFn := fun w sg a b c => narrow w ((intVal sg w a * intVal sg w b + intVal sg w c) / (2 ^ w : Nat))

/-- Quotient and remainder of R85. -/
def divRem (w : Nat) (sg : Bool) (a b : Nat) : (Int × Int) × Word :=
  let x := intVal sg w a
  let y := intVal sg w b
  if y = 0 then ((if sg then -1 else (2 ^ w : Nat) - 1, x), flagDZ)
  else ((x.tdiv y, x - y * x.tdiv y), 0)

def iDiv : IntFn := fun w sg a b _ => let r := divRem w sg a b; (wrapInt w r.1.1, r.2)
def iRem : IntFn := fun w sg a b _ => let r := divRem w sg a b; (wrapInt w r.1.2, r.2)
def iMin : IntFn := fun w sg a b _ => (if intVal sg w a ≤ intVal sg w b then a % 2 ^ w else b % 2 ^ w, 0)
def iMax : IntFn := fun w sg a b _ => (if intVal sg w b ≤ intVal sg w a then a % 2 ^ w else b % 2 ^ w, 0)

/-- An exact integer saturated to the type's range, with OF (sadd, ssub, .sat). -/
def satInt (sg : Bool) (w : Nat) (x : Int) : Nat × Word :=
  let r := saturate sg w x
  (wrapInt w r.1, if r.2 then flagOF else 0)

def iSadd : IntFn := fun w sg a b _ => satInt sg w (intVal sg w a + intVal sg w b)
def iSsub : IntFn := fun w sg a b _ => satInt sg w (intVal sg w a - intVal sg w b)
def iAnd : IntFn := fun w _ a b _ => ((a &&& b) % 2 ^ w, 0)
def iOr : IntFn := fun w _ a b _ => ((a ||| b) % 2 ^ w, 0)
def iXor : IntFn := fun w _ a b _ => ((a ^^^ b) % 2 ^ w, 0)
def iNot : IntFn := fun w _ a _ _ => (2 ^ w - 1 - a % 2 ^ w, 0)
def iShl : IntFn := fun w _ a n _ => (if w ≤ n then 0 else a * 2 ^ n % 2 ^ w, 0)
def iShr : IntFn := fun w _ a n _ => (if w ≤ n then 0 else a % 2 ^ w / 2 ^ n, 0)
/-- For n at or above w every bit is a copy of the sign bit. -/
def iSar : IntFn := fun w _ a n _ => narrow w (signedNat w a / (2 ^ (min n w) : Nat))

/-- A value rotated left by n places, n below w. -/
def rotl (w a n : Nat) : Nat := (a % 2 ^ w * 2 ^ n % 2 ^ w) + a % 2 ^ w / 2 ^ (w - n)

def iRol : IntFn := fun w _ a n _ => (rotl w a (n % w), 0)
def iRor : IntFn := fun w _ a n _ => (rotl w a ((w - n % w) % w), 0)
def iPopc : IntFn := fun w _ a _ _ => (popcNat w a, 0)
def iClz : IntFn := fun w _ a _ _ => (clzNat w a, 0)
def iCtz : IntFn := fun w _ a _ _ => (ctzNat w a, 0)

/-- Bit i of the result is bit w−1−i of the source. -/
def brevNat (w a : Nat) : Nat :=
  (List.range w).foldl (fun r i => if a.testBit (w - 1 - i) then r + 2 ^ i else r) 0

def iBrev : IntFn := fun w _ a _ _ => (brevNat w a, 0)

/-- The field that a control value names: its lowest bit and its width, none when empty (R86). -/
def fieldOf (w c : Nat) : Option (Nat × Nat) :=
  let lo := bitsAt c 0 6
  let hi := bitsAt c 8 6
  if w ≤ lo ∨ hi < lo then none else some (lo, min hi (w - 1) - lo + 1)

def iBfx : IntFn := fun w sg a b _ =>
  match fieldOf w b with
  | none => (0, 0)
  | some (lo, n) => narrow w (intVal sg n (bitsAt a lo n))

def iBfi : IntFn := fun w _ a b c =>
  match fieldOf w c with
  | none => (a % 2 ^ w, 0)
  | some (lo, n) => ((a - bitsAt a lo n * 2 ^ lo + b % 2 ^ n * 2 ^ lo) % 2 ^ w, 0)

/-- One byte of bsel (R86). -/
def bselByte (a b c : Nat) : Nat :=
  let k := c % 8
  let v := if k < 4 then bitsAt a (8 * k) 8 else bitsAt b (8 * (k - 4)) 8
  if c.testBit 3 then 0 else if c.testBit 4 then 255 - v else v

def iBsel : IntFn := fun _ _ a b c =>
  ((List.range 4).foldl (fun r j => r + bselByte a b (bitsAt c (8 * j) 8) * 2 ^ (8 * j)) 0, 0)

/-- The width f of sext and zext. -/
def extWidth (fn : Nat) : Nat := 8 * 2 ^ fn

/-- A sum over the four bytes of two words (R84). -/
def sumBytes (h : Nat → Nat → Int) (a b : Nat) : Int :=
  (List.range 4).foldl (fun r e => r + h (bitsAt a (8 * e) 8) (bitsAt b (8 * e) 8)) 0

def iDot4 : IntFn := fun _ sg a b c => narrow 32 ((c : Int) + sumBytes (fun p q => intVal sg 8 p * intVal sg 8 q) a b)
def iSad : IntFn := fun _ _ a b c => narrow 32 ((c : Int) + sumBytes (fun p q => (((p : Int) - q).natAbs : Int)) a b)

-- ONE SHAPE FOR ALL
/-- The results of an integer operation in the acting lanes. -/
def intEff (op : IntFn) (x : View) : Eff :=
  .done (writeEach x x.f.ty fun l => op x.f.ty.width x.f.ty.signed (readA x l) (readB x l) (readC x x.f.ty l))

/-- sel takes A where the lane's bit of C is 1, and B elsewhere. -/
def selEff (x : View) : Eff :=
  .done (writeEach x x.f.ty fun l => (if maskBit (maskOpnd x.seen x.f.c.op) l then readA x l else readB x l, 0))

/-- lea: B is a 32-bit source, sign-extended. -/
def leaEff (x : View) : Eff :=
  .done (writeEach x x.f.ty fun l =>
    narrow 64 ((readA x l : Int) + signedNat 32 (readAs x .i32 x.f.b l) * (2 ^ x.f.fn.toNat : Nat)))

/-- sext and zext read the low f bits of a 32-bit source. -/
def extEff (sg : Bool) (x : View) : Eff :=
  .done (writeEach x x.f.ty fun l =>
    narrow x.f.ty.width (intVal sg (extWidth x.f.fn.toNat) (readAs x .n32 x.f.a l)))

-- MEANINGS
/-- nop has no effect; nop.e ends a run (R29). -/
def execNop (f : Form) (s : State) : Host.Outcome State Fault Refusal := runForm (.nop f) f (fun x => .done x.s) s

def execMov (f : Form) (s : State) : Host.Outcome State Fault Refusal := runActing (.mov f) f (intEff iMov) s
def execAddInt (f : Form) (s : State) : Host.Outcome State Fault Refusal := runActing (.addInt f) f (intEff iAdd) s
def execSubInt (f : Form) (s : State) : Host.Outcome State Fault Refusal := runActing (.subInt f) f (intEff iSub) s
def execMulInt (f : Form) (s : State) : Host.Outcome State Fault Refusal := runActing (.mulInt f) f (intEff iMul) s
def execMulh (f : Form) (s : State) : Host.Outcome State Fault Refusal := runActing (.mulh f) f (intEff iMulh) s
def execMad (f : Form) (s : State) : Host.Outcome State Fault Refusal := runActing (.mad f) f (intEff iMad) s
def execMadh (f : Form) (s : State) : Host.Outcome State Fault Refusal := runActing (.madh f) f (intEff iMadh) s
def execDivInt (f : Form) (s : State) : Host.Outcome State Fault Refusal := runActing (.divInt f) f (intEff iDiv) s
def execRem (f : Form) (s : State) : Host.Outcome State Fault Refusal := runActing (.rem f) f (intEff iRem) s
def execMinInt (f : Form) (s : State) : Host.Outcome State Fault Refusal := runActing (.minInt f) f (intEff iMin) s
def execMaxInt (f : Form) (s : State) : Host.Outcome State Fault Refusal := runActing (.maxInt f) f (intEff iMax) s
def execSadd (f : Form) (s : State) : Host.Outcome State Fault Refusal := runActing (.sadd f) f (intEff iSadd) s
def execSsub (f : Form) (s : State) : Host.Outcome State Fault Refusal := runActing (.ssub f) f (intEff iSsub) s
def execAnd (f : Form) (s : State) : Host.Outcome State Fault Refusal := runActing (.and f) f (intEff iAnd) s
def execOr (f : Form) (s : State) : Host.Outcome State Fault Refusal := runActing (.or f) f (intEff iOr) s
def execXor (f : Form) (s : State) : Host.Outcome State Fault Refusal := runActing (.xor f) f (intEff iXor) s
def execNot (f : Form) (s : State) : Host.Outcome State Fault Refusal := runActing (.not f) f (intEff iNot) s
def execShl (f : Form) (s : State) : Host.Outcome State Fault Refusal := runActing (.shl f) f (intEff iShl) s
def execShr (f : Form) (s : State) : Host.Outcome State Fault Refusal := runActing (.shr f) f (intEff iShr) s
def execSar (f : Form) (s : State) : Host.Outcome State Fault Refusal := runActing (.sar f) f (intEff iSar) s
def execRol (f : Form) (s : State) : Host.Outcome State Fault Refusal := runActing (.rol f) f (intEff iRol) s
def execRor (f : Form) (s : State) : Host.Outcome State Fault Refusal := runActing (.ror f) f (intEff iRor) s
def execPopc (f : Form) (s : State) : Host.Outcome State Fault Refusal := runActing (.popc f) f (intEff iPopc) s
def execClz (f : Form) (s : State) : Host.Outcome State Fault Refusal := runActing (.clz f) f (intEff iClz) s
def execCtz (f : Form) (s : State) : Host.Outcome State Fault Refusal := runActing (.ctz f) f (intEff iCtz) s
def execBrev (f : Form) (s : State) : Host.Outcome State Fault Refusal := runActing (.brev f) f (intEff iBrev) s
def execBfx (f : Form) (s : State) : Host.Outcome State Fault Refusal := runActing (.bfx f) f (intEff iBfx) s
def execBfi (f : Form) (s : State) : Host.Outcome State Fault Refusal := runActing (.bfi f) f (intEff iBfi) s
def execBsel (f : Form) (s : State) : Host.Outcome State Fault Refusal := runActing (.bsel f) f (intEff iBsel) s
def execDot4 (f : Form) (s : State) : Host.Outcome State Fault Refusal := runActing (.dot4 f) f (intEff iDot4) s
def execSad (f : Form) (s : State) : Host.Outcome State Fault Refusal := runActing (.sad f) f (intEff iSad) s
def execSel (f : Form) (s : State) : Host.Outcome State Fault Refusal := runActing (.sel f) f selEff s
def execLea (f : Form) (s : State) : Host.Outcome State Fault Refusal := runActing (.lea f) f leaEff s
def execSext (f : Form) (s : State) : Host.Outcome State Fault Refusal := runActing (.sext f) f (extEff true) s
def execZext (f : Form) (s : State) : Host.Outcome State Fault Refusal := runActing (.zext f) f (extEff false) s

end Sys2Proof.Machine
end

