-- ==== Sys2Proof/Machine/Staging.lean ====
section
/-! DEFINITION. Read-modify-write operations (R144 to R146), and what a team reads with its staged records in place (R233, R264). -/

namespace Sys2Proof.Machine

/-- The three f32 words of a 16-byte triple (R65). -/
def tripleOf (x : Nat) : Triple :=
  { w := BitVec.ofNat 32 x, m := BitVec.ofNat 32 (x / 2 ^ 32), q := BitVec.ofNat 32 (x / 2 ^ 64) }

def tripleNat (t : Triple) : Nat := t.w.toNat + t.m.toNat * 2 ^ 32 + t.q.toNat * 2 ^ 64

/-- The new word of an operation on an old word, and its flags; `mode` is rne but for msred (R146). -/
def rmwWord (op : RmwOp) (ty : Ty) (mode : Mode) (old operand cmp : Nat) : Nat × Word :=
  let w := ty.width
  let fp := fun (r : Exact × Word) => let z := roundTo .f32 mode 0 r.1; (z.1, r.2 ||| z.2)
  let a := readF32 (BitVec.ofNat 32 old)
  let b := readF32 (BitVec.ofNat 32 operand)
  match op with
  | .add => if ty == .f32 then fp (fpAdd mode a b) else iAdd w ty.signed old operand 0
  | .min => if ty == .f32 then fp (fpMinMax false a b) else iMin w ty.signed old operand 0
  | .max => if ty == .f32 then fp (fpMinMax true a b) else iMax w ty.signed old operand 0
  | .and => iAnd w false old operand 0
  | .or => iOr w false old operand 0
  | .xor => iXor w false old operand 0
  | .exch => (operand % 2 ^ w, 0)
  | .cas => (if old % 2 ^ w = cmp % 2 ^ w then operand % 2 ^ w else old % 2 ^ w, 0)
  | .stat => let r := statMerge (tripleOf old) (tripleOf operand)
             (tripleNat r.1.normal, 0)

/-- The rounding mode a staged msred carries in its compare field, which it does not use otherwise. -/
def rmwMode (op : RmwOp) (cmp : Nat) : Mode := match op with | .cas => .rne | _ => (if cmp = 1 then .rtz else if cmp = 2 then .rup else if cmp = 3 then .rdn else .rne)

/-- The elements of a view's block that some writes cover, as bf16 codes by index in the block. -/
def viewElems (bs : List ByteWrite) : List (Nat × Nat) :=
  bs.filterMap fun b => match b.place with
    | .view _ off =>
      if off % 2 = 0 then
        some (off / 2 % 32, b.val.toNat + 256 * ((bs.find? fun c => match c.place with | .view _ o => o == off + 1 | _ => false).map
          (·.val.toNat)).getD 0)
      else none
    | _ => none

/-- The blocks of views that some writes touch: region and block. -/
def blocksOf (bs : List ByteWrite) : List (Nat × Nat) :=
  (bs.filterMap fun b => match b.place with | .view k off => some (k, off / 64) | _ => none).eraseDups

def inBlock (k b : Nat) (w : ByteWrite) : Bool := match w.place with | .view j off => j == k && off / 64 == b | _ => false

/-- A staged record applied to a state of its team's own, as its home will apply it at its release: by home location, whatever
address named it (R233). -/
def State.applyStaged (s : State) (op : StoreOp) : State :=
  match op with
  | .write bs =>
    (blocksOf bs).foldl (fun s b => viewWriteBlock s (s.region b.1) b.2 (viewElems (bs.filter (inBlock b.1 b.2))))
      (bs.foldl State.writeByte s)
  | .rmw op ty ps operand cmp _ _ =>
    let new := (rmwWord op ty (rmwMode op cmp) (ofBytes (ps.map s.byteAtHome)) operand cmp).1
    (ps.mapIdx fun i p => { place := p, val := byteAt new i, en := 0xFF : ByteWrite }).foldl State.writeByte s
  | _ => s

/-- Memory as a group's team reads it: its staged and unreleased records in place, in staging order; in the second run of checking
mode those it has released as well, which no home keeps (R233, R270). -/
def State.shadow (s : State) (g : Group) : State :=
  let t := s.teamOf g
  (t.kept ++ t.staging).foldl (fun s r => s.applyStaged r.op) s

/-- A byte, and the value of places, as the group's team reads them (R233). -/
def State.byteFor (s : State) (g : Group) (p : Place) : Byte := (s.shadow g).byteAtHome p
def State.natFor (s : State) (g : Group) (ps : List Place) : Nat := ofBytes (ps.map (s.shadow g).byteAtHome)

end Sys2Proof.Machine
end

