-- ==== Sys2Proof/Machine/Memory.lean ====
section
/-! DEFINITION. Loads and stores, opcodes 0xC0 and 0xC1 (R141, R142): what they leave in the group's load list and store FIFOs. -/

namespace Sys2Proof.Machine

-- DATA OF STORES
/-- The bits an element writes, byte by byte (R78, R137). -/
def laneBytes (bits : Nat) (l : Loc) (val : Nat) : List ByteWrite :=
  let data := val % 2 ^ bits * 2 ^ l.bit
  let en := (2 ^ bits - 1) * 2 ^ l.bit
  l.places.mapIdx fun i p => { place := p, val := byteAt data i, en := byteAt en i }

/-- The bits that some writes enable at a place. -/
def enabledAt (ws : List (List ByteWrite)) (p : Place) : Byte :=
  ws.foldl (fun a w => w.foldl (fun a b => if b.place == p then a ||| b.en else a) a) 0

/-- Of lanes that write one bit, the highest-numbered keeps it (R142, R220). -/
def resolveLanes : List (List ByteWrite) → List (List ByteWrite)
  | [] => []
  | w :: ws =>
    ((w.map fun b => { b with en := b.en &&& ~~~ enabledAt ws b.place }).filter (·.en != 0)) :: resolveLanes ws

/-- What a lane's write shares with other lanes of its instruction: the 64-byte granule of device memory (R340), or the word of
a vault (R219). Lanes that fall in one block of a BF16 view share nothing: each is a read-modify-write of its own (log
entry 29). -/
inductive Share where
  | granule (a : Nat)
  | word (team off : Nat)
  deriving DecidableEq, Repr

/-- A lane's write as the vault words take it: a sub-byte element that straddles two words is a write to each (R219). -/
def wordWrites (bits : Nat) (w : List ByteWrite) : List (List ByteWrite) :=
  if 8 ≤ bits then [w] else
  let word := fun (b : ByteWrite) => match b.place with | .vault t o => some (t, o / 4) | _ => none
  ((w.map word).eraseDups).map fun k => w.filter fun b => word b == k

def shareOf (w : List ByteWrite) : Option Share :=
  match w with
  | { place := .mem a, .. } :: _ => some (.granule (Machine.granule a))
  | { place := .vault t o, .. } :: _ => some (.word t (o / 4))
  | _ => none

/-- The lanes of one instruction that share a granule or a word leave as one write; others leave lane by lane, those of one alias
block too. DESIGN CHOICE (log entry 29): each lane of an alias block is a read-modify-write of its own. -/
def gatherLanes : List (List ByteWrite) → List (List ByteWrite)
  | [] => []
  | w :: ws =>
    let rest := gatherLanes ws
    match shareOf w with
    | none => if w.isEmpty then rest else w :: rest
    | some g =>
      match rest.find? (fun v => shareOf v == some g) with
      | none => w :: rest
      | some v => (w ++ v) :: rest.filter (fun v => shareOf v != some g)

/-- Whether g accesses of the group are staged (R264). -/
def View.staged (x : View) (space : Nat) : Bool := space == 2 && (x.s0.launchOf x.g).det

-- STAGING ROOM (R213, R266)
/-- Bytes that a staged record takes: 32 and its data padded to 16 (log entry 16). -/
def stagedSize (n : Nat) : Nat := 32 + roundUp n 16

def Record.size (r : Record) : Nat := stagedSize r.data.length

def StoreOp.size : StoreOp → Nat
  | .write bs => bs.length
  | .rmw _ _ ps _ _ _ _ => ps.length
  | _ => 0

/-- Bytes of a team's staging region in use, with the g stores and drains on their way to it. -/
def State.stagingUse (s : State) (tk : Nat) : Nat :=
  (s.team tk).staging.foldl (fun a r => a + r.size) 0 +
  (s.teamGroups tk).foldl (fun a k => (s.group k).stores.foldl (fun a e =>
    if e.path == .g then a + stagedSize e.op.size else a) a) 0 +
  (s.team tk).queue.foldl (fun a q => match q.what with
    | .adrain d => if d.space = 2 then a + 64 * stagedSize (d.rows.headD []).length else a
    | _ => a) 0

/-- Whether a team holds the release token of its launch (R265). -/
def State.holdsToken (s : State) (tk : Nat) : Bool := (s.launch (teamLaunch tk)).token == teamIndex tk

/-- An access whose records would overflow the staging region waits, unless its team holds the token (R266). -/
def withStaging (x : View) (staged : Bool) (bytes : Nat) (k : Eff) : Eff :=
  if staged && !x.s0.holdsToken x.g.team && 2 ^ 17 < x.s0.stagingUse x.g.team + bytes then .wait x.s0 .staging else k

-- ENTRIES
/-- The lowest byte address of the unit that a swizzled lane access lands in (R28, R268). -/
def unitAddr (bits sw ea : Nat) : Nat :=
  let a := (elemSpan bits ea).1
  if bits ≤ 32 then swizzle sw a else swizzle sw a / (bits / 8) * (bits / 8)

/-- New entries of the store FIFOs: one for each record of a staged access, otherwise one for each whole write. -/
def storeEntries (x : View) (space rel : Nat) (ls : List Loc) (ws : List (List ByteWrite)) : List Store :=
  let mk := fun (va : Nat) (w : List ByteWrite) =>
    { seq := x.g.seq + 1, path := pathOf space, rel := rel, acq := 0, va := va, kind := 1, opc := 0, ty := x.f.ty, rval := 0,
      fwd := false, pc := x.pc, op := .write w : Store }
  if x.staged space then List.zipWith (fun l w => mk (unitAddr x.f.ty.width (dSW x.f) l.ea) w) ls ws
  else (gatherLanes ((resolveLanes ws).flatMap (wordWrites x.f.ty.width))).map (mk 0)

/-- A group with its next sequence number taken and entries added. -/
def Group.addStores (g : Group) (es : List Store) : Group := { g with seq := g.seq + 1, stores := g.stores ++ es }
def Group.addLoads (g : Group) (ls : List Load) : Group := { g with seq := g.seq + 1, loads := g.loads ++ ls }

/-- Where a destination operand's lane result goes. -/
def dstOf (d : Opnd) (ty : Ty) (lane : Nat) : Dst :=
  match d with
  | .s n => { isS := true, reg := n.toNat, lane := lane, ty := ty }
  | .v n => { isS := false, reg := n.toNat, lane := lane, ty := ty }
  | _ => { isS := false, reg := 0, lane := lane, ty := ty }

/-- A result written to its destination register (R82, R137). -/
def Group.putDst (g : Group) (d : Dst) (x : Nat) : Group :=
  let sext := d.ty == .i32 || d.ty == .i16 || d.ty == .i8
  if d.isS then g.setS d.reg (sExtend (if sext then .i32 else d.ty) x)
  else if d.ty.width = 64 then g.setVpair d.reg d.lane x
  else g.setV d.reg d.lane (BitVec.ofNat 32 x)

/-- A loaded element as its lane holds it: i8 and i16 sign-extended, every other narrow type zero-extended (R137). -/
def extendElem (ty : Ty) (x : Nat) : Nat :=
  match ty with
  | .i8 => wrapInt 32 (signedNat 8 x)
  | .i16 => wrapInt 32 (signedNat 16 x)
  | _ => x % 2 ^ ty.width

/-- Data of a lane: the D register's own bits (R27). -/
def dataOf (x : View) (l : Nat) : Nat := rawOpnd x x.f.ty x.f.d l

/-- The access of a load or store of the instruction's type. -/
def accOf (x : View) (write : Bool) : Acc :=
  { space := dSP x.f, bits := x.f.ty.width, sw := dSW x.f, write := write, atomic := false, stamped := false,
    kind := if write then 2 else 1 }

def eaLanes (x : View) : List (Nat × Nat) := (accessLanes x).map fun l => (l, effAddr x l)

def allPlaces (ls : List Loc) : List Place := ls.foldr (fun l a => l.places ++ a) []

/-- The loads of located lanes. -/
def loadEntries (x : View) (space acq : Nat) (ls : List Loc) : List Load :=
  ls.map fun l => { seq := x.g.seq + 1, path := pathOf space, places := l.places, bit := l.bit, bits := x.f.ty.width,
                    dst := dstOf x.f.d x.f.ty l.lane, acq := acq, pc := x.pc }

/-- Whether an acquire holds a load back: all but a plain load of device memory wait for one of any scope (R140, R230). -/
def heldLoad (x : View) (acq : Nat) (ls : List Loc) : Bool :=
  if acq = 0 && (allPlaces ls).all (fun p => match p with | .mem _ => true | _ => false) then x.g.acquiringWide else x.g.acquiring

/-- ld (R141): a .poll load demotes its lanes, any other clears their demotion. -/
def ldEff (x : View) : Eff :=
  let fn := x.f.fn.toNat
  withAccess x (accOf x false) (eaLanes x) fun ls =>
    withFullLines x (linesOf (allPlaces ls)) (withIssueIf x (heldLoad x (x.scope (fn % 8)) ls) 1
      (let g := x.g1.addLoads (loadEntries x (dSP x.f) (x.scope (fn % 8)) ls)
       .done (x.put (if 8 ≤ fn then g.demote x.act else g.undemote x.act))))

/-- st (R142). -/
def stEff (x : View) : Eff :=
  withAccess x (accOf x true) (eaLanes x) fun ls =>
    withOwnMarks x (linesOf (allPlaces ls)) (withIssue x 2
      (withStaging x (x.staged (dSP x.f)) (ls.length * stagedSize (x.f.ty.width / 8 + 1))
        (.done (x.put (x.g1.addStores
          (storeEntries x (dSP x.f) (x.scope x.f.fn.toNat) ls (ls.map fun l => laneBytes x.f.ty.width l (dataOf x l.lane))))))))

/-- Accesses of the group still in flight at some places. -/
def Group.inFlight (g : Group) (ps : List Place) : Bool :=
  g.loads.any (fun l => l.places.any ps.contains) ||
  g.stores.any (fun e => match e.op with
    | .write bs => bs.any (fun b => ps.contains b.place)
    | .rmw _ _ bs _ _ _ _ => bs.any ps.contains
    | _ => false)

-- MEANINGS
def execLd (f : Form) (s : State) : Host.Outcome State Fault Refusal := runActing (.ld f) f ldEff s
def execSt (f : Form) (s : State) : Host.Outcome State Fault Refusal := runActing (.st f) f stEff s

end Sys2Proof.Machine
end

