-- ==== Sys2Proof/Machine/TimeInstr.lean ====
section
/-! DEFINITION. Pod time as instructions see it: tnow, stst and rdat, opcodes 0xCE to 0xD0 (R154 to R157, R323, R327), and the traps of class Next. -/

namespace Sys2Proof.Machine

-- LETTERS
/-- A letter goes to a part of this module, or out to another. -/
def State.post (s : State) (to_ : Nat) (m : Msg) : State :=
  let l : Letter := { to_ := to_, from_ := s.pkg, msg := m }
  if to_ = s.pkg then { s with net := s.net ++ [l] } else { s with outbox := s.outbox ++ [l] }

def State.postLetter (s : State) (l : Letter) : State :=
  if l.to_ = s.pkg then { s with net := s.net ++ [l] } else { s with outbox := s.outbox ++ [l] }

/-- Another module that is at the far end of no port that is up, and that no route reaches from one (R288; log entry 55). -/
def State.unreachable (s : State) (pkg : Nat) : Bool :=
  let up := (List.range 12).filter s.portUp
  pkg != s.pkg && !(up.any fun p => (s.port p).peerPkg == pkg) && (up.isEmpty || (Config.route s.pkg pkg).isNone)

-- TRAPS OF CLASS NEXT (R332, R336)
/-- An event waits for the group's next issue; after every lane has ended only the trace ring records it. -/
def State.postNext (s : State) (gk code : Nat) (arg : DWord) (at_ : Option DWord) : State :=
  if (s.group gk).live = 0 then s.trace gk 5 (code * 2 ^ 56)
  else s.updGroup gk fun g => { g with nexts := g.nexts ++ [{ code := code, arg := arg, at_ := at_ }] }

-- TNOW (R154)
def Group.setInterval (g : Group) (lo hi : Nat) : Group := { g with tlo := BitVec.ofNat 64 lo, thi := BitVec.ofNat 64 hi }

def tnowEff (x : View) : Eff :=
  let e := x.s0.tb.earliest
  let l := x.s0.tb.latest
  match x.f.d with
  | .s n =>
    .done (x.put (((x.g1.setS n.toNat (BitVec.ofNat 64 e)).setS (n.toNat + 1) (BitVec.ofNat 64 l)).setInterval e l))
  | _ => .done (x.put (x.g1.setInterval e l))

-- STAMPED LINES
/-- The lanes' addresses after the swizzle, byte by byte. -/
def laneAddrs (x : View) (ea : Nat) : List Nat := (List.range (x.f.ty.width / 8)).map fun i => swizzle (dSW x.f) (ea + i)

/-- The first lane, with its address, that is misaligned (R138). -/
def oddLane (x : View) (eas : List (Nat × Nat)) : Option (Nat × Nat) := eas.find? fun p => p.2 % (x.f.ty.width / 8) != 0

/-- The first lane, with its address, that lies in another 64-byte line than the lowest lane (R156, R157). -/
def offLine (x : View) (eas : List (Nat × Nat)) : Option (Nat × Nat) :=
  let line := swizzle (dSW x.f) (eas.headD (0, 0)).2 / 64
  eas.find? fun p => (laneAddrs x p.2).any fun a => a / 64 != line

/-- A remote module address (R327): the target's %pkg and the offset. -/
def remoteAddr (a : Nat) : Option (Nat × Nat) :=
  if a / 2 ^ 52 = 0x801 then some (bitsAt a 40 12, a % 2 ^ 40) else none

def isPod (a : Nat) : Bool := 2 ^ 63 ≤ a

/-- The access of stst and rdat to a stamped page. -/
def stampAcc (x : View) (write : Bool) : Acc :=
  { space := 2, bits := x.f.ty.width, sw := dSW x.f, write := write, atomic := false, stamped := true, kind := if write then 2 else 1 }

/-- The stamped line of some places. -/
def homeLine (ps : List Place) : Option Nat :=
  ps.head?.bind fun p => match p with | .stamped a => some (a / 64) | _ => none

/-- The checks of a stamped access: those of R138, on the addresses that are no remote ones, and then that there is one line (R334).
The line is its device address, or none for another module's window. -/
def withStamped (x : View) (write : Bool) (k : Option Nat → List (Nat × Nat) → Eff) : Eff :=
  let eas := eaLanes x
  match oddLane x eas with
  | some p => .trap trapMisalign (BitVec.ofNat 64 p.2) p.1
  | none =>
    withAccess x (stampAcc x write) (eas.filter fun p => (remoteAddr p.2).isNone) fun ls =>
      match offLine x eas with
      | some p => .trap trapMisalign (BitVec.ofNat 64 p.2) 0
      | none => k (homeLine (allPlaces ls)) eas

/-- The 64 bytes of a version: zeros with each acting lane's data in place, a later lane over an earlier (R156, R142). -/
def versionBytes (x : View) (eas : List (Nat × Nat)) : List Byte :=
  eas.foldl (fun bs p => ((laneAddrs x p.2).mapIdx fun i a => (a % 64, byteAt (dataOf x p.1) i)).foldl
    (fun bs q => bs.set q.1 q.2) bs) (List.replicate 64 0)

/-- stst (R156): the version leaves on the stamped path and the group is held. -/
def ststEff (x : View) : Eff :=
  withStamped x true fun home eas => withIssue x 2 (
    let tb := x.s0.tb
    if tb.state = 3 then .trap trapTimeFail 0 0
    else if tb.epslim < tb.eps then .trap trapTimeEps (BitVec.ofNat 64 tb.eps) 0
    -- an armed checkpoint (R360)
    else if x.s0.ck.busy && x.s0.ck.t.toNat < tb.latest then .wait x.s0 .clock
    else
      let st : DWord := BitVec.ofNat 64 tb.latest
      let v : Version := { stamp := st, pkg := x.s0.pkg, core := x.s0.groupCore x.g, slot := x.g.slot, bytes := versionBytes x eas }
      let va := BitVec.ofNat 64 (swizzle (dSW x.f) (eas.headD (0, 0)).2)
      let l := x.s0.launchOf x.g
      let letter : Letter := match home with
        | some line => { to_ := x.s0.pkg, from_ := x.s0.pkg, msg := .version line v x.gk va }
        | none => let r := (remoteAddr va.toNat).getD (0, 0)
                  { to_ := r.1, from_ := x.s0.pkg, msg := .remoteVersion l.fn l.ctx (r.2 / 64 * 64) v x.gk va }
      let id := x.s0.nextId
      let g := x.g1.addStores [{ seq := x.g.seq + 1, path := .stamped, rel := 0, acq := 0, va := va.toNat, kind := 0, opc := 0
                                 ty := x.f.ty, rval := 0, fwd := false, pc := x.pc, op := .fabric id letter }]
      let g := g.updLanes x.act fun y => { y with pc := x.next }
      let s := x.put { g.setInterval tb.earliest tb.latest with hold := some st }
      let p : Pending := { id := id, grp := x.gk, seq := x.g.seq + 1, kind := 4, group := st.toNat, pc := x.pc, va := va
                           sreg := 0, dst := [], ty := x.f.ty, waits := [], replied := false, placed := false, cancel := false, issued := tb.est.toNat }
      .jump { s with nextId := id + 1, pendings := s.pendings ++ [p] } true)

/-- rdat (R157): t above 2^63 raises ACCESS; the read waits until earliest > t + D, with the program counters of its lanes at
the instruction (log entry 17). -/
def rdatEff (x : View) : Eff :=
  let k := match x.f.a.op with | .s n => n.toNat | _ => 0
  let t := x.sval (k + 1)
  withStamped x false fun home eas => withIssue x 1 (
    if 2 ^ 63 < t.toNat then .trap trapAccess (BitVec.ofNat 64 (eas.headD (0, 0)).2) 0
    else if x.s0.tb.state = 3 then .trap trapTimeFail 0 0
    else
      let a0 := swizzle (dSW x.f) (eas.headD (0, 0)).2
      .jump (x.put { x.g1 with
        seq := x.g.seq + 1
        rdat := some { lanes := x.act, path := x.path &&& x.g.live, pc := x.pc, t := t, line := BitVec.ofNat 64 a0, home := home.map (· * 64)
                       offs := eas.map fun p => (p.1, (laneAddrs x p.2).map (· % 64)), dst := x.f.d, ty := x.f.ty, sreg := k
                       sent := false, failed := false, seq := x.g.seq + 1 } }) true)

-- MEANINGS
def execTnow (f : Form) (s : State) : Host.Outcome State Fault Refusal := runActing (.tnow f) f tnowEff s
def execStst (f : Form) (s : State) : Host.Outcome State Fault Refusal := runActing (.stst f) f ststEff s
def execRdat (f : Form) (s : State) : Host.Outcome State Fault Refusal := runActing (.rdat f) f rdatEff s

end Sys2Proof.Machine
end

