-- ==== Sys2Proof/Machine/EvTime.lean ====
section
/-! DEFINITION. Events of stamped lines: versions at their home, rejections, the end of a hold and of an rdat (R155 to R157, R321 to R327). -/

namespace Sys2Proof.Machine

-- PITCHES (R282)
/-- The pitch of the frame. -/
def Timebase.pitch (t : Timebase) : Nat := t.est.toNat % 250 / 10

/-- Stamped traffic travels now. -/
def State.stampedPitch (s : State) : Bool := s.tb.pitch == 1 || s.tb.pitch == 2

-- FAILED (R156, R157, R323)
/-- The timebase has entered FAILED: every hold of a stst ends, and every rdat that still waits will trap. -/
def State.enterFailed (s : State) : State :=
  (mapKeys s.groups).foldl (fun s k => s.updGroup k fun g =>
    { g with hold := none, rdat := g.rdat.map fun w => if w.sent then w else { w with failed := true } }) s

-- VERSIONS
/-- The version an rdat at t takes, and its status (R157). -/
def pickVersion (vs : List Version) (t : DWord) : Version × Nat :=
  match (vs.filter fun v => v.stamp.toNat ≤ t.toNat).getLast? with
  | some v => (v, 0)
  | none => (vs.headD Version.zero, 2)

/-- The test of the home (R156, R322). -/
def State.acceptsVersion (s : State) (v : Version) : Bool :=
  s.tb.state != 3 && decide (s.tb.eps ≤ s.tb.epslim) && decide (s.tb.latest ≤ v.stamp.toNat + s.tb.dlvb)

/-- A version kept at its home: a whole line, which clears a poisoned granule (R340). -/
def State.keepVersion (s : State) (line : Nat) (v : Version) : State :=
  { (s.addVersion line v) with poisoned := s.poisoned.filter (· != 64 * line) }

/-- The byte of a context's remote window, if it is a writable stamped page of HBM (R327). -/
def State.remotePlace (s : State) (fn ctx off : Nat) : Option Nat :=
  let c := s.ctx (ctxKey fn ctx)
  if !c.enabled || c.rwlen.toNat ≤ off then none else
  let va := c.rwbase.toNat + off
  if 2 ^ 57 ≤ va then none else
  match s.walkPage (ctxKey fn ctx) (va / 2 ^ 16) with
  | .ok t => if t.stmp && t.w && !t.x && t.addr < 2 ^ 52 then some (t.addr + va % 2 ^ 16) else none
  | .error _ => none

/-- The home's reply to a writer of this module, or of another. -/
def State.replyVersion (s : State) (from_ grp : Nat) (ok : Bool) (stamp : DWord) : State :=
  if from_ = s.pkg && ok then
    { s with pendings := s.pendings.filter fun p => !(p.grp == grp && p.kind == 4 && p.group == stamp.toNat) }
  else s.post from_ (.stampReply grp ok stamp)

/-- The home of a version's line accepts or rejects it (R155, R156, R326). -/
def State.judgeVersion (s : State) (src line grp : Nat) (v : Version) : State :=
  if s.acceptsVersion v then (s.keepVersion line v).replyVersion src grp true v.stamp else s.replyVersion src grp false v.stamp

/-- A version is at its home, or at the module of its remote window (R327). -/
def State.takeVersion (s : State) (l : Letter) : State :=
  match l.msg with
  | .version line v grp _ => s.judgeVersion l.from_ line grp v
  | .remoteVersion fn ctx off v grp va =>
    match s.remotePlace fn ctx off with
    | none => s.post l.from_ (.reject grp va 0)
    | some a => s.judgeVersion l.from_ (a / 64) grp v
  | _ => s

/-- Whether a letter is a version. -/
def isVersion (l : Letter) : Bool := match l.msg with | .version .. | .remoteVersion .. => true | _ => false

/-- A version of this module reaches its home in a stamped pitch (R321). -/
def execStampedVersionArrival (i : Nat) (s : State) : Host.Outcome State Fault Refusal :=
  match s.net[i]? with
  | some l => if s.stampedPitch && isVersion l then .next ({ s with net := s.net.eraseIdx i }.takeVersion l) else .next s
  | none => .next s

/-- A rejection reaches the writing group: STAMP_LATE before its next issue (R156, R323). -/
def execStampRejectArrival (i : Nat) (s : State) : Host.Outcome State Fault Refusal :=
  match s.net[i]? with
  | some { msg := .stampReply grp false st, .. } =>
    let s := { s with net := s.net.eraseIdx i }
    let mine := fun (p : Pending) => p.grp == grp && p.kind == 4 && p.group == st.toNat
    let pc := (s.pendings.find? mine).map (·.pc)
    let s := { s with pendings := s.pendings.filter fun p => !mine p }
    .next (s.postNext grp trapStampLate st pc)
  | _ => .next s

/-- The hold of a stst ends (R156, R324). -/
def execStstHoldRelease (gk : Nat) (s : State) : Host.Outcome State Fault Refusal :=
  match (s.group gk).hold with
  | some st =>
    if s.tb.state = 3 ∨ st.toNat < s.tb.earliest then .next (s.updGroup gk fun g => { g with hold := none }) else .next s
  | none => .next s

-- RDAT
/-- The result of an rdat in its registers; its lanes go on to the next instruction. -/
def Group.bindRdat (g : Group) (w : RdatWait) (v : Version) (status : Nat) : Group :=
  let g := w.offs.foldl (fun g p =>
    g.putDst (dstOf w.dst w.ty p.1) (extendElem w.ty (ofBytes (p.2.map fun o => v.bytes.getD o 0)))) g
  let g := (g.setS (w.sreg + 2) v.stamp).setS (w.sreg + 3) (BitVec.ofNat 64 status)
  { (g.updLanes w.lanes fun y => { y with pc := w.pc + 16 }) with rdat := .none }

/-- The read of an rdat at a line of this module. -/
def State.readLine (s : State) (gk : Nat) (w : RdatWait) (a : Nat) : State :=
  match s.badRead [.stamped a] with
  | some p => s.raiseRead gk w.pc p
  | none =>
    let r := pickVersion (s.versions (a / 64)) w.t
    s.updGroup gk fun g => g.bindRdat w r.1 r.2

/-- A read that its target rejects: no destination is written, and ACCESS before the next issue (R327). -/
def State.rejectRdat (s : State) (gk : Nat) (w : RdatWait) : State :=
  let s := s.updGroup gk fun g => { (g.updLanes w.lanes fun y => { y with pc := w.pc + 16 }) with rdat := .none }
  s.postNext gk trapAccess w.line none

/-- A read that finds a poisoned line at another module (R340). -/
def State.poisonRdat (s : State) (gk : Nat) (w : RdatWait) : State :=
  let s := s.updGroup gk fun g => { g with rdat := .none }
  ((s.trace gk 3 (trapHbmUncorr * 2 ^ 56 + s.imageOff gk w.pc)).setDetail gk w.line 0).fatalTrap gk trapHbmUncorr

/-- The wait of an rdat ends and the read binds, at this module's home or with another module's reply (R157, R327). -/
def execRdatWaitEnd (gk : Nat) (s : State) : Host.Outcome State Fault Refusal :=
  let g := s.group gk
  let l := s.launchOf g
  match g.rdat with
  | none => .next s
  | some w =>
    if (s.teamOf g).dead then .next s
    else if w.failed then
      .next ((s.setGroup gk { g with rdat := none }).takeTrap gk trapTimeFail 0 0 w.path w.pc w.pc)
    else if s.tb.earliest ≤ w.t.toNat + s.tb.dlvb && !w.sent then .next s
    else match w.home with
      | some a => .next (s.readLine gk w a)
      | none =>
        let r := (remoteAddr w.line.toNat).getD (0, 0)
        if r.1 = s.pkg then
          match s.remotePlace l.fn l.ctx r.2 with
          | some a => .next (s.readLine gk w a)
          | none => .next (s.rejectRdat gk w)
        else match s.net.find? (answers gk w.seq) with
          | some m =>
            let s := { s with net := s.net.erase m }
            match m.msg with
            | .readReply _ _ v st => .next (s.updGroup gk fun g => g.bindRdat w v st)
            | _ => .next (s.poisonRdat gk w)
          | none =>
            -- the target is unreachable, before or after the request has left
            if s.unreachable r.1 then .next (s.rejectRdat gk w)
            else if w.sent then .next s
            else
              let s := s.setGroup gk { g with rdat := some { w with sent := true } }
              .next (s.post r.1 (.remoteRead l.fn l.ctx r.2 w.t gk w.line w.seq))
where
  answers (gk seq : Nat) (l : Letter) : Bool :=
    match l.msg with
    | .readReply k n _ _ => k == gk && n == seq
    | .readPoison k n => k == gk && n == seq
    | _ => false

/-- The target rejects a remote stst or rdat, or a crier a sequenced store: ACCESS before the next issue (R293, R327). -/
def execRemoteAccessReject (i : Nat) (s : State) : Host.Outcome State Fault Refusal :=
  match s.net[i]? with
  | some { msg := .reject grp va seq, .. } =>
    let s := { s with net := s.net.eraseIdx i }
    if seq = 0 then .next (drop s grp va)
    else match (s.group grp).rdat with
      | some w => if w.seq = seq then .next (s.rejectRdat grp w) else .next s
      | none => .next s
  | _ => .next s
where
  drop (s : State) (grp : Nat) (va : DWord) : State :=
    let mine := fun (p : Pending) => p.grp == grp && p.va == va && !p.replied && p.kind != 0
    match s.pendings.find? mine with
    | none => s
    | some p =>
      let s := { s with pendings := s.pendings.filter fun q => q.id != p.id }
      s.postNext grp trapAccess va none

end Sys2Proof.Machine
end

