-- ==== Sys2Proof/Machine/Va.lean ====
section
/-! DEFINITION. Memory of a context read and written by the module's own engines, through the context's page tables and with no translation buffer. -/

namespace Sys2Proof.Machine

/-- The translation of a byte of g for an engine: an ordinary page that a read, or a write, may use. -/
def State.vaTr (s : State) (ck va : Nat) (write : Bool) : Option Tr :=
  if 2 ^ 57 ≤ va then none else
  match s.walkPage ck (va / 2 ^ 16) with
  | .ok t => if t.bf || t.stmp || t.basic || t.x || (write && !t.w) || s.inSlots t.addr then none else some t
  | .error _ => none

/-- The device address of a byte. -/
def State.vaAddr (s : State) (ck va : Nat) (write : Bool) : Option Nat :=
  (s.vaTr ck va write).map fun t => t.addr + va % 2 ^ 16

/-- The device addresses of a run of bytes, page by page: `fuel` pages at most. -/
def State.vaRuns (s : State) (ck : Nat) (write : Bool) : Nat → Nat → Nat → Option (List (Nat × Nat))
  | _, _, 0 => some []
  | 0, _, _ + 1 => none
  | fuel + 1, va, n + 1 =>
    let k := min (n + 1) (2 ^ 16 - va % 2 ^ 16)
    match s.vaAddr ck va write, s.vaRuns ck write fuel (va + k) (n + 1 - k) with
    | some a, some r => some ((a, k) :: r)
    | _, _ => none

/-- Pages that a run of bytes touches. -/
def pagesOf (va n : Nat) : Nat := (va + n) / 2 ^ 16 + 1 - va / 2 ^ 16

def State.vaBytes (s : State) (ck va n : Nat) : Option (List Byte) :=
  (s.vaRuns ck false (pagesOf va n) va n).map fun rs => rs.foldr (fun r a => s.memBytes r.1 r.2 ++ a) []

def State.vaNat (s : State) (ck va n : Nat) : Option Nat := (s.vaBytes ck va n).map ofBytes

/-- Bytes written where every page may be written; none otherwise, with nothing written. -/
def State.setVaBytes (s : State) (ck va : Nat) (bs : List Byte) : Option State :=
  (s.vaRuns ck true (pagesOf va bs.length) va bs.length).map fun rs =>
    (rs.foldl (fun (p : State × List Byte) r => (p.1.setMemBytes r.1 (p.2.take r.2), p.2.drop r.2)) (s, bs)).1

def State.setVaNat (s : State) (ck va n x : Nat) : Option State := s.setVaBytes ck va (bytesOf n x)

/-- Bytes of device memory at a device address (R365); none where it names no memory. -/
def State.devBytes (s : State) (a n : Nat) : Option (List Byte) :=
  if a < 2 ^ 54 && devOk a n && !s.inSlots a && !s.inSlots (a + n - 1) then some (s.memBytes a n) else none

def State.setDevBytes (s : State) (a : Nat) (bs : List Byte) : Option State :=
  if a < 2 ^ 54 && devOk a bs.length && !s.inSlots a && !s.inSlots (a + bs.length - 1) then some (s.setMemBytes a bs) else none

/-- A little-endian field of some bytes. -/
def field (bs : List Byte) (off n : Nat) : Nat := ofBytes ((bs.drop off).take n)

end Sys2Proof.Machine
end

