-- ==== Sys2Proof/Machine/Multicast.lean ====
section
/-! DEFINITION. Multicast: mcst, mcsq, mcsq.cas and mldr (opcodes 0xD1 to 0xD3), and the events of senders, members and criers (R158 to R161, R290 to R296, R307). -/

namespace Sys2Proof.Machine

-- POD ADDRESSES (R158)
def podGroup (a : Nat) : Nat := bitsAt a 53 10
def podOff (a : Nat) : Nat := a % 2 ^ 40

/-- The membership of the instruction's context in a group. -/
def State.memberOf (s : State) (ck group : Nat) : Option Member :=
  match s.member group with
  | some m => if ctxKey m.fn m.ctx = ck then some m else none
  | none => none

/-- A lane's pod address is in order: its form, its group, and every byte of it below WLEN. -/
def podOk (x : View) (group : Nat) (a : Nat) : Bool :=
  isPod a && bitsAt a 40 13 == 0 && podGroup a == group &&
  match x.s0.memberOf (x.s0.launchOf x.g).ctxKey (podGroup a) with
  | some m => (laneAddrs x a).all fun b => podOff b < m.wlen
  | none => false

/-- The checks of a multicast instruction; `extra` says whether the member itself refuses it. -/
def withPod (x : View) (extra : Member → Bool) (k : Member → Nat → List (Nat × Nat) → Eff) : Eff :=
  let eas := eaLanes x
  let first := eas.headD (0, 0)
  let group := podGroup first.2
  match eas.find? fun p => p.2 % (x.f.ty.width / 8) != 0 with
  | some p => .trap trapMisalign (BitVec.ofNat 64 p.2) p.1
  | none =>
    match eas.find? fun p => !podOk x group p.2 with
    | some p => .trap trapAccess (BitVec.ofNat 64 p.2) p.1
    | none =>
      match x.s0.memberOf (x.s0.launchOf x.g).ctxKey group with
      | none => .trap trapAccess (BitVec.ofNat 64 first.2) first.1
      | some m => if extra m then .trap trapAccess (BitVec.ofNat 64 first.2) first.1 else k m group eas

/-- Bytes that the acting lanes store, by offset in the window; a later lane over an earlier (R142). -/
def podBytes (x : View) (eas : List (Nat × Nat)) : List (Nat × Byte × Byte) :=
  eas.foldr (fun p a => ((laneAddrs x p.2).mapIdx fun i b => (podOff b, byteAt (dataOf x p.1) i, (0xFF : Byte))) ++ a) []

/-- A multicast instruction leaves on the fabric path with a pending record. -/
def sendPod (x : View) (kind group sreg : Nat) (va : Nat) (dst : List Dst) (waits : List Nat) (msg : Nat → Msg) (fifo : Bool) :
    State :=
  let id := x.s0.nextId
  let letter : Letter := { to_ := x.s0.pkg, from_ := x.s0.pkg, msg := msg id }
  let entry : Store := { seq := x.g.seq + 1, path := .fabric, rel := 0, acq := 0, va := va, kind := 0, opc := 0, ty := x.f.ty
                         rval := 0, fwd := false, pc := x.pc, op := .fabric id letter }
  let s := x.put (x.g1.addStores (if fifo then [entry] else []))
  let p : Pending := { id := id, grp := x.gk, seq := x.g.seq + 1, kind := kind, group := group, pc := x.pc
                       va := BitVec.ofNat 64 va, sreg := sreg, dst := dst, ty := x.f.ty, waits := waits, replied := kind == 0, placed := false
                       cancel := false, issued := x.s0.tb.est.toNat }
  { s with nextId := id + 1, pendings := s.pendings ++ [p] }

def mcstEff (x : View) : Eff :=
  withPod x (fun _ => false) fun m group eas => withIssue x 2 (
    .done (sendPod x 0 group 0 (eas.headD (0, 0)).2 [] m.live (fun id => .mcst group (.bytes (podBytes x eas)) id x.gk) true))

def sregOf (o : Opnd) : Nat := match o with | .s n => n.toNat | _ => 0

def mcsqEff (x : View) : Eff :=
  withPod x (fun _ => false) fun m group eas => withIssue x 2 (
    .done (sendPod x 1 group (sregOf x.f.a.op) (eas.headD (0, 0)).2 [] m.live
      (fun id => .mcsq group (.bytes (podBytes x eas)) id) true))

/-- mcsq.cas: the compare value in sj and the new value in sj+1. -/
def mcsqCasEff (x : View) : Eff :=
  withPod x (·.stale) fun m group eas => withIssue x 3 (
    let w := x.f.ty.width
    let j := sregOf x.f.d
    let offs := (laneAddrs x (eas.headD (0, 0)).2).map podOff
    .done (sendPod x 2 group (sregOf x.f.a.op) (eas.headD (0, 0)).2 [dstOf x.f.d x.f.ty x.low] m.live
      (fun id => .mcsq group (.cas offs ((x.sval j).toNat % 2 ^ w) ((x.sval (j + 1)).toNat % 2 ^ w)) id) true))

/-- mldr: every lane element's bytes, lane after lane. -/
def mldrEff (x : View) : Eff :=
  withPod x (fun m => 64 < m.size) fun m group eas => withIssue x 1 (
    let offs := eas.foldr (fun p a => ((laneAddrs x p.2).map fun b => (p.1, podOff b)) ++ a) []
    let id := x.s0.nextId
    .done ((sendPod x 3 group (sregOf x.f.a.op) (eas.headD (0, 0)).2 (eas.map fun p => dstOf x.f.d x.f.ty p.1) []
      (fun _ => .mldr group offs x.f.fn.toNat x.f.ty id) false).post m.root (.mldr group offs x.f.fn.toNat x.f.ty id)))

-- MEANINGS
def execMcst (f : Form) (s : State) : Host.Outcome State Fault Refusal := runActing (.mcst f) f mcstEff s
def execMcsq (f : Form) (s : State) : Host.Outcome State Fault Refusal := runActing (.mcsq f) f mcsqEff s
def execMcsqCas (f : Form) (s : State) : Host.Outcome State Fault Refusal := runActing (.mcsqCas f) f mcsqCasEff s
def execMldr (f : Form) (s : State) : Host.Outcome State Fault Refusal := runActing (.mldr f) f mldrEff s

-- SENDING
def State.updPending (s : State) (id : Nat) (h : Pending → Pending) : State :=
  { s with pendings := s.pendings.map fun p => if p.id == id then h p else p }

/-- The head of a fabric FIFO leaves: an mcst to every member that is not stale, whose acknowledgements it waits for, a sequenced
store to the crier, a version to its home. -/
def State.sendFabric (s : State) (l : Letter) : State :=
  match l.msg with
  | .mcst group _ id _ =>
    match s.member group with
    | some m =>
      let s := s.updPending id fun p => { p with waits := m.live }
      ((m.live.map fun r => m.list.getD r 0).eraseDups).foldl (fun s pkg => s.post pkg l.msg) s
    | none => s
  | .mcsq group _ _ =>
    match s.member group with
    | some m => s.post m.root l.msg
    | none => s
  | _ => s.postLetter l

-- A MEMBER'S COPY
/-- Where a byte of a member's copy lies. -/
def State.copyAddr (s : State) (m : Member) (off : Nat) : Option Nat := s.vaAddr (ctxKey m.fn m.ctx) (m.wbase + off) false

def State.copyNat (s : State) (m : Member) (offs : List Nat) : Nat :=
  ofBytes (offs.map fun o => match s.copyAddr m o with | some a => s.memByte a | none => 0)

def State.setCopy (s : State) (m : Member) (ws : List (Nat × Byte × Byte)) : State :=
  ws.foldl (fun s w => match s.copyAddr m w.1 with
    | some a => s.setMemByte a (mergeByte w.2.2 w.2.1 (s.memByte a))
    | none => s) s

/-- A store applied to a copy, and the old value a compare-and-swap meets. -/
def State.applyCopy (s : State) (m : Member) (st : McStore) : State × Nat :=
  match st with
  | .bytes ws => (s.setCopy m ws, 0)
  | .cas offs cmp new =>
    let old := s.copyNat m offs
    (if old = cmp then s.setCopy m (offs.mapIdx fun i o => (o, byteAt new i, (0xFF : Byte))) else s, old)

/-- The word at ACNT (R291). -/
def State.writeCount (s : State) (m : Member) : State :=
  (s.setVaNat (ctxKey m.fn m.ctx) m.acnt 8 (m.count % 2 ^ 48 + (if m.stale then 2 ^ 63 else 0))).getD s

def State.putMember (s : State) (group : Nat) (m : Member) : State := (s.setMember group (some m)).writeCount m

/-- No earlier mcst of the same sending group waits before letter i, of whatever multicast group (R159, R220). -/
def State.firstMcst (s : State) (i from_ grp : Nat) : Bool :=
  !((s.net.take i).any fun l => l.from_ == from_ && match l.msg with | .mcst _ _ _ g => g == grp | _ => false)

/-- No earlier sequenced store of a multicast group waits before letter i (R292). -/
def State.firstMcsq (s : State) (i group : Nat) : Bool :=
  !((s.net.take i).any fun l => match l.msg with | .mcsq g _ _ => g == group | _ => false)

/-- A context of this module waits for the crier's answer to its join to a group: what comes for the new membership waits with it
(R290, R294). -/
def State.joins (s : State) (group : Nat) : Bool := s.fns.any fun p => p.2.joining.any (·.1 == group)

/-- A store, or a request of the switch, reaches this member (R159, R161, R291, R292). A store that this module has rejected counts
and writes nothing (R293). -/
def execMemberApply (i : Nat) (s : State) : Host.Outcome State Fault Refusal :=
  match s.net[i]? with
  | some { msg := .mcst group st id grp, from_ := src, .. } =>
    match s.member group with
    | none => .next (if s.joins group then s else { s with net := s.net.eraseIdx i })
    | some m =>
      if !s.firstMcst i src grp then .next s
      else
        let s := { s with net := s.net.eraseIdx i }
        if m.stale then .next s else .next ((s.applyCopy m st).1.post src (.mcstAck id m.rank))
  | some { msg := .numbered group n st id sender, .. } =>
    match s.member group with
    | none => .next (if s.joins group then s else { s with net := s.net.eraseIdx i })
    | some m =>
      if s.joins group then .next s
      else if m.stale || n ≤ m.count then .next { s with net := s.net.eraseIdx i }
      else if n != m.count + 1 then .next s
      else
        let refused := sender == s.pkg && s.refused.contains id
        let s := { s with net := s.net.eraseIdx i, refused := if refused then s.refused.erase id else s.refused }
        let r := s.applyCopy m (if refused then .bytes [] else st)
        let s := r.1.putMember group { m with count := n }
        let s := s.post m.root (.applied group n m.rank r.2 id sender)
        let s := if sender = s.pkg then s.updPending id fun p => { p with placed := true } else s
        .next (if sender = s.pkg then s.post sender (.seqReply id n r.2) else s)
  | some { msg := .mldrAsk group offs ty id sender, from_ := src, .. } =>
    match s.member group with
    | none => .next (if s.joins group then s else { s with net := s.net.eraseIdx i })
    | some m =>
      let lanes := (offs.map (·.1)).eraseDups
      let vals := lanes.map fun l => s.copyNat m ((offs.filter (·.1 == l)).map (·.2)) % 2 ^ ty.width
      .next ({ s with net := s.net.eraseIdx i }.post src (.mldrAnswer group m.rank vals id sender))
  | some { msg := .resyncAsk group _ n0 to_, .. } =>
    -- the lowest live member sends its copy once it has applied n0 (R294)
    match s.member group with
    | none => .next { s with net := s.net.eraseIdx i }
    | some m =>
      if m.stale then .next { s with net := s.net.eraseIdx i }
      else if m.count < n0 then .next s
      else
        let bytes := (List.range m.wlen).filterMap fun o =>
          match s.copyAddr m o with
          | some a => if s.memByte a = 0 then none else some (o, s.memByte a)
          | none => none
        .next ({ s with net := s.net.eraseIdx i }.post to_ (.resyncCopy group n0 bytes))
  | _ => .next s

-- THE CRIER
def Crier.live (c : Crier) : List CrierMember := c.members.filter fun m => !m.stale

def Crier.updMember (c : Crier) (rank : Nat) (h : CrierMember → CrierMember) : Crier :=
  { c with members := c.members.map fun m => if m.rank == rank then h m else m }

/-- The live member of lowest rank. -/
def Crier.lowest (c : Crier) : Option CrierMember :=
  match c.live with
  | [] => Option.none
  | m :: ms => some (ms.foldl (fun a b => if b.rank < a.rank then b else a) m)

/-- A store whose sender the crier itself must answer, because the sender's copy is stale or gone (R307). -/
def Crier.owes (c : Crier) (p : Sent) : Bool := !p.answered && !c.live.any (·.pkg == p.sender)

/-- The crier's answer to a stale sender: the old value at the lowest live member once that has applied the number, a rejection
where no live member remains (R307). -/
def Crier.answer (c : Crier) (p : Sent) : Option Msg :=
  if !c.owes p then Option.none else
  match c.lowest with
  | .none => some (.seqFail p.id)
  | some m =>
    -- a member that has the number by a copy of another's met no old value of its own: each that applied it met the same
    (c.olds.find? fun o => o.1 == p.num && (o.2.1 == m.rank || decide (p.num ≤ m.acked))).map fun o => .seqReply p.id p.num o.2.2

/-- The crier puts its books in order: it answers for stale senders, and a number that every live member has acknowledged is
performed at pod scope, which its sender learns (R292, R307). -/
def State.settleCrier (s : State) (group : Nat) (c : Crier) : State :=
  let s := c.sent.foldl (fun s p => match c.answer p with | some m => s.post p.sender m | none => s) s
  let sent := c.sent.map fun p => if (c.answer p).isSome then { p with answered := true } else p
  let settled := fun (p : Sent) => !(c.live.any fun m => m.acked < p.num) && !c.owes p
  let s := (sent.filter settled).foldl (fun s p => s.post p.sender (.seqDone p.id)) s
  let rest := sent.filter fun p => !settled p
  s.setCrier group { c with sent := rest, olds := c.olds.filter fun o => rest.any (·.num == o.1) }

/-- The members learn which ranks are live; a store that waits for another rank waits no more (R159, R292, R295). -/
def State.hearRoster (s : State) (group : Nat) (live : List Nat) : State :=
  match s.member group with
  | none => s
  | some m =>
    { s.setMember group (some { m with live := live }) with
      pendings := s.pendings.map fun p =>
        if p.group == group && p.kind == 0 then { p with waits := p.waits.filter live.contains } else p }

def State.tellRoster (s : State) (group : Nat) : State :=
  let c := s.crier group
  let live := c.live.map (·.rank)
  ((c.members.map (·.pkg)).eraseDups).foldl (fun s pkg =>
    if pkg = s.pkg then s.hearRoster group live else s.post pkg (.roster group live)) s

/-- The crier's switch numbers an arriving store, in the order of arrival, and sends it down the tree, or records an
acknowledgement (R292, R307); a store that its sender no longer wants and that has no number is dropped (R293). -/
def execCrierNumbering (i : Nat) (s : State) : Host.Outcome State Fault Refusal :=
  match s.net[i]? with
  | some { msg := .mcsq group st id, from_ := src, .. } =>
    let c := s.crier group
    if c.hold.isSome || !s.firstMcsq i group then .next s
    else
      let s := { s with net := s.net.eraseIdx i }
      let n := c.number + 1
      if c.size = 0 ∨ 2 ^ 48 ≤ n then .next (s.post src (.seqFail id))
      else
        let s := s.setCrier group { c with
          number := n, sent := c.sent ++ [{ num := n, at_ := s.tb.est.toNat, id := id, sender := src, answered := false }] }
        let s := if src = s.pkg then s.updPending id fun p => { p with placed := true } else s
        let s := c.live.foldl (fun s m => s.post m.pkg (.numbered group n st id src)) s
        .next (s.settleCrier group (s.crier group))
  | some { msg := .applied group n rank old _ _, .. } =>
    let s := { s with net := s.net.eraseIdx i }
    let c := (s.crier group).updMember rank fun m => { m with acked := max m.acked n }
    .next (s.settleCrier group { c with olds := c.olds ++ [(n, rank, old)] })
  | some { msg := .seqCancel group id, from_ := src, .. } =>
    let s := { s with net := s.net.eraseIdx i }
    let isIt := fun (l : Letter) => l.from_ == src && match l.msg with | .mcsq g _ k => g == group && k == id | _ => false
    if s.net.any isIt then .next ({ s with net := s.net.filter fun l => !isIt l }.post src (.seqFail id)) else .next s
  | _ => .next s

/-- A rank resynchronises. -/
def Crier.resyncs (c : Crier) (rank : Nat) : Bool := match c.hold with | some h => h.rank == rank | .none => false

/-- The member whose copy a resync takes: the live one of lowest rank, asked for it; where none is live, the count alone
(R294). -/
def State.askSource (s : State) (group : Nat) (h : Hold) : State :=
  let c := s.crier group
  match ({ c with members := c.members.filter (·.rank != h.rank) } : Crier).lowest with
  | none => (s.setCrier group { c with hold := some { h with source := none } }).post h.pkg (.joinReply group 0 h.n0)
  | some m => (s.setCrier group { c with hold := some { h with source := some m.rank } }).post m.pkg (.resyncAsk group h.rank h.n0 h.pkg)

/-- After a member has gone or has been marked stale: a resync of that member ends, and one that took its copy asks the next. -/
def State.mendHold (s : State) (group : Nat) (own : Bool) : State :=
  let c := s.crier group
  match c.hold with
  | none => s
  | some h =>
    if own then s.setCrier group { c with hold := none }
    else match h.source with
      | none => s
      | some r => if c.live.any (·.rank == r) then s else s.askSource group h

/-- A pending record whose registers are written leaves when every member has acknowledged. -/
def State.dropDone (s : State) : State := { s with pendings := s.pendings.filter fun p => !(p.replied && p.waits.isEmpty && p.kind < 3) }

/-- A member that cannot reach its crier hears of no acknowledgement any more: what it has sent waits for none (R292). -/
def State.orphan (s : State) (group : Nat) : State :=
  ({ s with pendings := s.pendings.map fun p => if p.group == group && p.kind ≤ 2 then { p with waits := [] } else p } : State).dropDone

/-- A member is marked stale at its crier, or takes the mark; a member that cannot reach its crier marks itself (R159, R292). -/
def execMemberStaleMark (group rank : Nat) (s : State) : Host.Outcome State Fault Refusal :=
  let isMark := fun (l : Letter) => match l.msg with | .staleMark g r => g == group && r == rank | _ => false
  let c := s.crier group
  match s.net.findIdx? isMark with
  | some i =>
    let s := { s with net := s.net.eraseIdx i }
    match s.member group with
    | some m => .next (mark (if m.rank = rank then s.putMember group { m with stale := true } else s) c)
    | none => .next (mark s c)
  | none =>
    match c.members.find? (·.rank == rank) with
    | none =>
      match s.member group with
      | some m =>
        if m.rank = rank ∧ !m.stale ∧ s.unreachable m.root then .next ((s.putMember group { m with stale := true }).orphan group)
        else .next s
      | none => .next s
    | some m =>
      let late := c.sent.any fun p => m.acked < p.num && p.at_ + c.rlim ≤ s.tb.est.toNat
      if (!m.stale && late) || (s.unreachable m.pkg && (!m.stale || c.resyncs rank)) then .next (mark s c) else .next s
where
  mark (s : State) (c : Crier) : State :=
    match c.members.find? (·.rank == rank) with
    | none => s
    | some m =>
      if m.stale && !(c.resyncs rank && s.unreachable m.pkg) then s else
      let c := c.updMember rank fun m => { m with stale := true }
      let s := ((s.settleCrier group c).mendHold group (c.resyncs rank)).tellRoster group
      s.post m.pkg (.staleMark group rank)

-- REPLIES TO A SENDER
/-- Whether a store has left its group's FIFO; its limits run from then. -/
def State.sentOff (s : State) (p : Pending) : Bool :=
  !(s.group p.grp).stores.any fun e => match e.op with | .fabric id _ => id == p.id | _ => false

/-- The sequence number, and the old value of mcsq.cas, reach the sender's registers once its own copy holds the store
(R160, R307). -/
def execMcsqReply (i : Nat) (s : State) : Host.Outcome State Fault Refusal :=
  match s.net[i]? with
  | some { msg := .seqReply id n old, .. } =>
    match s.pendings.find? (·.id == id) with
    | none => .next { s with net := s.net.eraseIdx i }
    | some p =>
      let own := match s.member p.group with | some m => m.stale || n ≤ m.count | none => true
      if !own || p.replied then .next (if p.replied then { s with net := s.net.eraseIdx i } else s)
      else
        let s := { s with net := s.net.eraseIdx i }
        let s := s.updGroup p.grp fun g =>
          let g := g.setS (p.sreg + 1) (BitVec.ofNat 64 n)
          p.dst.foldl (fun g d => g.putDst d old) g
        .next (s.updPending id fun p => { p with replied := true, placed := true }).dropDone
  | _ => .next s

/-- RLIM of a pending record's group. -/
def State.rlimOf (s : State) (p : Pending) : Nat := match s.member p.group with | some m => m.rlim | none => 0

/-- The sending group takes ACCESS before its next issue. -/
def State.failPending (s : State) (p : Pending) : State :=
  { s with pendings := s.pendings.filter fun q => q.id != p.id }.postNext p.grp trapAccess p.va none

/-- The letter of a sequenced store that this module sent, still on its way to the crier. -/
def isMcsq (pkg id : Nat) (l : Letter) : Bool := l.from_ == pkg && match l.msg with | .mcsq _ _ k => k == id | _ => false

/-- A sequenced store is rejected (R293), whose letter is dropped where it has not left; `given`: it may have a number, so the
member of this module writes nothing of it. -/
def State.refuse (s : State) (p : Pending) (given : Bool) : State :=
  { s with net := s.net.filter fun l => !isMcsq s.pkg p.id l
           outbox := s.outbox.filter fun l => !isMcsq s.pkg p.id l
           refused := if given then s.refused ++ [p.id] else s.refused }.failPending p

/-- No reply of the crier within RLIM (R293): the store is rejected. Where its letter has left the module, the crier is first asked
to drop it, and says so if it had no number yet; a crier that no route reaches, or that is silent for RLIM more, is not waited
for (log entry 69). -/
def execMcsqReject (id : Nat) (s : State) : Host.Outcome State Fault Refusal :=
  let failed := fun (l : Letter) => match l.msg with | .seqFail k => k == id | _ => false
  match s.pendings.find? fun p => p.id == id && (p.kind == 1 || p.kind == 2) && !p.replied with
  | none => .next { s with net := s.net.filter fun l => !failed l }
  | some p =>
    let root := match s.member p.group with | some m => m.root | none => s.pkg
    if s.net.any failed then .next ({ s with net := s.net.filter fun l => !failed l }.failPending p)
    else if !s.sentOff p || p.placed || decide (s.tb.est.toNat ≤ p.issued + s.rlimOf p) then .next s
    else if s.net.any (isMcsq s.pkg id) || s.outbox.any (isMcsq s.pkg id) then .next (s.refuse p false)
    else if s.unreachable root || (p.cancel && decide (p.issued + 2 * s.rlimOf p < s.tb.est.toNat)) then .next (s.refuse p true)
    else if p.cancel then .next s
    else .next ((s.updPending id fun p => { p with cancel := true }).post root (.seqCancel p.group id))

/-- Every live member has acknowledged a sequenced store, as its crier says (R292). -/
def isDone (id : Nat) (l : Letter) : Bool := match l.msg with | .seqDone k => k == id | _ => false

/-- Acknowledgements of an mcst reach the sender; members that have not answered within RLIM are marked stale (R159). A sequenced
store is performed at pod scope once its crier says so (R292). -/
def execMcstComplete (id : Nat) (s : State) : Host.Outcome State Fault Refusal :=
  match s.pendings.find? fun p => p.id == id && p.kind ≤ 2 with
  | none => .next { s with net := s.net.filter fun l => !isDone id l }
  | some p =>
    if p.kind != 0 then
      if s.net.any (isDone id) then
        .next ({ s with net := s.net.filter fun l => !isDone id l }.updPending id fun p => { p with waits := [] }).dropDone
      else .next s
    else
    let acks := s.net.filterMap fun l => match l.msg with | .mcstAck k r => if k = id then some r else none | _ => none
    let s := { s with net := s.net.filter fun l => match l.msg with | .mcstAck k _ => k != id | _ => true }
    let waits := p.waits.filter fun r => !acks.contains r
    if waits.isEmpty || !s.sentOff p || decide (s.tb.est.toNat ≤ p.issued + s.rlimOf p) then
      .next (s.updPending id fun p => { p with waits := waits }).dropDone
    else
      let root := match s.member p.group with | some m => m.root | none => s.pkg
      let s := waits.foldl (fun s r => s.post root (.staleMark p.group r)) s
      .next (s.updPending id fun p => { p with waits := [] }).dropDone

-- MLDR (R161, R296)
/-- One fold of the switch, exact. -/
def mldrFold (op : Nat) (w : Nat) (a b : Int) : Int :=
  match op with
  | 0 => a + b
  | 1 => a + b
  | 2 => min a b
  | 3 => max a b
  | 4 => (wrapInt w a &&& wrapInt w b : Nat)
  | 5 => (wrapInt w a ||| wrapInt w b : Nat)
  | _ => (wrapInt w a ^^^ wrapInt w b : Nat)

/-- The identity of an operation, when no member answers. -/
def mldrIdentity (op : Nat) (ty : Ty) : Int :=
  match op with
  | 2 => intMax ty.signed ty.width
  | 3 => intMin ty.signed ty.width
  | 4 => (2 ^ ty.width : Nat) - 1
  | _ => 0

/-- The result of a fold in a lane: sadd saturates once, every other wraps. -/
def mldrResult (op : Nat) (ty : Ty) (x : Int) : Nat :=
  if op = 1 then wrapInt ty.width (saturate ty.signed ty.width x).1 else wrapInt ty.width x

/-- The fold of the answers in hand. -/
def Fold.value (f : Fold) : List Int :=
  match f.answers with
  | [] => List.replicate f.lanes (mldrIdentity f.op f.ty)
  | a :: as => as.foldl (fun x b => List.zipWith (mldrFold f.op f.ty.width) x b.2) a.2

def Fold.bitmap (f : Fold) : Nat := f.answers.foldl (fun a p => a + 2 ^ p.1) 0

/-- The switch's reply to the sender: its values, status and bitmap. -/
def State.mldrDone (s : State) (f : Fold) : State :=
  { s with folds := s.folds.filter fun q => !(q.id == f.id && q.sender == f.sender) }.post f.sender
    (.mldrReply f.id (f.value.map (mldrResult f.op f.ty)) (if f.waits.isEmpty then 0 else 1) (BitVec.ofNat 64 f.bitmap))

/-- A fold goes on, or is done when it waits for no member. -/
def State.putFold (s : State) (f : Fold) : State :=
  if f.waits.isEmpty then s.mldrDone f
  else { s with folds := s.folds.map fun q => if q.id == f.id && q.sender == f.sender then f else q }

/-- A member that has left is no member of a request still in the switch (R295). -/
def State.leaveFolds (s : State) (group rank : Nat) : State :=
  (s.folds.filter (·.group == group)).foldl (fun s f =>
    s.putFold { f with waits := f.waits.filter (· != rank), answers := f.answers.filter (·.1 != rank) }) s

/-- A request starts a fold, or a member's answer is folded (R296). -/
def execMldrResponseFold (i : Nat) (s : State) : Host.Outcome State Fault Refusal :=
  match s.net[i]? with
  | some { msg := .mldr group offs op ty id, from_ := src, .. } =>
    let s := { s with net := s.net.eraseIdx i }
    let c := s.crier group
    if c.size = 0 then .next s else
    let f : Fold := { id := id, sender := src, group := group, op := op, ty := ty, waits := c.members.map (·.rank)
                      lanes := ((offs.map (·.1)).eraseDups).length, answers := [], since := s.tb.est.toNat }
    let s := { s with folds := s.folds ++ [f] }
    .next (c.live.foldl (fun s m => s.post m.pkg (.mldrAsk group offs ty id src)) s)
  | some { msg := .mldrAnswer _ rank vals id sender, .. } =>
    let s := { s with net := s.net.eraseIdx i }
    match s.folds.find? fun f => f.id == id && f.sender == sender && f.waits.contains rank with
    | none => .next s
    | some f =>
      .next (s.putFold { f with answers := f.answers ++ [(rank, vals.map (intVal f.ty.signed f.ty.width))]
                                waits := f.waits.filter (· != rank) })
  | _ => .next s

/-- RLIM expires at the switch: members that have not answered are left out (R161, R293). -/
def execMldrResponseTimeout (id : Nat) (s : State) : Host.Outcome State Fault Refusal :=
  match s.folds.find? fun f => f.id == id && f.since + (s.crier f.group).rlim ≤ s.tb.est.toNat with
  | some f => .next (s.mldrDone f)
  | none => .next s

/-- The switch's reply reaches the sender's registers. -/
def execMldrReply (i : Nat) (s : State) : Host.Outcome State Fault Refusal :=
  match s.net[i]? with
  | some { msg := .mldrReply id vals status bitmap, .. } =>
    let s := { s with net := s.net.eraseIdx i }
    match s.pendings.find? fun p => p.id == id && p.kind == 3 with
    | none => .next s
    | some p =>
      let s := s.updGroup p.grp fun g =>
        let g := (List.zip p.dst vals).foldl (fun g q => g.putDst q.1 q.2) g
        (g.setS (p.sreg + 1) (BitVec.ofNat 64 status)).setS (p.sreg + 2) bitmap
      .next { s with pendings := s.pendings.filter fun q => q.id != id }
  | _ => .next s

/-- No reply within 2 × RLIM (R161). -/
def execMldrNoReply (id : Nat) (s : State) : Host.Outcome State Fault Refusal :=
  match s.pendings.find? fun p => p.id == id && p.kind == 3 with
  | some p => if p.issued + 2 * s.rlimOf p < s.tb.est.toNat then .next (s.failPending p) else .next s
  | none => .next s

end Sys2Proof.Machine
end

