-- ==== Sys2Proof/Machine/Regs.lean ====
section
/-! DEFINITION. The control pages of the 64 functions (R271 to R273, R256, R289, R290, R313, R318, R327, R342, R345, R347, R350, R357, R358, R360, R364): what each register reads, which event a write is, and the writes of registers with no behaviour of their own. -/

namespace Sys2Proof.Machine

def b2d (b : Bool) (i : Nat) : Nat := if b then 2 ^ i else 0

def Fn.queue (f : Fn) (q : Nat) : Queue := mapGet Queue.none f.queues q
def Fn.setQueue (f : Fn) (q : Nat) (x : Queue) : Fn := { f with queues := mapSet Queue.none f.queues q x }
def Fn.region (f : Fn) (k : Nat) : Region := mapGet Region.none f.regions k

-- READS
def readQueue (q : Queue) (r : Nat) : Nat :=
  match r with
  | 0 => q.base.toNat
  | 1 => b2d q.en 7 + q.pri * 2 ^ 5 + q.size
  | 2 => q.head % 2 ^ q.size
  | _ => q.tail

/-- The basic page, of a function that enumerates (R356; log entry 82); +0x068 and +0x070 read without the effect of R318, which readPage adds. -/
def State.readBasic (s : State) (fn off : Nat) : Nat :=
  if !s.present fn then 0 else
  let f := s.fn fn
  if off < 0x100 then
    match off with
    | 0x000 => s.health.pstate * 2 ^ 6 + fn
    | 0x008 => f.ctxt.toNat
    | 0x010 => f.ctxen.toNat
    | 0x018 => f.qctx.toNat
    | 0x028 => f.wakea.toNat
    | 0x030 => f.waken.toNat
    | 0x040 => f.invst.toNat
    | 0x050 => f.slotrec.toNat
    | 0x060 => f.slotst.toNat
    | 0x068 => s.tb.earliest
    | 0x070 => f.late.toNat
    | 0x078 => f.dumpb.toNat
    | 0x080 => f.dumpc.toNat
    | 0x088 => f.dumph.toNat
    | 0x090 => f.trcb.toNat
    | 0x098 => f.trcl.toNat
    | 0x0A0 => f.trch.toNat
    | 0x0C0 => if fn = 0 then s.health.nfail * 2 ^ 16 + s.health.first * 2 ^ 8 + s.health.diag else 0
    | 0x0C8 => if fn = 0 then s.health.diagu.toNat else 0
    | _ => 0
  else if off < 0x200 then readQueue (f.queue (off % 0x100 / 0x20)) (off % 0x20 / 8)
  else 0

/-- Function 0's own part of the expert page. -/
def State.readZero (s : State) (off : Nat) : Nat :=
  if 0x400 ≤ off ∧ off < 0x4C0 then
    if off % 16 = 0 then
      let p := s.port ((off - 0x400) / 16)
      p.replays % 2 ^ 32 * 2 ^ 32 + p.peer % 2 ^ 8 * 2 ^ 24 + p.peerPkg % 2 ^ 12 * 2 ^ 12 + b2d p.cei 8 + min p.window 15 * 2 ^ 4 +
        p.state
    else 0
  else match off with
    | 0x500 => b2d s.tb.pod 49 + b2d s.tb.ref 48 + s.tb.pxlog * 2 ^ 44 + s.tb.par1 * 2 ^ 40 + s.tb.par0 * 2 ^ 36 +
        s.tb.drift * 2 ^ 16 + s.tb.driftfb
    | 0x508 => s.tb.epsfail * 2 ^ 40 + s.tb.refeps * 2 ^ 32 + s.tb.dlvb * 2 ^ 16 + s.tb.epslim
    | 0x510 => b2d s.tb.tinLost 10 + b2d s.tb.conflict 9 + b2d s.tb.refLost 8 + s.tb.state
    | 0x520 => s.clock.count.toNat
    | 0x530 => b2d s.clock.refused 9 + b2d s.clock.pend 8 + s.clock.next * 2 ^ 4 + s.clock.cur
    | 0x700 => s.err.st
    | 0x708 => s.err.msk
    | 0x710 => s.err.lb.toNat
    | 0x718 => s.err.lh.toNat
    | 0x720 => s.inject.team * 2 ^ 32 + s.inject.off * 4
    | 0x728 => b2d s.inject.arm 63 + s.inject.fn * 2 ^ 4 + s.inject.ctx
    | 0x800 => s.ck.buddy * 2 ^ 36 + b2d s.ck.en 0
    | 0x808 => s.ck.base.toNat
    | 0x810 => s.ck.list.toNat
    | 0x818 => s.ck.t.toNat
    | 0x820 => b2d s.ck.fail 2 + b2d s.ck.busy 1 + s.ck.slot
    | 0x828 => s.ck.last.toNat
    | 0x840 => s.fw.base.toNat
    | 0x850 => s.fw.st
    | 0x880 => s.health.watts % 2 ^ 16
    | 0x888 => s.health.tj % 2 ^ 8
    | _ => 0

/-- The expert page. -/
def State.readExpert (s : State) (fn off : Nat) : Nat :=
  if !s.present fn then 0 else
  let f := s.fn fn
  if 0x100 ≤ off ∧ off < 0x300 then
    let r := f.region ((off - 0x100) / 0x20)
    match off % 0x20 / 8 with
    | 0 => r.vbase.toNat
    | 1 => r.len.toNat
    | 2 => r.elems.toNat
    | _ => r.scale.toNat
  else if 0x600 ≤ off ∧ off < 0x700 then
    let c := s.ctx (ctxKey fn ((off - 0x600) / 16))
    if off % 16 = 0 then c.rwbase.toNat else c.rwlen.toNat
  else match off with
    | 0x000 => f.part
    | 0x008 => f.tslice
    | 0x010 => b2d f.dbg 0
    | 0x300 => f.mcgd.toNat
    | 0x310 => f.mcgst
    | _ => if fn = 0 then s.readZero off else 0

/-- `n` bytes of a basic page as a load reads them, with the pairing of TBNOW's registers (R318). -/
def State.readPage (s : State) (fn off n : Nat) : State × Nat :=
  let r := off / 8 * 8
  let v := s.readBasic fn r / 2 ^ (off % 8 * 8) % 2 ^ (8 * n)
  (if r = 0x068 && s.present fn then s.updFn fn fun f => { f with late := BitVec.ofNat 64 s.tb.latest } else s, v)

-- WRITES
/-- The event that a function's write of a 64-bit value to an 8-byte offset of a page is: a page of its own, or an expert page in
function 0's window, where the write acts as the page's own function's would (R271). -/
def pageEvent (writer fn : Nat) (expert : Bool) (off : Nat) (val : DWord) : Instr :=
  let plain := Instr.registerWrite fn { expert := expert, writer := writer } off val
  if expert then
    match off with
    | 0x308 =>
      match bitsAt val.toNat 20 2 with
      | 1 => .mcgJoin fn val
      | 2 => .mcgLeave fn val
      | 3 => .mcgResync fn val
      | _ => plain
    | 0x500 => if fn = 0 then .tbcfgWrite val else plain
    | 0x508 => if fn = 0 then .tblimWrite val else plain
    | 0x518 => if fn ≠ 0 then plain else match val.toNat % 4 with
               | 1 => .tbcmdReacquire
               | 2 => .tbcmdForceFailed
               | _ => plain
    | 0x528 => if fn = 0 then .clkfreqWrite val else plain
    | 0x728 => if fn = 0 then .vinjbArm val else plain
    | 0x818 => if fn = 0 then .cktWrite val else plain
    | 0x848 => if fn = 0 then .fwStage val else plain
    | _ => plain
  else if 0x100 ≤ off ∧ off < 0x200 then
    if off % 0x20 = 24 then .qtailWrite fn (off % 0x100 / 0x20) val else plain
  else match off with
    | 0x010 => .ctxenWrite fn val
    | 0x020 => .gateDecrement fn val
    | 0x030 => .waken fn val
    | 0x038 => .inval fn val
    | 0x048 => if bitOf val.toNat 32 then .resumeFail fn (val.toNat % 2 ^ 32) else .resumeReplay fn (val.toNat % 2 ^ 32)
    | 0x058 => if bitOf val.toNat 12 then .slotcmdDrop fn val else .slotcmdLoad fn val
    | _ => plain

/-- Registers in which a 1 has an effect: a part of them not written counts as 0. -/
def writesOnes (expert : Bool) (off : Nat) : Bool :=
  expert && ([0x510, 0x530, 0x700, 0x728, 0x820].contains off || (0x400 ≤ off && off < 0x4C0))

/-- The event of a store of `n` bytes to a basic page: the part of the register not written keeps its value
(log entry 18). -/
def State.pageStore (s : State) (fn off n x : Nat) : Instr :=
  let r := off / 8 * 8
  let sh := off % 8 * 8
  let old := s.readBasic fn r
  let m := (2 ^ (8 * n) - 1) * 2 ^ sh
  pageEvent fn fn false r (BitVec.ofNat 64 (old - (old &&& m) + x % 2 ^ (8 * n) * 2 ^ sh))

def writeQueue (q : Queue) (r : Nat) (v : Nat) : Queue :=
  match r with
  | 0 => { q with base := BitVec.ofNat 64 v }
  | 1 => { q with en := bitOf v 7, pri := bitsAt v 5 2, size := if 4 ≤ v % 2 ^ 5 ∧ v % 2 ^ 5 ≤ 16 then v % 2 ^ 5 else 4 }
  | _ => q

/-- A write to a basic page; in the safe state every queue write is discarded (R356). -/
def State.writeBasic (s : State) (fn off : Nat) (v : DWord) : State :=
  let n := v.toNat
  if 0x100 ≤ off ∧ off < 0x200 then
    if s.health.pstate = 2 then s else s.updFn fn fun f => let q := off % 0x100 / 0x20
                        f.setQueue q (writeQueue (f.queue q) (off % 0x20 / 8) n)
  else s.updFn fn fun f =>
    match off with
    | 0x008 => if f.tdi = .run then f else { f with ctxt := v }
    | 0x018 => { f with qctx := v.setWidth 32 }
    | 0x028 => { f with wakea := BitVec.ofNat 64 (bitsAt n 60 4 * 2 ^ 60 + n % 2 ^ 57) }
    | 0x050 => { f with slotrec := v }
    | 0x078 => { f with dumpb := v }
    | 0x080 => { f with dumpc := BitVec.ofNat 64 (n % 2 ^ 40) }
    | 0x090 => { f with trcb := v }
    | 0x098 => { f with trcl := v.setWidth 32 }
    | _ => f

/-- A flag that a written 1 clears. -/
def clr (b : Bool) (n i : Nat) : Bool := b && !bitOf n i

def State.writeZero (s : State) (off : Nat) (v : DWord) : State :=
  let n := v.toNat
  if 0x400 ≤ off ∧ off < 0x4C0 then
    if off % 16 = 0 then
      let k := (off - 0x400) / 16
      s.setPort k { s.port k with cei := clr (s.port k).cei n 8 }
    else s
  else match off with
    | 0x510 => { s with tb := { s.tb with conflict := clr s.tb.conflict n 9 } }
    | 0x520 => { s with clock := { s.clock with count := v } }
    | 0x530 => { s with clock := { s.clock with refused := clr s.clock.refused n 9 } }
    | 0x700 => { s with err := { s.err with st := s.err.st - (s.err.st &&& n) } }
    | 0x708 => { s with err := { s.err with msk := n % 2 ^ 9 } }
    | 0x710 => { s with err := { s.err with lb := v } }
    | 0x720 => { s with inject := { s.inject with team := n / 2 ^ 32, off := bitsAt n 2 19 } }
    | 0x800 => { s with ck := { s.ck with buddy := bitsAt n 36 12, en := bitOf n 0 } }
    | 0x808 => { s with ck := { s.ck with base := v } }
    | 0x810 => { s with ck := { s.ck with list := v } }
    | 0x820 => { s with ck := { s.ck with fail := clr s.ck.fail n 2 } }
    | 0x840 => { s with fw := { s.fw with base := v } }
    | _ => s

-- WHOSE SLICE A DIE PAIR IS IN (R274)
/-- The functions that share a pair. -/
def State.sharers (s : State) (pair : Nat) : List Nat :=
  (List.range 64).filter fun f => bitOf (s.fn f).part pair

/-- The first frame that has not begun before now. -/
def State.frameUp (s : State) : Nat := (s.tb.est.toNat + 249) / 250

/-- The function whose slice it is, and its first whole frame. -/
def State.sliceOf (s : State) (pair : Nat) : Nat × Nat :=
  let fs := s.sharers pair
  let o := mapGet (0, 0) s.owner pair
  if fs.contains o.1 then o else (fs.headD 0, 0)

/-- A pair that `old` did not share, or whose slice's owner shares it no more, begins with the first of its functions. -/
def State.firstSlice (s old : State) (pair : Nat) : State :=
  if (old.sharers pair).length < 2 || !(s.sharers pair).contains (mapGet (64, 0) s.owner pair).1 then
    { s with owner := mapInsert s.owner pair ((s.sliceOf pair).1, s.frameUp) }
  else s

/-- A write to an expert page; PART is written by function 0 alone (R273). -/
def State.writeExpert (s : State) (writer fn off : Nat) (v : DWord) : State :=
  let n := v.toNat
  if 0x100 ≤ off ∧ off < 0x300 then
    s.updFn fn fun f =>
      let k := (off - 0x100) / 0x20
      let r := f.region k
      let r := match off % 0x20 / 8 with
        | 0 => { r with vbase := v }
        | 1 => { r with len := v }
        | 2 => { r with elems := v }
        | _ => { r with scale := v }
      { f with regions := mapSet Region.none f.regions k r }
  else if 0x600 ≤ off ∧ off < 0x700 then
    s.updCtx (ctxKey fn ((off - 0x600) / 16)) fun c =>
      if off % 16 = 0 then { c with rwbase := v } else { c with rwlen := BitVec.ofNat 64 (n % 2 ^ 41) }
  else match off with
    | 0x000 => if writer = 0 then ((s.updFn fn fun f => { f with part := n % 4 }).firstSlice s 0).firstSlice s 1 else s
    | 0x008 => s.updFn fn fun f => { f with tslice := if n % 2 ^ 16 = 0 then 1000 else n % 2 ^ 16 }
    | 0x010 => s.updFn fn fun f => { f with dbg := bitOf n 0 }
    | 0x300 => s.updFn fn fun f => { f with mcgd := v }
    | _ => if fn = 0 then s.writeZero off v else s

/-- A launch ends with a trap code and no image: its teams stop and its staged records are discarded (R284, R341). -/
def State.killLaunch (s : State) (lk code : Nat) : State :=
  let s := s.updLaunch lk fun l => { l with fatal := (match l.fatal with | some c => some c | none => some code) }
  s.teams.foldl (fun s p => if teamLaunch p.1 = lk then (s.deadTeam p.1).updTeam p.1 fun t => { t with staging := [] } else s) s

def State.killFunction (s : State) (fn code : Nat) : State :=
  s.launches.foldl (fun s p => if p.2.fn = fn && p.2.active then s.killLaunch p.1 code else s) s

/-- The TDI of a function in RUN moves to ERROR (R284): its contexts are disabled and its launches end with ACCESS. -/
def State.tdiError (s : State) (fn : Nat) : State :=
  let s := s.killFunction fn trapAccess
  let s := (List.range 16).foldl (fun s c => s.updCtx (ctxKey fn c) fun x => { x with enabled := false, streams := [] }) s
  s.updFn fn fun f => { f with tdi := .error, ctxen := 0, enWant := 0 }

/-- Whether some bytes of device memory hold a context descriptor or a page table of a function (R275, R276). -/
def State.locked (s : State) (fn addr n : Nat) : Bool :=
  let base := (s.fn fn).ctxt.toNat
  (List.range n).any fun i => decide (base ≤ addr + i ∧ addr + i < base + 1024) ||
    (List.range 16).any fun c => (s.ctx (ctxKey fn c)).enabled && s.inTables (addr + i) 5 (s.ctx (ctxKey fn c)).root

/-- A write of the host to device memory (R365): one that changes a descriptor or a page table of a TDI in RUN moves it to ERROR
(R284, log entry 61). -/
def State.hostWrite (s : State) (addr : Nat) (bs : List Byte) : State :=
  match s.setDevBytes addr bs with
  | none => s
  | some t =>
    if t.mem = s.mem then t
    else ((mapKeys s.fns).filter fun f => (s.fn f).tdi == .run && s.locked f addr bs.length).foldl State.tdiError t

/-- What a write to a function's expert page does first (R284). -/
def State.openExpert (s : State) (fn : Nat) : State := if (s.fn fn).tdi = .run then s.tdiError fn else s

-- EVENTS
/-- A function's write to a register with no behaviour of its own: a write to a reserved offset is discarded (R272), and none
reaches another function's page but function 0's to an expert page (R271), or one of a function that does not enumerate (R356). -/
def execRegisterWrite (fn : Nat) (page : PageWrite) (off : Nat) (val : DWord) (s : State) : Host.Outcome State Fault Refusal :=
  if !s.present fn || (page.writer != fn && !(page.expert && page.writer == 0)) then .next s
  else if page.expert then .next ((s.openExpert fn).writeExpert page.writer fn off val)
  else .next (s.writeBasic fn off val)

/-- A read of TBNOW (R318): EARLY gives a tnow and keeps its latest for LATE. -/
def execTbnowRead (fn : Nat) (late : Bool) (s : State) : Host.Outcome State Fault Refusal :=
  if late then .next s else .next (s.readPage fn 0x068 8).1

/-- A write of VINJB (R350). -/
def execVinjbArm (val : DWord) (s : State) : Host.Outcome State Fault Refusal :=
  let n := val.toNat
  let s := s.openExpert 0
  .next { s with inject := { s.inject with arm := s.inject.arm || bitOf n 63, fn := bitsAt n 4 6, ctx := bitsAt n 0 4 } }

/-- A TDISP request (R284). -/
def execTdispRequest (fn : Nat) (req : TdispReq) (s : State) : Host.Outcome State Fault Refusal :=
  let f := s.fn fn
  match req, f.tdi with
  | .lock, .unlocked => .next (s.updFn fn fun f => { f with tdi := .locked })
  | .start, .locked => .next (s.updFn fn fun f => { f with tdi := .run })
  | .stop, _ => .next (s.updFn fn fun f => { f with tdi := .unlocked })
  | _, _ => .next s

end Sys2Proof.Machine
end

