-- ==== Sys2Proof/Machine/EvGroups.lean ====
section
/-! DEFINITION. Joining, leaving and resynchronising multicast groups (R290, R291, R294, R295). -/

namespace Sys2Proof.Machine

/-- A descriptor as the module reads it at a join (R290): the group and the membership, unless it is invalid. -/
def readMember (s : State) (fn ctx : Nat) : Option (Nat × Member) :=
  let a := (s.fn fn).mcgd.toNat
  if a % 64 != 0 || !(s.ctx (ctxKey fn ctx)).enabled then none else
  match s.devBytes a 64 with
  | none => none
  | some d =>
    let ck := ctxKey fn ctx
    let size := field d 4 2
    let rank := field d 6 2
    let wbase := field d 8 8
    let wlen := field d 16 8
    let acnt := field d 24 8
    let rlim := field d 40 4
    let ok := field d 0 2 == 1 && decide (field d 2 2 ≤ 1023) && decide (1 ≤ size ∧ size ≤ 4096) && decide (rank < size) &&
      wbase % 2 ^ 16 == 0 && wlen % 2 ^ 16 == 0 && decide (0 < wlen ∧ wlen ≤ 2 ^ 40) && acnt % 8 == 0 &&
      (rlim == 0 || decide (250 ≤ rlim ∧ rlim ≤ 2 ^ 24)) && decide (field d 44 2 ≤ 4095) && field d 46 18 == 0 &&
      (s.vaAddr ck acnt true).isSome &&
      (List.range (wlen / 2 ^ 16)).all fun p => match s.vaAddr ck (wbase + p * 2 ^ 16) false with
        | some x => decide (x < 2 ^ 52)
        | none => false
    if !ok then none else
    match s.vaBytes ck (field d 32 8) (2 * size) with
    | none => none
    | some ls =>
      some (field d 2 2, { fn := fn, ctx := ctx, size := size, rank := rank, wbase := wbase, wlen := wlen, acnt := acnt
                           list := (List.range size).map fun r => field ls (2 * r) 2
                           rlim := if rlim = 0 then 2500 else rlim, root := field d 44 2, count := 0, stale := false, live := List.range size })

def State.setMcgst (s : State) (fn st : Nat) : State := s.updFn fn fun f => { f with mcgst := st }

/-- The result of a command for a group, which MCGST reports while no later command stands (R290). -/
def Fn.result (f : Fn) (group st : Nat) : Fn := if f.mcgLast = group then { f with mcgst := st } else f

/-- Another context of this module is a member of a group, or is joining it. -/
def State.heldByOther (s : State) (group : Nat) (m : Member) : Bool :=
  let other := fun (x : Member) => x.fn != m.fn || x.ctx != m.ctx
  (match s.member group with | some x => other x | none => false) ||
  s.fns.any fun p => p.2.joining.any fun q => q.1 == group && other q.2

/-- MCGCMD join (R290). -/
def execMcgJoin (fn : Nat) (val : DWord) (s : State) : Host.Outcome State Fault Refusal :=
  if !s.present fn then .next s else
  let s := s.openExpert fn
  match readMember s fn (bitsAt val.toNat 16 4) with
  | none => .next (s.setMcgst fn 2)
  | some (group, m) =>
    if m.list.getD m.rank 0 != s.pkg then .next (s.setMcgst fn 3)
    else if s.heldByOther group m then .next (s.setMcgst fn 4)
    else .next (ask s group m)
where
  ask (s : State) (group : Nat) (m : Member) : State :=
    (s.updFn fn fun f => { f with mcgst := 1, mcgLast := group, joining := f.joining.filter (·.1 != group) ++ [(group, m)] }).post m.root
      (.join group m.rank m.size m.list m.wlen m.rlim m.root)

/-- MCGCMD leave (R295). -/
def execMcgLeave (fn : Nat) (val : DWord) (s : State) : Host.Outcome State Fault Refusal :=
  if !s.present fn then .next s else
  let s := s.openExpert fn
  let group := val.toNat % 2 ^ 10
  match s.memberOf (ctxKey fn (bitsAt val.toNat 16 4)) group with
  | none => .next (s.setMcgst fn 0)
  | some m => .next (((s.setMember group none).post m.root (.leave group m.rank)).setMcgst fn 0)

/-- MCGCMD resync (R294): a copy that is not stale is in order already. -/
def execMcgResync (fn : Nat) (val : DWord) (s : State) : Host.Outcome State Fault Refusal :=
  if !s.present fn then .next s else
  let s := s.openExpert fn
  let group := val.toNat % 2 ^ 10
  match s.memberOf (ctxKey fn (bitsAt val.toNat 16 4)) group with
  | none => .next (s.setMcgst fn 2)
  | some m =>
    if m.stale then .next ((s.updFn fn fun f => { f with mcgst := 1, mcgLast := group }).post m.root (.resyncStart group m.rank))
    else .next (s.setMcgst fn 0)

/-- The first steps of a resync at the crier (R294). -/
def State.startResync (s : State) (group rank pkg : Nat) (c : Crier) : State :=
  let h : Hold := { rank := rank, pkg := pkg, source := none, n0 := c.number }
  ((s.settleCrier group { c with hold := some h }).tellRoster group).askSource group h

/-- A rank leaves its crier's books; the crier forgets a group at its last leave (R290, R295). -/
def State.dropRank (s : State) (group rank : Nat) : State :=
  let s := s.leaveFolds group rank
  let c := s.crier group
  let ms := c.members.filter (·.rank != rank)
  if ms.isEmpty then
    (s.settleCrier group { c with members := [] }).setCrier group Crier.none
  else ((s.settleCrier group { c with members := ms }).mendHold group (c.resyncs rank)).tellRoster group

/-- A join, a leave or a resync reaches the crier. -/
def crierCommand (i : Nat) (s : State) : Option State :=
  match s.net[i]? with
  | some { msg := .join group rank size list wlen rlim root, from_ := src, .. } =>
    let c := s.crier group
    let s' := { s with net := s.net.eraseIdx i }
    if c.size != 0 && (c.size != size || c.list != list || c.wlen != wlen || c.rlim != rlim || c.root != root) then
      some (s'.post src (.joinReply group 3 0))
    else if c.hold.isSome && !c.resyncs rank then none
    else
      -- a rank that is already held ends its membership as by a leave, but for the group's own life
      let s' := if c.members.any (·.rank == rank) && c.members.length ≠ 1 then s'.dropRank group rank else s'
      let c := s'.crier group
      let c := if c.size = 0 then { Crier.none with size := size, list := list, wlen := wlen, rlim := rlim, root := root } else c
      let m : CrierMember := { rank := rank, pkg := src, stale := c.number != 0, acked := c.number }
      let c : Crier := { c with members := (c.members.filter (·.rank != rank)) ++ [m] }
      if c.number = 0 then some (((s'.setCrier group { c with hold := none }).post src (.joinReply group 0 0)).tellRoster group)
      else some ((s'.post src (.joinReply group 1 0)).startResync group rank src c)
  | some { msg := .leave group rank, .. } =>
    some ({ s with net := s.net.eraseIdx i }.dropRank group rank)
  | some { msg := .resyncStart group rank, from_ := src, .. } =>
    let c := s.crier group
    if c.hold.isSome then none
    else some ({ s with net := s.net.eraseIdx i }.startResync group rank src
      (c.updMember rank fun m => { m with stale := true }))
  | some { msg := .resyncDone group rank, .. } =>
    let c := s.crier group
    if !c.resyncs rank then some { s with net := s.net.eraseIdx i } else
    let c := c.updMember rank fun m => { m with stale := false, acked := max m.acked c.number }
    some (({ s with net := s.net.eraseIdx i }.setCrier group { c with hold := none }).tellRoster group)
  | some { msg := .roster group live, .. } => some ({ s with net := s.net.eraseIdx i }.hearRoster group live)
  | _ => none

/-- The membership that a reply of the crier concerns: the one that joins, or the one that resynchronises. -/
def State.joiner (s : State) (group : Nat) : Option Member :=
  match s.fns.findSome? fun p => (p.2.joining.find? (·.1 == group)).map (·.2) with
  | some m => some m
  | none => s.member group

def Fn.joined (f : Fn) (group : Nat) : Fn := { f with joining := f.joining.filter (·.1 != group) }

def State.endJoin (s : State) (fn group st : Nat) : State := s.updFn fn fun f => (f.joined group).result group st

/-- The membership of the crier's own module hears the live ranks as it begins. -/
def State.liveOf (s : State) (group : Nat) (m : Member) : List Nat :=
  if m.root = s.pkg then ((s.crier group).live).map (·.rank) else m.live

/-- The crier's answer to a join, or the copy of a resync, reaches the member (R290, R294); at the crier, the commands that
they answer. -/
def execMcgResyncComplete (i : Nat) (s : State) : Host.Outcome State Fault Refusal :=
  match crierCommand i s with
  | some t => .next t
  | none =>
    match s.net[i]? with
    | some { msg := .joinReply group st n, .. } =>
      let s := { s with net := s.net.eraseIdx i }
      match s.joiner group with
      | none => .next s
      | some m =>
        let m := { m with live := s.liveOf group m }
        if st = 3 then .next (s.endJoin m.fn group 3)
        else if st = 1 then .next ((s.setMember group (some { m with stale := true })).updFn m.fn fun f => f.joined group)
        else .next (((s.putMember group { m with count := n, stale := false }).endJoin m.fn group 0).post m.root (.resyncDone group m.rank))
    | some { msg := .resyncCopy group n0 bytes, .. } =>
      -- a copy that overtakes the crier's answer waits for it
      if s.joins group then .next s else
      let s := { s with net := s.net.eraseIdx i }
      match s.member group with
      | none => .next s
      | some m =>
        if !m.stale then .next s else
        let s := s.setCopy m ((List.range m.wlen).map fun o =>
          (o, (match bytes.find? (·.1 == o) with | some b => b.2 | none => 0), (0xFF : Byte)))
        .next (((s.putMember group { m with count := n0, stale := false }).endJoin m.fn group 0).post m.root (.resyncDone group m.rank))
    | _ => .next s

end Sys2Proof.Machine
end

