-- ==== Sys2Proof/Machine/Vote.lean ====
section
/-! DEFINITION. The vote of a group (R110): its paths in their order. -/

namespace Sys2Proof.Machine

/-- A path: its lanes, their address and their standing. -/
structure PathOf where
  lanes    : Mask
  pc       : DWord
  standing : Nat
  deriving DecidableEq, Repr

/-- Not demoted first by ascending address, then demoted, earliest demotion first. -/
def pathBefore (a b : PathOf) : Bool := a.standing < b.standing || (a.standing == b.standing && a.pc.toNat < b.pc.toNat)

def insertPath (p : PathOf) : List PathOf → List PathOf
  | [] => [p]
  | q :: qs => if q.pc == p.pc && q.standing == p.standing then { q with lanes := q.lanes ||| p.lanes } :: qs
               else if pathBefore p q then p :: q :: qs else q :: insertPath p qs

/-- The paths of the voting lanes. -/
def Group.paths (g : Group) : List PathOf :=
  (maskLanes g.voting).foldl (fun ps l => insertPath { lanes := oneLane l, pc := (g.lane l).pc, standing := (g.lane l).standing } ps) []

/-- The first path of a group. -/
def Group.first (g : Group) : PathOf := g.paths.headD { lanes := 0, pc := 0, standing := 0 }

end Sys2Proof.Machine
end

