-- ==== Sys2Proof/Machine/EvMemory.lean ====
section
/-! DEFINITION. Memory events: a load binds (R228, R229), a store is applied at its home or staged (R229, R264, R265), a MSAU applies an update (R146), an empty line is waited on too long (R139), a special-function result arrives (R107). -/

namespace Sys2Proof.Machine

-- WRITES AT HOMES
/-- Whether the writes of one access cover every bit of a granule (R340). -/
def coversGranule (bs : List ByteWrite) (g : Nat) : Bool :=
  (List.range 64).all fun i => bs.any fun b => b.place == .mem (g + i) && b.en == 0xFF

/-- One block of a view read, changed and written whole (R76, R77). -/
def State.applyBlock (s : State) (gk : Nat) (pc : DWord) (bs : List ByteWrite) (k b : Nat) : State :=
  match s.badRead [.view k (64 * b)] with
  | some p => s.raiseRead gk pc p
  | none => viewWriteBlock s (s.region k) b (viewElems (bs.filter (inBlock k b)))

/-- The writes that fall in basic pages, as the stores to registers that they are: one access of up to 8 bytes, or the words of a
longer row. -/
def pageWrites (bs : List ByteWrite) : List (Nat × Nat × List Byte) :=
  let ps := bs.filterMap fun b => match b.place with | .page fn off => some (fn, off, b.val) | _ => none
  let per := if ps.length ≤ 8 then 8 else 4
  (List.range ((ps.length + per - 1) / per)).filterMap fun i =>
    let ws := (ps.drop (per * i)).take per
    ws.head?.map fun w => (w.1, w.2.1, ws.map (·.2.2))

/-- One access's writes applied whole at their home for a group (R229 fact 5, R76, R77, R340); the writes of some others that count
with them for a granule's cover are `all`. -/
def State.applyWith (s : State) (gk : Nat) (pc : DWord) (all bs : List ByteWrite) : State :=
  let full := s.poisoned.filter (coversGranule all)
  let s := { s with poisoned := s.poisoned.filter fun g => !full.contains g }
  let s := bs.foldl (fun s b => match b.place with
    | .mem a => if s.poisoned.contains (granule a) then s else s.writeByte b
    | _ => s.writeByte b) s
  let s := (blocksOf bs).foldl (fun s b => s.applyBlock gk pc bs b.1 b.2) s
  (pageWrites bs).foldl (fun s w => { s with agenda := s.agenda ++ [.event (s.pageStore w.1 w.2.1 w.2.2.length (ofBytes w.2.2))] }) s

def State.applyBytes (s : State) (gk : Nat) (pc : DWord) (bs : List ByteWrite) : State := s.applyWith gk pc bs bs

/-- A whole read-modify-write at its home: the old word and the flags, or the error its read finds. -/
def State.applyRmw (s : State) (op : RmwOp) (ty : Ty) (mode : Mode) (ps : List Place) (operand cmp : Nat) :
    Except Place (State × Nat × Word) :=
  match s.badRead ps with
  | some p => .error p
  | none =>
    let old := ofBytes (ps.map s.byteAtHome)
    let r := rmwWord op ty mode old operand cmp
    let s := (ps.mapIdx fun i p => { place := p, val := byteAt r.1 i, en := 0xFF : ByteWrite }).foldl State.writeByte s
    .ok (s, old, r.2)

-- STAGING (R264, R265, R268)
/-- Places of one page in the order of memory. -/
def Place.ord : Place → Nat
  | .vault t o => 2 ^ 64 * t + o
  | .mem a => a
  | .stamped a => a
  | .view _ o => o
  | .page _ o => o

/-- Bytes with their enables, in the order of memory. -/
def sortBytes (bs : List ByteWrite) : List ByteWrite := bs.mergeSort fun a b => a.place.ord ≤ b.place.ord

/-- The record of an entry of the g FIFO. -/
def recordOf (g : Group) (e : Store) : Record :=
  let bs := match e.op with
    | .write bs => sortBytes bs
    | .rmw _ _ ps operand _ _ _ => sortBytes (ps.mapIdx fun i p => { place := p, val := byteAt operand i, en := 0xFF : ByteWrite })
    | _ => []
  let enab := if e.ty == .e2m1 || e.ty == .e3m2 || e.ty == .e2m3 then ofBytes (bs.map (·.en)) else 0
  { grp := g.grp, seq := e.seq, pc := e.pc, kind := e.kind, opc := e.opc, ty := e.ty, va := e.va, rval := e.rval, op := e.op, data := bs.map (·.val)
    enab := BitVec.ofNat 64 enab }

/-- The bytes a record adds to its group's digest (R268). -/
def recordBytes (r : Record) : List Byte :=
  bytesOf 1 r.kind ++ bytesOf 1 r.opc ++ bytesOf 1 (tysAll.idxOf r.ty) ++ bytesOf 1 0 ++ bytesOf 4 r.data.length ++ bytesOf 8 r.va ++
  bytesOf 8 r.enab.toNat ++ bytesOf 8 r.rval.toNat ++ r.data ++ List.replicate (roundUp r.data.length 16 - r.data.length) 0

def Record.writes (r : Record) : List ByteWrite := match r.op with | .write bs => bs | _ => []

/-- A record is released: performed at its home, or only digested in the second run of checking mode (R269). The records `rs` that
are released with it count as one write of a granule (R340). -/
def State.releaseRecord (s : State) (tk : Nat) (rs : List Record) (r : Record) : State :=
  let s := s.updTeam tk fun t =>
    { t with released := t.released + 1, logs := mapSet [] t.logs r.grp (mapGet [] t.logs r.grp ++ recordBytes r) }
  let gk := groupKey tk r.grp
  if (s.launch (teamLaunch tk)).second then s.updTeam tk fun t => { t with kept := t.kept ++ [r] } else
  match r.op with
  | .write bs => s.applyWith gk r.pc (rs.flatMap Record.writes) bs
  | .rmw op ty ps operand cmp _ _ =>
    match s.applyRmw op ty (rmwMode op cmp) ps operand cmp with
    | .ok x => x.1
    | .error p => s.raiseRead gk r.pc p
  | _ => s

/-- The records that a team releases next: a row, or the lanes of one instruction, which its home gathers (R340). -/
def Team.nextRecords (t : Team) : List Record :=
  match t.staging with
  | [] => []
  | r :: rs => if r.row then [r] else r :: rs.takeWhile fun q => q.grp == r.grp && q.seq == r.seq && !q.row

/-- The team that holds a launch's token releases its next records, in staging order (R265). -/
def State.releaseNext (s : State) (lk : Nat) : State :=
  let l := s.launch lk
  let tk := teamKey lk l.token
  if !l.active || l.fatal.isSome then s else
  let rs := (s.team tk).nextRecords
  rs.foldl (fun s r => if (s.launch lk).fatal.isSome then s else s.releaseRecord tk rs r)
    (s.updTeam tk fun t => { t with staging := t.staging.drop rs.length })

/-- Entries of the g FIFO leave it and are staged for their group's team (R264). -/
def State.stage (s : State) (gk : Nat) (es : List Store) : State :=
  let g := s.group gk
  s.updTeam g.team fun t => { t with staging := t.staging ++ es.map (recordOf g) }

-- ORDER (R229 facts 1 and 2, R140)
/-- A load, or an access that returns a value, issued before `seq` is not yet bound. -/
def State.loadsBefore (s : State) (gk seq : Nat) : Bool :=
  let g := s.group gk
  g.loads.any (fun l => l.seq < seq) || g.stores.any (fun e => isRmwLoad e && e.seq < seq) ||
  s.pendings.any fun p => p.grp == gk && (p.kind == 2 || p.kind == 3) && !p.replied && p.seq < seq

/-- A copy has bytes of its source still to read. -/
def Copy.unread (c : Copy) : Bool :=
  match c.gcm with
  | some m => m.text.isNone
  | none => c.units.any fun u => u.words.any fun w => w.2.2.isNone

/-- Whether an entry of the matrix queue reads memory. -/
def Entry.reads (e : Entry) : Bool :=
  match e with
  | .mm .. | .aload .. => true
  | .adrain d => !d.poisoned && !d.bias.isEmpty
  | .azero => false

/-- The source bytes of a copy that are still to be read. -/
def Copy.toRead (c : Copy) : List Place :=
  match c.gcm with
  | some m => if m.text.isNone then m.src else []
  | none => c.units.flatMap fun u => u.words.filterMap fun w => if w.2.2.isNone then some w.2.1 else none

/-- An earlier copy of the group has yet to read one of some bytes on a path (R171, R229 fact 3). -/
def State.copyReads (s : State) (gk : Nat) (p : Path) (seq : Nat) (ps : List Place) : Bool :=
  s.copies.any fun c => c.grp == gk && c.path == p && c.seq < seq && c.toRead.any ps.contains

/-- A load issued before `seq` is not yet bound, the source of a copy and the operands of a matrix entry among them (R171, R231). -/
def State.unboundBefore (s : State) (gk seq : Nat) : Bool :=
  s.loadsBefore gk seq || s.copies.any (fun c => c.grp == gk && c.seq < seq && c.unread) ||
  (s.teamOf (s.group gk)).queue.any fun q => q.grp == gk && q.seq < seq && q.what.reads

/-- An access of the group issued before `seq` is not yet performed at a scope. -/
def State.dueBefore (s : State) (gk seq scope : Nat) : Bool :=
  let g := s.group gk
  s.unboundBefore gk seq || g.stores.any (fun e => e.seq < seq) || g.msreds.any (fun e => e.seq < seq) ||
  s.pendings.any (fun p => p.grp == gk && p.seq < seq && p.dueAt scope) ||
  s.copies.any (fun c => c.grp == gk && c.seq < seq) ||
  (s.teamOf g).queue.any (fun q => q.grp == gk && q.seq < seq)

def StoreOp.places : StoreOp → List Place
  | .write bs => bs.map (·.place)
  | .rmw _ _ ps _ _ _ _ => ps
  | _ => []

def overlaps (a b : List Place) : Bool := a.any b.contains

/-- The entries of a path's FIFO that may be applied next: those of its first instruction. -/
def Group.headOf (g : Group) (p : Path) : List Store :=
  match (g.stores.filter (·.path == p)).head? with
  | .none => []
  | some h => g.stores.filter fun e => e.path == p && e.seq == h.seq

/-- The codes of the five paths. -/
def pathOfCode (n : Nat) : Path :=
  match n with | 0 => .ls | 1 => .cw | 2 => .g | 3 => .fabric | _ => .stamped

def codeOfPath : Path → Nat
  | .ls => 0 | .cw => 1 | .g => 2 | .fabric => 3 | .stamped => 4

/-- A drain to g that the group issued before `seq` stands in the matrix queue: a deterministic launch stages the records
of a group in its issue order (R268, log entry 38). -/
def State.drainsBefore (s : State) (gk seq : Nat) : Bool :=
  (s.teamOf (s.group gk)).queue.any fun q => q.grp == gk && q.seq < seq && match q.what with
    | .adrain d => d.space == 2
    | _ => false

/-- The teams whose vaults an entry reaches. -/
def StoreOp.vaults : StoreOp → List Nat
  | .fset _ t _ | .bline _ t _ _ | .mark _ t _ => [t]
  | op => op.places.filterMap fun p => match p with | .vault t _ => some t | _ => none

/-- A mark of an earlier copy of the group has not yet reached a vault that the entry reaches (R221). -/
def Group.markAhead (g : Group) (e : Store) : Bool :=
  g.stores.any fun m => m.seq < e.seq && isMark m && m.op.vaults.any e.op.vaults.contains

/-- A line that becomes a barrier line is full (R223), and an atom or cas loads from full lines (R139): each waits for the fill of
a line that another group has emptied since its check (log entry 65). -/
def State.lineBusy (s : State) (op : StoreOp) : Bool :=
  match op with
  | .bline true t l _ => (s.team t).isEmpty l
  | .rmw _ _ ps _ _ (some _) _ => s.emptyLines (linesOf ps) != []
  | _ => false

/-- A later mcst, and a later sequenced store of another multicast group, wait until every member has applied an earlier sequenced
store of the group (R229 fact 1); a sequenced store waits so for an earlier mcst of another multicast group (R220, R303). The
crier's own order keeps those of one multicast group. -/
def State.fabricBehind (s : State) (gk : Nat) (e : Store) : Bool :=
  match e.op with
  | .fabric _ l => s.pendings.any fun p => p.grp == gk && p.seq < e.seq && match l.msg with
      | .mcst .. => p.kind == 1 || p.kind == 2
      | .mcsq g _ _ => p.kind ≤ 2 && g != p.group
      | _ => false
  | _ => false

/-- A stst leaves once the home of every earlier one of its group has answered (R229 fact 1; log entry 7). -/
def State.stampedBehind (s : State) (gk : Nat) (e : Store) : Bool :=
  e.path == .stamped && s.pendings.any fun p => p.grp == gk && p.kind == 4 && p.seq < e.seq && !s.net.any fun l =>
    match l.msg with
    | .stampReply g _ st => g == gk && st.toNat == p.group
    | .reject g va _ => g == gk && va == p.va
    | _ => false

/-- Whether the k-th entry at the head of a path may be applied now. -/
def State.mayApply (s : State) (gk : Nat) (p : Path) (k : Nat) : Option Store :=
  let g := s.group gk
  let hs := g.headOf p
  match hs[k]? with
  | none => none
  | some e =>
    if (s.teamOf g).dead || s.unboundBefore gk e.seq || (2 ≤ e.rel && s.dueBefore gk e.seq e.rel) then none
    else if p == .g && (s.launchOf g).det && s.drainsBefore gk e.seq then none
    else if g.markAhead e || s.lineBusy e.op || s.fabricBehind gk e || s.stampedBehind gk e then none
    else if 0 < k && ((p == .g && (s.launchOf g).det) || (hs.take k).any fun h => overlaps h.op.places e.op.places) then none
    else some e

def Group.dropStore (g : Group) (e : Store) : Group := { g with stores := g.stores.erase e }

/-- Demotion after one lane's compare-and-swap (R112, R145): a failed lane demotes its segment; a segment clears when every
acting lane of it has succeeded. -/
def Group.casDone (g : Group) (seq : Nat) (m : Mask) (ok : Bool) : Group :=
  let r := (g.casRecs.find? (·.1 == seq)).getD (seq, 0, 0)
  let seg := g.segmentsOf m
  let left := g.stores.any fun e => e.seq == seq && match e.op with | .rmw _ _ _ _ _ _ l => seg &&& l != 0 | _ => false
  let place := if r.2.1 = 0 then g.places + 1 else r.2.1
  let g := if ok then (if seg &&& r.2.2 != 0 || left then g else g.undemote m)
           else { g.demoteTo place m with places := max g.places place }
  let r := if ok then r else (seq, place, r.2.2 ||| m)
  let more := g.stores.any (·.seq == seq)
  { g with casRecs := (g.casRecs.filter (·.1 != seq)) ++ (if more then [r] else []) }

/-- An entry leaves its FIFO and takes effect at its home. -/
def State.applyStore (s : State) (gk : Nat) (e : Store) : State :=
  let s := s.updGroup gk fun g => g.dropStore e
  match e.op with
  | .write bs => s.applyBytes gk e.pc bs
  | .rmw op ty ps operand cmp dst lanes =>
    match s.applyRmw op ty .rne ps operand cmp with
    | .error p => s.raiseRead gk e.pc p
    | .ok x =>
      x.1.updGroup gk fun g =>
        let g := match dst with | some d => (g.putDst d x.2.1).orFlagsIn lanes x.2.2 | none => g
        if op == .cas then g.casDone e.seq lanes (x.2.1 % 2 ^ ty.width == cmp % 2 ^ ty.width) else g
  | .fset full tm line =>
    s.updTeam tm fun t => if (t.bline line).isSome then t else t.setEmpty line (!full)
  | .bline init tm line count => s.applyBline init tm line count
  | .mark copy tm line =>
    let held := (List.range 128).map fun i => (i, (s.team tm).byte (128 * line + i))
    let s := s.updTeam tm fun t => if (t.bline line).isSome then t else t.setEmpty line true
    { s with copies := s.copies.map fun c => if c.id == copy then
        { c with units := c.units.map fun u => if u.team == some tm && u.line == line then { u with held := held } else u } else c }
  | .fabric id l => (s.sendFabric l).updPending id fun p => { p with issued := s.tb.est.toNat }

/-- A store, atomic, full/empty change or empty mark is applied at its home, in the order of its path (R229). -/
def execStoreAppliedAtHome (gk path : Nat) (s : State) : Host.Outcome State Fault Refusal :=
  let p := pathOfCode (path % 8)
  match s.mayApply gk p (path / 8) with
  | none => .next s
  | some e =>
    let staged := p == .g && (s.launchOf (s.group gk)).det && !e.op.places.isEmpty
    if !staged then .next (s.applyStore gk e)
    else
      -- the lanes of one instruction are staged together
      let es := (s.group gk).headOf p
      .next ((s.updGroup gk fun g => es.foldl Group.dropStore g).stage gk es)

/-- The versions of this module reach their homes in it (R321). -/
def State.homeVersions (s : State) : State :=
  (s.net.filter isVersion).foldl State.takeVersion { s with net := s.net.filter fun l => !isVersion l }

/-- The stamped traffic of a frame: every stst that its order allows leaves, and the versions for this module reach their homes (R282,
R321); `n` bounds the stst. -/
def State.carryStamped : Nat → State → State
  | 0, s => s.homeVersions
  | n + 1, s =>
    let s := s.homeVersions
    match s.groups.findSome? fun p => (s.mayApply p.1 .stamped 0).map fun e => (p.1, e) with
    | some q => State.carryStamped n (s.applyStore q.1 q.2)
    | none => s

/-- A MSAU applies one lane's update (R146): the lanes of one msred to one word in lane order. -/
def execMsauUpdateApply (gk k : Nat) (s : State) : Host.Outcome State Fault Refusal :=
  let g := s.group gk
  match g.msreds[k]? with
  | none => .next s
  | some e =>
    if (s.teamOf g).dead || s.unboundBefore gk e.seq ||
       (g.msreds.take k).any (fun h => h.seq == e.seq && overlaps h.places e.places) then .next s
    else
      let s := s.setGroup gk { g with msreds := g.msreds.eraseIdx k }
      match s.applyRmw e.op e.ty e.mode e.places e.operand 0 with
      | .ok x => .next x.1
      | .error p => .next (s.raiseRead gk e.pc p)

-- LOADS
/-- Where a load's value comes from. -/
inductive From where
  | wait
  | fifo (val : Nat) (es : List Store)
  | home
  deriving DecidableEq, Repr

/-- The group's latest earlier entry on the load's path that writes a place. -/
def latestTo (es : List Store) (p : Place) : Option Store := (es.filter fun e => e.op.places.contains p).getLast?

/-- The byte an entry forwards to a place, where it writes all of it. -/
def forwarded (e : Store) (p : Place) : Option Byte :=
  match e.op with
  | .write bs => (bs.find? fun b => b.place == p && b.en == 0xFF).map (·.val)
  | _ => none

/-- A load takes its bytes from the FIFO when entries there write every bit of them, waits while they write a part, and reads
the home otherwise (R229 fact 3). Loads of wider .acq, and reads of views and pages, wait until the entries have been
applied. -/
def bindFrom (g : Group) (l : Load) : From :=
  let es := g.stores.filter fun e => e.path == l.path && e.seq < l.seq && overlaps e.op.places l.places
  if es.isEmpty then .home
  else if 2 ≤ l.acq then .wait
  else
    let srcs := l.places.map fun p => (latestTo es p).bind fun e => (forwarded e p).map fun b => (e, b)
    let plain := l.places.all fun p => match p with | .vault .. => true | .mem _ => true | _ => false
    if plain && srcs.all Option.isSome then
      .fifo (ofBytes (srcs.map fun x => (x.map (·.2)).getD 0)) ((srcs.filterMap fun x => x.map (·.1)).eraseDups)
    else .wait

/-- The element of a load within the bytes it reads. -/
def Load.value (l : Load) (x : Nat) : Nat := extendElem l.dst.ty (x / 2 ^ l.bit % 2 ^ l.bits)

/-- The words of a vault that a load's accesses name: that of its first byte, or of each byte of a sub-byte element, which may straddle
two (R137, R219). -/
def Load.words (l : Load) : List (Nat × Nat) :=
  let ws := l.places.filterMap fun p => match p with | .vault t o => some (t, o / 4) | _ => none
  if l.bits < 8 then ws.eraseDups else ws.take 1

/-- The bytes of a load that an access to one of its words brings. -/
def Load.bytesIn (l : Load) (w : Nat × Nat) : List Place :=
  if l.words == [w] then l.places else l.places.filter fun p => match p with | .vault t o => (t, o / 4) == w | _ => false

/-- The bytes of a load that it has not read. -/
def Load.lacks (l : Load) : List Place := l.places.filter fun p => !l.got.any (·.1 == p)

/-- The bytes that a load's next access brings: those of one word of a vault, or all. -/
def Load.nextBytes (l : Load) : List Place :=
  match l.words.find? fun w => (l.bytesIn w).any l.lacks.contains with
  | some w => l.bytesIn w
  | none => l.places

/-- A load with some more of its bytes, as its team reads memory. -/
def Load.read (l : Load) (mem : State) (ps : List Place) : Load :=
  { l with got := l.got ++ (ps.filter l.lacks.contains).map fun p => (p, mem.byteAtHome p) }

/-- The value of a load whose bytes have all been read. -/
def Load.whole (l : Load) : Nat := ofBytes (l.places.map fun p => ((l.got.find? (·.1 == p)).map (·.2)).getD 0)

/-- A load that stands behind an .acq load of team or cluster scope. What it reads ahead of the acquire stands only if no group of
the cluster has written meanwhile (`State.forgetEarly`), so the order holds within the scope and not beyond it (R230). -/
def Group.behind (g : Group) (l : Load) : Bool := g.loads.any fun a => a.seq < l.seq && 2 ≤ a.acq

/-- A load that may bind now: loads of one group to one byte on one path, a copy's loads of its source among them, bind in issue
order, and a load that finds its line empty waits for the fill (R139, R171, R222, R229 fact 3). -/
def State.mayBind (s : State) (g : Group) (gk : Nat) (l : Load) : Bool :=
  !(s.teamOf g).dead && !g.loads.any (fun e => e.seq < l.seq && e.path == l.path && overlaps e.places l.places) &&
  !s.copyReads gk l.path l.seq l.places && s.emptyLines (linesOf l.places) == []

/-- A load takes its value and writes its destination. -/
def Group.bindLoad (g : Group) (l : Load) (x : Nat) : Group := { (g.putDst l.dst (l.value x)) with loads := g.loads.erase l }

/-- A load becomes `m`, with more of its bytes: it binds once it has them all and no acquire stands before it. -/
def Group.takeLoad (g : Group) (l m : Load) : Group :=
  if m.lacks.isEmpty && !g.behind l then g.bindLoad l m.whole else { g with loads := g.loads.map fun y => if y = l then m else y }

/-- The bytes of a load that lie in a word of a vault with one of some bytes. -/
def Load.sharing (l : Load) (ps : List Place) : List Place :=
  (l.words.filter fun w => ps.any fun p => match p with | .vault t o => (t, o / 4) == w | _ => false).flatMap l.bytesIn

/-- The other lanes' loads of one instruction that share an access to a word of a vault (R219). -/
def State.mates (s : State) (g : Group) (gk : Nat) (l : Load) (ps : List Place) : List Load :=
  g.loads.filter fun m => m != l && m.seq == l.seq && (m.sharing ps).any m.lacks.contains && s.mayBind g gk m && bindFrom g m == .home

/-- A load's next access to its home: the bytes it brings go to every lane that shares them. -/
def State.readLoad (s : State) (g : Group) (gk : Nat) (l : Load) : State :=
  let mem := s.shadow g
  let ps := l.nextBytes
  (s.mates g gk l ps).foldl (fun t m => t.updGroup gk fun h => h.takeLoad m (m.read mem (m.sharing ps)))
    (s.updGroup gk fun h => h.takeLoad l (l.read mem ps))

/-- A load binds; from a vault, with every lane that shares its access. -/
def execLoadResultReturn (gk k : Nat) (s : State) : Host.Outcome State Fault Refusal :=
  let g := s.group gk
  match g.loads[k]? with
  | none => .next s
  | some l =>
    if !s.mayBind g gk l then .next s
    else if l.lacks.isEmpty then .next (if g.behind l then s else s.updGroup gk fun g => g.bindLoad l l.whole)
    else
      let fin := fun (s : State) (x : Nat) => s.updGroup gk fun g => g.bindLoad l x
      match bindFrom g l with
      | .wait => .next s
      | .fifo x es =>
        if g.behind l then .next s else
        .next ((fin s x).updGroup gk fun g =>
          { g with stores := g.stores.map fun e => if es.contains e then { e with fwd := true } else e })
      | .home =>
        match s.badRead l.nextBytes with
        | some p => .next (if g.behind l then s else (s.setGroup gk { g with loads := g.loads.erase l }).raiseRead gk l.pc p)
        | none =>
          match l.places with
          | .page fn off :: _ =>
            let r := s.readPage fn off l.places.length
            .next (fin r.1 r.2)
          | _ => .next (s.readLoad g gk l)

/-- What the groups of a cluster have read ahead of an acquire is to be read again. -/
def State.forgetEarly (s : State) (tk : Nat) : State :=
  ((s.clusterOfTeam tk).flatMap s.teamGroups).foldl (fun s gk =>
    if (s.group gk).loads.any (fun l => l.path == .g && !l.got.isEmpty) then
      s.updGroup gk fun g => { g with loads := g.loads.map fun l => if l.path = .g then { l with got := [] } else l }
    else s) s

-- OTHERS
/-- An access that its group has issued and that has found a line it reads empty (R139, R222): its place in issue order, its lanes. -/
structure HeldAccess where
  seq   : Nat
  path  : Path
  pc    : DWord
  lanes : Mask
  lines : List (Nat × Nat)

/-- The held access of a group: a load, or an atom or cas. The lanes of a load of an s register are those of paths[0]. -/
def State.heldAccess (s : State) (g : Group) : Option HeldAccess :=
  let empty := fun (ps : List Place) => s.emptyLines (linesOf ps)
  match g.loads.find? fun l => empty l.places != [] with
  | some l =>
    let mine := g.loads.filter (·.seq == l.seq)
    some { seq := l.seq, path := l.path, pc := l.pc, lines := empty (mine.flatMap (·.places))
           lanes := if l.dst.isS then g.first.lanes else maskOf fun k => mine.any (·.dst.lane == k) }
  | none =>
    (g.stores.find? fun e => isRmwLoad e && empty e.op.places != []).map fun e =>
      let mine := g.stores.filter fun d => d.seq == e.seq && isRmwLoad d
      { seq := e.seq, path := e.path, pc := e.pc, lines := empty (mine.flatMap (·.op.places))
        lanes := mine.foldl (fun a d => a ||| match d.op with | .rmw _ _ _ _ _ _ l => l | _ => 0) 0 }

/-- The limit of a held access runs from the cycle in which it is first found held (R211). -/
def State.watchHeld (s : State) (gk : Nat) : State :=
  let g := s.group gk
  let held := (s.heldAccess g).map fun _ => g.held.getD (s.groupCyc g + (s.launchOf g).watchdog)
  if held = g.held then s else s.setGroup gk { g with held := held }

/-- The lowest address of some lines, in the space that a group's instruction names them in (R332). -/
def State.lowLine (s : State) (g : Group) (cw : Bool) (lines : List (Nat × Nat)) : Nat :=
  let as := lines.map fun x => s.lineAddr g (cw || x.1 != g.team) x.1 (128 * x.2)
  as.foldl min ((as.head?).getD 0)

/-- A held access of a group ends in WATCHDOG (R139): its instruction has written no destination of the lanes that still wait,
which go back to it. -/
def State.heldTrap (s : State) (gk : Nat) (h : HeldAccess) : State :=
  let g := s.group gk
  let low := s.lowLine g (h.path == .cw) h.lines
  let s := s.setGroup gk { g with held := none, loads := g.loads.filter (·.seq != h.seq)
                                  stores := g.stores.filter fun e => !(e.seq == h.seq && isRmwLoad e) }
  s.takeTrap gk trapWatchdog (BitVec.ofNat 64 low) 0 (h.lanes &&& g.voting) h.pc h.pc

/-- A full/empty stall has lasted longer than Lw (R139, R211): WATCHDOG at the waiting instruction, with the lowest empty line. -/
def execWatchdog (gk : Nat) (s : State) : Host.Outcome State Fault Refusal :=
  let g := s.group gk
  let late := fun (c : Nat) => !(s.teamOf g).stopped && decide (c < s.groupCyc g)
  match g.stall, g.why with
  | some c, .empty cw lines =>
    if !late c || s.emptyLines lines == [] then .next s
    else
      let p := g.first
      .next ((s.setGroup gk { g with stall := none, why := .none }).takeTrap gk trapWatchdog
        (BitVec.ofNat 64 (s.lowLine g cw (s.emptyLines lines))) 0 p.lanes p.pc p.pc)
  | _, _ =>
    match g.held, s.heldAccess g with
    | some c, some h => .next (if late c && h.lanes &&& g.voting != 0 then s.heldTrap gk h else s)
    | _, _ => .next s

/-- The result of a token arrives in its queue; the registers change when the token retires. -/
def execSfResultArrival (gk num : Nat) (s : State) : Host.Outcome State Fault Refusal :=
  .next (s.updGroup gk fun g =>
    { g with tokens := g.tokens.map fun t => if t.num == num then { t with arrived := true } else t })

end Sys2Proof.Machine
end

