-- ==== Sys2Proof/Machine/Gather.lean ====
section
/-! DEFINITION. Words read at issue, in page registers too, and with them gathers and scatters, opcodes 0xC2 and 0xC3 (R143). -/

namespace Sys2Proof.Machine

-- READS AT ISSUE
/-- The byte a read finds at a place, in page registers too; `t` is memory as the reading team has it. -/
def State.readPlace (s t : State) (p : Place) : State × Byte :=
  match p with
  | .page fn off => let r := s.readPage fn off 1
                    (r.1, byteAt r.2 0)
  | _ => (s, t.byteAtHome p)

def State.readPlaces (s t : State) : List Place → State × List Byte
  | [] => (s, [])
  | p :: ps =>
    let r := s.readPlace t p
    let q := r.1.readPlaces t ps
    (q.1, r.2 :: q.2)

/-- Bytes that an instruction loads and uses as it issues: its group's own accesses to them come first, and an error found on
the read ends it. -/
def withReadNow (x : View) (ps : List Place) (k : View → List Byte → Eff) : Eff :=
  if x.g.inFlight ps then .wait x.s0 .drain else
  match x.s0.badRead ps with
  | some p => .jump (x.s0.raiseRead x.gk x.pc p) true
  | none =>
    let r := x.s.readPlaces (x.s0.shadow x.g) ps
    k { x with s := r.1 } r.2

-- GATHERS AND SCATTERS (R143)
/-- What a lane's index makes of it. -/
inductive Pick where
  | skip             -- 0xFFFFFFFF
  | beyond           -- at or beyond the element count
  | elem (ea : Nat)
  deriving DecidableEq, Repr

/-- The table base and element count. -/
def tableBase (x : View) : Nat × Nat :=
  match x.f.a.op with
  | .s n => ((x.sval n.toNat).toNat, (x.sval (n.toNat + 1)).toNat)
  | _ => (0, 0)

def pickOf (x : View) (i : Nat) : Pick :=
  let b := tableBase x
  if i = 0xFFFFFFFF then .skip
  else if b.2 ≤ i then .beyond
  else .elem ((BitVec.ofNat 64 (b.1 + i * 2 ^ dIS x.f) + dOFF x.f).toNat)

/-- The lanes' indices: B's low 32 bits, or with .mi the words of the list that B addresses, fetched at issue as ordinary
loads. -/
def withIndices (x : View) (k : View → List (Nat × Nat) → Eff) : Eff :=
  let ls := maskLanes x.act
  if x.f.fn = 0 then k x (ls.map fun l => (l, readAs x .n32 x.f.b l))
  else
    let base := uniform64 x x.f.b
    let acc : Acc := { space := dSP x.f, bits := 32, sw := 0, write := false, atomic := false, stamped := false, kind := 1 }
    withAccess x acc (ls.map fun l => (l, (base + 4 * l) % 2 ^ 64)) fun locs =>
      withFullLines x (linesOf (allPlaces locs)) (withReadNow x (allPlaces locs) fun x bs =>
        k x (locs.mapIdx fun i c => (c.lane, ofBytes ((bs.drop (4 * i)).take 4))))

/-- Flags IDXR in the lanes whose index lay beyond the table. -/
def flagOver (ps : List (Nat × Pick)) (g : Group) : Group :=
  ps.foldl (fun g p => match p.2 with | .beyond => g.orFlags p.1 flagIDXR | _ => g) g

def pickedAddrs (ps : List (Nat × Pick)) : List (Nat × Nat) :=
  ps.filterMap fun p => match p.2 with | .elem ea => some (p.1, ea) | _ => none

/-- gld: POISON for an index of all ones, 0 beyond the table, an element otherwise. It is a load without .poll, so it clears the
demotion of its acting lanes (R112). -/
def gldEff (x : View) : Eff :=
  withIndices x fun x is =>
    let ps := is.map fun p => (p.1, pickOf x p.2)
    withAccess x (accOf x false) (pickedAddrs ps) fun ls =>
      withFullLines x (linesOf (allPlaces ls)) (withIssueIf x (heldLoad x 0 ls) 1
        (let g := ps.foldl (fun g p => match p.2 with
                                       | .skip => putLane x.f.ty x.f.d p.1 poisonWide g
                                       | .beyond => putLane x.f.ty x.f.d p.1 0 g
                                       | .elem _ => g) x.g1
         .done (x.put (((flagOver ps g).undemote x.act).addLoads (loadEntries x (dSP x.f) 0 ls)))))
where
  poisonWide : Nat := 0x7FF00BAD

/-- sct; its index fetches under .mi are of the load class. -/
def sctEff (x : View) : Eff :=
  withIndices x fun x is =>
    let ps := is.map fun p => (p.1, pickOf x p.2)
    withAccess x (accOf x true) (pickedAddrs ps) fun ls =>
      withOwnMarks x (linesOf (allPlaces ls)) (withIssue x (if x.f.fn = 0 then 2 else 3)
        (withStaging x (x.staged (dSP x.f)) (ls.length * stagedSize (x.f.ty.width / 8 + 1))
          (.done (x.put ((flagOver ps x.g1).addStores
            (storeEntries x (dSP x.f) 0 ls (ls.map fun l => laneBytes x.f.ty.width l (dataOf x l.lane))))))))

-- MEANINGS
def execGld (f : Form) (s : State) : Host.Outcome State Fault Refusal := runActing (.gld f) f gldEff s
def execSct (f : Form) (s : State) : Host.Outcome State Fault Refusal := runActing (.sct f) f sctEff s

end Sys2Proof.Machine
end

