-- ==== Sys2Proof/Machine/Tensor.lean ====
section
/-! DEFINITION. Tensor slots (R165 to R167, R272): records, tdload and tddrop (opcode 0xE0), and the host's slot commands. -/

namespace Sys2Proof.Machine

-- CRCS (R165, R286)
/-- One bit of a reflected CRC with a polynomial. -/
def crcBit (poly c : Nat) : Nat := if c % 2 = 1 then (c / 2) ^^^ poly else c / 2

def crcByte (poly c : Nat) (b : Byte) : Nat := (List.range 8).foldl (fun c _ => crcBit poly c) (c ^^^ b.toNat)

def crcOf (poly : Nat) (bs : List Byte) : Nat := bs.foldl (crcByte poly) 0xFFFFFFFF ^^^ 0xFFFFFFFF

/-- CRC-32C, of slot records (R165). -/
def crc32c (bs : List Byte) : Nat := crcOf 0x82F63B78 bs

/-- CRC-32 with the polynomial 0x04C11DB7 reflected, of flits (R286). -/
def crc32 (bs : List Byte) : Nat := crcOf 0xEDB88320 bs

-- RECORDS
/-- The record of 64 bytes, if it is valid (R165). -/
def slotRecord (bs : List Byte) : Option SlotRec :=
  let fmt := field bs 2 1
  let lay := field bs 3 1
  let ty := fmt % 16
  let mx := bitOf fmt 4
  let cplx := bitOf lay 1
  let rs := field bs 16 8
  let ss := field bs 32 8
  let zero := fun (lo n : Nat) => ((bs.drop lo).take n).all (· == 0)
  if field bs 60 4 = crc32c (bs.take 60) ∧ field bs 0 2 = 1 ∧ 4 ≤ ty ∧ ty ≤ 0xD ∧ fmt < 32 ∧ lay < 4 ∧ zero 4 12 = true ∧
     zero 40 20 = true ∧ rs % 4 = 0 ∧ rs < 2 ^ 32 ∧ ss % 4 = 0 ∧ ss < 2 ^ 32 ∧ (!cplx || fmt = 5) = true ∧
     (!mx || [7, 8, 9, 10, 11, 12].contains ty) = true then
    some { fmt := ty, mx := mx, tr := bitOf lay 0, cplx := cplx, rstride := rs, sbase := signedNat 64 (field bs 24 8), sstride := ss }
  else none

def Ctx.slot (c : Ctx) (n : Nat) : Option SlotRec := mapGet Option.none c.slots n
def Ctx.setSlot (c : Ctx) (n : Nat) (r : Option SlotRec) : Ctx := { c with slots := mapSet Option.none c.slots n r }

/-- The checks 3 to 5 of R166 in their order: the trap, or the record the slot takes. -/
def loadSlot (c : Ctx) (n : Nat) (bs : List Byte) : Except Nat SlotRec :=
  if 255 < n then .error trapAccess else
  match slotRecord bs with
  | none => .error trapSealBad
  | some r => if (c.slot n).isSome then .error trapSlotOccupied else .ok r

/-- The check of R167. -/
def dropSlot (c : Ctx) (n : Nat) : Option Nat :=
  if 255 < n then some trapAccess else if (c.slot n).isNone then some trapSlotEmpty else none

/-- The value of the s register that D names. -/
def dVal (x : View) : DWord := match x.f.d with | .s n => x.sval n.toNat | _ => 0

-- TDLOAD AND TDDROP
def tdloadEff (x : View) : Eff :=
  let ea := baseAddr x
  if ea % 64 ≠ 0 then .trap trapMisalign (BitVec.ofNat 64 ea) 0 else
  let acc : Acc := { space := dSP x.f, bits := 512, sw := 0, write := false, atomic := false, stamped := false, kind := 1 }
  withAccess x acc [(x.low, ea)] fun ls =>
    let ps := allPlaces ls
    withFullLines x (linesOf ps) (withIssue x 4 (withReadNow x ps fun x bs =>
      let ck := (x.s0.launchOf x.g).ctxKey
      let n := (dVal x).toNat
      match loadSlot (x.s0.ctx ck) n bs with
      | .error code => .trap code (if code = trapAccess then BitVec.ofNat 64 ea else dVal x) 0
      | .ok r => .done (x.s.updCtx ck fun c => c.setSlot n (some r))))

def tddropEff (x : View) : Eff :=
  let ck := (x.s0.launchOf x.g).ctxKey
  let n := (dVal x).toNat
  match dropSlot (x.s0.ctx ck) n with
  | some code => .trap code (dVal x) 0
  | none => .done (x.s.updCtx ck fun c => c.setSlot n none)

-- MEANINGS
def execTdload (f : Form) (s : State) : Host.Outcome State Fault Refusal := runActing (.tdload f) f tdloadEff s
def execTddrop (f : Form) (s : State) : Host.Outcome State Fault Refusal := runActing (.tddrop f) f tddropEff s

-- EVENTS
/-- SLOTST after a command (R272). -/
def State.slotStatus (s : State) (fn code : Nat) : State :=
  let st := if code = 0 then 0 else if code = trapSealBad then 6 else 7
  s.updFn fn fun f => { f with slotst := BitVec.ofNat 32 (code * 2 ^ 8 + st) }

/-- A host loads a record from the device address of SLOTREC. -/
def execSlotcmdLoad (fn : Nat) (val : DWord) (s : State) : Host.Outcome State Fault Refusal :=
  if !s.present fn then .next s else
  let ck := ctxKey fn (bitsAt val.toNat 8 4)
  let n := val.toNat % 2 ^ 8
  let a := (s.fn fn).slotrec.toNat
  if a % 64 ≠ 0 then .next (s.slotStatus fn trapMisalign)
  else if s.poisoned.contains a then .next (s.slotStatus fn trapAccess)
  else match s.devBytes a 64 with
    | none => .next (s.slotStatus fn trapAccess)
    | some bs =>
      match loadSlot (s.ctx ck) n bs with
      | .error code => .next (s.slotStatus fn code)
      | .ok r => .next ((s.updCtx ck fun c => c.setSlot n (some r)).slotStatus fn 0)

/-- A host drops a slot. -/
def execSlotcmdDrop (fn : Nat) (val : DWord) (s : State) : Host.Outcome State Fault Refusal :=
  if !s.present fn then .next s else
  let ck := ctxKey fn (bitsAt val.toNat 8 4)
  let n := val.toNat % 2 ^ 8
  match dropSlot (s.ctx ck) n with
  | some code => .next (s.slotStatus fn code)
  | none => .next ((s.updCtx ck fun c => c.setSlot n none).slotStatus fn 0)

end Sys2Proof.Machine
end

