-- ==== Sys2Proof/Machine/Copies.lean ====
section
/-! DEFINITION. Copies, opcode 0xE1, and their fills (R168 to R173, R221, R222, R264). -/

namespace Sys2Proof.Machine

-- THE CONTROL QUAD (R168)
structure Quad where
  src  : Nat
  w1   : Nat
  w2   : Nat
  w3   : Nat
  deriving DecidableEq, Repr

def quadOf (x : View) (o : Opnd) : Quad :=
  match o with
  | .s n => { src := (x.sval n.toNat).toNat, w1 := (x.sval (n.toNat + 1)).toNat, w2 := (x.sval (n.toNat + 2)).toNat,
              w3 := (x.sval (n.toNat + 3)).toNat }
  | _ => { src := 0, w1 := 0, w2 := 0, w3 := 0 }

def Quad.len (q : Quad) : Nat := bitsAt q.w1 0 32
def Quad.rows (q : Quad) : Nat := bitsAt q.w1 32 16
def Quad.ssp (q : Quad) : Nat := bitsAt q.w1 48 2
def Quad.ssw (q : Quad) : Nat := bitsAt q.w1 50 3
def Quad.sstr (q : Quad) : Nat := bitsAt q.w2 0 32
def Quad.dstr (q : Quad) : Nat := bitsAt q.w2 32 32
def Quad.sel (q : Quad) : Nat := bitsAt q.w3 0 12

/-- Values that every form refuses with ACCESS. -/
def Quad.bad (q : Quad) : Bool :=
  bitsAt q.w1 53 11 != 0 || q.ssp == 3 || q.rows == 0 || q.len % 4 != 0 || q.len < 4 || 2 ^ 31 - 4 < q.len || 2 ^ 12 ≤ q.w3

/-- The addresses of the 4-byte words of a block, row after row. -/
def wordAddrs (base stride len rows : Nat) : List Nat :=
  ((List.range rows).map fun r => (List.range (len / 4)).map fun i => (base + r * stride + 4 * i) % 2 ^ 64).flatten

def wordAcc (space sw : Nat) (write : Bool) : Acc :=
  { space := space, bits := 32, sw := sw, write := write, atomic := false, stamped := false, kind := if write then 2 else 1 }

-- UNITS (R170)
/-- The unit of a destination byte: its vault line; the granule, the block or the register of one row of g. -/
def unitKey (row : Nat) (p : Place) : Option Nat × Nat × Nat :=
  match p with
  | .vault t o => (some t, o / 128, 0)
  | .mem a => (none, a / 64, 4 * row)
  | .view k o => (none, k * 2 ^ 64 + o / 64, 4 * row + 1)
  | .page f o => (none, f * 2 ^ 64 + o / 4, 4 * row + 2)
  | .stamped a => (none, a / 64, 4 * row + 3)

/-- A word joins its unit. -/
def addWord (row : Nat) (ws : List (Place × Place × Option Byte)) (us : List Unit_) : List Unit_ :=
  match ws with
  | [] => us
  | w :: _ =>
    let k := unitKey row w.1
    let mine := fun (u : Unit_) => u.team == k.1 && u.line == k.2.1 && (k.1.isSome || u.row == k.2.2)
    if us.any mine then us.map fun u => if mine u then { u with words := u.words ++ ws } else u
    else us ++ [{ team := k.1, line := k.2.1, words := ws, held := [], row := k.2.2 }]

/-- The units of a block: destination and source words in order, `per` words to a row. -/
def unitsOf (per : Nat) (ds ss : List Loc) (val : Place → Option Byte) : List Unit_ :=
  ((List.zip ds ss).mapIdx fun i p => (i / per, (List.zip p.1.places p.2.places).map fun b => (b.1, b.2, val b.2))).foldl
    (fun us w => addWord w.1 w.2 us) []

/-- The vault lines that a copy marks empty, each once. -/
def markLines (us : List Unit_) : List (Nat × Nat) :=
  (us.filterMap fun u => u.team.map fun t => (t, u.line)).eraseDups

/-- A copy enters: its marks among the group's stores, its record in the module. -/
def enterCopy (x : View) (us : List Unit_) (gcm : Option Gcm) : State :=
  let seq := x.g.seq + 1
  let id := x.s0.nextCopy
  let marks := (markLines us).map fun p =>
    { seq := seq, path := pathOf (dSP x.f), rel := 0, acq := 0, va := 0, kind := 0, opc := 0, ty := .b32, rval := 0, fwd := false, pc := x.pc,
      op := .mark id p.1 p.2 : Store }
  let s := x.put (x.g1.addStores marks)
  { s with nextCopy := id + 1, copies := s.copies ++ [{ id := id, path := pathOf (quadOf x x.f.d).ssp, grp := x.gk, seq := seq, pc := x.pc, units := us, gcm := gcm }] }

-- SOURCES
/-- An earlier access of the group that writes one of some places is not yet performed (R170). -/
def State.writesDue (s : State) (gk seq : Nat) (ps : List Place) : Bool :=
  let g := s.group gk
  g.stores.any (fun e => e.seq < seq && overlaps e.op.places ps) || g.msreds.any (fun e => e.seq < seq && overlaps e.places ps) ||
  s.copies.any (fun c => c.grp == gk && c.seq < seq && c.units.any fun u => u.words.any fun w => ps.contains w.1) ||
  (s.teamOf g).queue.any (fun q => q.grp == gk && q.seq < seq && match q.what with
    | .adrain .. => true
    | _ => false) ||
  (ps.any (fun p => match p with | .stamped _ => true | _ => false) &&
    (g.stores.any (fun e => e.path == .stamped && e.seq < seq) || s.pendings.any fun p => p.grp == gk && p.kind == 4 && p.seq < seq))

/-- Values read at issue: those of stamped lines, which are taken whole (R170). -/
def stampedValue (s : State) (p : Place) : Option Byte := match p with | .stamped _ => some (s.byteAtHome p) | _ => none

-- COPY
/-- The whole of a copy after its quad is in order: `dests` are the destination blocks that take the same bytes. -/
def copyBlocks (x : View) (q : Quad) (dests : List Nat) : Eff :=
  let srcs := wordAddrs q.src q.sstr q.len q.rows
  let at_ := fun (l : List Nat) => l.map fun a => (x.low, a)
  withAccesses x ((wordAcc q.ssp q.ssw false, at_ srcs) ::
      dests.map fun d => (wordAcc (dSP x.f) (dSW x.f) true, at_ (wordAddrs d q.dstr q.len q.rows))) fun ls =>
    let ss := ls.headD []
    let sps := allPlaces ss
    -- a staged copy reads its source as it issues (R264), and no access of the group reaches a vault before its marks (R221)
    withOwnMarks x (linesOf ((if x.staged (dSP x.f) then sps else []) ++ (ls.drop 1).flatMap allPlaces)) (withIssue x 4 (
      if sps.any (fun p => match p with | .stamped _ => true | _ => false) && x.s0.writesDue x.gk (x.g.seq + 1) sps then
        .wait x.s0 .drain
      else if x.staged (dSP x.f) then
        if x.s0.writesDue x.gk (x.g.seq + 1) sps || x.s0.unboundBefore x.gk (x.g.seq + 1) ||
            x.g.stores.any (·.path == .g) || x.s0.drainsBefore x.gk (x.g.seq + 1) then .wait x.s0 .drain else
        withStaging x true (q.rows * stagedSize q.len) (
          match x.s0.badRead sps with
          | some p => .jump (x.s0.raiseRead x.gk x.pc p) true
          | none =>
            let r := x.s.readPlaces (x.s0.shadow x.g) sps
            let dps := allPlaces ((ls.drop 1).headD [])
            let rec_ := fun (i : Nat) =>
              let data := (r.2.drop (i * q.len)).take q.len
              let ps := (dps.drop (i * q.len)).take q.len
              { grp := x.g.grp, seq := x.g.seq + 1, pc := x.pc, kind := 1, opc := 0, ty := .b32, va := swizzle (dSW x.f) ((dests.headD 0 + i * q.dstr) % 2 ^ 64), rval := 0
                op := .write (List.zipWith (fun p b => { place := p, val := b, en := 0xFF }) ps data), data := data, enab := 0
                row := true : Record }
            .done (r.1.updTeam x.g.team fun t => { t with staging := t.staging ++ (List.range q.rows).map rec_ }))
      else
        .done (enterCopy x ((ls.drop 1).map fun ds => unitsOf (q.len / 4) ds ss (stampedValue x.s0)).flatten none)))

def misaligned4 (l : List Nat) : Option Nat := l.find? fun a => a % 4 != 0

/-- copy (R168, R169). DEDUCED (log entry 39): TARG of MISALIGN is the misaligned value, a stride too. -/
def copyEff (x : View) : Eff :=
  let q := quadOf x x.f.d
  let dest := baseAddr x
  if q.bad || q.sel != 0 then .trap trapAccess (BitVec.ofNat 64 dest) 0
  else match misaligned4 [q.src, dest, q.dstr, q.sstr] with
    | some a => .trap trapMisalign (BitVec.ofNat 64 a) 0
    | none => copyBlocks x q [dest]

/-- The cw address of an offset in the window of a rank, as the issuing team names it (R172, R217). -/
def rankAddr (s : State) (g : Group) (rank off : Nat) : Nat :=
  let l := s.launchOf g
  s.lineAddr g true (teamKey (teamLaunch g.team) (teamIndex g.team / l.size * l.size + rank)) off

/-- The ranks of SEL. -/
def Quad.ranks (q : Quad) : List Nat := (List.range 12).filter (bitOf q.sel)

def copyMcEff (x : View) : Eff :=
  let q := quadOf x x.f.d
  let dest := baseAddr x
  if q.bad || q.sel == 0 || q.ranks.any (fun r => (x.s0.launchOf x.g).size ≤ r) then
    .trap trapAccess (BitVec.ofNat 64 dest) 0
  else match misaligned4 [q.src, dest, q.dstr, q.sstr] with
    | some a => .trap trapMisalign (BitVec.ofNat 64 a) 0
    | none => copyBlocks x q (q.ranks.map fun r => rankAddr x.s0 x.g r (dest % 2 ^ 21))

-- COPY.GCM (R173)
def Ctx.stream (c : Ctx) (n : Nat) : Option Stream := c.streams.find? (·.num == n)

def copyGcmEff (x : View) : Eff :=
  let q := quadOf x x.f.d
  let dest := baseAddr x
  let ck := (x.s0.launchOf x.g).ctxKey
  if q.bad || q.ssp != 2 || q.rows != 1 || 2 ^ 20 < q.len || ((x.s0.ctx ck).stream q.sel).isNone then
    .trap trapAccess (BitVec.ofNat 64 dest) 0
  else match misaligned4 [q.src, dest] with
    | some a => .trap trapMisalign (BitVec.ofNat 64 a) 0
    | none =>
      let at_ := fun (l : List Nat) => l.map fun a => (x.low, a)
      withAccesses x [(wordAcc 2 q.ssw false, at_ (wordAddrs q.src 0 (q.len + 16) 1)),
                      (wordAcc (dSP x.f) (dSW x.f) true, at_ (wordAddrs dest 0 (q.len + 16) 1))] fun ls =>
        let ss := ls.headD []
        let ds := (ls.drop 1).headD []
        withOwnMarks x (linesOf (allPlaces ds)) (withIssue x 4 (
          .done (enterCopy x (unitsOf (q.len / 4 + 4) ds ds (fun _ => some 0))
            (some { ctx := ck, stream := q.sel, ctr := BitVec.ofNat 64 q.w2, src := allPlaces ss, dst := allPlaces ds
                    text := none }))))

-- MEANINGS
def execCopy (f : Form) (s : State) : Host.Outcome State Fault Refusal := runActing (.copy f) f copyEff s
def execCopyMc (f : Form) (s : State) : Host.Outcome State Fault Refusal := runActing (.copyMc f) f copyMcEff s
def execCopyGcm (f : Form) (s : State) : Host.Outcome State Fault Refusal := runActing (.copyGcm f) f copyGcmEff s

-- FILLS
def State.updCopy (s : State) (id : Nat) (h : Copy → Copy) : State :=
  { s with copies := s.copies.map fun c => if c.id == id then h c else c }

/-- A copy with no unit left leaves. -/
def State.dropCopies (s : State) : State := { s with copies := s.copies.filter fun c => !c.units.isEmpty }

/-- The marks of a copy on a line are still in its group's FIFO. -/
def State.markDue (s : State) (c : Copy) (u : Unit_) : Bool :=
  (s.group c.grp).stores.any fun e => match e.op with
    | .mark id t l => id == c.id && u.team == some t && u.line == l
    | _ => false

/-- An earlier mark of the group has not yet reached a vault that the copy's accesses reach (R221). -/
def State.marksDue (s : State) (c : Copy) (ps : List Place) : Bool :=
  (s.group c.grp).stores.any fun e => e.seq < c.seq && isMark e && e.op.vaults.any fun t => (linesOf ps).any (·.1 == t)

/-- Whether a unit may be read or written now (R170, R221, R229). -/
def State.mayFill (s : State) (c : Copy) (u : Unit_) : Bool :=
  let ps := u.words.map (·.1) ++ u.words.map (·.2.1)
  !((s.teamOf (s.group c.grp)).dead || s.markDue c u || s.marksDue c ps || s.loadsBefore c.grp c.seq || s.writesDue c.grp c.seq ps ||
    s.copyReads c.grp c.path c.seq (u.words.map (·.2.1)))

/-- A later store of the group that is on its way to a line of a copy reaches it before the fill and is lost (R170, R171): the fill
waits for it, unless it stands behind a release that waits for the copy or a load that waits for another line (log entry 65). -/
def State.doomedStore (s : State) (c : Copy) (tm line : Nat) : Bool :=
  let g := s.group c.grp
  g.stores.any fun e => c.seq < e.seq && (linesOf e.op.places).contains (tm, line) &&
    !g.stores.any (fun r => c.seq < r.seq && r.seq ≤ e.seq && 2 ≤ r.rel) &&
    !g.loads.any fun l => l.seq < e.seq && s.emptyLines (linesOf l.places) != []

/-- A vault line written whole and marked full: copied bytes over the bytes it held. -/
def State.fillLine (s : State) (tm : Nat) (u : Unit_) (vals : List (Place × Byte)) : State :=
  s.updTeam tm fun t =>
    let byte := fun (i : Nat) => match vals.find? fun v => v.1 == .vault tm (128 * u.line + i) with
      | some v => v.2
      | none => mapGet 0 u.held i
    ((List.range 128).foldl (fun t i => t.setByte (128 * u.line + i) (byte i)) t).setEmpty u.line false

/-- The words of a unit with the bytes that a read has found. -/
def Unit_.take (u : Unit_) (got : List (Place × Byte)) : Unit_ :=
  { u with words := u.words.map fun w => (w.1, w.2.1, match w.2.2 with
      | some b => some b
      | none => (got.find? (·.1 == w.2.1)).map (·.2)) }

/-- The source bytes of a unit that are still to be read. -/
def Unit_.need (u : Unit_) : List Place := u.words.filterMap fun w => match w.2.2 with | none => some w.2.1 | some _ => none

/-- The bytes a unit writes, once they are all read. -/
def Unit_.vals (u : Unit_) : List (Place × Byte) := u.words.map fun w => (w.1, w.2.2.getD 0)

/-- A unit of a copy moves on (R170): first its source is read, once for the whole copy; then, with the last byte's arrival, the unit
is written. DESIGN CHOICE (log entry 29): its bytes in one alias block are one read-modify-write. -/
def execCopyLineFill (copy unit : Nat) (s : State) : Host.Outcome State Fault Refusal :=
  match s.copies.find? fun c => c.id == copy && c.gcm.isNone with
  | none => .next s
  | some c =>
    match c.units[unit]? with
    | none => .next s
    | some u =>
      if !s.mayFill c u then .next s
      else if u.need != [] then
        match s.badRead u.need with
        | some p => .next ((s.updCopy copy fun c => { c with units := c.units.eraseIdx unit }).dropCopies.raiseRead c.grp c.pc p)
        | none =>
          let r := s.readPlaces (s.shadow (s.group c.grp)) u.need
          .next (r.1.updCopy copy fun c => { c with units := c.units.map (Unit_.take · (List.zip u.need r.2)) })
      else
        match u.team with
        | some tm =>
          if s.doomedStore c tm u.line then .next s
          else .next (((s.updCopy copy fun c => { c with units := c.units.eraseIdx unit }).dropCopies).fillLine tm u u.vals)
        | none =>
          .next (((s.updCopy copy fun c => { c with units := c.units.eraseIdx unit }).dropCopies).applyBytes c.grp c.pc
            (u.vals.map fun v => { place := v.1, val := v.2, en := 0xFF }))

-- MESSAGES (R173)
/-- A counter that a stream has not accepted before and may accept. -/
def Stream.fresh (t : Stream) (ctr : Nat) : Bool :=
  t.high < ctr || (t.high < ctr + 64 && ctr ≤ t.high && !t.win.testBit (t.high - ctr))

/-- A counter recorded as accepted: bit i stands for the highest counter less i. -/
def Stream.accept (t : Stream) (ctr : Nat) : Stream :=
  if t.high < ctr then { t with high := ctr, win := (if 64 ≤ ctr - t.high then 1 else (t.win * 2 ^ (ctr - t.high) + 1) % 2 ^ 64) }
  else { t with win := t.win ||| 2 ^ (t.high - ctr) }

/-- The plaintext and status of a message. -/
def openMessage (t : Stream) (m : Gcm) (bytes : List Byte) : List Byte × Nat :=
  let len := bytes.length - 16
  let c := bytes.take len
  let iv := t.salt ++ bytesBE 8 m.ctr.toNat
  let aad := bytesOf 8 m.stream ++ bytesOf 8 m.ctr.toNat
  if t.fresh m.ctr.toNat && gcmTag t.key iv aad c == bytes.drop len then (gcmCrypt t.key iv c, 0)
  else (List.replicate len 0, 4)

/-- Whether an earlier message of the same stream is still to be processed. -/
def State.laterMessage (s : State) (id : Nat) (m : Gcm) : Bool :=
  (s.copies.takeWhile (·.id != id)).any fun c => match c.gcm with
    | some n => n.ctx == m.ctx && n.stream == m.stream
    | none => false

/-- A copy.gcm moves on: its message is read, and then the security block, one message of a stream after another, checks and
decrypts it and writes it. -/
def execGcmMessageProcess (copy : Nat) (s : State) : Host.Outcome State Fault Refusal :=
  match s.copies.find? (·.id == copy) with
  | none => .next s
  | some c =>
    match c.gcm with
    | none => .next s
    | some m =>
      if s.laterMessage copy m || c.units.any (fun u => s.markDue c u) || s.marksDue c (m.src ++ m.dst) ||
         s.writesDue c.grp c.seq m.src || s.loadsBefore c.grp c.seq || (s.teamOf (s.group c.grp)).dead then .next s
      else match m.text with
        | none =>
          match s.badRead m.src with
          | some p => .next ({ s with copies := s.copies.filter (·.id != copy) }.raiseRead c.grp c.pc p)
          | none =>
            let r := s.readPlaces (s.shadow (s.group c.grp)) m.src
            .next (r.1.updCopy copy fun c => { c with gcm := some { m with text := some r.2 } })
        | some bytes =>
          if c.units.any (fun u => match u.team with | some tm => s.doomedStore c tm u.line | none => false) then .next s else
          -- a stream destroyed since the issue accepts nothing (R285)
          let out := match (s.ctx m.ctx).stream m.stream with
            | some t => openMessage t m bytes
            | none => (List.replicate (bytes.length - 16) 0, 4)
          let s := { s with copies := s.copies.filter (·.id != copy) }
          let s := if out.2 = 0 then s.updCtx m.ctx fun x =>
                     { x with streams := x.streams.map fun t => if t.num == m.stream then t.accept m.ctr.toNat else t }
                   else s
          let vals := List.zip m.dst (out.1 ++ bytesOf 4 out.2 ++ bytesOf 4 0 ++ bytesOf 8 m.ctr.toNat)
          .next (c.units.foldl (fun s u => match u.team with | some tm => s.fillLine tm u vals | none => s) s)

end Sys2Proof.Machine
end

