-- ==== Sys2Proof/Machine/Tiles.lean ====
section
/-! DEFINITION. Tiles and the matrix queue: aready, await, azero, aload, adrain and aread, opcodes 0xE2 to 0xE6 (R174, R175, R179 to R184, R212). -/

namespace Sys2Proof.Machine

def allLanes : Mask := BitVec.allOnes 32

-- TILES
def Team.tileWord (t : Team) (a i j : Nat) : Word := mapGet 0 t.tiles (4096 * a + 64 * i + j)
def Team.setTileWord (t : Team) (a i j : Nat) (w : Word) : Team := { t with tiles := mapSet 0 t.tiles (4096 * a + 64 * i + j) w }
def Team.issues (t : Team) (a : Nat) : Nat := mapGet 0 t.issued a
def Group.ack (g : Group) (a : Nat) : Nat := mapGet 0 g.acks a

/-- The number of the tile that an operand names. -/
def tileOf (o : Opnd) : Nat := match o with | .a n => n.toNat | _ => 0

/-- A tile instruction acts in all lanes or raises MATRIX_PARTIAL (R175, R212). DEDUCED (log entry 76): in no lane, too, it raises it. -/
def withTile (x : View) (k : Eff) : Eff :=
  if x.act = allLanes then k else .trap trapMatrixPartial (x.act.setWidth 64) 0

/-- An entry enters the queue, which must have room (R175); `raises` for the entries that raise the tile's issue count. -/
def withQueue (x : View) (k : Eff) : Eff :=
  withIssue x 8 (if 8 ≤ (x.s0.teamOf x.g).queue.length then .wait x.s0 .matrix else k)

def enterQueue (x : View) (g : Group) (tile : Nat) (raises : Bool) (what : Entry) : State :=
  let s := x.put { g with seq := x.g.seq + 1 }
  s.updTeam x.g.team fun t =>
    let cnt := t.issues tile + 1
    let e : QEntry := { grp := x.gk, seq := x.g.seq + 1, tile := tile, cnt := if raises then cnt else 0, pc := x.pc, what := what }
    { t with issued := (if raises then mapSet 0 t.issued tile cnt else t.issued), queue := t.queue ++ [e] }

-- BYTES OF OPERANDS (R177)
/-- A run of bytes that an instruction reads or writes, in a space under a swizzle. -/
structure Span where
  space : Nat
  sw    : Nat
  addr  : Nat
  len   : Nat
  write : Bool
  unit_ : Nat               -- bytes that go together: the width an alias page sees (R280)
  deriving DecidableEq, Repr

/-- The checks of R138 over some runs of bytes. -/
def withSpans (x : View) (spans : List Span) (k : List (List Place) → Eff) : Eff :=
  withAccesses x (spans.map fun sp =>
    ({ space := sp.space, bits := 8 * sp.unit_, sw := sp.sw, write := sp.write, atomic := false, stamped := false
       kind := if sp.write then 2 else 1 },
     (List.range (sp.len / sp.unit_)).map fun i => (x.low, (sp.addr + sp.unit_ * i) % 2 ^ 64))) fun ls => k (ls.map allPlaces)

/-- Where a byte of ls or cw lies, as a group names it. -/
def State.tilePlace (s : State) (gk : Nat) (isCw : Bool) (sw a : Nat) : Place :=
  let g := s.group gk
  let b := swizzle sw (a % 2 ^ 64)
  if isCw then .vault ((s.cwTeam g b).getD g.team) (b % 2 ^ 21) else .vault g.team b

def State.tileBytes (s : State) (gk : Nat) (isCw : Bool) (sw a n : Nat) : List Place :=
  (List.range n).map fun i => s.tilePlace gk isCw sw (a + i)

-- AREADY AND AWAIT
/-- A write of a group to a vault that is not yet performed: a store, a copy's fill or a drain's row. -/
def State.vaultWritesDue (s : State) (gk : Nat) : Bool :=
  (s.group gk).stores.any (fun e => e.path == .ls || e.path == .cw) ||
  s.copies.any (fun c => c.grp == gk && c.units.any (·.team.isSome)) ||
  (s.teamOf (s.group gk)).queue.any fun q => q.grp == gk && match q.what with
    | .adrain d => d.space != 2
    | _ => false

/-- The group's earlier ls and cw writes are all at their vaults (R179). -/
def areadyEff (x : View) : Eff := if x.s0.vaultWritesDue x.gk then .wait x.s0 .drain else .done x.s

/-- Entries that raised a tile's count up to an acknowledged one are still queued. -/
def Team.raising (t : Team) (a cnt : Nat) : Bool := t.queue.any fun q => q.tile == a && q.cnt != 0 && q.cnt ≤ cnt

/-- An await of the group whose entries are not all complete. -/
def State.awaiting (s : State) (g : Group) : Bool := g.await.any fun p => (s.teamOf g).raising p.1 p.2

/-- await (R180): acknowledge at issue; the group then waits. -/
def awaitEff (x : View) : Eff :=
  let t := x.s0.teamOf x.g
  let tiles := if x.f.fn = 1 then List.range 16 else [tileOf x.f.a.op]
  let g := tiles.foldl (fun g a => { g with acks := mapSet 0 g.acks a (t.issues a), await := g.await ++ [(a, t.issues a)] })
    { x.g1 with await := [] }
  let g := { g with await := g.await.filter fun p => t.raising p.1 p.2 }
  if g.await.isEmpty then .done (x.put g) else .jump (x.put (g.updLanes x.act fun y => { y with pc := x.next })) true

-- AZERO AND ALOAD
def azeroEff (x : View) : Eff := withTile x (withQueue x (.done (enterQueue x x.g1 (tileOf x.f.d) true .azero)))

def aloadEff (x : View) : Eff :=
  withTile x (
    let eb := x.f.ty.width / 8
    let a := baseAddr x
    let b := match x.f.b.op with | .s n => (x.sval n.toNat).toNat | _ => 0
    let stride := if b = 0 then 64 * eb else b
    match misaligned4 [a, stride] with
    | some v => .trap trapMisalign (BitVec.ofNat 64 v) 0
    | none =>
      withSpans x ((List.range 64).map fun i =>
        { space := dSP x.f, sw := dSW x.f, addr := (a + i * stride) % 2 ^ 64, len := 64 * eb, write := false, unit_ := 1 }) fun ps =>
        withFullLines x (linesOf ps.flatten) (withQueue x (
          .done (enterQueue x x.g1 (tileOf x.f.d) true (.aload x.f.ty (dSP x.f == 1) a (dSW x.f) stride)))))

-- ADRAIN (R182, R183)
/-- Rows of a drain: row i of 64 elements at its address. -/
def drainRows (a stride : Nat) : List Nat := (List.range 64).map fun i => (a + i * stride) % 2 ^ 64

/-- The three words of row i's triple in the registers from vT. -/
def rowTriple (g : Group) (t i : Nat) : List Word :=
  (List.range 3).map fun c => g.vreg (t + 4 * (i / 32) + c) (i % 32)

def adrainEff (x : View) : Eff :=
  withTile x (
    let q := quadOf x x.f.b.op
    let fn := x.f.fn.toNat
    let nb := 64 * x.f.ty.width / 8
    let a := (BitVec.ofNat 64 q.src + dOFF x.f).toNat
    let stride := if q.w1 = 0 then nb else q.w1
    let bias := q.w3
    match misaligned4 ([a, stride] ++ if bitOf fn 2 then [bias] else []) with
      | some v => .trap trapMisalign (BitVec.ofNat 64 v) 0
      | none =>
        let rows := drainRows a stride
        let el := if x.f.ty.width = 16 then 2 else if x.f.ty.width = 32 then 4 else 1
        withSpans x ((rows.map fun r => { space := dSP x.f, sw := dSW x.f, addr := r, len := nb, write := true, unit_ := el : Span }) ++
            (if bitOf fn 2 then [{ space := 0, sw := 0, addr := bias, len := 256, write := false, unit_ := 1 }] else [])) fun ps =>
          let biasPs := (ps.drop 64).flatten
          if bitsAt q.w2 8 24 ≠ 0 then .trap trapAccess (BitVec.ofNat 64 a) 0 else
          withOwnMarks x (linesOf (ps.take 64).flatten) (withFullLines x (linesOf biasPs) (withQueue x (
            withStaging x (x.staged (dSP x.f)) (64 * stagedSize nb) (
              let tile := tileOf x.f.d
              let t := match x.f.a.op with | .v n => n.toNat | _ => 0
              let rsr := (fmtOf x.f.ty).isSome && bitsAt x.f.x6.toNat 0 3 == 4
              let bad := (x.s0.teamOf x.g).issues tile != x.g.ack tile
              let g := if rsr then { x.g1 with rcnt := x.g1.rcnt + 1 } else x.g1
              .done (enterQueue x g tile false (.adrain
                { fn := fn, x6 := x.f.x6.toNat, ty := x.f.ty, poisoned := bad, space := dSP x.f, rows := ps.take 64, addrs := rows.map (swizzle (dSW x.f))
                  eps := BitVec.ofNat 32 (bitsAt q.w2 32 32), scl := signedNat 8 (bitsAt q.w2 0 8), bias := biasPs, tregs := t
                  norm := if fn % 4 = 2 then ((List.range 64).map fun i => rowTriple x.seen t i).flatten else []
                  count := x.g.rcnt })))))))

/-- aread (R184): waits for the acknowledged entries on the tile, then copies words, or POISON. -/
def areadEff (x : View) : Eff :=
  withTile x (
    let t := x.s0.teamOf x.g
    let a := tileOf x.f.a.op
    if t.raising a (x.g.ack a) then .wait x.s0 .matrix else
    let r := match x.f.b.op with | .s n => (x.sval n.toNat).toNat % 64 | _ => 0
    let bad := t.issues a != x.g.ack a
    let k := match x.f.d with | .v n => n.toNat | _ => 0
    let word := fun (l h : Nat) =>
      if bad then poison else if x.f.fn = 8 then t.tileWord a r (l + 32 * h) else t.tileWord a (l + 32 * h) r
    let g := lanes.foldl (fun g l => (g.setV k l (word l 0)).setV (k + 1) l (word l 1)) x.g1
    .done (x.put (if bad then g.orFlagsIn allLanes flagAPEND else g)))

-- MEANINGS
def execAready (f : Form) (s : State) : Host.Outcome State Fault Refusal := runActing (.aready f) f areadyEff s
def execAwait (f : Form) (s : State) : Host.Outcome State Fault Refusal := runActing (.await f) f awaitEff s
def execAzero (f : Form) (s : State) : Host.Outcome State Fault Refusal := runForm (.azero f) f azeroEff s
def execAload (f : Form) (s : State) : Host.Outcome State Fault Refusal := runForm (.aload f) f aloadEff s
def execAdrain (f : Form) (s : State) : Host.Outcome State Fault Refusal := runForm (.adrain f) f adrainEff s
def execAread (f : Form) (s : State) : Host.Outcome State Fault Refusal := runForm (.aread f) f areadEff s

end Sys2Proof.Machine
end

