-- ==== Sys2Proof/Machine/Launch.lean ====
section
/-! DEFINITION. Launches (R252 to R259, R267, R268): reading and checking a record, the completion block and gates, and where a cluster may be placed (R19, R197 to R201, R213, R214). -/

namespace Sys2Proof.Machine

-- RECORDS (R252, R253)
/-- The fields of a launch record. -/
def recordFields (d : List Byte) : LaunchRec :=
  { flags := field d 2 1, groups := field d 3 1, cw := field d 4 1 % 16, ch := field d 4 1 / 16, vregs := field d 5 1,
    argc := field d 6 1, wdog := field d 7 1, teams := field d 8 4, lsz := field d 12 4, image := field d 16 8,
    ilen := field d 24 4, hoff := field d 28 4, args := field d 32 8, rkey := BitVec.ofNat 64 (field d 40 8),
    resv := BitVec.ofNat 64 (field d 48 8), done := field d 56 8 }

/-- Every field of R252 in its range, but for LSZ (reason 1 of R254). -/
def LaunchRec.fieldsOk (r : LaunchRec) (ver : Nat) : Bool :=
  ver == 1 && decide (r.flags < 16) && decide (1 ≤ r.groups ∧ r.groups ≤ 32) && decide (1 ≤ r.cw * r.ch ∧ r.cw * r.ch ≤ 12) &&
  decide (16 ≤ r.vregs ∧ r.vregs ≤ 128) && r.vregs % 8 == 0 && decide (r.argc ≤ 16) &&
  (r.wdog == 0 || decide (16 ≤ r.wdog ∧ r.wdog ≤ 40)) && decide (1 ≤ r.teams) && r.image % 256 == 0 && r.ilen % 8 == 0 &&
  (r.hoff == 0xFFFFFFFF || (decide (r.hoff < r.ilen) && r.hoff % 4 == 0)) && (r.argc == 0 || r.args % 8 == 0) &&
  r.done % 64 == 0 && (if bitOf r.resv.toNat 63 then bitsAt r.resv.toNat 32 31 == 0 else r.resv.toNat % 4 == 0)

/-- The argument block as R253 asks for it. -/
def argsOk (argc : Nat) (d : List Byte) : Bool :=
  let regs := (d.take argc).map (·.toNat)
  regs.all (· < 64) && regs.eraseDups.length == argc && ((d.take 16).drop argc).all (· == 0xFF)

/-- A fetch of `n` bytes from pages that hold code, page by page: `fuel` pages at most (R34, R276). -/
def State.codeRuns (s : State) (ck : Nat) : Nat → Nat → Nat → Option (List (Nat × Nat))
  | _, _, 0 => some []
  | 0, _, _ + 1 => none
  | fuel + 1, va, n + 1 =>
    let k := min (n + 1) (2 ^ 16 - va % 2 ^ 16)
    match (if va < 2 ^ 57 then s.walkPage ck (va / 2 ^ 16) else .error 4), s.codeRuns ck fuel (va + k) (n + 1 - k) with
    | .ok t, some r => if t.x && !t.bf && !t.stmp && !t.basic && !s.inSlots t.addr then some ((t.addr + va % 2 ^ 16, k) :: r) else none
    | _, _ => none

def State.codeBytes (s : State) (ck va n : Nat) : Option (List Byte) :=
  (s.codeRuns ck (pagesOf va n) va n).map fun rs => rs.foldr (fun r a => s.memBytes r.1 r.2 ++ a) []

/-- The opcodes and FN fields of an image, instruction by instruction; a word with LEN = 11 is passed in steps of four. -/
def imageOps : Nat → List Byte → List (Nat × Nat)
  | 0, _ => []
  | fuel + 1, b :: c :: bs =>
    let w := b.toNat + 256 * c.toNat
    let n := match w % 4 with | 0 => 8 | 1 => 12 | 2 => 16 | _ => 4
    let rest := imageOps fuel ((b :: c :: bs).drop n)
    if w % 4 = 3 then rest else (bitsAt w 3 8, bitsAt w 11 4) :: rest
  | _ + 1, _ => []

/-- The opcodes that make a kernel tile-using (R197). -/
def tileOpcode (op : Nat) : Bool := decide (0xE3 ≤ op ∧ op ≤ 0xE6) || decide (0xE8 ≤ op ∧ op ≤ 0xEF)

/-- What a checking launch may not hold (R269). -/
def checkForbids (p : Nat × Nat) : Bool :=
  decide (0xCF ≤ p.1 ∧ p.1 ≤ 0xD5) || (p.1 == 0xE7 && decide (p.2 < 2)) || (p.1 == 0xE1 && p.2 == 2)

/-- The reservation counts: one for every team, a list, or none where the array cannot be read (R252, R267). -/
def State.readCounts (s : State) (ck : Nat) (r : LaunchRec) : Option (List Nat × Option Nat) :=
  if r.resv = 0 then some ([], some 0)
  else if bitOf r.resv.toNat 63 then some ([], some (r.resv.toNat % 2 ^ 32))
  else (s.vaBytes ck r.resv.toNat (4 * r.teams)).map fun d => ((List.range r.teams).map fun i => field d (4 * i) 4, none)

/-- A record as it is read: the reason it is rejected for (0: none), the completion block if it can be written, and the
launch. -/
structure Parsed where
  reason : Nat
  done   : Option Nat
  launch : Launch
  deriving DecidableEq, Repr

/-- The dies of a function's partition, in ascending order (R259). -/
def Fn.dies (f : Fn) : List Nat := (List.range 4).filter fun d => bitOf f.part (d / 2)

/-- The ranges of the ticket counters of C clusters over some dies (R259). -/
def ticketRanges (dies : List Nat) (c : Nat) : List (Nat × Nat × Nat) :=
  dies.mapIdx fun k d => (d, k * c / dies.length, (k + 1) * c / dies.length)

/-- The parsing of a record (R252 to R254): the lowest reason that holds. -/
def State.parseRecord (s : State) (fn ctx addr : Nat) : Parsed :=
  let ck := ctxKey fn ctx
  match (if addr % 64 = 0 && (s.ctx ck).enabled then s.vaBytes ck addr 64 else none) with
  | none => { reason := 5, done := none, launch := { Launch.none with fn := fn, ctx := ctx } }
  | some d =>
    let r := recordFields d
    let args := if r.argc = 0 then some [] else s.vaBytes ck r.args (16 + 8 * r.argc)
    let code := s.codeBytes ck r.image r.ilen
    let counts := s.readCounts ck r
    let ops := match code with | some c => imageOps (r.ilen + 1) c | none => []
    let doneOk := r.done % 64 == 0 && (s.vaAddr ck r.done true).isSome
    let det := r.flags.testBit 0
    let chk := r.flags.testBit 1
    let total := match counts with | some (l, one) => (match one with | some n => n * r.teams | none => l.foldl (· + ·) 0) | none => 0
    let bad := [
      (1, !(r.fieldsOk (field d 0 2)) || (match args with | some a => r.argc != 0 && !argsOk r.argc a | none => false)),
      (2, decide (min 64 (262144 / (128 * max r.vregs 1)) < r.groups)),
      (3, r.cw * r.ch != 0 && r.teams % (r.cw * r.ch) != 0),
      (4, r.lsz % 128 != 0 || decide (1966080 < r.lsz) || decide (2 ^ 21 < r.lsz + (if det then 2 ^ 17 else 0))),
      (5, args.isNone || code.isNone || counts.isNone || !doneOk),
      (6, (!det && (match code with | some c => Config.detKernel c | none => false)) || chk && (!(det && r.flags.testBit 2) || ops.any checkForbids)),
      (7, decide (2 ^ 32 - 1 < total))]
    let argv := match args with
      | some a => (List.range r.argc).map fun i => (field a i 1, BitVec.ofNat 64 (field a (16 + 8 * i) 8))
      | none => []
    { reason := ((bad.find? (·.2)).map (·.1)).getD 0
      done := if doneOk then some r.done else none
      launch := { Launch.none with
        fn := fn, ctx := ctx, active := true, r := r, argv := argv
        counts := (counts.getD ([], none)).1, one := (counts.getD ([], none)).2
        ranges := ticketRanges (s.fn fn).dies (r.teams / (r.cw * r.ch)), usesTile := ops.any (tileOpcode ·.1) } }

-- GATES AND QUEUES (R256, R257)
/-- Records submitted and not yet begun. -/
def Queue.count (q : Queue) : Nat := (q.tail + 2 ^ 32 - q.head) % 2 ^ 32

/-- The context of queue q (R272). -/
def Fn.queueCtx (f : Fn) (q : Nat) : Nat := bitsAt f.qctx.toNat (4 * q) 4

def Queue.slotAddr (q : Queue) (i : Nat) : Nat := q.base.toNat + 64 * (i % 2 ^ q.size)

/-- A write of TAIL that would overflow the ring is discarded (R256); every queue write is in the safe state (R356). -/
def State.setTail (s : State) (fn q tail : Nat) : State :=
  let x := (s.fn fn).queue q
  if s.health.pstate = 2 || decide (2 ^ x.size < (tail + 2 ^ 32 - x.head) % 2 ^ 32) then s
  else s.updFn fn fun f => f.setQueue q { x with tail := tail % 2 ^ 32 }

/-- A record submitted to the tail of a queue of the function. -/
def State.submit (s : State) (fn q : Nat) (d : List Byte) : State :=
  let x := (s.fn fn).queue q
  if 2 ^ x.size ≤ x.count then s
  else match s.setVaBytes (ctxKey fn ((s.fn fn).queueCtx q)) (x.slotAddr x.tail) d with
    | some s => s.setTail fn q ((x.tail + 1) % 2 ^ 32)
    | none => s

/-- A gate decrement in a context (R257). -/
def State.decGate (s : State) (fn ck ga : Nat) : State :=
  if ga = 0 || ga % 16 != 0 then s else
  match s.vaNat ck ga 8, s.vaNat ck (ga + 8) 8 with
  | some n, some link =>
    if n = 0 then s else
    match s.setVaNat ck ga 8 (n - 1) with
    | none => s
    | some s => if n = 1 then (match s.vaBytes ck (link / 64 * 64) 64 with | some d => s.submit fn (link % 8) d | none => s) else s
  | _, _ => s

/-- The completion block, with what the device writes (R254, R255), and the gates it names. -/
def State.writeCompletion (s : State) (fn ctx done status reln : Nat) (digest : List Byte) : State :=
  let ck := ctxKey fn ctx
  let gates := (s.vaBytes ck (done + 16) 16).getD []
  let s := (s.setVaBytes ck done (bytesOf 4 status ++ bytesOf 4 reln ++ bytesOf 8 s.tb.latest)).getD s
  let s := (s.setVaBytes ck (done + 32) digest).getD s
  (s.decGate fn ck (field gates 0 8)).decGate fn ck (field gates 8 8)

def noDigest : List Byte := List.replicate 32 0

-- DIGESTS (R268)
def State.teamDigest (s : State) (tk : Nat) : List Byte :=
  let t := s.team tk
  sha256 ((List.range (s.launch (teamLaunch tk)).r.groups).foldr (fun g a => sha256 (mapGet [] t.logs g) ++ a) [])

def State.launchDigest (s : State) (lk : Nat) : List Byte :=
  sha256 ((List.range (s.launch lk).r.teams).foldr (fun t a => bytesOf 8 t ++ s.teamDigest (teamKey lk t) ++ a) [])

-- WHAT A CORE HOLDS (R197, R198, R213)
/-- No access of a group is outstanding; `pod` counts the multicast stores that wait for their acknowledgements too. -/
def State.quiet (s : State) (gk : Nat) (pod : Bool) : Bool :=
  let g := s.group gk
  g.loads.isEmpty && g.stores.isEmpty && g.msreds.isEmpty && !(match g.rdat with | some w => w.sent | none => false) &&
  !(s.pendings.any fun p => p.grp == gk && (pod || p.kind != 0)) && !(s.copies.any (·.grp == gk))

/-- A team that has ended with every access performed; one that an uncorrectable word has stopped is not over (R225). -/
def State.teamOver (s : State) (tk : Nat) : Bool :=
  s.teamEnded tk && !(s.team tk).dead && (s.team tk).queue.isEmpty && (s.teamGroups tk).all fun k => s.quiet k false

def Cluster.teams (s : State) (c : Cluster) : List Nat := clusterTeams (s.launch c.launch) c.launch c.index

/-- A cluster whose teams have all ended: its windows return to the vaults (R201, R215). -/
def State.clusterOver (s : State) (ck : Nat) : Bool := (Cluster.teams s (s.cluster ck)).all s.teamOver

def Cluster.onCores (c : Cluster) : Bool := c.stage == .running || c.stage == .leaving

/-- The teams that hold space on a core, but for those of some clusters. -/
def State.resident (s : State) (without : List Nat) (core : Nat) : List Nat :=
  (s.teams.filter fun p =>
    let ck := s.clusterOf (s.launch (teamLaunch p.1)) p.1
    p.2.present && p.2.core == core && (s.cluster ck).onCores && !without.contains ck && !s.clusterOver ck).map (·.1)

/-- The groups of a team that have not ended. -/
def State.presentGroups (s : State) (tk : Nat) : List Nat := (s.teamGroups tk).filter fun k => (s.group k).present

/-- The record of an error trap that no instruction's read meets: it names the group's next instruction, and for a team that of its
lowest group (log entry 24). -/
def State.traceAt (s : State) (gk code : Nat) : State := s.trace gk 3 (code * 2 ^ 56 + s.imageOff gk (s.group gk).first.pc)
def State.traceTeam (s : State) (tk code : Nat) : State :=
  match s.presentGroups tk with
  | k :: _ => s.traceAt k code
  | [] => s

/-- A scrub or a steward finds the armed word at an offset of a team's window (R225, R350). -/
def State.findsAlone (s : State) (tk off : Nat) : State := (s.traceTeam tk trapLsUncorr).findsWord tk off 0

/-- The lowest base, a multiple of 4 KiB, at which `len` bytes fit between some spaces in use (R213). -/
def freeSpace (used : List (Nat × Nat)) (len : Nat) : Option Nat :=
  let ok := fun b => decide (b + len ≤ 2 ^ 21) && used.all fun u => decide (b + len ≤ u.1 ∨ u.1 + u.2 ≤ b)
  let cands := (0 :: used.map fun u => roundUp (u.1 + u.2) 4096).filter ok
  match cands with
  | [] => none
  | c :: cs => some (cs.foldl min c)

/-- The spaces of a core's vault in use: windows and staging regions. -/
def State.vaultUse (s : State) (ts : List Nat) : List (Nat × Nat) :=
  ts.foldr (fun tk a =>
    let t := s.team tk
    let l := s.launch (teamLaunch tk)
    (t.base, l.r.lsz) :: (if l.det then (t.sbase, 2 ^ 17) :: a else a)) []

/-- Where the window and the staging region of a team of a launch go, if they fit (R214). -/
def State.findSpace (s : State) (ts : List Nat) (l : Launch) : Option (Nat × Nat) :=
  let used := s.vaultUse ts
  match freeSpace used l.r.lsz with
  | none => none
  | some b =>
    if !l.det then some (b, 0)
    else (freeSpace ((b, l.r.lsz) :: used) (2 ^ 17)).map fun c => (b, c)

/-- Whether a team with `n` groups of a launch fits on a core beside the teams it holds (R19, R197). -/
def State.fits (s : State) (without : List Nat) (l : Launch) (n core : Nat) : Bool :=
  let ts := s.resident without core
  let groups := ts.foldl (fun a tk => a + (s.presentGroups tk).length) 0
  let regs := ts.foldl (fun a tk => a + 128 * (s.launch (teamLaunch tk)).r.vregs * (s.presentGroups tk).length) 0
  !(s.core core).held &&
  ts.all (fun tk => (s.launch (teamLaunch tk)).ctxKey == l.ctxKey) &&
  !(l.usesTile && ts.any fun tk => (s.launch (teamLaunch tk)).usesTile && !s.teamEnded tk) &&
  decide (groups + n ≤ 64) && decide (regs + 128 * l.r.vregs * n ≤ 262144) && (s.findSpace ts l).isSome

-- RECTANGLES (R199, R200)
/-- The cores of a rectangle by rank, from its lowest combined column and row; `core` places a combined column. -/
def rectCores (w h row col : Nat) (core : Nat → Nat → Nat) : List Nat :=
  (List.range (w * h)).map fun k => core (row + k / w) (col + k % w)

/-- The rectangles within a die, row by row. -/
def rectsWithin (die w h : Nat) : List (List Nat) :=
  ((List.range (17 - h)).map fun y => (List.range (13 - w)).map fun x =>
    rectCores w h y x fun r c => 192 * die + 12 * r + c).flatten

/-- The rectangles that straddle the pair edge of a die. -/
def rectsAcross (die w h : Nat) : List (List Nat) :=
  ((List.range (17 - h)).map fun y => ((List.range 12).filter fun x => decide (12 < x + w)).map fun x =>
    rectCores w h y x fun r c => 192 * (die / 2 * 2 + c / 12) + 12 * r + c % 12).flatten

/-- The rectangles a die may use for a launch: its own, then straddling ones where its pair belongs to the partition. -/
def State.rects (s : State) (l : Launch) (die : Nat) : List (List Nat) :=
  if !(s.fn l.fn).dies.contains die then [] else rectsWithin die l.r.cw l.r.ch ++ rectsAcross die l.r.cw l.r.ch

-- WHOSE TURN A DIE PAIR IS (R274)
/-- Whether a function may place clusters on a pair now. -/
def State.mayUse (s : State) (fn pair : Nat) : Bool :=
  let fs := s.sharers pair
  fs.contains fn && (fs.length ≤ 1 || (s.sliceOf pair).1 == fn)

-- THE NEXT CLUSTER OF A LAUNCH (R259, R263)
/-- The clusters of a launch on the resume list that may resume: the one of the team with the release token (R266), and then the
first to join. -/
def State.resumable (s : State) (lk : Nat) : List Nat :=
  let l := s.launch lk
  let token := fun (c : Cluster) => l.det && (Cluster.teams s c).any fun tk => teamIndex tk == l.token
  let cs := s.clusters.filter fun p => p.2.launch == lk && p.2.stage == .saved && p.2.halted.isNone && (!p.2.staged || token p.2)
  let first := fun (a b : Nat × Cluster) => token a.2 || (!token b.2 && decide (a.2.since ≤ b.2.since))
  (cs.mergeSort first).map (·.1)

def Launch.indicesLeft (l : Launch) : Bool := l.ranges.any fun r => decide (r.2.1 < r.2.2)

/-- The groups each team of a cluster has to place. -/
def State.sizes (s : State) (lk : Nat) (resume : Option Nat) : List Nat :=
  match resume with
  | some ck => (Cluster.teams s (s.cluster ck)).map fun tk => (s.presentGroups tk).length
  | none => List.replicate (s.launch lk).size (s.launch lk).r.groups

/-- The first rectangle of a die that has room. -/
def State.room (s : State) (without : List Nat) (l : Launch) (sizes : List Nat) (die : Nat) : Option (List Nat) :=
  if !s.mayUse l.fn (die / 2) then none
  else (s.rects l die).find? fun r => (List.zip r sizes).all fun p => s.fits without l p.2 p.1

/-- What a launch places next: a cluster of the resume list, or a new index. -/
def State.nextOf (s : State) (lk : Nat) : Option (Option Nat) :=
  match s.resumable lk with
  | ck :: _ => some (some ck)
  | [] => if (s.launch lk).indicesLeft then some none else none

/-- Launches that may place clusters: highest priority first, and among equals the one that began first. -/
def State.launchOrder (s : State) : List Nat :=
  let ls := s.launches.filter fun p => p.2.active && p.2.fatal.isNone && (s.nextOf p.1).isSome
  (ls.mergeSort fun a b => decide (b.2.pri < a.2.pri) || (a.2.pri == b.2.pri && decide (a.2.order ≤ b.2.order))).map (·.1)

/-- What a die places next: the launch, the cluster that resumes or none for a new one, and the cores. -/
def State.nextPlacement (s : State) (die : Nat) : Option (Nat × Option Nat × List Nat) :=
  if s.health.pstate != 1 || s.ck.stage == 2 then none else
  s.launchOrder.findSome? fun lk =>
    match s.nextOf lk with
    | none => none
    | some r => (s.room [] (s.launch lk) (s.sizes lk r) die).map fun cores => (lk, r, cores)

/-- The index a die takes: the lowest of its own range, or the highest of the die with the most remaining (R259). -/
def takeIndex (die : Nat) (rs : List (Nat × Nat × Nat)) : Option (Nat × List (Nat × Nat × Nat)) :=
  let set := fun d (r : Nat × Nat) => rs.map fun x => if x.1 = d then (d, r) else x
  match rs.find? fun x => x.1 == die && decide (x.2.1 < x.2.2) with
  | some x => some (x.2.1, set die (x.2.1 + 1, x.2.2))
  | none =>
    let most := rs.foldl (fun (a : Option (Nat × Nat × Nat)) x =>
      match a with
      | none => if x.2.1 < x.2.2 then some x else none
      | some y => if y.2.2 - y.2.1 < x.2.2 - x.2.1 then some x else a) none
    most.map fun x => (x.2.2 - 1, set x.1 (x.2.1, x.2.2 - 1))

-- TRACE RINGS (R345)
/-- The steward copies a core's new records to the trace buffer of their context, if one is set. -/
def State.drainRing (s : State) (core : Nat) : State :=
  let c := s.core core
  let fn := c.ctx / 16
  let f := s.fn fn
  let len := f.trcl.toNat / 4096 * 4096
  let s := s.setCore core { c with ring := [] }
  if f.trcb = 0 || len = 0 then s
  else
    let s := c.ring.foldl (fun (p : State × Nat) r =>
      ((p.1.setDevBytes (f.trcb.toNat + p.2 * 16 % len) (bytesOf 8 r.1 ++ bytesOf 8 r.2)).getD p.1, p.2 + 1)) (s, f.trch.toNat)
    s.1.updFn fn fun f => { f with trch := BitVec.ofNat 64 s.2 }

/-- The ring is drained and zeroed before a team of another context is placed. -/
def State.ringFor (s : State) (core ck : Nat) : State :=
  if (s.core core).ctx = ck then s
  else (s.drainRing core).updCore core fun c => { c with ring := [], all := [], head := 0, ctx := ck }

-- PLACING, SAVING, ENDING
/-- Waits by the clock of a group's core, as remaining time or as deadlines (R262, R263). -/
def Group.shiftWaits (g : Group) (f : Nat → Nat) : Group :=
  { (g.updLanes g.live fun x => { x with cond := match x.cond with
        | .asleep u => .asleep (f u)
        | .waitv k u => .waitv k (f u)
        | .barrier cw tm off ph u => .barrier cw tm off ph (f u)
        | c => c }) with stall := g.stall.map f, held := g.held.map f }

/-- A group at the start of its team (R31, K23). -/
def Launch.freshGroup (l : Launch) (tk grp : Nat) : Group :=
  let g := { Group.none with team := tk, grp := grp, present := true,
                             lanes := (List.range 32).map fun i =>
                               (i, { pc := BitVec.ofNat 64 l.r.image, stack := [], standing := 0, cond := .voting, flags := 0 }) }
  l.argv.foldl (fun g p => g.setS p.1 p.2) g

/-- The teams and groups of a cluster as they start, on no core yet. -/
def State.freshCluster (s : State) (lk index : Nat) : State :=
  let l := s.launch lk
  let s := (clusterTeams l lk index).foldl (fun s tk =>
    let s := s.setTeam tk { Team.none with launch := lk, index := teamIndex tk, stopped := true }
    (List.range l.r.groups).foldl (fun s i => s.setGroup (groupKey tk i) (l.freshGroup tk i)) s) s
  s.setCluster (clusterKey lk index) { Cluster.none with launch := lk, index := index, stage := .idle }

/-- The free group slots of a core, lowest first. -/
def State.freeSlots (s : State) (core : Nat) : List Nat :=
  let used := ((s.resident [] core).map fun tk => (s.presentGroups tk).map fun k => (s.group k).slot).flatten
  (List.range 64).filter fun i => !used.contains i

/-- A team takes its place on a core: slots, window, staging region, and its waits as deadlines (R198, R213, R263). -/
def State.seatTeam (s : State) (tk core : Nat) : State :=
  let l := s.launch (teamLaunch tk)
  let slots := s.freeSlots core
  let space := (s.findSpace (s.resident [] core) l).getD (0, 0)
  let s := s.ringFor core l.ctxKey
  let cyc := s.cyc core
  let s := ((s.presentGroups tk).zip slots).foldl (fun s p =>
    s.updGroup p.1 fun g => { (g.shiftWaits (cyc + ·)) with slot := p.2, ready := cyc, run := 0 }) s
  let s := s.updCore core fun c =>
    { c with vault := c.vault.filter fun p => !decide (space.1 ≤ p.1 ∧ p.1 < space.1 + l.r.lsz) }
  s.updTeam tk fun t => { t with core := core, base := space.1, sbase := space.2, present := true, stopped := false, dead := false }

def State.seat (s : State) (ck : Nat) (cores : List Nat) : State :=
  let c := s.cluster ck
  let s := ((Cluster.teams s c).zip cores).foldl (fun s p => s.seatTeam p.1 p.2) s
  s.setCluster ck { c with stage := .running, cores := cores, staged := false }

/-- A group slot or issue slot of a core that a group of some teams holds. -/
def State.holds (s : State) (tks : List Nat) : Bool :=
  tks.any fun tk => (s.core (s.team tk).core).holders.any fun h => match h.2 with
    | some x => x.grp / 32 == tk
    | none => false

/-- A letter of a cluster barrier for a line or a team of some teams. -/
def barrierFor (p : Nat → Bool) (m : Letter) : Bool :=
  match m.msg with
  | .barArrive t _ _ _ => p t
  | .barRelease _ _ t _ => p t
  | _ => false

/-- Steps 1 to 4 of R262 are done for some teams: no run goes on, and every access issued has been performed. -/
def State.drained (s : State) (tks : List Nat) : Bool :=
  !s.holds tks && tks.all fun tk =>
    (s.team tk).dead ||
    ((s.team tk).queue.isEmpty && (s.teamGroups tk).all fun k => s.quiet k true && (s.group k).tokens.all (·.arrived)) &&
    !s.net.any (barrierFor (· == tk))

/-- Step 5 of R262: the cluster leaves its cores with its waits as remaining time and its stalls on empty lines, and joins the
resume list. -/
def State.save (s : State) (ck : Nat) : State :=
  let c := s.cluster ck
  let s := (Cluster.teams s c).foldl (fun s tk =>
    let cyc := s.cyc (s.team tk).core
    let s := (s.presentGroups tk).foldl (fun s k => s.updGroup k fun g =>
      { (g.shiftWaits (· - cyc)) with why := (match g.why with | .empty .. => g.why | _ => .none), run := 0 }) s
    s.updTeam tk fun t => { t with stopped := true }) s
  { s.setCluster ck { c with stage := .saved, cores := [], since := s.order } with order := s.order + 1 }

/-- Groups of a launch. -/
def ofLaunch (lk gk : Nat) : Bool := teamLaunch (gk / 32) == lk

/-- The groups, teams and clusters of a launch leave the module. -/
def State.clearRun (s : State) (lk : Nat) : State :=
  let s := (mapKeys s.cores).foldl (fun s c => s.updCore c fun x =>
    { x with holders := x.holders.filter fun h => match h.2 with
        | some y => !ofLaunch lk y.grp
        | none => false }) s
  { s with
    groups := s.groups.filter fun p => !ofLaunch lk p.1
    teams := s.teams.filter fun p => teamLaunch p.1 != lk
    clusters := s.clusters.filter fun p => p.2.launch != lk
    copies := s.copies.filter fun c => !ofLaunch lk c.grp
    net := s.net.filter fun m => !barrierFor (teamLaunch · == lk) m
    pendings := s.pendings.filter fun p => !ofLaunch lk p.grp
    sleepers := s.sleepers.filter fun p => !ofLaunch lk p.grp
    walks := s.walks.map fun w => { w with joined := w.joined.filter fun p => !ofLaunch lk p.1 } }

/-- A launch completes: its block, its gates, the script that waits for it, and its end (R255, R298). -/
def State.complete (s : State) (lk status reln : Nat) (digest : List Byte) : State :=
  let l := s.launch lk
  let s := s.clearRun lk
  let s := s.writeCompletion l.fn l.ctx l.r.done status reln digest
  match l.script with
  | some (c, h) =>
    -- the script reads the status from its fragment's record
    { (s.setLaunch lk { Launch.none with fn := l.fn, ctx := l.ctx, script := some (c, h), extra := status }) with
      agenda := s.agenda ++ [.event (.fragmentComplete c h)] }
  | none => s.setLaunch lk Launch.none

/-- A record begins (R258): it is rejected and completed, or its launch is accepted. The key of the launch. -/
def State.begin_ (s : State) (fn ctx pri queue addr : Nat) (script : Option (Nat × Nat)) : State × Nat :=
  let p := s.parseRecord fn ctx addr
  let lk := s.nextLaunch
  let s := { s with nextLaunch := lk + 1 }
  if p.reason = 0 then
    ({ s.setLaunch lk { p.launch with pri := pri, queue := queue, order := s.order, script := script } with
       order := s.order + 1 }, lk)
  else
    let status := 7 + 256 * p.reason
    let s := match p.done with | some d => s.writeCompletion fn ctx d status 0 noDigest | none => s
    match script with
    | some (c, h) =>
      ({ s.setLaunch lk { Launch.none with fn := fn, ctx := ctx, script := script, extra := status } with
         agenda := s.agenda ++ [.event (.fragmentComplete c h)] }, lk)
    | none => (s, lk)

end Sys2Proof.Machine
end

