-- ==== Sys2Proof/Machine/EvLaunch.lean ====
section
/-! DEFINITION. Events of launches: submission, service of the queues, placement, pre-emption and resumption, slices, the release token, completion, checking mode, fatal stops and relaunches (R225, R255 to R269, R272, R274, R275, R337). -/

namespace Sys2Proof.Machine

-- SUBMISSION
/-- A write of QTAIL (R256). -/
def execQtailWrite (fn q : Nat) (val : DWord) (s : State) : Host.Outcome State Fault Refusal :=
  if !s.present fn then .next s else
  .next (s.setTail fn q (val.toNat % 2 ^ 32))

/-- A write of the gate register (R257): the gate lies in the context of the function's queue 0 (log entry 21). -/
def execGateDecrement (fn : Nat) (val : DWord) (s : State) : Host.Outcome State Fault Refusal :=
  if !s.present fn then .next s else
  .next (s.decGate fn (ctxKey fn ((s.fn fn).queueCtx 0)) val.toNat)

/-- Whether the record at the head of a queue may begin: with SER set, the record before it has completed (R258). -/
def State.mayBegin (s : State) (fn q : Nat) : Bool :=
  let f := s.fn fn
  let x := f.queue q
  x.en && x.count != 0 &&
  (match s.vaBytes (ctxKey fn (f.queueCtx q)) (x.slotAddr x.head) 64 with
   | some d => !(bitOf (field d 2 1) 3 && (s.launch x.last).active)
   | none => true)

/-- The queues that a pair's command processors may serve. -/
def State.readyQueues (s : State) (pair : Nat) : List (Nat × Nat) :=
  if s.health.pstate != 1 then [] else
  ((s.sharers pair).map fun f => ((List.range 8).filter fun q => s.mayBegin f q).map fun q => (f, q)).flatten

/-- The order of R258: highest priority, then the function and the queue whose turn it is on the pair. -/
def State.servedFirst (s : State) (pair : Nat) (a b : Nat × Nat) : Bool :=
  let pri := fun (p : Nat × Nat) => ((s.fn p.1).queue p.2).pri
  let turn := fun (p : Nat × Nat) => (p.1 + 64 - mapGet 0 s.rotate pair) % 64 * 8 + (p.2 + 7 - (s.fn p.1).turn) % 8
  decide (pri b < pri a) || (pri a == pri b && decide (turn a ≤ turn b))

def State.nextQueue (s : State) (pair : Nat) : Option (Nat × Nat) :=
  match s.readyQueues pair with
  | [] => none
  | p :: ps => some (ps.foldl (fun a b => if s.servedFirst pair a b then a else b) p)

/-- A command processor takes the next record (R258). -/
def execQueueService (pair : Nat) (s : State) : Host.Outcome State Fault Refusal :=
  match s.nextQueue pair with
  | none => .next s
  | some (fn, q) =>
    let f := s.fn fn
    let x := f.queue q
    let r := s.begin_ fn (f.queueCtx q) x.pri q (x.slotAddr x.head) none
    let s := r.1.updFn fn fun f =>
      { (f.setQueue q { f.queue q with head := ((f.queue q).head + 1) % 2 ^ 32, last := r.2 }) with turn := q }
    .next { s with rotate := mapSet 0 s.rotate pair ((fn + 1) % 64) }

-- PLACEMENT
/-- A die takes a new cluster index and places its teams (R199 to R201, R259). -/
def execClusterPlacement (die : Nat) (s : State) : Host.Outcome State Fault Refusal :=
  match s.nextPlacement die with
  | some (lk, none, cores) =>
    match takeIndex die (s.launch lk).ranges with
    | none => .next s
    | some (i, rs) =>
      let s := s.updLaunch lk fun l => { l with ranges := rs }
      .next ((s.freshCluster lk i).seat (clusterKey lk i) cores)
  | _ => .next s

/-- A cluster of the resume list resumes whole (R263). -/
def execClusterResume (die : Nat) (s : State) : Host.Outcome State Fault Refusal :=
  match s.nextPlacement die with
  | some (_, some ck, cores) => .next (s.seat ck cores)
  | _ => .next s

-- PRE-EMPTION (R261, R262)
/-- Clusters that are on their way off their cores. -/
def State.leavingClusters (s : State) : List Nat := (s.clusters.filter fun p => p.2.stage == .leaving).map (·.1)

/-- The choices of `k` members of a list, in its order. -/
def choose : Nat → List Nat → List (List Nat)
  | 0, _ => [[]]
  | _ + 1, [] => []
  | k + 1, x :: xs => (choose k xs).map (x :: ·) ++ choose (k + 1) xs

/-- The fewest clusters of some launches that must leave before teams of given group counts fit on given cores, once the clusters
that are leaving have left: among as few, those of the launches named first and of them the latest indices (log entry 44). -/
def State.mustLeave (s : State) (victims : List Nat) (l : Launch) (ps : List (Nat × Nat)) : Option (List Nat) :=
  let cand := victims.flatMap fun v => ((s.clusters.filter fun p => p.2.launch == v && p.2.stage == .running &&
    p.2.cores.any fun c => ps.any (·.1 == c)).map (·.1)).reverse
  let ok := fun (out : List Nat) => ps.all fun p => s.fits (s.leavingClusters ++ out) l p.2 p.1
  (List.range (cand.length + 1)).findSome? fun k => (choose k cand).find? ok

/-- The fewest clusters of some launches that make room for another's next cluster. -/
def State.victimsOf (s : State) (victims : List Nat) (lk : Nat) : Option (List Nat) :=
  let l := s.launch lk
  match s.nextOf lk with
  | none => none
  | some r =>
    let rects := (List.range 4).map fun d => if s.mayUse l.fn (d / 2) then s.rects l d else []
    let all := rects.flatten.filterMap fun x => s.mustLeave victims l (x.zip (s.sizes lk r))
    all.foldl (fun a x => match a with
      | none => some x
      | some y => some (if x.length < y.length then x else y)) none

/-- Whether a launch can place its next cluster, once the clusters that are leaving have left. -/
def State.canPlace (s : State) (lk : Nat) : Bool :=
  match s.nextOf lk with
  | none => true
  | some r => (List.range 4).any fun d => (s.room s.leavingClusters (s.launch lk) (s.sizes lk r) d).isSome

/-- The clusters that the highest launch that cannot place its next cluster makes leave: those of the launch of lowest
priority, and among equals the latest begun, that make room; where no one launch can, those of several of lower priority. -/
def State.victims (s : State) : List Nat :=
  let lower := fun (l : Launch) =>
    (s.launches.filter fun p => p.2.active && p.2.fatal.isNone && decide (p.2.pri < l.pri)).mergeSort fun a b =>
      decide (a.2.pri < b.2.pri) || (a.2.pri == b.2.pri && decide (b.2.order ≤ a.2.order))
  let found := s.launchOrder.findSome? fun lk =>
    if s.canPlace lk then none
    else
      let vs := (lower (s.launch lk)).map (·.1)
      (vs.map (fun v => [v]) ++ [vs]).findSome? fun vs => (s.victimsOf vs lk).filter (!·.isEmpty)
  (found.getD []).filter fun ck => (s.cluster ck).stage == .running

def State.leave (s : State) (ck : Nat) : State :=
  let c := s.cluster ck
  if c.stage == .running then s.setCluster ck { c with stage := .leaving } else s

/-- A cluster that leaves for its relaunch (R225). -/
def State.forRelaunch (s : State) (ck : Nat) : Bool := (Cluster.teams s (s.cluster ck)).any fun tk => (s.team tk).dead

/-- A cluster starts to leave its cores, or has drained and is saved (R261, R262). -/
def execPreemption (cluster : Nat) (s : State) : Host.Outcome State Fault Refusal :=
  let c := s.cluster cluster
  match c.stage with
  | .running => .next (if s.victims.contains cluster then s.leave cluster else s)
  | .leaving =>
    if (s.launch c.launch).fatal.isNone && !s.forRelaunch cluster && s.drained (Cluster.teams s c) then .next (s.save cluster)
    else .next s
  | _ => .next s

/-- The clusters of a function on a pair. -/
def State.clustersOn (s : State) (fn pair : Nat) : List Nat :=
  (s.clusters.filter fun p => (s.launch p.2.launch).fn == fn && p.2.onCores && p.2.cores.any (dieOf · / 2 == pair) &&
    !s.clusterOver p.1).map (·.1)

/-- Whether a function has a cluster to run or to place on a pair. -/
def State.wantsPair (s : State) (fn pair : Nat) : Bool :=
  !(s.clustersOn fn pair).isEmpty || s.launchOrder.any fun lk => (s.launch lk).fn == fn

/-- The slice of a function on a shared pair is over: its whole frames are used, or it has nothing to run and another has
(R274). -/
def State.sliceOver (s : State) (pair : Nat) : Bool :=
  let o := s.sliceOf pair
  decide (2 ≤ (s.sharers pair).length) && (decide (250 * (o.2 + (s.fn o.1).tslice) ≤ s.tb.est.toNat) ||
    (!s.wantsPair o.1 pair && (s.sharers pair).any fun f => f != o.1 && s.wantsPair f pair))

/-- The slice passes to the next function in rotation (R274). -/
def execTimeSliceExpiry (pair : Nat) (s : State) : Host.Outcome State Fault Refusal :=
  if !s.sliceOver pair then .next s else
  let o := (s.sliceOf pair).1
  let fs := s.sharers pair
  let after := (fs.filter (o < ·)) ++ (fs.filter (· < o))
  let s := (s.clustersOn o pair).foldl State.leave s
  .next { s with owner := mapInsert s.owner pair (after.headD o, s.frameUp) }

/-- Every group of a team that lacks the token waits on staging: its cluster leaves until the token comes (R266). -/
def execStagingOverflowPreempt (team : Nat) (s : State) : Host.Outcome State Fault Refusal :=
  let l := s.launch (teamLaunch team)
  let ck := s.clusterOf l team
  let gs := s.presentGroups team
  if (s.cluster ck).stage == .running && !gs.isEmpty && !s.holdsToken team && gs.all (fun k => (s.group k).why == .staging) then
    .next (s.setCluster ck { s.cluster ck with stage := .leaving, staged := true })
  else .next s

-- THE RELEASE TOKEN (R265)
/-- A team that has ended, with every record it released performed at its home. -/
def State.teamDone (s : State) (tk : Nat) : Bool := s.teamOver tk && (s.team tk).staging.isEmpty

/-- Whether a team's digest of the second run of checking mode is not that of the first (R269). -/
def State.differs (s : State) (lk t : Nat) : Bool :=
  let l := s.launch lk
  l.second && mapGet [] l.digests t != s.teamDigest (teamKey lk t)

/-- The first team of a second run whose digest differs stops at its end, and its image is asked for with CHECK_FAIL. -/
def State.checkTeam (s : State) (lk t : Nat) : State :=
  if (s.launch lk).differ.isSome || !s.differs lk t then s
  else (((s.updLaunch lk fun l => { l with differ := some t }).stopTeam (teamKey lk t)).askImage (teamKey lk t) trapCheckFail 0)

/-- The token passes to the next team, which begins to release what it has staged (`State.releaseNext`). -/
def execReleaseTokenPass (launch : Nat) (s : State) : Host.Outcome State Fault Refusal :=
  let l := s.launch launch
  if l.det && l.active && l.fatal.isNone && decide (l.token < l.r.teams) && s.teamDone (teamKey launch l.token) then
    .next ((s.checkTeam launch l.token).updLaunch launch fun l => { l with token := l.token + 1 })
  else .next s

-- COMPLETION (R255, R269, R337)
/-- Every cluster of a launch has been placed and has ended, and every record has been released. -/
def State.runOver (s : State) (lk : Nat) : Bool :=
  let l := s.launch lk
  l.active && l.fatal.isNone && !l.indicesLeft && (s.clusters.filter (·.2.launch == lk)).all (fun p => s.clusterOver p.1) &&
  (!l.det || l.token == l.r.teams)

/-- A launch stopped by a fatal trap has drained, and its images have been written (R337, R349). -/
def State.stopOver (s : State) (lk : Nat) : Bool :=
  let l := s.launch lk
  l.active && l.fatal.isSome && l.pending == 0 &&
  (s.clusters.filter (·.2.launch == lk)).all (fun p => p.2.stage != .running && (!p.2.onCores || s.drained (Cluster.teams s p.2))) &&
  !s.images.any (·.launch == lk)

def Launch.reln (l : Launch) : Nat := l.relaunch % 2 ^ 24 + min l.extra 255 * 2 ^ 24

/-- The digest of the first run of checking mode, whose records were released (R268). -/
def Launch.firstDigest (l : Launch) : List Byte :=
  sha256 ((List.range l.r.teams).foldr (fun t a => bytesOf 8 t ++ mapGet [] l.digests t ++ a) [])

/-- The completion of a launch: OK, FAULTED with its trap code, or DIVERGENT where a team of the second run differed, with the digest of
what a DET launch has released (R254; log entry 83); every image is written first. -/
def execLaunchCompletion (launch : Nat) (s : State) : Host.Outcome State Fault Refusal :=
  let l := s.launch launch
  if s.stopOver launch then
    .next (s.complete launch (8 + 256 * l.fatal.getD 0) l.reln (if l.det then s.launchDigest launch else noDigest))
  else if !s.runOver launch || l.pending != 0 then .next s
  else if !l.chk then .next (s.complete launch 0 l.reln (if l.det then s.launchDigest launch else noDigest))
  else if !l.second then .next s
  else match l.differ with
    | none => .next (s.complete launch 0 l.reln (s.launchDigest launch))
    | some _ => .next (s.complete launch 5 l.reln l.firstDigest)

/-- The second run of checking mode begins, with each die's first range rotated by one (R269). -/
def execCheckSecondRun (launch : Nat) (s : State) : Host.Outcome State Fault Refusal :=
  let l := s.launch launch
  if !(l.chk && !l.second && s.runOver launch && l.pending == 0) then .next s else
  let digests := (List.range l.r.teams).map fun t => (t, s.teamDigest (teamKey launch t))
  let rs := ticketRanges ((s.fn l.fn).dies) (l.r.teams / l.size)
  let turned := (rs.drop 1 ++ rs.take 1).map (·.2)
  let s := s.clearRun launch
  .next (s.updLaunch launch fun l =>
    { l with second := true, digests := digests, token := 0, ranges := List.zipWith (fun r t => (r.1, t)) rs turned })

/-- Steps 2 and 3 of R337: the other clusters of a launch with a fatal trap leave, and its staged records are discarded. -/
def execFatalTrapStop (launch : Nat) (s : State) : Host.Outcome State Fault Refusal :=
  let l := s.launch launch
  if !(l.active && l.fatal.isSome) then .next s else
  let s := (s.clusters.filter (·.2.launch == launch)).foldl (fun s p => s.leave p.1) s
  .next ((s.teams.filter fun p => teamLaunch p.1 == launch).foldl (fun s p => s.updTeam p.1 fun t => { t with staging := [] }) s)

/-- A cluster of an idempotent launch with an uncorrectable word is relaunched whole, in fresh windows (R225, R265, R267): it
waits on the resume list once its image is written. -/
def execClusterRelaunch (cluster : Nat) (s : State) : Host.Outcome State Fault Refusal :=
  let c := s.cluster cluster
  let lk := c.launch
  let l := s.launch lk
  if !(c.stage == .leaving && s.forRelaunch cluster && l.active && l.fatal.isNone && l.pending == 0) then .next s else
  let tks := Cluster.teams s c
  let low := c.index * l.size
  let mine := fun (gk : Nat) => tks.contains (gk / 32)
  let s := { s with copies := s.copies.filter (fun x => !mine x.grp)
                    net := s.net.filter fun m => !barrierFor (tks.contains ·) m
                    pendings := s.pendings.filter fun p => !mine p.grp
                    sleepers := s.sleepers.filter fun p => !mine p.grp
                    walks := s.walks.map fun (w : Walk) => { w with joined := w.joined.filter fun p => !mine p.1 } }
  let s := s.freshCluster lk c.index
  let token := if low ≤ l.token ∧ l.token < low + l.size then low else l.token
  let s := s.updLaunch lk fun l =>
    { l with relaunch := l.relaunch + 1, token := token, differ := l.differ.filter fun t => !tks.contains (teamKey lk t)
             rvals := if l.second then l.rvals else l.rvals.filter fun p => !mine p.1 }
  let s := s.setCluster cluster { s.cluster cluster with stage := .saved, since := s.order }
  .next { s with order := s.order + 1 }

-- CONTEXTS (R272, R275)
/-- A write of CTXEN. -/
def execCtxenWrite (fn : Nat) (val : DWord) (s : State) : Host.Outcome State Fault Refusal :=
  if !s.present fn then .next s else
  .next (s.updFn fn fun f => { f with enWant := val.setWidth 16 })

/-- The descriptor of a context, if it keeps the rules of R275 and R365: ROOT, FQB and FQS. -/
def State.descriptor (s : State) (fn c : Nat) : Option (Nat × Nat × Nat) :=
  let base := (s.fn fn).ctxt.toNat
  match (if base % 1024 = 0 then s.devBytes (base + 64 * c) 64 else none) with
  | none => none
  | some d =>
    let root := field d 0 8
    let fqb := field d 8 8
    let fqs := field d 16 1
    if root % 4096 == 0 && fqb % 4096 == 0 && decide (4 ≤ fqs ∧ fqs ≤ 12) && (d.drop 17).all (· == 0) &&
       decide (fqb < 2 ^ 54) && devOk fqb (32 * 2 ^ fqs) then some (root, fqb, fqs)
    else none

/-- A context is enabled, with an empty slot table, empty wait entries and no streams. -/
def State.enableCtx (s : State) (fn c : Nat) : State :=
  let ck := ctxKey fn c
  match s.descriptor fn c with
  | none => s.updFn fn fun f => { f with enWant := f.enWant &&& ~~~ (BitVec.ofNat 16 (2 ^ c)) }
  | some (root, fqb, fqs) =>
    let old := s.ctx ck
    let s := s.setCtx ck { Ctx.none with enabled := true, root := root, fqb := fqb, fqs := fqs, rwbase := old.rwbase,
                                         rwlen := old.rwlen }
    let s := s.updFn fn fun f => { f with ctxen := f.ctxen ||| BitVec.ofNat 16 (2 ^ c) }
    { s with sleepers := s.sleepers.filter fun p => p.key / 2 ^ 64 != ck }

/-- A context is disabled, and its streams are destroyed. -/
def State.disableCtx (s : State) (fn c : Nat) : State :=
  let s := s.updCtx (ctxKey fn c) fun x => { x with enabled := false, streams := [] }
  s.updFn fn fun f => { f with ctxen := f.ctxen &&& ~~~ (BitVec.ofNat 16 (2 ^ c)) }

/-- The contexts whose enable bit may change now: those with no launch that has not completed (R272). -/
def State.changeable (s : State) (fn : Nat) : List Nat :=
  let f := s.fn fn
  (List.range 16).filter fun c => f.ctxen.getLsbD c != f.enWant.getLsbD c &&
    !(s.launches.any fun p => p.2.fn == fn && p.2.ctx == c && p.2.active)

def execContextEnableChange (fn : Nat) (s : State) : Host.Outcome State Fault Refusal :=
  .next ((s.changeable fn).foldl (fun s c => if (s.fn fn).enWant.getLsbD c then s.enableCtx fn c else s.disableCtx fn c) s)

end Sys2Proof.Machine
end

