-- ==== Sys2Proof/Machine/Floating.lean ====
section
/-! DEFINITION. The floating instructions, opcodes 0x40 to 0x4F (R87 to R89): one finish for every result (R26), then one meaning for each instruction. -/

namespace Sys2Proof.Machine

/-- The exact result of a floating operation on three f32 operands in a mode with stochastic bits `u`. -/
abbrev FpFn := Mode → Nat → Fv → Fv → Fv → Exact × Word

/-- The results of a floating operation in the acting lanes: the exact value, scaled, rounded once, clamped (R26, R60). -/
def fpEff (mode : Mode) (op : FpFn) (x : View) : Eff :=
  let rd := fun (n : Nat) => readF32 (BitVec.ofNat 32 n)
  .done (bumpRcnt x mode (writeEach x .f32 fun l =>
    let u := match mode with | .rsr => x.rnd l 0 | _ => 0
    let r := op mode u (rd (readA x l)) (rd (readB x l)) (rd (readC x .f32 l))
    let c := finishFp .f32 mode u x.f.ds x.f.dc r.1
    (c.1, r.2 ||| c.2)))

def fAdd : FpFn := fun mode _ a b _ => fpAdd mode a b
def fSub : FpFn := fun mode _ a b _ => fpSub mode a b
def fMul : FpFn := fun _ _ a b _ => fpMul a b
def fFma : FpFn := fun mode _ a b c => fpFma mode a b c
def fMin : FpFn := fun _ _ a b _ => fpMinMax false a b
def fMax : FpFn := fun _ _ a b _ => fpMinMax true a b
def fDiv : FpFn := fun _ _ a b _ => fpDiv a b
def fSqrt : FpFn := fun _ _ a _ _ => fpSqrt a
def fRcp : FpFn := fun _ _ a _ _ => fpDiv (readF32 0x3F800000#32) a
def fFrac : FpFn := fun _ _ a _ _ => fpFrac a
def fRint : FpFn := fun mode u a _ _ => fpIntegral mode u true a
def fFloor : FpFn := fun _ _ a _ _ => fpIntegral .rdn 0 false a
def fCeil : FpFn := fun _ _ a _ _ => fpIntegral .rup 0 false a
def fTrunc : FpFn := fun _ _ a _ _ => fpIntegral .rtz 0 false a

/-- ldexp reads B as i32, and its IMM20 as a signed integer (R87). -/
def ldexpEff (x : View) : Eff :=
  let mode := roundingOf x.f
  .done (bumpRcnt x mode (writeEach x .f32 fun l =>
    let u := match mode with | .rsr => x.rnd l 0 | _ => 0
    let k := signedNat 32 (readAs x .i32 x.f.b l)
    let r := fpLdexp (readF32 (BitVec.ofNat 32 (readA x l))) k
    let c := finishFp .f32 mode u x.f.ds x.f.dc r.1
    (c.1, r.2 ||| c.2)))

/-- class tests the class bits against B, an integer whose IMM20 is zero-extended (R87, R89). -/
def classEff (x : View) : Eff :=
  .done (writeMaskEach x fun l =>
    let b := if isImm x.f.b then immZero 32 x.f else readAs x .n32 x.f.b l
    (classBits (BitVec.ofNat 32 (readA x l)) &&& b != 0, 0))

-- MEANINGS
def execAddFp (f : Form) (s : State) : Host.Outcome State Fault Refusal := runActing (.addFp f) f (fpEff (roundingOf f) fAdd) s
def execMulFp (f : Form) (s : State) : Host.Outcome State Fault Refusal := runActing (.mulFp f) f (fpEff (roundingOf f) fMul) s
def execSubFp (f : Form) (s : State) : Host.Outcome State Fault Refusal := runActing (.subFp f) f (fpEff (roundingOf f) fSub) s
def execFma (f : Form) (s : State) : Host.Outcome State Fault Refusal := runActing (.fma f) f (fpEff (roundingOf f) fFma) s
def execMinFp (f : Form) (s : State) : Host.Outcome State Fault Refusal := runActing (.minFp f) f (fpEff (roundingOf f) fMin) s
def execMaxFp (f : Form) (s : State) : Host.Outcome State Fault Refusal := runActing (.maxFp f) f (fpEff (roundingOf f) fMax) s
def execDivFp (f : Form) (s : State) : Host.Outcome State Fault Refusal := runActing (.divFp f) f (fpEff (roundingOf f) fDiv) s
def execSqrt (f : Form) (s : State) : Host.Outcome State Fault Refusal := runActing (.sqrt f) f (fpEff (roundingOf f) fSqrt) s
def execRcp (f : Form) (s : State) : Host.Outcome State Fault Refusal := runActing (.rcp f) f (fpEff (roundingOf f) fRcp) s
def execFrac (f : Form) (s : State) : Host.Outcome State Fault Refusal := runActing (.frac f) f (fpEff (roundingOf f) fFrac) s
def execRint (f : Form) (s : State) : Host.Outcome State Fault Refusal := runActing (.rint f) f (fpEff (roundingOf f) fRint) s
def execFloor (f : Form) (s : State) : Host.Outcome State Fault Refusal := runActing (.floor f) f (fpEff .rne fFloor) s
def execCeil (f : Form) (s : State) : Host.Outcome State Fault Refusal := runActing (.ceil f) f (fpEff .rne fCeil) s
def execTrunc (f : Form) (s : State) : Host.Outcome State Fault Refusal := runActing (.trunc f) f (fpEff .rne fTrunc) s
def execLdexp (f : Form) (s : State) : Host.Outcome State Fault Refusal := runActing (.ldexp f) f ldexpEff s
def execClassF (f : Form) (s : State) : Host.Outcome State Fault Refusal := runActing (.classF f) f classEff s

end Sys2Proof.Machine
end

