-- ==== Sys2Proof/Machine/Packed.lean ====
section
/-! DEFINITION. The packed instructions, opcodes 0x50 to 0x56 (R63, R90, R91). -/

namespace Sys2Proof.Machine

/-- A function of the elements of three packed lanes: element number and codes in, code and flags out (R56, R63). -/
def mapElems (w : Nat) (h : Nat → Nat → Nat → Nat → Nat × Word) (a b c : Nat) : Nat × Word :=
  (List.range (32 / w)).foldl (fun r i =>
    let e := h i (bitsAt a (w * i) w) (bitsAt b (w * i) w) (bitsAt c (w * i) w)
    (r.1 + e.1 % 2 ^ w * 2 ^ (w * i), r.2 ||| e.2)) (0, 0)

/-- An integer element's exact value. -/
abbrev PackFn := Int → Int → Int → Int

/-- A packed operation: `op` on floating elements, `iop` on integer elements, wrapped or saturated (R90). -/
def packEff (mode : Mode) (op : FpFn) (iop : PackFn) (x : View) : Eff :=
  let w := x.f.ty.width
  match fmtOf x.f.ty with
  | some fm =>
    .done (bumpRcnt x mode (writeEach x x.f.ty fun l =>
      mapElems w (fun i a b c =>
        let u := match mode with | .rsr => x.rnd l i | _ => 0
        let r := op mode u (fm.read a) (fm.read b) (fm.read c)
        let z := finishFp fm mode u x.f.ds x.f.dc r.1
        (z.1, r.2 ||| z.2)) (readA x l) (readB x l) (readC x x.f.ty l)))
  | none =>
    let sg := x.f.ty.signed
    .done (writeEach x x.f.ty fun l =>
      mapElems w (fun _ a b c =>
        let v := iop (intVal sg w a) (intVal sg w b) (intVal sg w c)
        if x.f.x6.getLsbD 0 then satInt sg w v else narrow w v) (readA x l) (readB x l) (readC x x.f.ty l))

-- pdot (R91)
/-- The sum of a list of exact terms, each a signed magnitude and an exponent; an infinite or invalid product ends it. -/
structure Sum where
  invalid : Bool
  pinf    : Bool
  ninf    : Bool
  terms   : List (Bool × Nat × Int)
  deriving DecidableEq, Repr

def Sum.empty : Sum := { invalid := false, pinf := false, ninf := false, terms := [] }

def Sum.add (t : Sum) (x : Exact) : Sum :=
  match x with
  | .inf neg => if neg then { t with ninf := true } else { t with pinf := true }
  | .fin neg m e _ => { t with terms := (neg, m, e) :: t.terms }
  | _ => { t with invalid := true }

/-- The exact value of a sum of finite terms; an exact zero takes the common sign of zero terms, and otherwise the sign
IEEE 754 gives a zero sum in the mode. -/
def sumExact (mode : Mode) (ts : List (Bool × Nat × Int)) : Exact :=
  let lo := ts.foldl (fun a t => if t.2.2 < a then t.2.2 else a) ((ts.map (·.2.2)).headD 0)
  let v := ts.foldl (fun a t => a + signedMag t.1 (t.2.1 * 2 ^ (t.2.2 - lo).toNat)) (0 : Int)
  let zeros := ts.all fun t => t.2.1 = 0
  let neg := if zeros && ts.all (fun t => t.1) && !ts.isEmpty then true
             else if zeros && ts.all (fun t => !t.1) then false
             else zeroSign mode true false
  ofSigned neg v lo

def Sum.exact (mode : Mode) (t : Sum) : Exact × Word :=
  if t.invalid || (t.pinf && t.ninf) then (.made, flagNV)
  else if t.pinf then (.inf false, 0)
  else if t.ninf then (.inf true, 0)
  else (sumExact mode t.terms, 0)

/-- C + Σ a × b of the elements, exact, with the first NaN of A, then B, then C (R91). -/
def dotExact (mode : Mode) (a b : List Fv) (c : Fv) : Exact × Word :=
  match firstNaN (a ++ b ++ [c]) with
  | some r => (r, sigFlag (a ++ b ++ [c]))
  | none => ((List.zipWith (fun p q => (fpMul p q).1) a b).foldl Sum.add (Sum.empty.add (exactOf c))).exact mode

def elems (w a : Nat) : List Nat := (List.range (32 / w)).map fun i => bitsAt a (w * i) w

/-- DEDUCED (log entry 64): C is an FP32 value whatever the type, its 96-bit immediate too. -/
def pdotEff (x : View) : Eff :=
  let w := x.f.ty.width
  match fmtOf x.f.ty with
  | some fm =>
    let mode := roundingOf x.f
    .done (bumpRcnt x mode (writeEach x .f32 fun l =>
      let u := match mode with | .rsr => x.rnd l 0 | _ => 0
      let r := dotExact mode ((elems w (readA x l)).map fm.read) ((elems w (readB x l)).map fm.read)
        (readF32 (BitVec.ofNat 32 (readC x .f32 l)))
      let z := finishFp .f32 mode u x.f.ds x.f.dc r.1
      (z.1, r.2 ||| z.2)))
  | none =>
    let sg := x.f.ty.signed
    .done (writeEach x .n32 fun l =>
      let ps := List.zipWith (fun p q => intVal sg w p * intVal sg w q) (elems w (readA x l)) (elems w (readB x l))
      narrow 32 (ps.foldl (· + ·) (readC x .i32 l : Int)))

-- MEANINGS
def execPadd (f : Form) (s : State) : Host.Outcome State Fault Refusal := runActing (.padd f) f (packEff (roundingOf f) fAdd (fun a b _ => a + b)) s
def execPsub (f : Form) (s : State) : Host.Outcome State Fault Refusal := runActing (.psub f) f (packEff (roundingOf f) fSub (fun a b _ => a - b)) s
def execPmul (f : Form) (s : State) : Host.Outcome State Fault Refusal := runActing (.pmul f) f (packEff (roundingOf f) fMul (fun a b _ => a * b)) s
def execPfma (f : Form) (s : State) : Host.Outcome State Fault Refusal := runActing (.pfma f) f (packEff (roundingOf f) fFma (fun a b c => a * b + c)) s
def execPmin (f : Form) (s : State) : Host.Outcome State Fault Refusal := runActing (.pmin f) f (packEff (roundingOf f) fMin (fun a b _ => if a ≤ b then a else b)) s
def execPmax (f : Form) (s : State) : Host.Outcome State Fault Refusal := runActing (.pmax f) f (packEff (roundingOf f) fMax (fun a b _ => if b ≤ a then a else b)) s
def execPdot (f : Form) (s : State) : Host.Outcome State Fault Refusal := runActing (.pdot f) f pdotEff s

end Sys2Proof.Machine
end

