-- ==== Sys2Proof/Machine/MaskLane.lean ====
section
/-! DEFINITION. Compares, mask instructions, votes and the cross-lane instructions, opcodes 0x80 to 0x8B (R92 to R98). -/

namespace Sys2Proof.Machine

-- COMPARES (R92)
/-- An order against a condition code 0 to 5. -/
def condHolds (fn : Nat) (o : Ordering) : Bool :=
  if fn = 0 then o == .eq else if fn = 1 then o != .eq else if fn = 2 then o == .lt
  else if fn = 3 then o != .gt else if fn = 4 then o == .gt else o != .lt

/-- An f32 compare, with NV: a NaN compares false except in ne and un. -/
def cmpF32 (fn : Nat) (x y : Fv) : Bool × Word :=
  let isNan := x.isNaN || y.isNaN
  let fl := if 2 ≤ fn ∧ fn ≤ 5 then (if isNan then flagNV else 0) else sigFlag [x, y]
  (if fn = 6 then isNan else if fn = 7 then !isNan else if isNan then fn == 1 else condHolds fn (fpCompare x y), fl)

def cmpEff (x : View) : Eff :=
  let w := x.f.ty.width
  let fn := x.f.fn.toNat
  .done (writeMaskEach x fun l =>
    let a := readA x l
    let b := readB x l
    match x.f.ty with
    | .f32 => cmpF32 fn (readF32 (BitVec.ofNat 32 a)) (readF32 (BitVec.ofNat 32 b))
    | ty => (condHolds fn (compare (intVal ty.signed w a) (intVal ty.signed w b)), 0))

-- MASKS AND VOTES (R93)
def maskEff (op : Mask → Mask → Mask) (x : View) : Eff :=
  .done (writeMask x (op (maskOpnd x.seen x.f.a.op) (maskOpnd x.seen x.f.b.op)))

/-- A mask source over the acting lanes: other bits count as 0. -/
def actingMask (x : View) : Mask := maskOpnd x.seen x.f.a.op &&& x.act

def mpopcEff (x : View) : Eff := .done (writeS x x.f.d (maskCount (actingMask x)))

def mffsEff (x : View) : Eff :=
  .done (writeS x x.f.d (match maskLanes (actingMask x) with | l :: _ => l | [] => allOnes64))

/-- The result of vote in its three forms. -/
def voteResult (x : View) : Nat :=
  let a := actingMask x
  match x.f.fn.toNat with
  | 0 => x.act.toNat * 2 ^ 32 + a.toNat
  | 1 =>
    let q := if isImm x.f.b then immInteger 32 x.f else uniform32 x x.f.b
    if (if q = 0 then maskCount x.act else q) ≤ maskCount a then 1 else 0
  | _ =>
    if a = x.act then 3 else if a = 0 then 1 else 0

def voteEff (x : View) : Eff :=
  match x.f.d with
  | .s _ => .done (writeS x x.f.d (voteResult x))
  | _ => .done (writeMask x (if voteResult x % 2 = 1 then x.act else 0))

-- SHUFFLES (R94 to R96)
/-- POISON of a type of 32 or 64 bits (R64). -/
def poisonNat : Nat := 0x7FF00BAD

/-- Whether a lane of the group that the sources read is on the issuing path as R94 has it. -/
def View.onPath (x : View) (k : Nat) : Bool := x.seen.atPc x.pc k

/-- What lane k supplies: its value when it is on the issuing path, and POISON otherwise (R94). -/
def supply (x : View) (src : Src) (k : Nat) : Nat :=
  if x.onPath k then readAs x x.f.ty src k else poisonNat

/-- The source lane of shfl for an offset, or none when the lane takes the fill value (R95). -/
def shflLane (mode l k : Nat) (ks : Int) : Option Nat :=
  match mode with
  | 0 => some (k % 32)
  | 1 => some ((l + k) % 32)
  | 2 => let t := (l : Int) + ks
         if t < 0 ∨ 32 ≤ t then none else some t.toNat
  | _ => some ((l ^^^ (k % 32)) % 32)

/-- shfl: .rel scales k by %width ÷ 32, which is 1 on this part. -/
def shflEff (x : View) : Eff :=
  .done (writeEach x x.f.ty fun l =>
    let k := readAs x .n32 x.f.b l
    (match shflLane (x.f.fn.toNat % 4) l k (signedNat 32 k) with
     | some i => supply x x.f.a i
     | none => readC x x.f.ty l, 0))

def bcastEff (x : View) : Eff :=
  let i := uniform32 x x.f.b % 32
  let v := supply x x.f.a i
  match x.f.d with
  | .s n => if x.act = 0 then .done x.s else .done (x.put (x.g1.setS n.toNat (sExtend x.f.ty v)))
  | _ => .done (writeEach x x.f.ty fun _ => (v, 0))

-- REDUCTIONS AND SCANS (R97, R98)
/-- The segment size that X6[5:3] names. -/
def segSize (f : Form) : Nat := if bitsAt f.x6.toNat 3 3 = 0 then 32 else 2 ^ bitsAt f.x6.toNat 3 3

/-- The identity of an operation for a lane that is not acting. -/
def identity (ty : Ty) (op : Nat) : Nat :=
  match ty with
  | .f32 => if op = 0 then 0x80000000 else if op = 1 then 0x7F800000 else 0xFF800000
  | _ =>
    let w := ty.width
    match op with
    | 0 => 0
    | 1 => wrapInt w (intMax ty.signed w)
    | 2 => wrapInt w (intMin ty.signed w)
    | 3 => 2 ^ w - 1
    | _ => 0

/-- One step: the lower lane is the left operand; `u` serves rsr. -/
def redStep (ty : Ty) (op : Nat) (mode : Mode) (u a b : Nat) : Nat × Word :=
  match ty with
  | .f32 =>
    let p := readF32 (BitVec.ofNat 32 a)
    let q := readF32 (BitVec.ofNat 32 b)
    let r := if op = 0 then fpAdd mode p q else fpMinMax (decide (op = 2)) p q
    let z := roundTo .f32 mode u r.1
    (z.1, r.2 ||| z.2)
  | _ =>
    let w := ty.width
    match op with
    | 0 => iAdd w ty.signed a b 0
    | 1 => iMin w ty.signed a b 0
    | 2 => iMax w ty.signed a b 0
    | 3 => iAnd w ty.signed a b 0
    | 4 => iOr w ty.signed a b 0
    | _ => iXor w ty.signed a b 0

/-- Stochastic bits of a lane, only under rsr. -/
def View.rndFor (x : View) (mode : Mode) (l : Nat) : Nat := match mode with | .rsr => x.rnd l 0 | _ => 0

/-- The source values of the lanes, or the identity. -/
def redStart (x : View) (op : Nat) : List (Nat × Word) :=
  lanes.map fun l => (if maskBit x.act l then readA x l else identity x.f.ty op, 0)

/-- Step k of the reduction tree, with the flags of every step in the lane that keeps its result. -/
def redTree (x : View) (op : Nat) (mode : Mode) (size k : Nat) (t : List (Nat × Word)) : List (Nat × Word) :=
  t.mapIdx fun i v =>
    if (i % size) % 2 ^ (k + 1) = 0 then
      let w := t.getD (i + 2 ^ k) (0, 0)
      let r := redStep x.f.ty op mode (x.rndFor mode i) v.1 w.1
      (r.1, v.2 ||| w.2 ||| r.2)
    else v

/-- Step k of the scan. -/
def scanTree (x : View) (op : Nat) (mode : Mode) (size k : Nat) (t : List (Nat × Word)) : List (Nat × Word) :=
  t.mapIdx fun i v =>
    if 2 ^ k ≤ i % size then
      let r := redStep x.f.ty op mode (x.rndFor mode i) (t.getD (i - 2 ^ k) (0, 0)).1 v.1
      (r.1, v.2 ||| r.2)
    else v

/-- The scale and clamp of a written value, after the tree (R97). -/
def redFinish (x : View) (mode : Mode) (l v : Nat) : Nat × Word :=
  match x.f.ty with
  | .f32 =>
    let r := if x.f.ds = 0 then (v, 0)
             else
               let p := readF32 (BitVec.ofNat 32 v)
               let z := roundTo .f32 mode (x.rndFor mode l) (scaleExact (dsPower x.f.ds) (exactOf p))
               (z.1, sigFlag [p] ||| z.2)
    (if x.f.dc then clampCode .f32 r.1 else r.1, r.2)
  | _ => (v, 0)

/-- The rounding mode, for f32 only. -/
def redMode (f : Form) : Mode := match f.ty with | .f32 => roundingOf f | _ => .rne

def lredEff (x : View) : Eff :=
  let op := x.f.fn.toNat
  let mode := redMode x.f
  let size := segSize x.f
  let t := (List.range size.log2).foldl (fun t k => redTree x op mode size k t) (redStart x op)
  let outs := t.mapIdx fun i v => if i % size = 0 then (let r := redFinish x mode i v.1; (r.1, v.2 ||| r.2)) else v
  .done (bumpRcnt x mode (writeEach x x.f.ty fun l => outs.getD (l - l % size) (0, 0)))

def lscanEff (x : View) : Eff :=
  let op := x.f.fn.toNat % 8
  let mode := redMode x.f
  let size := segSize x.f
  let t := (List.range size.log2).foldl (fun t k => scanTree x op mode size k t) (redStart x op)
  .done (bumpRcnt x mode (writeEach x x.f.ty fun l =>
    let own := t.getD l (0, 0)
    let v := if x.f.fn.getLsbD 3 then (if l % size = 0 then identity x.f.ty op else (t.getD (l - 1) (0, 0)).1) else own.1
    let r := redFinish x mode l v
    (r.1, own.2 ||| r.2)))

-- MEANINGS
def execCmp (f : Form) (s : State) : Host.Outcome State Fault Refusal := runActing (.cmp f) f cmpEff s
def execMand (f : Form) (s : State) : Host.Outcome State Fault Refusal := runActing (.mand f) f (maskEff fun a b => a &&& b) s
def execMor (f : Form) (s : State) : Host.Outcome State Fault Refusal := runActing (.mor f) f (maskEff fun a b => a ||| b) s
def execMxor (f : Form) (s : State) : Host.Outcome State Fault Refusal := runActing (.mxor f) f (maskEff fun a b => a ^^^ b) s
def execMnot (f : Form) (s : State) : Host.Outcome State Fault Refusal := runActing (.mnot f) f (maskEff fun a _ => ~~~ a) s
def execMpopc (f : Form) (s : State) : Host.Outcome State Fault Refusal := runActing (.mpopc f) f mpopcEff s
def execMffs (f : Form) (s : State) : Host.Outcome State Fault Refusal := runActing (.mffs f) f mffsEff s
def execVote (f : Form) (s : State) : Host.Outcome State Fault Refusal := runActing (.vote f) f voteEff s
def execShfl (f : Form) (s : State) : Host.Outcome State Fault Refusal := runActing (.shfl f) f shflEff s
def execBcast (f : Form) (s : State) : Host.Outcome State Fault Refusal := runActing (.bcast f) f bcastEff s
def execLred (f : Form) (s : State) : Host.Outcome State Fault Refusal := runActing (.lred f) f lredEff s
def execLscan (f : Form) (s : State) : Host.Outcome State Fault Refusal := runActing (.lscan f) f lscanEff s

end Sys2Proof.Machine
end

