-- ==== Sys2Proof/Machine/Faults.lean ====
section
/-! DEFINITION. Fault records (R275, R277, R278): room in a context's ring and the write of a record. -/

namespace Sys2Proof.Machine

/-- The place in its ring that a context's next record takes. -/
def State.faultSlot (s : State) (ck : Nat) : Nat := (s.ctx ck).written % 2 ^ (s.ctx ck).fqs

/-- Whether a context's fault ring takes another record: the one at its place has been resumed (log entry 15). -/
def State.faultRoom (s : State) (ck : Nat) : Bool := !(s.ctx ck).open_.any (·.2 == s.faultSlot ck)

/-- The fault identifiers of a function that are not yet resumed. -/
def State.openFids (s : State) (fn : Nat) : List Nat :=
  ((List.range 16).map fun c => (s.ctx (ctxKey fn c)).open_.map (·.1)).flatten

/-- The identifier the next record of a context takes: 32 bits, and none that its function has not yet resumed. -/
def State.nextFid (s : State) (ck : Nat) : Nat :=
  let n := (s.fn (ck / 16)).nextFid
  let used := s.openFids (ck / 16)
  (((List.range (used.length + 1)).map fun i => (n + i) % 2 ^ 32).find? fun k => !used.contains k).getD n

/-- One record of 32 bytes (R278), written at the next place of the ring. -/
def State.faultRecordOf (s : State) (ck va kind level core team count : Nat) : State :=
  let c := s.ctx ck
  let fid := s.nextFid ck
  let a := c.fqb + 32 * s.faultSlot ck
  let bytes := bytesOf 8 va ++ bytesOf 4 fid ++ bytesOf 1 kind ++ bytesOf 1 level ++ bytesOf 2 core ++
    bytesOf 4 team ++ bytesOf 4 count ++ bytesOf 8 s.tb.est.toNat
  let slot := s.faultSlot ck
  let s := s.setMemBytes a bytes
  let s := s.setCtx ck { c with written := c.written + 1, open_ := c.open_ ++ [(fid, slot)] }
  s.updFn (ck / 16) fun f => { f with nextFid := (fid + 1) % 2 ^ 32 }

/-- A record for a group. -/
def State.faultRecord (s : State) (ck va kind level gk count : Nat) : State :=
  s.faultRecordOf ck va kind level (s.groupCore (s.group gk)) (teamIndex (s.group gk).team) count

/-- Lanes of a group suspended on a record, with the trace record of the replayable trap (R335, R346). -/
def State.suspend (s : State) (gk : Nat) (m : Mask) (fid : Nat) : State :=
  let g := s.group gk
  let pc := ((maskLanes m).head?.map fun l => (g.lane l).pc).getD 0
  let s := s.trace gk 3 (trapPageFault * 2 ^ 56 + s.imageOff gk pc)
  s.updGroup gk fun g => g.updLanes (m &&& g.live) fun y =>
    { y with cond := match y.cond with | .suspended fs => .suspended (fs ++ [fid]) | _ => .suspended [fid] }

end Sys2Proof.Machine
end

