-- ==== Sys2Proof/Machine/System.lean ====
section
/-! DEFINITION. Traps by instruction, marks, the group's system registers and the flag word, opcodes 0xF0 to 0xF6 (R188 to R193). -/

namespace Sys2Proof.Machine

/-- trap: USER after completion, with the operand as its detail (R190). -/
def trapEff (x : View) : Eff :=
  .after x.s trapUser (BitVec.ofNat 64 (if isImm x.f.a then immInteger 64 x.f else uniform64 x x.f.a))

/-- tret (R189): ILLEGAL_OP unless the frame is active and holds every lane of the path. -/
def tretEff (x : View) : Eff :=
  let path := x.path &&& x.g.live
  if !x.g.frame || path &&& ~~~x.g.tmask != 0 then .trap trapIllegal (headWord x.i x.f) 0
  else .jump (x.s.trapReturn x.gk path) true

/-- A debug stop (R190, R261, R278): a record of kind 5, and the cluster leaves as for pre-emption. -/
def debugStop (x : View) : Eff :=
  let l := x.s0.launchOf x.g
  let ck := l.ctxKey
  if !x.s0.faultRoom ck then .wait x.s0 .walk else
  let fid := x.s0.nextFid ck
  let s := x.s.faultRecord ck 0 5 0 x.gk 1
  let c := s.clusterOf l x.g.team
  let s := s.setCluster c { s.cluster c with stage := .leaving, halted := some (fid, x.g.team) }
  .jump (s.updGroup x.gk fun g => { g with tresume := x.pc }) true

/-- brk (R190). -/
def brkEff (x : View) : Eff :=
  if (x.s0.fn (x.s0.launchOf x.g).fn).dbg then debugStop x else .trap trapBreak 0 0

/-- mark (R191, R346). -/
def markEff (x : View) : Eff :=
  let v := if isImm x.f.a then immZero 32 x.f else uniform32 x x.f.a
  .done (x.s.trace x.gk 4 (x.s.imageOff x.gk x.pc * 2 ^ 32 + v))

/-- The system registers of R192. -/
def sysReg (s : State) (g : Group) (n : Nat) : Nat :=
  match n with
  | 0 => g.tcode
  | 1 => g.tresume.toNat
  | 2 => g.tmask.toNat
  | 3 => g.targ.toNat
  | 4 => g.tlane
  | 5 => g.rcnt
  | 6 => g.sfcnt
  | 7 => (s.launchOf g).r.lsz
  | 8 => s.tb.epslim
  | _ => s.tb.dlvb

def sysrEff (x : View) : Eff := .done (writeS x x.f.d (sysReg x.s0 x.seen x.f.x6.toNat))

/-- sysw: TRESUME alone, while the frame is active. -/
def syswEff (x : View) : Eff :=
  if !x.g.frame then .trap trapIllegal (headWord x.i x.f) 0
  else
    let v := if isImm x.f.a then immInteger 64 x.f else uniform64 x x.f.a
    .done (x.put { x.g1 with tresume := BitVec.ofNat 64 v })

/-- An atomic whose f32 flags have not reached the flag word (R80, R144, R193). -/
def Group.flagsDue (g : Group) : Bool :=
  g.stores.any fun e => match e.op with | .rmw _ .f32 _ _ _ (some _) _ => true | _ => false

/-- The bits a flag.clr or flag.rc clears in a lane: A's low 8 bits, or X6 (R193). -/
def clearBits (x : View) (l : Nat) : Word :=
  if isImm x.f.a then BitVec.ofNat 32 x.f.x6.toNat else BitVec.ofNat 32 (readAs x .n32 x.f.a l) &&& flagBits

/-- flag.rd, flag.clr and flag.rc. -/
def flagEff (x : View) : Eff :=
  if x.g.flagsDue then .wait x.s0 .result else
  let word := fun (l : Nat) => (x.g.lane l).flags
  let g := match x.f.fn.toNat, x.f.d with
    | 1, _ => x.g1
    | _, .s n => x.g1.setS n.toNat (((maskLanes x.act).foldl (fun a l => a ||| word l) (0 : Word)).setWidth 64)
    | _, d => (maskLanes x.act).foldl (fun g l => putLane .n32 d l (word l).toNat g) x.g1
  let g := if x.f.fn = 0 then g
           else (maskLanes x.act).foldl (fun g l => g.updLane l fun y => { y with flags := y.flags &&& ~~~clearBits x l }) g
  .done (x.put g)

-- MEANINGS
def execTrap (f : Form) (s : State) : Host.Outcome State Fault Refusal := runActing (.trap f) f trapEff s
def execTret (f : Form) (s : State) : Host.Outcome State Fault Refusal := runForm (.tret f) f tretEff s
def execBrk (f : Form) (s : State) : Host.Outcome State Fault Refusal := runActing (.brk f) f brkEff s
def execMark (f : Form) (s : State) : Host.Outcome State Fault Refusal := runActing (.mark f) f markEff s
def execSysr (f : Form) (s : State) : Host.Outcome State Fault Refusal := runActing (.sysr f) f sysrEff s
def execSysw (f : Form) (s : State) : Host.Outcome State Fault Refusal := runActing (.sysw f) f syswEff s
def execFlag (f : Form) (s : State) : Host.Outcome State Fault Refusal := runActing (.flag f) f flagEff s

end Sys2Proof.Machine
end

