-- ==== Sys2Proof/Machine/EvSteward.lean ====
section
/-! DEFINITION. Bay stewards and core images (R11, R337, R342 to R344, R347 to R349): what an image holds, the mailbox messages, the stop and release of cores, and what a steward reads at its addresses. -/

namespace Sys2Proof.Machine

-- THE BODY OF AN IMAGE (R344)
/-- The condition of a lane as an image shows it; a lane held in a commit wait shows 3. -/
def condCode (g : Group) (x : Lane) : Nat :=
  match x.cond with
  | .join _ => 1
  | .barrier .. => 2
  | .asleep _ => 3
  | .waitv .. => 3
  | .voting => if g.hold.isSome then 3 else 0
  | _ => 0

/-- Remaining cycles of a lane's sleep, waitv or watchdog, of a barrier or of a full/empty stall of its path; the stamp of a commit
wait. -/
def remaining (now : Nat) (g : Group) (l : Nat) : Nat :=
  match (g.lane l).cond with
  | .asleep u => u - now
  | .waitv _ u => u - now
  | .barrier _ _ _ _ u => u - now
  | .voting =>
    match g.hold, g.stall with
    | some s, _ => if g.frame then 0 else s.toNat
    | none, some c => if maskBit g.first.lanes l then c + 1 - now else 0
    | none, none => 0
  | _ => 0

/-- The place of a standing in the order of demotions, from 1; 0 for none (R112, R124). -/
def Group.place (g : Group) (standing : Nat) : Nat :=
  (((Machine.lanes.map fun l => (g.lane l).standing).eraseDups).filter fun k => k != 0 && decide (k ≤ standing)).length

def laneWord (g : Group) (x : Lane) : Nat :=
  condCode g x + x.stack.length % 64 * 4 + g.place x.standing * 256 + (if x.cond = .ended then 2 ^ 16 else 0)

/-- The group as an image shows it: an unretired destination reads POISON (R108), and TARG the stamp of a commit wait while a frame is
active. -/
def Group.shown (g : Group) : Group :=
  let g := g.tokens.foldl (fun g t => match t.dst with
    | .v r => (maskLanes t.lanes).foldl (fun g l => g.setV r.toNat l poison) g
    | .s r => g.setS r.toNat (BitVec.ofNat 64 poisonNat)
    | _ => g) g
  match g.hold with
  | some s => if g.frame then { g with targ := s } else g
  | .none => g

def each (n : Nat) (f : Nat → List Byte) : List Byte := (List.range n).foldr (fun i a => f i ++ a) []

/-- One of the sixteen token entries. -/
def tokenBytes (g : Group) (n : Nat) : List Byte :=
  match g.tokens.find? (·.num == n) with
  | none => bytesOf 8 0
  | some t => bytesOf 4 t.lanes.toNat ++ bytesOf 1 t.dst.code ++ bytesOf 1 t.fn ++ bytesOf 1 1 ++ bytesOf 1 0

/-- A group record: 9,728 + 128 V bytes. -/
def State.groupRecord (s : State) (gk : Nat) : List Byte :=
  let g := (s.group gk).shown
  let v := (s.launchOf g).r.vregs
  let now := s.groupCyc g
  let counts := ((s.counts gk).mapIdx fun i n => if n = 0 then 0 else 2 ^ (i + 1)).foldl (· + ·) 0
  bytesOf 1 g.slot ++ bytesOf 1 g.grp ++ bytesOf 1 (v / 8) ++ bytesOf 1 g.binding ++ bytesOf 4 ((if g.frame then 1 else 0) + counts) ++
  each 7 (fun i => bytesOf 8 (sysReg s g i)) ++ each 32 (fun l => bytesOf 8 (g.lane l).pc.toNat) ++
  each 32 (fun l => bytesOf 4 (laneWord g (g.lane l))) ++ each 32 (fun l => bytesOf 4 (g.lane l).flags.toNat) ++
  each 8 (fun i => bytesOf 4 (g.mreg i).toNat) ++ each 8 (fun i => bytesOf 4 (g.jreg i).toNat) ++
  each 32 (fun l => bytesOf 8 (remaining now g l)) ++ each 16 (tokenBytes g) ++ each 64 (fun i => bytesOf 8 (g.sreg i).toNat) ++
  each 32 (fun l => each 32 fun k => bytesOf 8 ((((g.lane l).stack.reverse).getD k 0).toNat)) ++
  each v (fun r => each 32 fun l => bytesOf 4 (g.vreg r l).toNat)

/-- A section with its header: type, length, item count (log entry 22). -/
def section_ (ty items : Nat) (bs : List Byte) : List Byte := bytesOf 4 ty ++ bytesOf 4 bs.length ++ bytesOf 4 items ++ bytesOf 4 0 ++ bs

/-- A bitmap of the lines of a window, padded to 16 bytes. -/
def lineMap (lines : Nat) (f : Nat → Bool) : List Byte :=
  let n := roundUp (lines / 8) 16
  each n fun i => [BitVec.ofNat 8 (((List.range 8).filter fun b => 8 * i + b < lines && f (8 * i + b)).foldl (fun a b => a + 2 ^ b) 0)]

def State.tilesSection (s : State) (tk : Nat) : List Byte :=
  let t := s.team tk
  section_ 2 16 (each 16 (fun a => bytesOf 4 (mapGet 0 t.issued a)) ++
    ((s.teamGroups tk).foldr (fun k r => each 16 (fun a => bytesOf 4 (mapGet 0 (s.group k).acks a)) ++ r) []) ++
    each (16 * 4096) fun i => bytesOf 4 (mapGet 0 t.tiles i).toNat)

/-- One of the sixteen barrier entries. -/
def barEntry (r : Option BarRec) : List Byte :=
  match r with
  | none => List.replicate 144 0
  | some r => bytesOf 4 r.off ++ bytesOf 4 (if r.cw then 1 else 0) ++ bytesOf 4 r.phase.toNat ++ bytesOf 4 0 ++
      each 32 fun i => bytesOf 4 (mapGet 0 r.masks i).toNat

/-- The sections of a team's image, in their order. -/
def State.imageSections (s : State) (tk : Nat) : List (List Byte) :=
  let t := s.team tk
  let l := s.launch (teamLaunch tk)
  let c := s.core t.core
  let recs := t.recs.filter fun r => (s.barRec tk r.cw r.team r.off).isSome
  let ring := each 512 fun i => bytesOf 8 (c.slotRecord i).1 ++ bytesOf 8 (c.slotRecord i).2
  [section_ 1 l.r.groups ((s.teamGroups tk).foldr (fun k a => s.groupRecord k ++ a) [])] ++
  (if l.usesTile then [s.tilesSection tk] else []) ++
  [section_ 3 1 (each l.r.lsz (fun o => [if t.bad.contains (o / 4) then 0 else t.byte o]) ++ lineMap (l.r.lsz / 128) (fun i => !t.isEmpty i) ++
     lineMap (l.r.lsz / 128) fun i => (t.bline i).isSome),
   section_ 4 16 (each 16 fun i => barEntry recs[i]?),
   section_ 5 c.all.length (bytesOf 4 (c.head % 512) ++ bytesOf 4 c.all.length ++ bytesOf 8 0 ++ ring),
   section_ 6 t.staging.length (bytesOf 4 t.staging.length ++ bytesOf 4 (t.staging.foldl (fun a r => a + r.size) 0) ++ bytesOf 8 0 ++
     (s.teamGroups tk).foldr (fun k a => bytesOf 8 (s.group k).used ++ a) [])]

-- THE IMAGE (R342, R343)
/-- Slots and bytes of a slot of a function's image ring. -/
def Fn.dumpSlots (f : Fn) : Nat := bitsAt f.dumpc.toNat 32 8
def Fn.dumpSize (f : Fn) : Nat := f.dumpc.toNat % 2 ^ 32
def Fn.dumps (f : Fn) : Bool := f.dumpb != 0 && f.dumpSlots != 0 && f.dumpSize != 0

/-- As many whole sections as fit. -/
def fitSections (room : Nat) : List (List Byte) → List (List Byte)
  | [] => []
  | b :: bs => if b.length ≤ room then b :: fitSections (room - b.length) bs else []

/-- The key number of the image key (R343), and of the firmware key (R358). -/
def imageKey : Nat := 1
def firmwareKey : Nat := 0

/-- The envelope of an image, of a size, with flags. -/
def State.envelope (s : State) (q : ImageReq) (nonce : List Byte) (size flags : Nat) : List Byte :=
  let l := s.launch q.launch
  bytesOf 4 0x49435844 ++ bytesOf 2 1 ++ bytesOf 1 q.code ++ bytesOf 1 q.code2 ++ bytesOf 8 s.tb.latest ++ bytesOf 2 s.pkg ++
  bytesOf 2 q.core ++ bytesOf 1 l.fn ++ bytesOf 1 l.ctx ++ bytesOf 2 0 ++ bytesOf 4 q.team ++ bytesOf 4 size ++ nonce ++
  bytesOf 4 flags ++ List.replicate 16 0

/-- The bytes of an image whose body has some parts, and its envelope. -/
def State.imageBytes (s : State) (q : ImageReq) (parts : List (List Byte)) : List Byte × List Byte :=
  let f := s.fn (s.launch q.launch).fn
  let nonce := bytesOf 2 s.pkg ++ bytesOf 2 0 ++ bytesOf 8 q.num
  let room := f.dumpSize - 144
  match f.dumpKey with
  | none =>
    let env := s.envelope q nonce 128 1
    (env ++ signWith imageKey (sha256 env), env)
  | some key =>
    let kept := fitSections room parts
    let body := kept.flatten
    let env := s.envelope q nonce (144 + body.length) (if kept.length < parts.length then 2 else 0)
    let c := gcmCrypt key nonce body
    let tag := gcmTag key nonce env c
    (env ++ c ++ tag ++ signWith imageKey (sha256 (env ++ c ++ tag)), env)

/-- The address of an image's slot (R342). -/
def Fn.slotAt (f : Fn) (n : Nat) : Nat := f.dumpb.toNat + n % max f.dumpSlots 1 * f.dumpSize

/-- The image of a request is written to its slot (R342); where images are disabled only its envelope is made. -/
def State.writeImage (s : State) (q : ImageReq) (parts : List (List Byte)) : State × Bool × List Byte :=
  let f := s.fn (s.launch q.launch).fn
  let im := s.imageBytes q parts
  if !f.dumps then (s, false, im.2) else ((s.setDevBytes (f.slotAt q.slot) im.1).getD s, true, im.2)

/-- The images of a function that bays have been asked for and have not reported. -/
def State.imagesAhead (s : State) (fn : Nat) : List ImageReq :=
  s.bays.filterMap fun p => p.2.job.bind fun q => if (s.launch q.launch).fn = fn then some q else none

-- MAILBOX MESSAGES (R348, R349)
/-- A message of 64 bytes. -/
def message (op bay seq : Nat) (payload : List Byte) : List Byte :=
  bytesOf 2 op ++ bytesOf 2 bay ++ bytesOf 4 seq ++ (payload ++ List.replicate 56 0).take 56

/-- A bay's message for the bench, in its sequence: it waits while an earlier one stands in the outbound slot. -/
def Bay.send (b : Bay) (op bay : Nat) (payload : List Byte) : Bay :=
  let m := message op bay b.sent payload
  let b := { b with sent := b.sent + 1 }
  if b.ready then { b with queued := b.queued ++ [m] } else { b with outbox := m, ready := true }

/-- The bench has read the message in the outbound slot, which takes the next. -/
def Bay.taken (b : Bay) : Bay :=
  match b.queued with
  | [] => { b with ready := false }
  | m :: ms => { b with outbox := m, queued := ms }

/-- The bench asks a bay steward for an image; one message at a time. The image takes the next slot and the next count of its
function's image counter (R342, R343). -/
def execImageReq (bay : Nat) (req : ImageReq) (s : State) : Host.Outcome State Fault Refusal :=
  let b := s.bay bay
  if b.inbox.isSome || b.job.isSome then .next s else
  let fn := (s.launch req.launch).fn
  let f := s.fn fn
  let slot := f.dumph.toNat + (s.imagesAhead fn).length
  let payload := bytesOf 2 req.core ++ bytesOf 4 req.team ++ bytesOf 1 req.code ++ bytesOf 1 req.code2 ++
    bytesOf 8 (f.slotAt slot) ++ bytesOf 2 s.pkg ++ bytesOf 2 0 ++ bytesOf 8 f.images
  let s := s.setBay bay { b with inbox := some (message 1 bay b.seq payload), seq := b.seq + 1
                                 job := some { req with slot := slot, num := f.images }, done := none }
  .next { s.updFn fn (fun f => { f with images := f.images + 1 }) with images := s.images.erase req }

/-- The security block encrypts and signs the body that a steward streams to it (R343): the image of the request is written. -/
def State.sealBody (s : State) (bay : Nat) (parts : Nat → List (List Byte)) : State :=
  match (s.bay bay).job with
  | none => s
  | some q =>
    if (s.bay bay).done.isSome then s else
    let r := s.writeImage q (parts (teamKey q.launch q.team))
    r.1.updBay bay fun b => { b with done := some r.2 }

/-- A steward reads a team's whole window for its image: an armed word in it is found (R225, R350). -/
def State.readWindow (s : State) (tk : Nat) : State :=
  let off := 4 * s.inject.off
  if off < (s.launch (teamLaunch tk)).r.lsz && (s.badRead [.vault tk off]).isSome then s.findsAlone tk off else s

/-- The bay reports an image written: DUMPH counts it, its envelope is logged, and the launch waits for one image less. -/
def execImageDone (bay : Nat) (launch : Nat) (size : Nat) (flags : Nat) (s : State) : Host.Outcome State Fault Refusal :=
  match (s.bay bay).job, (s.bay bay).done with
  | some q, some (written, env) =>
    -- the count that DUMPH holds names only images in the ring
    if q.launch != launch || (written && (s.imagesAhead (s.launch launch).fn).any (·.num < q.num)) then .next s else
    let s := s.updBay bay fun b =>
      { b with job := none, done := none, inbox := none }.send 2 bay (bytesOf 4 size ++ bytesOf 4 flags)
    let s := if written then s.updFn (s.launch launch).fn fun f => { f with dumph := f.dumph + 1 } else s
    let s := s.updLaunch launch fun l => { l with pending := l.pending - 1 }
    let d := s.draw
    .next (d.2.logErr 8 bay d.1 env)
  | _, _ => .next s

/-- A doorbell write: 1, the outbound message is ready; 2, the inbound message is consumed. -/
def State.ringBell (s : State) (bay : Nat) (val : BitVec 2) : State :=
  s.updBay bay fun b => { b with ready := b.ready || val.getLsbD 0, inbox := if val.getLsbD 1 then none else b.inbox }

def execSmbx (bay : Nat) (val : BitVec 2) (s : State) : Host.Outcome State Fault Refusal := .next (s.ringBell bay val)

/-- What a bay's ERR message says, in the outbound slot and in the log (R347, R349). -/
def State.report (s : State) (bay kind unit_ : Nat) (detail : DWord) : State :=
  (s.updBay bay (·.send 3 bay (bytesOf 4 kind ++ bytesOf 4 unit_ ++ bytesOf 8 detail.toNat))).logErr kind unit_ detail []

/-- The team that holds a byte of a core's vault, in its window or its staging region (R213). -/
def State.vaultHolder (s : State) (core v : Nat) : Option Nat :=
  (s.resident [] core).find? fun tk =>
    let t := s.team tk
    let l := s.launch (teamLaunch tk)
    decide (t.base ≤ v ∧ v < t.base + l.r.lsz) || (l.det && decide (t.sbase ≤ v ∧ v < t.sbase + 2 ^ 17))

/-- An uncorrectable word that VAULTUE reports (R225, R339), by the model's layout of its detail (log entry 73): bay core in [3:0];
[5:4] 0 a vault word at the offset in [63:32], 1 a register word, or the fourth parity failure of an entry, of the group in the
slot in [13:8], with the word's index in [63:32], 2 a word of the tiles. A vault word that no team holds reads as zero. -/
def State.wordError (s : State) (bay d : Nat) : State :=
  let core := bayCore bay (d % 16)
  match bitsAt d 4 2 with
  | 0 =>
    match s.vaultHolder core (d / 2 ^ 32) with
    | some tk =>
      let v := d / 2 ^ 32
      let s := s.traceTeam tk trapLsUncorr
      (s.updTeam tk fun t => if t.base ≤ v then { t with bad := t.bad ++ [(v - t.base) / 4] } else t).wordFails tk trapLsUncorr 0
    | none => s.updCore core fun c => { c with vault := (List.range 4).foldl (fun m i => mapSet 0 m (d / 2 ^ 34 * 4 + i) 0) c.vault }
  | 1 =>
    match ((s.resident [] core).map s.presentGroups).flatten.find? fun k => (s.group k).slot == bitsAt d 8 6 with
    | some k => ((s.traceAt k trapRegUncorr).setDetail k (BitVec.ofNat 64 (d / 2 ^ 32)) 0).wordFails (s.group k).team trapRegUncorr (s.group k).code2
    | none => s
  | 2 =>
    match (s.resident [] core).find? fun tk => (s.launch (teamLaunch tk)).usesTile with
    | some tk => (s.traceTeam tk trapRegUncorr).wordFails tk trapRegUncorr 0
    | none => s
  | _ => s

/-- A record of a trace ring fails parity: it is dropped, the later ones move up, and it is counted (R339). -/
def Core.dropRecord (c : Core) (i : Nat) : Core :=
  if c.ring.length ≤ i then c
  else { c with ring := c.ring.eraseIdx i, head := c.head - 1, all := c.all.eraseIdx (c.all.length - c.ring.length + i), lost := min (c.lost + 1) (2 ^ 32 - 1) }

/-- Ticks of an hour. -/
def hour : Nat := 3600 * 250000000

/-- A bay corrects a vault word: 256 in one hour raise VAULTCE (R224, R347). -/
def State.corrected (s : State) (bay : Nat) : State :=
  let now := s.tb.est.toNat
  let ces := ((s.bay bay).ces.filter fun t => now < t + hour) ++ [now]
  if ces.length < 256 then s.updBay bay fun b => { b with ces := ces }
  else (s.updBay bay fun b => { b with ces := [] }).report bay 5 bay 256

/-- A stack corrects a beat: it is counted, and 256 raise HBMCE (R340, R347). -/
def State.correctedBeat (s : State) (bay stack : Nat) : State :=
  let n := mapGet 0 s.err.hbm stack + 1
  let put := fun (s : State) (n : Nat) => { s with err := { s.err with hbm := mapSet 0 s.err.hbm stack n } }
  if n < 256 then put s n else (put s 0).report bay 3 stack 256

/-- The bay reports an error for the log (R347); an uncorrectable granule of HBM is poisoned (R340). Kinds 9 to 12 stand for what
the hardware meets with no report: a trace record of core [3:0], at place [63:32] of those not yet drained, that fails parity; a
vault word corrected; a beat of a stack corrected; the end of 2^30 reads of a stack, over which HBMCE counts (log entry 73). -/
def execErr (bay : Nat) (rec_ : ErrRec) (s : State) : Host.Outcome State Fault Refusal :=
  let d := rec_.detail.toNat
  if rec_.kind = 9 then .next (s.updCore (bayCore bay (d % 16)) fun c => c.dropRecord (d / 2 ^ 32))
  else if rec_.kind = 10 then .next (s.corrected bay)
  else if rec_.kind = 11 then .next (s.correctedBeat bay rec_.unit_)
  else if rec_.kind = 12 then .next { s with err := { s.err with hbm := mapSet 0 s.err.hbm rec_.unit_ 0 } }
  else if 12 < rec_.kind then .next s
  else
    let s := s.report bay rec_.kind rec_.unit_ rec_.detail
    .next (if rec_.kind = 4 then (if s.poisoned.contains (granule d) then s else { s with poisoned := s.poisoned ++ [granule d] })
           else if rec_.kind = 6 then s.wordError bay d else s)

/-- The bench asks for a diagnostic. -/
def execDiagReq (bay : Nat) (test : Nat) (cores : BitVec 12) (s : State) : Host.Outcome State Fault Refusal :=
  let b := s.bay bay
  if b.inbox.isSome then .next s
  else .next (s.setBay bay { b with inbox := some (message 4 bay b.seq (bytesOf 4 test ++ bytesOf 4 cores.toNat)), seq := b.seq + 1 })

/-- The bay reports diagnostic results. -/
def execDiagDone (bay : Nat) (result : DWord) (s : State) : Host.Outcome State Fault Refusal :=
  .next (s.updBay bay fun b => { b with inbox := none }.send 5 bay (bytesOf 8 result.toNat))

-- STOPPING CORES (R348)
/-- The cores that a mask of a bay names. -/
def namedCores (bay : Nat) (cores : BitVec 12) : List Nat := ((List.range 12).filter cores.getLsbD).map (bayCore bay)

/-- SSTOP: the teams on the named cores stop as in the first step of R337. -/
def State.holdCores (s : State) (bay : Nat) (cores : BitVec 12) : State :=
  (namedCores bay cores).foldl (fun s c => ((s.resident [] c).foldl State.stopTeam s).updCore c fun x => { x with held := true }) s

def execSstop (bay : Nat) (cores : BitVec 12) (s : State) : Host.Outcome State Fault Refusal := .next (s.holdCores bay cores)

/-- A team that SSTOP alone stopped goes on. -/
def State.releaseTeam (s : State) (tk : Nat) : State :=
  let l := s.launch (teamLaunch tk)
  if l.active && l.fatal.isNone && !(s.team tk).dead then s.updTeam tk fun t => { t with stopped := false } else s

/-- SGO: held cores are released. -/
def State.freeCores (s : State) (bay : Nat) (cores : BitVec 12) : State :=
  (namedCores bay cores).foldl (fun s c =>
    if !(s.core c).held then s
    else ((s.resident [] c).foldl State.releaseTeam s).updCore c fun x => { x with held := false }) s

def execSgo (bay : Nat) (cores : BitVec 12) (s : State) : Host.Outcome State Fault Refusal := .next (s.freeCores bay cores)

-- STEWARD ADDRESSES (R348)
/-- The team whose window holds a byte of a core's vault; the space of a cluster that has ended is back in the vault (R215). -/
def State.windowAt (s : State) (core v : Nat) : Option Nat :=
  (s.resident [] core).find? fun tk => decide ((s.team tk).base ≤ v ∧ v < (s.team tk).base + (s.launch (teamLaunch tk)).r.lsz)

/-- A byte of a core's vault: of the window that holds it, or of the rest. DESIGN CHOICE (log entry 16): a staging region's bytes
are those of the rest; the records staged there are `Team.staging`. -/
def State.vaultByte (s : State) (core v : Nat) : Byte :=
  match s.windowAt core v with
  | some tk => (s.team tk).byte (v - (s.team tk).base)
  | none => mapGet 0 (s.core core).vault v

/-- A steward's write to a core's vault: to a team's window only while the team is stopped or has ended (R11), and as other writes
do to no barrier line (R151). -/
def State.setVaultByte (s : State) (core v : Nat) (b : Byte) : State :=
  match s.windowAt core v with
  | some tk =>
    let off := v - (s.team tk).base
    if !((s.team tk).stopped || s.teamEnded tk) || ((s.team tk).bline (off / 128)).isSome then s
    else s.updTeam tk fun t => t.setByte off b
  | none => s.updCore core fun c => { c with vault := mapSet 0 c.vault v b }

/-- The group of a stopped team that holds a slot of a held core. -/
def State.frozen (s : State) (core slot : Nat) : Option Nat :=
  if !(s.core core).held then none else
  ((s.resident [] core).filter fun tk => (s.team tk).stopped).findSome? fun tk =>
    (s.presentGroups tk).find? fun k => (s.group k).slot == slot

/-- A byte of a core's frozen-state window. -/
def State.frozenByte (s : State) (core o : Nat) : Byte :=
  if o < 0x200000 then
    match s.frozen core (o / 0x8000) with
    | some k => (s.groupRecord k).getD (o % 0x8000) 0
    | none => 0
  else if 0x3FFFF8 ≤ o then
    byteAt (((List.range 64).filter fun i => (s.frozen core i).isSome).foldl (fun a i => a + 2 ^ i) 0) (o - 0x3FFFF8)
  else
    match (s.resident [] core).find? fun tk => (s.core core).held && (s.team tk).stopped && (s.launch (teamLaunch tk)).usesTile with
    | some tk => (s.tilesSection tk).getD (o - 0x200000) 0
    | none => 0

/-- A byte as a bay's steward reads it. -/
def State.stewardByte (s : State) (bay a : Nat) : Byte :=
  let b := s.bay bay
  if a < 0x40000 then mapGet 0 b.sram a
  else if 0x10000000 ≤ a ∧ a < 0x10000000 + 12 * 0x200000 then
    s.vaultByte (bayCore bay ((a - 0x10000000) / 0x200000)) ((a - 0x10000000) % 0x200000)
  else if 0x20000000 ≤ a ∧ a < 0x20000080 then
    let o := a - 0x20000000
    if o < 64 then (b.inbox.getD []).getD o 0 else b.outbox.getD (o - 64) 0
  else if 0x22000000 ≤ a ∧ a < 0x22000000 + 12 * 0x2000 then
    let o := a - 0x22000000
    let r := (s.core (bayCore bay (o / 0x2000))).slotRecord (o % 0x2000 / 16)
    byteAt (r.1 + 2 ^ 64 * r.2) (o % 16)
  else if 0x40000000 ≤ a ∧ a < 0x40000000 + 12 * 0x400000 then
    s.frozenByte (bayCore bay ((a - 0x40000000) / 0x400000)) ((a - 0x40000000) % 0x400000)
  else 0

/-- The team's window byte that a steward's address names. -/
def State.stewardPlace (s : State) (bay a : Nat) : Option Place :=
  if 0x10000000 ≤ a ∧ a < 0x10000000 + 12 * 0x200000 then
    let v := (a - 0x10000000) % 0x200000
    (s.windowAt (bayCore bay ((a - 0x10000000) / 0x200000)) v).map fun tk => .vault tk (v - (s.team tk).base)
  else none

/-- A byte as it enters an image: zero in a word that has been found uncorrectable (R354). -/
def State.sealedByte (s : State) (bay a : Nat) : Byte :=
  match s.stewardPlace bay a with
  | some (.vault tk off) => if (s.team tk).bad.contains (off / 4) then 0 else s.stewardByte bay a
  | _ => s.stewardByte bay a

/-- A write of SSEAL (R348): the body bytes at ADDR, of the length in the payload of the outbound message, go to the security
block. -/
def State.sealAt (s : State) (bay : Nat) (addr : DWord) : State :=
  let as := (List.range (field (s.bay bay).outbox 8 4)).map (addr.toNat + ·)
  let s := match s.badRead (as.filterMap (s.stewardPlace bay)) with
    | some (.vault tk off) => s.findsAlone tk off
    | _ => s
  s.sealBody bay fun _ => [as.map (s.sealedByte bay)]

def execSseal (bay : Nat) (addr : DWord) (s : State) : Host.Outcome State Fault Refusal := .next (s.sealAt bay addr)

end Sys2Proof.Machine
end

