-- ==== Sys2Proof/Machine/Hart.lean ====
section
/-! DEFINITION. The RV64IMAC core of a bay steward (R11, R348), in RISC-V's machine mode: its loads and stores at the steward's addresses, its CSRs, its exceptions, and its instructions, which are RISC-V's own (log entry 71). -/

namespace Sys2Proof.Machine

-- REGISTERS
/-- x0 reads zero. -/
def Hart.reg (h : Hart) (n : Nat) : DWord := if n = 0 then 0 else mapGet 0 h.x n
def Hart.setReg (h : Hart) (n : Nat) (v : DWord) : Hart := if n = 0 then h else { h with x := mapSet 0 h.x n v }
def Hart.csrs (h : Hart) (n : Nat) : DWord := mapGet 0 h.csr n
def Hart.setCsr (h : Hart) (n : Nat) (v : DWord) : Hart := { h with csr := mapSet 0 h.csr n v }

def State.hart (s : State) (bay : Nat) : Hart := (s.bay bay).hart
def State.updHart (s : State) (bay : Nat) (f : Hart → Hart) : State := s.updBay bay fun b => { b with hart := f b.hart }

-- MEMORY (R348)
/-- The regions of the steward's addresses: base, bytes, and whether a store may reach them. -/
def stewardMap : List (Nat × Nat × Bool) :=
  [(0, 0x40000, true), (0x10000000, 12 * 0x200000, true), (0x20000000, 0x40, false), (0x20000040, 0x40, true),
   (0x22000000, 12 * 0x2000, false), (0x40000000, 12 * 0x400000, false)]

/-- Some bytes lie in one region of the map. -/
def stewardOk (write : Bool) (a n : Nat) : Bool :=
  stewardMap.any fun r => decide (r.1 ≤ a ∧ a + n ≤ r.1 + r.2.1) && (!write || r.2.2)

/-- A read of the steward: its value, or none where the address has nothing or the vault word is uncorrectable (R225). -/
def State.stewardRead (s : State) (bay a n : Nat) : State × Option Nat :=
  if !stewardOk false a n then (s, none) else
  match s.badRead ((List.range n).filterMap fun i => s.stewardPlace bay (a + i)) with
  | some (.vault tk off) => (s.findsAlone tk off, none)
  | some _ => (s, none)
  | none => (s, some (ofBytes ((List.range n).map fun i => s.stewardByte bay (a + i))))

/-- A byte that the steward stores. -/
def State.setStewardByte (s : State) (bay a : Nat) (b : Byte) : State :=
  if a < 0x40000 then s.updBay bay fun x => { x with sram := mapSet 0 x.sram a b }
  else if a < 0x20000000 then s.setVaultByte (bayCore bay ((a - 0x10000000) / 0x200000)) ((a - 0x10000000) % 0x200000) b
  else s.updBay bay fun x => { x with outbox := (x.outbox ++ List.replicate (64 - x.outbox.length) 0).set (a - 0x20000040) b }

def State.setStewardBytes (s : State) (bay a : Nat) (bs : List Byte) : State :=
  (bs.mapIdx fun i b => (a + i, b)).foldl (fun s p => s.setStewardByte bay p.1 p.2) s

-- CSRS
/-- The cores of a bay that are held stopped. -/
def State.heldCores (s : State) (bay : Nat) : Nat :=
  ((List.range 12).filter fun c => (s.core (bayCore bay c)).held).foldl (fun a c => a + 2 ^ c) 0

/-- The machine-mode CSRs that hold what is written, each with the bits that a write changes. -/
def plainCsrs : List (Nat × Nat) :=
  [(0x300, 0x88), (0x304, 0), (0x305, 2 ^ 64 - 3), (0x320, 0), (0x340, 2 ^ 64 - 1), (0x341, 2 ^ 64 - 2), (0x342, 2 ^ 64 - 1),
   (0x343, 2 ^ 64 - 1), (0x344, 0), (0xB00, 2 ^ 64 - 1), (0xB02, 2 ^ 64 - 1)]

/-- A CSR as it reads; none where the number names none. -/
def State.readCsr (s : State) (bay n : Nat) : Option DWord :=
  let h := s.hart bay
  if n = 0x7C0 then some (BitVec.ofNat 64 bay)
  else if n = 0x7C1 then some (BitVec.ofNat 64 (s.heldCores bay))
  else if n = 0x7C2 ∨ n = 0x7C4 then some 0
  else if n = 0x7C3 then some (BitVec.ofNat 64 ((if (s.bay bay).ready then 1 else 0) + (if (s.bay bay).inbox.isSome then 2 else 0)))
  else if n = 0x300 then some (h.csrs n ||| 0x1800)
  else if n = 0x301 then some 0x8000000000001105
  else if n = 0xF14 then some (BitVec.ofNat 64 bay)
  else if [0xF11, 0xF12, 0xF13, 0xF15].contains n then some 0
  else if plainCsrs.any (·.1 == n) then some (h.csrs n)
  else if (0xB03 ≤ n ∧ n ≤ 0xB1F) ∨ (0x323 ≤ n ∧ n ≤ 0x33F) then some 0
  else none

/-- A write of a CSR that may be written. -/
def State.writeCsr (s : State) (bay n : Nat) (v : DWord) : State :=
  if n = 0x7C1 then s.holdCores bay (v.setWidth 12)
  else if n = 0x7C2 then s.freeCores bay (v.setWidth 12)
  else if n = 0x7C3 then s.ringBell bay (v.setWidth 2)
  else if n = 0x7C4 then s.sealAt bay v
  else match plainCsrs.find? (·.1 == n) with
    | some p => s.updHart bay fun h => h.setCsr n (v &&& BitVec.ofNat 64 p.2)
    | none => s

-- EXCEPTIONS
/-- An exception of a cause: mepc, mcause, mtval and the interrupt enable are saved, and the handler's address is mtvec's. -/
def Hart.except (h : Hart) (cause : Nat) (tval : DWord) : Hart :=
  let st := h.csrs 0x300
  let h := (((h.setCsr 0x341 h.pc).setCsr 0x342 (BitVec.ofNat 64 cause)).setCsr 0x343 tval).setCsr 0x300 (if st.getLsbD 3 then 0x80 else 0)
  { h with pc := h.csrs 0x305 &&& ~~~3#64 }

/-- mret. -/
def Hart.mret (h : Hart) : Hart :=
  { h.setCsr 0x300 (if (h.csrs 0x300).getLsbD 7 then 0x88 else 0x80) with pc := h.csrs 0x341 }

-- ARITHMETIC
def signed64 (n x : Nat) : DWord := (BitVec.ofNat n x).signExtend 64

/-- The integer operations by funct3; `alt` takes sub for add and sra for srl. -/
def rvAlu (f3 : Nat) (alt : Bool) (a b : DWord) : DWord :=
  match f3 with
  | 0 => if alt then a - b else a + b
  | 1 => a <<< (b.toNat % 64)
  | 2 => if a.toInt < b.toInt then 1 else 0
  | 3 => if a.toNat < b.toNat then 1 else 0
  | 4 => a ^^^ b
  | 5 => if alt then a.sshiftRight (b.toNat % 64) else a >>> (b.toNat % 64)
  | 6 => a ||| b
  | _ => a &&& b

/-- Those of 32 bits: add, sub and the shifts. -/
def rvAluW (f3 : Nat) (alt : Bool) (a b : DWord) : Option DWord :=
  let x : BitVec 32 := a.setWidth 32
  let y : BitVec 32 := b.setWidth 32
  match f3 with
  | 0 => some ((if alt then x - y else x + y).signExtend 64)
  | 1 => some ((x <<< (y.toNat % 32)).signExtend 64)
  | 5 => some ((if alt then x.sshiftRight (y.toNat % 32) else x >>> (y.toNat % 32)).signExtend 64)
  | _ => none

/-- Quotients and remainders of `w` bits: a zero divisor gives all ones and the dividend. -/
def rvDiv {w : Nat} (f3 : Nat) (a b : BitVec w) : BitVec w :=
  let z := b.toNat = 0
  match f3 % 4 with
  | 0 => if z then BitVec.ofInt w (-1) else BitVec.ofInt w (a.toInt.tdiv b.toInt)
  | 1 => if z then BitVec.ofInt w (-1) else BitVec.ofNat w (a.toNat / b.toNat)
  | 2 => if z then a else BitVec.ofInt w (a.toInt.tmod b.toInt)
  | _ => if z then a else BitVec.ofNat w (a.toNat % b.toNat)

/-- The operations of extension M. -/
def rvMul (f3 : Nat) (a b : DWord) : DWord :=
  let x : Int := a.toNat
  let y : Int := b.toNat
  match f3 with
  | 0 => a * b
  | 1 => BitVec.ofInt 64 (a.toInt * b.toInt / 2 ^ 64)
  | 2 => BitVec.ofInt 64 (a.toInt * y / 2 ^ 64)
  | 3 => BitVec.ofInt 64 (x * y / 2 ^ 64)
  | _ => rvDiv f3 a b

def rvMulW (f3 : Nat) (a b : DWord) : Option DWord :=
  let x : BitVec 32 := a.setWidth 32
  let y : BitVec 32 := b.setWidth 32
  if f3 = 0 then some ((x * y).signExtend 64) else if 4 ≤ f3 then some ((rvDiv f3 x y).signExtend 64) else none

/-- The new word of an atomic of `w` bits. -/
def rvAmo {w : Nat} (f5 : Nat) (old b : BitVec w) : Option (BitVec w) :=
  match f5 with
  | 0x00 => some (old + b)
  | 0x01 => some b
  | 0x04 => some (old ^^^ b)
  | 0x08 => some (old ||| b)
  | 0x0C => some (old &&& b)
  | 0x10 => some (if old.toInt < b.toInt then old else b)
  | 0x14 => some (if old.toInt < b.toInt then b else old)
  | 0x18 => some (if old.toNat < b.toNat then old else b)
  | 0x1C => some (if old.toNat < b.toNat then b else old)
  | _ => none

/-- Whether a branch of a funct3 is taken. -/
def rvTaken (f3 : Nat) (a b : DWord) : Option Bool :=
  match f3 with
  | 0 => some (a == b)
  | 1 => some (a != b)
  | 4 => some (decide (a.toInt < b.toInt))
  | 5 => some (decide (b.toInt ≤ a.toInt))
  | 6 => some (decide (a.toNat < b.toNat))
  | 7 => some (decide (b.toNat ≤ a.toNat))
  | _ => none

-- EXTENSION C
/-- A 32-bit word of each format from its fields. -/
def rvI (op f3 rd rs1 imm : Nat) : Nat := op + rd * 2 ^ 7 + f3 * 2 ^ 12 + rs1 * 2 ^ 15 + imm % 2 ^ 12 * 2 ^ 20
def rvR (op f3 f7 rd rs1 rs2 : Nat) : Nat := op + rd * 2 ^ 7 + f3 * 2 ^ 12 + rs1 * 2 ^ 15 + rs2 * 2 ^ 20 + f7 * 2 ^ 25
def rvS (f3 rs1 rs2 imm : Nat) : Nat := 0x23 + imm % 32 * 2 ^ 7 + f3 * 2 ^ 12 + rs1 * 2 ^ 15 + rs2 * 2 ^ 20 + imm / 32 % 2 ^ 7 * 2 ^ 25
def rvB (f3 rs1 rs2 imm : Nat) : Nat :=
  0x63 + bitsAt imm 11 1 * 2 ^ 7 + bitsAt imm 1 4 * 2 ^ 8 + f3 * 2 ^ 12 + rs1 * 2 ^ 15 + rs2 * 2 ^ 20 + bitsAt imm 5 6 * 2 ^ 25 +
    bitsAt imm 12 1 * 2 ^ 31
def rvJ (rd imm : Nat) : Nat :=
  0x6F + rd * 2 ^ 7 + bitsAt imm 12 8 * 2 ^ 12 + bitsAt imm 11 1 * 2 ^ 20 + bitsAt imm 1 10 * 2 ^ 21 + bitsAt imm 20 1 * 2 ^ 31

/-- `n` bits of two's complement held to 21 bits. -/
def sext21 (n x : Nat) : Nat := ((BitVec.ofNat n x).signExtend 21).toNat

/-- Quadrant 0: stack-pointer sums, loads and stores of the eight middle registers. -/
def rvc0 (w : Nat) : Option Nat :=
  let rd := 8 + bitsAt w 2 3
  let rs := 8 + bitsAt w 7 3
  let offW := bitsAt w 6 1 * 4 + bitsAt w 10 3 * 8 + bitsAt w 5 1 * 64
  let offD := bitsAt w 10 3 * 8 + bitsAt w 5 2 * 64
  match w / 2 ^ 13 with
  | 0 =>
    let imm := bitsAt w 6 1 * 4 + bitsAt w 5 1 * 8 + bitsAt w 11 2 * 16 + bitsAt w 7 4 * 64
    if imm = 0 then none else some (rvI 0x13 0 rd 2 imm)
  | 2 => some (rvI 0x03 2 rd rs offW)
  | 3 => some (rvI 0x03 3 rd rs offD)
  | 6 => some (rvS 2 rs rd offW)
  | 7 => some (rvS 3 rs rd offD)
  | _ => none

/-- Quadrant 1: immediates, register arithmetic, jumps and branches. -/
def rvc1 (w : Nat) : Option Nat :=
  let rd := bitsAt w 7 5
  let rs := 8 + bitsAt w 7 3
  let rt := 8 + bitsAt w 2 3
  let sh := bitsAt w 2 5 + bitsAt w 12 1 * 32
  let imm := sext21 6 sh
  let bOff := sext21 9 (bitsAt w 3 2 * 2 + bitsAt w 10 2 * 8 + bitsAt w 2 1 * 32 + bitsAt w 5 2 * 64 + bitsAt w 12 1 * 256)
  match w / 2 ^ 13 with
  | 0 => some (rvI 0x13 0 rd rd imm)
  | 1 => if rd = 0 then none else some (rvI 0x1B 0 rd rd imm)
  | 2 => some (rvI 0x13 0 rd 0 imm)
  | 3 =>
    if rd = 2 then
      let k := sext21 10 (bitsAt w 6 1 * 16 + bitsAt w 2 1 * 32 + bitsAt w 5 1 * 64 + bitsAt w 3 2 * 128 + bitsAt w 12 1 * 512)
      if k = 0 then none else some (rvI 0x13 0 2 2 k)
    else if sh = 0 then none else some (0x37 + rd * 2 ^ 7 + imm % 2 ^ 20 * 2 ^ 12)
  | 4 =>
    match bitsAt w 10 2 with
    | 0 => some (rvI 0x13 5 rs rs sh)
    | 1 => some (rvI 0x13 5 rs rs (sh + 0x400))
    | 2 => some (rvI 0x13 7 rs rs imm)
    | _ =>
      match bitsAt w 12 1, bitsAt w 5 2 with
      | 0, 0 => some (rvR 0x33 0 0x20 rs rs rt)
      | 0, 1 => some (rvR 0x33 4 0 rs rs rt)
      | 0, 2 => some (rvR 0x33 6 0 rs rs rt)
      | 0, _ => some (rvR 0x33 7 0 rs rs rt)
      | _, 0 => some (rvR 0x3B 0 0x20 rs rs rt)
      | _, 1 => some (rvR 0x3B 0 0 rs rs rt)
      | _, _ => none
  | 5 => some (rvJ 0 (sext21 12 (bitsAt w 3 3 * 2 + bitsAt w 11 1 * 16 + bitsAt w 2 1 * 32 + bitsAt w 7 1 * 64 + bitsAt w 6 1 * 128 +
           bitsAt w 9 2 * 256 + bitsAt w 8 1 * 1024 + bitsAt w 12 1 * 2048)))
  | 6 => some (rvB 0 rs 0 bOff)
  | _ => some (rvB 1 rs 0 bOff)

/-- Quadrant 2: shifts, stack-pointer loads and stores, register jumps and moves. -/
def rvc2 (w : Nat) : Option Nat :=
  let rd := bitsAt w 7 5
  let rt := bitsAt w 2 5
  match w / 2 ^ 13 with
  | 0 => some (rvI 0x13 1 rd rd (rt + bitsAt w 12 1 * 32))
  | 2 => if rd = 0 then none else some (rvI 0x03 2 rd 2 (bitsAt w 4 3 * 4 + bitsAt w 12 1 * 32 + bitsAt w 2 2 * 64))
  | 3 => if rd = 0 then none else some (rvI 0x03 3 rd 2 (bitsAt w 5 2 * 8 + bitsAt w 12 1 * 32 + bitsAt w 2 3 * 64))
  | 4 =>
    if bitsAt w 12 1 = 0 then
      if rt != 0 then some (rvR 0x33 0 0 rd 0 rt) else if rd = 0 then none else some (rvI 0x67 0 0 rd 0)
    else if rt != 0 then some (rvR 0x33 0 0 rd rd rt)
    else if rd = 0 then some 0x00100073
    else some (rvI 0x67 0 1 rd 0)
  | 6 => some (rvS 2 2 rt (bitsAt w 9 4 * 4 + bitsAt w 7 2 * 64))
  | 7 => some (rvS 3 2 rt (bitsAt w 10 3 * 8 + bitsAt w 7 3 * 64))
  | _ => none

/-- The 32-bit instruction that a 16-bit one stands for. -/
def rvExpand (w : Nat) : Option Nat := match w % 4 with | 0 => rvc0 w | 1 => rvc1 w | _ => rvc2 w

-- INSTRUCTIONS
/-- How an instruction ends: the state with its effect and the next address, or an exception with its detail. -/
inductive Rv where
  | go (s : State) (pc : DWord)
  | trap (s : State) (cause : Nat) (tval : DWord)

/-- A load of funct3: its bytes from memory, extended. -/
def rvLoad (s : State) (bay rd f3 : Nat) (a next : DWord) : Rv :=
  let n := 2 ^ (f3 % 4)
  if a.toNat % n != 0 then .trap s 4 a else
  let r := s.stewardRead bay a.toNat n
  match r.2 with
  | none => .trap r.1 5 a
  | some x => .go (r.1.updHart bay fun h => h.setReg rd (if f3 < 4 then signed64 (8 * n) x else BitVec.ofNat 64 x)) next

def rvStore (s : State) (bay f3 : Nat) (a v next : DWord) : Rv :=
  let n := 2 ^ f3
  if a.toNat % n != 0 then .trap s 6 a
  else if !stewardOk true a.toNat n then .trap s 7 a
  else .go (s.setStewardBytes bay a.toNat (bytesOf n v.toNat)) next

/-- An instruction of extension A: a reservation is held on SRAM alone. -/
def rvAtomic (s : State) (bay rd f3 f5 rs2 : Nat) (a v next ill : DWord) : Rv :=
  let n := 2 ^ f3
  let set := fun (s : State) (x : Nat) => s.updHart bay fun h => h.setReg rd (signed64 (8 * n) x)
  if f3 != 2 && f3 != 3 then .trap s 2 ill
  else if f5 = 2 then
    if rs2 != 0 then .trap s 2 ill
    else if a.toNat % n != 0 then .trap s 4 a
    else if 0x40000 ≤ a.toNat then .trap s 5 a
    else match (s.stewardRead bay a.toNat n).2 with
      | none => .trap s 5 a
      | some x => .go ((set s x).updHart bay fun h => { h with resv := some a.toNat }) next
  else if a.toNat % n != 0 then .trap s 6 a
  else if f5 = 3 then
    if 0x40000 ≤ a.toNat then .trap s 7 a
    else
      let ok := (s.hart bay).resv == some a.toNat
      let s := if ok then s.setStewardBytes bay a.toNat (bytesOf n v.toNat) else s
      .go ((s.updHart bay fun h => { h with resv := none }).updHart bay fun h => h.setReg rd (if ok then 0 else 1)) next
  else if (rvAmo f5 0#64 0#64).isNone then .trap s 2 ill
  else if !stewardOk true a.toNat n then .trap s 7 a
  else
    let r := s.stewardRead bay a.toNat n
    match r.2 with
    | none => .trap r.1 7 a
    | some x =>
      let new := if n = 4 then ((rvAmo f5 (BitVec.ofNat 32 x) (v.setWidth 32)).map (·.toNat)) else (rvAmo f5 (BitVec.ofNat 64 x) v).map (·.toNat)
      .go (set (r.1.setStewardBytes bay a.toNat (bytesOf n (new.getD 0))) x) next

/-- The instructions of opcode 0x73: those of machine mode, and the CSR accesses of extension Zicsr. -/
def rvSystem (s : State) (bay w rd f3 rs1 : Nat) (next ill : DWord) : Rv :=
  let h := s.hart bay
  if f3 % 4 = 0 then
    if w = 0x00000073 then .trap s 11 0
    else if w = 0x00100073 then .trap s 3 h.pc
    else if w = 0x30200073 then let k := h.mret; .go (s.updHart bay fun _ => k) k.pc
    else if w = 0x10500073 then .go s next
    else .trap s 2 ill
  else
    let n := bitsAt w 20 12
    let v := if f3 < 4 then h.reg rs1 else BitVec.ofNat 64 rs1
    let writes := f3 % 4 = 1 ∨ rs1 ≠ 0
    match s.readCsr bay n with
    | none => .trap s 2 ill
    | some old =>
      if writes ∧ 0xC00 ≤ n then .trap s 2 ill
      else
        let new := match f3 % 4 with | 1 => v | 2 => old ||| v | _ => old &&& ~~~v
        let s := if writes then s.writeCsr bay n new else s
        .go (s.updHart bay fun h => h.setReg rd old) next

/-- A 32-bit instruction; `next` is the address after it, `ill` what an illegal-instruction exception reports. -/
def rvExec (s : State) (bay w : Nat) (next ill : DWord) : Rv :=
  let h := s.hart bay
  let rd := bitsAt w 7 5
  let f3 := bitsAt w 12 3
  let rs1 := bitsAt w 15 5
  let f7 := bitsAt w 25 7
  let a := h.reg rs1
  let b := h.reg (bitsAt w 20 5)
  let immI := signed64 12 (bitsAt w 20 12)
  let set := fun (v : DWord) => Rv.go (s.updHart bay fun h => h.setReg rd v) next
  let opt := fun (v : Option DWord) => match v with | some v => set v | none => Rv.trap s 2 ill
  let shiftOk := fun (k : Nat) => f3 % 4 != 1 || bitsAt w (20 + k) (12 - k) == 0 || (f3 == 5 && bitsAt w (20 + k) (12 - k) == 2 ^ (10 - k))
  match w % 128 with
  | 0x37 => set (signed64 32 (w / 2 ^ 12 * 2 ^ 12))
  | 0x17 => set (h.pc + signed64 32 (w / 2 ^ 12 * 2 ^ 12))
  | 0x6F =>
    let k := signed64 21 (bitsAt w 21 10 * 2 + bitsAt w 20 1 * 2 ^ 11 + bitsAt w 12 8 * 2 ^ 12 + bitsAt w 31 1 * 2 ^ 20)
    .go (s.updHart bay fun h => h.setReg rd next) (h.pc + k)
  | 0x67 => if f3 != 0 then .trap s 2 ill else .go (s.updHart bay fun h => h.setReg rd next) ((a + immI) &&& ~~~1#64)
  | 0x63 =>
    let k := signed64 13 (bitsAt w 8 4 * 2 + bitsAt w 25 6 * 2 ^ 5 + bitsAt w 7 1 * 2 ^ 11 + bitsAt w 31 1 * 2 ^ 12)
    match rvTaken f3 a b with
    | none => .trap s 2 ill
    | some t => .go s (if t then h.pc + k else next)
  | 0x03 => if f3 = 7 then .trap s 2 ill else rvLoad s bay rd f3 (a + immI) next
  | 0x23 => if 4 ≤ f3 then .trap s 2 ill else rvStore s bay f3 (a + signed64 12 (rd + f7 * 2 ^ 5)) b next
  | 0x13 => if shiftOk 6 then set (rvAlu f3 (f3 == 5 && bitOf w 30) a immI) else .trap s 2 ill
  | 0x1B => if shiftOk 5 then opt (rvAluW f3 (f3 == 5 && bitOf w 30) a immI) else .trap s 2 ill
  | 0x33 =>
    if f7 = 1 then set (rvMul f3 a b)
    else if f7 = 0 ∨ (f7 = 0x20 ∧ (f3 = 0 ∨ f3 = 5)) then set (rvAlu f3 (f7 == 0x20) a b) else .trap s 2 ill
  | 0x3B =>
    if f7 = 1 then opt (rvMulW f3 a b)
    else if f7 = 0 ∨ (f7 = 0x20 ∧ (f3 = 0 ∨ f3 = 5)) then opt (rvAluW f3 (f7 == 0x20) a b) else .trap s 2 ill
  | 0x0F => if f3 = 0 then .go s next else .trap s 2 ill
  | 0x2F => rvAtomic s bay rd f3 (f7 / 4) (bitsAt w 20 5) a b next ill
  | 0x73 => rvSystem s bay w rd f3 rs1 next ill
  | _ => .trap s 2 ill

/-- An instruction is fetched and runs: 16 bits, or 32 where the low two are ones. -/
def rvFetch (s : State) (bay : Nat) : Rv :=
  let pc := (s.hart bay).pc
  let lo := s.stewardRead bay pc.toNat 2
  match lo.2 with
  | none => .trap lo.1 1 pc
  | some x =>
    if x % 4 = 3 then
      let hi := lo.1.stewardRead bay (pc + 2).toNat 2
      match hi.2 with
      | none => .trap hi.1 1 (pc + 2)
      | some y => rvExec hi.1 bay (x + y * 2 ^ 16) (pc + 4) (BitVec.ofNat 64 (x + y * 2 ^ 16))
    else match rvExpand x with
      | some w => rvExec lo.1 bay w (pc + 2) (BitVec.ofNat 64 x)
      | none => .trap lo.1 2 (BitVec.ofNat 64 x)

/-- One instruction of a bay's steward: it runs once its SRAM holds a program (log entry 71). -/
def State.stewardStep (s : State) (bay : Nat) : State :=
  if (s.bay bay).sram.isEmpty then s else
  let count := fun (s : State) (n : Nat) => s.updHart bay fun h => h.setCsr n (h.csrs n + 1)
  let s := count s 0xB00
  match rvFetch s bay with
  | .go s pc => count (s.updHart bay fun h => { h with pc := pc }) 0xB02
  | .trap s cause tval => s.updHart bay fun h => h.except cause tval

end Sys2Proof.Machine
end

