-- ==== Sys2Proof/Machine/Atomics.lean ====
section
/-! DEFINITION. Atomics, reductions, compare-and-swap and MSAU updates, opcodes 0xC4 to 0xC7 (R144 to R146), with the reservations of deterministic launches (R264, R267). -/

namespace Sys2Proof.Machine

/-- The operation of FN[2:0] (R144). -/
def atomOp (n : Nat) : RmwOp :=
  match n with
  | 0 => .add | 1 => .min | 2 => .max | 3 => .and | 4 => .or | 5 => .xor | _ => .exch

/-- The lanes whose flags, or demotion, an element's update concerns: its own, or every acting lane of a uniform
instruction. -/
def View.elemLanes (x : View) (l : Nat) : Mask := if isS x.f.d then x.act else oneLane l

def atomAcc (x : View) (bits : Nat) : Acc :=
  { space := dSP x.f, bits := bits, sw := dSW x.f, write := true, atomic := true, stamped := false, kind := 3 }

/-- One lane's update as an entry of the store FIFO. -/
def rmwEntry (x : View) (scope kind : Nat) (op : RmwOp) (l : Loc) (operand cmp : Nat) (rval : DWord) (dst : Option Dst) : Store :=
  { seq := x.g.seq + 1, path := pathOf (dSP x.f), rel := scope, acq := scope, va := unitAddr x.f.ty.width (dSW x.f) l.ea
    kind := kind, opc := x.f.fn.toNat, ty := x.f.ty, rval := rval, fwd := false, pc := x.pc
    op := .rmw op x.f.ty l.places operand cmp dst (x.elemLanes l.lane) }

/-- The scope of .ar. -/
def arScope (x : View) : Nat := if 8 ≤ x.f.fn.toNat then x.scope (bitsAt x.f.x6.toNat 3 3) else 0

-- RESERVATIONS (R267)
/-- n_t, and the sum of the counts of the teams below. -/
def Launch.share (l : Launch) (team : Nat) : Nat × Nat :=
  match l.one with
  | some n => (n, n * team)
  | .none => (l.counts.getD team 0, (l.counts.take team).foldl (· + ·) 0)

/-- A group's share of its team's values, and S_g. -/
def groupShare (n groups grp : Nat) : Nat × Nat :=
  (n / groups + (if grp < n % groups then 1 else 0), grp * (n / groups) + min grp (n % groups))

/-- The i-th value a group's reservations return: the first run's value in the second run of checking mode (R269). -/
def reservation (l : Launch) (g : Group) (i : Nat) : DWord :=
  let t := l.share (teamIndex g.team)
  let own := BitVec.ofNat 64 (t.2 + (groupShare t.1 l.r.groups g.grp).2 + i)
  if l.second then (mapGet [] l.rvals (groupKey g.team g.grp)).getD i own else own

/-- The values handed out, kept for a second run. -/
def keepValues (s : State) (gk : Nat) (vs : List DWord) : State :=
  let g := s.group gk
  let l := s.launchOf g
  if l.chk && !l.second then
    s.updLaunch (teamLaunch g.team) fun l =>
      { l with rvals := mapSet [] l.rvals (groupKey g.team g.grp) (mapGet [] l.rvals (groupKey g.team g.grp) ++ vs) }
  else s

-- EFFECTS
/-- An integer atom to g of a deterministic launch (R267): its values are returned at once and its operations staged. -/
def reserveEff (x : View) (ls : List Loc) : Eff :=
  let l := x.s0.launchOf x.g
  let share := (groupShare (l.share (teamIndex x.g.team)).1 l.r.groups x.g.grp).1
  if share < x.g.used + ls.length then .trap trapReserve (BitVec.ofNat 64 share) 0
  else withStaging x true (ls.length * stagedSize (x.f.ty.width / 8)) (
    let vs := (List.range ls.length).map fun i => reservation l x.g (x.g.used + i)
    let es := List.zipWith (fun c v => rmwEntry x (arScope x) 2 (atomOp (x.f.fn.toNat % 8)) c (dataOf x c.lane) 0 v none) ls vs
    let g := (List.zip ls vs).foldl (fun g p =>
      g.putDst (dstOf x.f.d x.f.ty p.1.lane) (p.2.toNat % 2 ^ x.f.ty.width)) x.g1
    .done (keepValues (x.put { g.addStores es with used := x.g.used + ls.length }) x.gk vs))

def atomEff (x : View) : Eff :=
  withAccess x (atomAcc x x.f.ty.width) (eaLanes x) fun ls =>
    if x.staged (dSP x.f) && x.f.ty == .f32 then
      .trap trapAccess (BitVec.ofNat 64 ((eaLanes x).headD (0, 0)).2) 0
    else withFullLines x (linesOf (allPlaces ls)) (withIssue x 3 (
      if x.staged (dSP x.f) then reserveEff x ls
      else .done (x.put (x.g1.addStores (ls.map fun l =>
        rmwEntry x (arScope x) 2 (atomOp (x.f.fn.toNat % 8)) l (dataOf x l.lane) 0 0 (some (dstOf x.f.d x.f.ty l.lane)))))))

def redEff (x : View) : Eff :=
  withAccess x (atomAcc x x.f.ty.width) (eaLanes x) fun ls =>
    withOwnMarks x (linesOf (allPlaces ls)) (withIssue x 2 (
      withStaging x (x.staged (dSP x.f)) (ls.length * stagedSize (x.f.ty.width / 8)) (
      .done (x.put (x.g1.addStores (ls.map fun l =>
        rmwEntry x (arScope x) 3 (atomOp (x.f.fn.toNat % 8)) l (dataOf x l.lane) 0 0 none))))))

/-- The compare and the new value of a cas in a lane (R145). -/
def casOperands (x : View) (l : Nat) : Nat × Nat :=
  let w := x.f.ty.width
  match x.f.d with
  | .s n => ((x.sval n.toNat).toNat % 2 ^ w, (x.sval (n.toNat + 1)).toNat % 2 ^ w)
  | .v n => if w = 64 then (x.seen.vpair n.toNat l, x.seen.vpair (n.toNat + 2) l)
            else ((x.seen.vreg n.toNat l).toNat, (x.seen.vreg (n.toNat + 1) l).toNat)
  | _ => (0, 0)

def casEff (x : View) : Eff :=
  withAccess x (atomAcc x x.f.ty.width) (eaLanes x) fun ls =>
    if x.staged (dSP x.f) then
      .trap trapAccess (BitVec.ofNat 64 ((eaLanes x).headD (0, 0)).2) 0
    else withFullLines x (linesOf (allPlaces ls)) (withIssue x 3 (
      let g := x.g1.addStores (ls.map fun l =>
        rmwEntry x (arScope x) 2 .cas l (casOperands x l.lane).2 (casOperands x l.lane).1 0
          (some (dstOf x.f.d x.f.ty l.lane)))
      .done (x.put { g with casRecs := g.casRecs ++ [(x.g.seq + 1, 0, 0)] })))

/-- The operand of an msred in a lane; a triple for .stat. -/
def msredData (x : View) (l : Nat) : Nat :=
  match x.f.fn.toNat, x.f.d with
  | 3, .v n => tripleNat { w := x.seen.vreg n.toNat l, m := x.seen.vreg (n.toNat + 1) l, q := x.seen.vreg (n.toNat + 2) l }
  | _, _ => dataOf x l

def msredOp (fn : Nat) : RmwOp := match fn with | 0 => .add | 1 => .min | 2 => .max | _ => .stat

/-- msred (R146): outside the FIFO order, or staged under deterministic mode (R264). -/
def msredEff (x : View) : Eff :=
  let bits := if x.f.fn = 3 then 128 else x.f.ty.width
  let mode := bitsAt x.f.x6.toNat 0 3
  let op := msredOp x.f.fn.toNat
  withAccess x (atomAcc x bits) (eaLanes x) fun ls =>
    withIssue x 2 (withStaging x (x.staged 2) (ls.length * stagedSize (bits / 8)) (
      if x.staged 2 then
        .done (x.put (x.g1.addStores (ls.map fun l =>
          { rmwEntry x 0 4 op l (msredData x l.lane) mode 0 none with va := unitAddr bits (dSW x.f) l.ea })))
      else
        .done (x.put { x.g1 with
          seq := x.g.seq + 1
          msreds := x.g1.msreds ++ ls.map fun l =>
            { seq := x.g.seq + 1, op := op, mode := rmwMode op mode, ty := x.f.ty, va := l.ea, places := l.places
              operand := msredData x l.lane, opc := x.f.fn.toNat, pc := x.pc } })))

-- MEANINGS
def execAtom (f : Form) (s : State) : Host.Outcome State Fault Refusal := runActing (.atom f) f atomEff s
def execRed (f : Form) (s : State) : Host.Outcome State Fault Refusal := runActing (.red f) f redEff s
def execCas (f : Form) (s : State) : Host.Outcome State Fault Refusal := runActing (.cas f) f casEff s
def execMsred (f : Form) (s : State) : Host.Outcome State Fault Refusal := runActing (.msred f) f msredEff s

end Sys2Proof.Machine
end

