-- ==== Sys2Proof/Machine/Control.lean ====
section
/-! DEFINITION. Branches, calls, exit, sleep, yield, rejoin masks and the limb binding, opcodes 0xA0 to 0xA9, 0xB0 and 0xB1 (R109 to R125), with the events that end a sleep and release a join. -/

namespace Sys2Proof.Machine

-- BRANCHES (R114 to R116)
/-- Each acting lane takes a target; when any of them leaves the straight path a run boundary follows (R48) and the trace
ring takes a branch record (R346). -/
def takeTargets (x : View) (s : State) (tgt : Nat → DWord) : Eff :=
  let taken := (maskLanes x.act).any fun l => tgt l != x.next
  let s := s.updGroup x.gk fun g => (maskLanes x.act).foldl (fun g l => g.updLane l fun y => { y with pc := tgt l }) g
  .jump (if taken then s.trace x.gk 1 (s.imageOff x.gk x.pc * 2 ^ 32 + s.imageOff x.gk (tgt x.low)) else s) taken

/-- The target of br and call. -/
def relTarget (x : View) : DWord :=
  x.pc + (if x.f.len == .l96 then (((x.f.ext.setWidth 20).signExtend 64) <<< 2 : DWord) else x.f.ext)

/-- The target of brx and callx in a lane. -/
def regTarget (x : View) (l : Nat) : DWord := BitVec.ofNat 64 (readAs x .n64 x.f.a l)

/-- Whether a value differs within a bound segment of the acting lanes (R126). -/
def splits {α : Type} [DecidableEq α] (x : View) (v : Nat → α) : Bool :=
  x.g.binding != 1 && (maskLanes x.act).any fun l =>
    (maskLanes (x.act &&& segmentOf x.g.binding l)).any fun k => decide (v k ≠ v l)

def limbTrap (x : View) : Eff := .trap trapLimbDiverge (BitVec.ofNat 64 x.g.binding) 0

def brEff (x : View) : Eff := takeTargets x x.s fun _ => relTarget x

def brxEff (x : View) : Eff :=
  if splits x (regTarget x) then limbTrap x else takeTargets x x.s (regTarget x)

/-- call and callx: CALL_DEPTH before any effect, then a push in each acting lane. -/
def callTo (x : View) (tgt : Nat → DWord) : Eff :=
  match (maskLanes x.act).find? fun l => 32 ≤ (x.g.lane l).stack.length with
  | some _ => .trap trapCallDepth 0 0
  | none =>
    takeTargets x (x.s.updGroup x.gk fun g => g.updLanes x.act fun y => { y with stack := x.next :: y.stack }) tgt

def callEff (x : View) : Eff := callTo x fun _ => relTarget x
def callxEff (x : View) : Eff := if splits x (regTarget x) then limbTrap x else callTo x (regTarget x)

def retEff (x : View) : Eff :=
  let top := fun (l : Nat) => (x.g.lane l).stack.head?
  if splits x top then limbTrap x else
  match (maskLanes x.act).find? fun l => (x.g.lane l).stack.isEmpty with
  | some _ => .trap trapCallDepth 0 0
  | none =>
    takeTargets x (x.s.updGroup x.gk fun g => g.updLanes x.act fun y => { y with stack := y.stack.tail })
      fun l => (top l).getD 0

-- EXIT (R117)
/-- Lanes end: they vote no more and their pending special-function results are discarded. A group with no live lane ends, and
the barriers of its cluster are tested again. -/
def State.endLanes (s : State) (gk : Nat) (m : Mask) : State :=
  let s := s.updGroup gk fun g =>
    let g := g.updLanes m fun y => { y with cond := .ended }
    let tokens := (g.tokens.map fun t => { t with lanes := t.lanes &&& ~~~m }).filter fun t => t.lanes != 0
    let g := { g with tokens := tokens }
    let g : Group := g.closeFrame
    if g.live = 0 then { g with present := false } else g
  s.settleAll (s.group gk).team

def exitEff (x : View) : Eff :=
  let s := x.s.updGroup x.gk fun g => g.updLanes x.act fun y => { y with pc := x.next }
  let s := s.endLanes x.gk x.act
  .jump s ((s.group x.gk).live &&& x.path = 0)

-- SLEEP, YIELD AND REJOIN (R118 to R123)
/-- n of R118. -/
def sleepCount (x : View) : Nat := min (uniform32 x x.f.a) 1048575

def sleepEff (x : View) : Eff :=
  let n := sleepCount x
  .jump (x.s.updGroup x.gk fun g => g.updLanes x.act fun y =>
    { y with pc := x.next, cond := if n = 0 then y.cond else .asleep (x.s0.groupCyc x.g + n) }) true

def yieldEff (x : View) : Eff :=
  .jump (x.s.updGroup x.gk fun g => (g.updLanes x.act fun y => { y with pc := x.next }).demote x.act) true

def jsetEff (x : View) : Eff := .done (writeMask x (maskOpnd x.seen x.f.a.op))

/-- The j register a join names. -/
def joinReg (x : View) : Nat := match x.f.a.op with | .j n => n.toNat | _ => 0

/-- join: arriving lanes that the rejoin mask names park with their program counters at the join; the others pass. A rejoin mask
that differs within a bound segment would give its lanes different outcomes (R126). -/
def joinEff (x : View) : Eff :=
  let park := x.act &&& x.seen.jreg (joinReg x)
  if splits x (fun l => maskBit park l) then limbTrap x else
  .jump (x.s.updGroup x.gk fun g =>
    (g.updLanes (x.act &&& ~~~park) fun y => { y with pc := x.next }).updLanes park fun y =>
      { y with cond := .join (joinReg x) }) (park != 0)

-- BINDING (R125)
def bindEff (x : View) : Eff :=
  let n := uniform32 x x.f.a
  let n := if isImm x.f.a then immInteger 32 x.f else n
  if !([2, 4, 8, 16, 32].contains n) then .trap trapIllegal (headWord x.i x.f) 0
  else if !(x.g.live == BitVec.allOnes 32 && x.path == BitVec.allOnes 32 && x.act == BitVec.allOnes 32) then limbTrap x
  else .done (x.put { x.g1 with binding := n })

def unbindEff (x : View) : Eff :=
  if x.g.binding = 1 then .done x.s
  else if x.act != x.g.live || x.path &&& x.g.live != x.g.live then limbTrap x
  else .done (x.put { x.g1 with binding := 1 })

-- MEANINGS
def execBr (f : Form) (s : State) : Host.Outcome State Fault Refusal := runActing (.br f) f brEff s
def execCall (f : Form) (s : State) : Host.Outcome State Fault Refusal := runActing (.call f) f callEff s
def execRet (f : Form) (s : State) : Host.Outcome State Fault Refusal := runActing (.ret f) f retEff s
def execExit (f : Form) (s : State) : Host.Outcome State Fault Refusal := runActing (.exit f) f exitEff s
def execSleep (f : Form) (s : State) : Host.Outcome State Fault Refusal := runForm (.sleep f) f sleepEff s
def execYield (f : Form) (s : State) : Host.Outcome State Fault Refusal := runForm (.yield f) f yieldEff s
def execJset (f : Form) (s : State) : Host.Outcome State Fault Refusal := runActing (.jset f) f jsetEff s
def execJoin (f : Form) (s : State) : Host.Outcome State Fault Refusal := runActing (.join f) f joinEff s
def execBrx (f : Form) (s : State) : Host.Outcome State Fault Refusal := runActing (.brx f) f brxEff s
def execCallx (f : Form) (s : State) : Host.Outcome State Fault Refusal := runActing (.callx f) f callxEff s
/-- R125 tests the acting lanes themselves, so a guard that is false in every lane diverges too (log entry 54). -/
def execBind (f : Form) (s : State) : Host.Outcome State Fault Refusal := runForm (.bind f) f bindEff s
def execUnbind (f : Form) (s : State) : Host.Outcome State Fault Refusal := runForm (.unbind f) f unbindEff s

-- EVENTS
/-- Sleeping lanes whose deadline has come vote again (R118). -/
def execSleepExpiry (gk : Nat) (s : State) : Host.Outcome State Fault Refusal :=
  let g := s.group gk
  if (s.teamOf g).stopped then .next s else
  .next (s.setGroup gk (g.updLanes g.live fun y => match y.cond with
    | .asleep c => if c ≤ s.groupCyc g then { y with cond := .voting } else y
    | _ => y))

/-- The join tests of a group (R121). -/
def execJoinRelease (gk : Nat) (s : State) : Host.Outcome State Fault Refusal :=
  if (s.teamOf (s.group gk)).stopped then .next s else .next (s.updGroup gk Group.testJoins)

end Sys2Proof.Machine
end

