-- ==== Sys2Proof/Machine/Trans.lean ====
section
/-! DEFINITION. The functions of sfq (R107): each value is computed with 448 fraction bits, kept as an exact value with a sticky rest, and rounded once. -/

namespace Sys2Proof.Machine

/-- Fraction bits of the fixed-point values of this file. -/
def fxBits : Nat := 448

/-- π, ln 2 and 2 ÷ √π as fixed-point numbers. -/
def fxPi : Nat := 0x3243f6a8885a308d313198a2e03707344a4093822299f31d0082efa98ec4e6c89452821e638d01377be5466cf34e90c6cc0ac29b7c97c50dd
def fxLn2 : Nat := 0xb17217f7d1cf79abc9e3b39803f2f6af40f343267298b62d8a0d175b8baafa2be7b876206debac98559552fb4afa1b10ed2eae35c1382144
def fxTwoSqrtPi : Nat := 0x120dd750429b6d11ae3a914fed7fd8688281341d7587cea2e7342b06199cc416180eb39f0b24e1e2281806c12d98f35d77a3e9ddc91c394f0

def fxOne : Nat := 2 ^ fxBits
def fxMul (x y : Nat) : Nat := x * y / 2 ^ fxBits

/-- |x| as a fixed-point number, for a value of at most 2^20. -/
def fxOf (m : Nat) (e : Int) : Nat :=
  if 0 ≤ e + (fxBits : Int) then m * 2 ^ (e + fxBits).toNat else m / 2 ^ (-(e + fxBits)).toNat

/-- A nonzero fixed-point value as an exact value that no format holds (the functions are irrational there). -/
def fxExactOf (neg : Bool) (x : Nat) (k : Int) : Exact :=
  .fin neg (if x = 0 then 1 else x) (k - fxBits) true

/-- Σ x^n ÷ n!, n terms at most, for 0 ≤ x < 1: `t` is the current term. -/
def expTerms (x : Nat) : Nat → Nat → Nat → Nat → Nat
  | 0, _, _, acc => acc
  | k + 1, n, t, acc => if t = 0 then acc else expTerms x k (n + 1) (fxMul t x / (n + 1)) (acc + t)

/-- e^x for 0 ≤ x < 1. -/
def fxExp (x : Nat) : Nat := expTerms x 120 0 fxOne 0

/-- Σ ± x^(2n+b) ÷ (2n+b)!: sine from t = x, b = 1, cosine from t = 1, b = 0. -/
def trigTerms (x2 : Nat) : Nat → Nat → Nat → Int → Int → Int
  | 0, _, _, _, acc => acc
  | k + 1, n, t, sg, acc =>
    if t = 0 then acc else trigTerms x2 k (n + 2) (fxMul t x2 / ((n + 1) * (n + 2))) (-sg) (acc + sg * t)

def fxSin (x : Nat) : Nat := (trigTerms (fxMul x x) 120 1 x 1 0).toNat

/-- 2 Σ z^(2n+1) ÷ (2n+1) = ln((1 + z) ÷ (1 − z)). -/
def atanhTerms (z2 : Nat) : Nat → Nat → Nat → Nat → Nat
  | 0, _, _, acc => acc
  | k + 1, n, t, acc => if t = 0 then acc else atanhTerms z2 k (n + 2) (fxMul t z2) (acc + t / n)

/-- ln x for 1 ≤ x < 2. -/
def fxLn (x : Nat) : Nat :=
  let z := (x - fxOne) * fxOne / (x + fxOne)
  2 * atanhTerms (fxMul z z) 160 1 z 0

/-- Σ ± x^(2n+1) ÷ (n! (2n+1)): `t` is x^(2n+1) ÷ n!. -/
def erfTerms (x2 : Nat) : Nat → Nat → Nat → Int → Int → Int
  | 0, _, _, _, acc => acc
  | k + 1, n, t, sg, acc =>
    if t = 0 then acc else erfTerms x2 k (n + 1) (fxMul t x2 / (n + 1)) (-sg) (acc + sg * (t / (2 * n + 1)))

/-- 2^(k + f), f a fixed-point fraction, as an exact value. -/
def exp2Parts (k : Int) (f : Nat) : Exact := fxExactOf false (fxExp (fxMul f fxLn2)) k

/-- The result above every format, and the one below every format. -/
def hugeResult (neg : Bool) : Exact := .fin neg 1 4096 true
def tinyResult (neg : Bool) : Exact := .fin neg 1 (-4096) true
/-- Just below 1. -/
def nearOne (neg : Bool) : Exact := .fin neg (2 ^ 64 - 1) (-64) true

/-- A signed fixed-point value split at an integer. -/
def splitInt (x : Int) : Int × Nat := (x / (fxOne : Int), (x % (fxOne : Int)).toNat)

def sfExp2 (neg : Bool) (m : Nat) (e : Int) : Exact :=
  if m = 0 then .fin false 1 0 false
  else if 10 ≤ expOf m e then (if neg then tinyResult false else hugeResult false)
  else
    let (k, f) := splitInt (signedMag neg (fxOf m e))
    if f = 0 then .fin false 1 k false else exp2Parts k f

/-- e^x for a fixed-point x, |x| < 2^10. -/
def expFx (x : Int) : Exact :=
  let k := x / (fxLn2 : Int)
  let r := (x % (fxLn2 : Int)).toNat
  fxExactOf false (fxExp r) k

def sfExp (neg : Bool) (m : Nat) (e : Int) : Exact :=
  if m = 0 then .fin false 1 0 false
  else if 10 ≤ expOf m e then (if neg then tinyResult false else hugeResult false)
  else expFx (signedMag neg (fxOf m e))

/-- ln x of m × 2^e as a signed fixed-point number. -/
def lnFx (m : Nat) (e : Int) : Int :=
  let k := expOf m e
  k * (fxLn2 : Int) + (fxLn (fxOf m (e - k)) : Int)

def ofFx (x : Int) : Exact := fxExactOf (decide (x < 0)) x.natAbs 0

def isPow2 (m : Nat) : Bool := m = 2 ^ m.log2

def sfLog2 (m : Nat) (e : Int) : Exact :=
  if isPow2 m then ofSigned false (expOf m e) 0
  else ofFx (lnFx m e * (fxOne : Int) / (fxLn2 : Int))

def sfLog (m : Nat) (e : Int) : Exact :=
  if isPow2 m ∧ expOf m e = 0 then .fin false 0 0 false else ofFx (lnFx m e)

/-- sin(π y) for a fixed-point y, 0 ≤ y ≤ 1/2, exact at 0 and 1/2. -/
def sinPiHalf (neg : Bool) (y : Nat) : Exact :=
  if y = 0 then .fin neg 0 0 false
  else if 2 * y = fxOne then .fin neg 1 0 false
  else fxExactOf neg (fxSin (fxMul y fxPi)) 0

/-- y mod 2 of m × 2^e, as a fixed-point number. -/
def modTwo (m : Nat) (e : Int) : Nat :=
  if 1 ≤ e then 0 else fxOf m e % (2 * fxOne)

def foldHalf (y : Nat) : Nat := if fxOne < 2 * y then fxOne - y else y

/-- sinPi of IEEE 754: an integer gives a zero with the sign of the operand. -/
def sfSinpi (neg : Bool) (m : Nat) (e : Int) : Exact :=
  let y := modTwo m e
  if y % fxOne = 0 then .fin neg 0 0 false
  else if y < fxOne then sinPiHalf neg (foldHalf y)
  else sinPiHalf (!neg) (foldHalf (y - fxOne))

/-- cosPi of IEEE 754: n + 1/2 gives +0. -/
def sfCospi (m : Nat) (e : Int) : Exact :=
  let y := modTwo m e
  -- cos(π y) = sin(π (y + 1/2))
  let z := (y + fxOne / 2) % (2 * fxOne)
  if z % fxOne = 0 then .fin false 0 0 false
  else if z < fxOne then sinPiHalf false (foldHalf z)
  else sinPiHalf true (foldHalf (z - fxOne))

/-- A fixed-point quotient. -/
def fxDiv (x y : Nat) : Nat := x * fxOne / y

/-- e^x as a fixed-point number, for 0 ≤ x < 2^6. -/
def expWhole (x : Nat) : Nat :=
  let k := x / fxLn2
  fxExp (x % fxLn2) * 2 ^ k

def sfTanh (neg : Bool) (m : Nat) (e : Int) : Exact :=
  if m = 0 then .fin neg 0 0 false
  else if 4 ≤ expOf m e then nearOne neg
  else
    let t := expWhole (2 * fxOf m e)
    fxExactOf neg (fxDiv (t - fxOne) (t + fxOne)) 0

def sfSigm (neg : Bool) (m : Nat) (e : Int) : Exact :=
  if m = 0 then .fin false 1 (-1) false
  else if 7 ≤ expOf m e then (if neg then tinyResult false else nearOne false)
  else
    let t := expWhole (fxOf m e)
    if neg then fxExactOf false (fxOne * fxOne * 2 ^ 256 / (fxOne + t)) (-256)
    else fxExactOf false (fxDiv t (fxOne + t)) 0

def sfErf (neg : Bool) (m : Nat) (e : Int) : Exact :=
  if m = 0 then .fin neg 0 0 false
  else if 2 < expOf m e then nearOne neg
  else
    let x := fxOf m e
    fxExactOf neg (fxMul fxTwoSqrtPi (erfTerms (fxMul x x) 420 0 x 1 0).toNat) 0

/-- The function of an sfq (FN 0 to 9) of an f32 operand: its exact value and the flags of its domain errors and poles. -/
def sfExact (fn : Nat) (x : Fv) : Exact × Word :=
  match x with
  | .nan n m _ => (.pass n m, sigFlag [x])
  | .inf neg =>
    match fn with
    | 0 | 2 => if neg then (.fin false 0 0 false, 0) else (.inf false, 0)
    | 1 | 3 => if neg then (.made, flagNV) else (.inf false, 0)
    | 4 | 5 => (.made, flagNV)
    | 6 | 8 => (.fin neg 1 0 false, 0)
    | 7 => if neg then (.fin false 0 0 false, 0) else (.fin false 1 0 false, 0)
    | _ => fpRsq x
  | .fin neg m e =>
    match fn with
    | 0 => (sfExp2 neg m e, 0)
    | 1 => if m = 0 then (.inf true, flagDZ) else if neg then (.made, flagNV) else (sfLog2 m e, 0)
    | 2 => (sfExp neg m e, 0)
    | 3 => if m = 0 then (.inf true, flagDZ) else if neg then (.made, flagNV) else (sfLog m e, 0)
    | 4 => (sfSinpi neg m e, 0)
    | 5 => (sfCospi m e, 0)
    | 6 => (sfTanh neg m e, 0)
    | 7 => (sfSigm neg m e, 0)
    | 8 => (sfErf neg m e, 0)
    | _ => fpRsq x

/-- The f32 result of an sfq and its flags (R107: correctly rounded under rne). -/
def sfResult (fn : Nat) (x : Word) : Word × Word := f32Of (sfExact fn (readF32 x))

end Sys2Proof.Machine
end

