-- ==== Sys2Proof/Machine/Convert.lean ====
section
/-! DEFINITION. Statistics, conversion, MX quantisation, random numbers and the special functions, opcodes 0x8C to 0x95 (R99 to R108). -/

namespace Sys2Proof.Machine

-- STATISTICS (R99, R100)
/-- The triple of a lane in a v register group. -/
def Group.triple (g : Group) (o : Opnd) (l : Nat) : Triple :=
  match o with
  | .v n => { w := g.vreg n.toNat l, m := g.vreg (n.toNat + 1) l, q := g.vreg (n.toNat + 2) l }
  | _ => emptyTriple

def Group.setTriple (g : Group) (o : Opnd) (l : Nat) (t : Triple) : Group :=
  match o with
  | .v n => ((g.setV n.toNat l t.w).setV (n.toNat + 1) l t.m).setV (n.toNat + 2) l t.q
  | _ => g

/-- A triple for each acting lane, with its flags; vk+3 is not written. -/
def writeTriples (x : View) (r : Nat → Triple × Word) : State :=
  x.put ((maskLanes x.act).foldl (fun g l => let t := r l; (g.setTriple x.f.d l t.1).orFlags l t.2) x.g1)

def word (n : Nat) : Word := BitVec.ofNat 32 n

def supdEff (x : View) : Eff :=
  .done (writeTriples x fun l => statUpdate (x.seen.triple x.f.d l) (word (readA x l)) (word (readB x l)))

def smrgEff (x : View) : Eff :=
  .done (writeTriples x fun l => statMerge (x.seen.triple x.f.a.op l) (x.seen.triple x.f.b.op l))

/-- sred: the fixed tree of R69 within each segment; a lane that is not acting gives the empty triple. -/
def sredEff (x : View) : Eff :=
  let size := segSize x.f
  let start := lanes.map fun l => (if maskBit x.act l then x.seen.triple x.f.a.op l else emptyTriple, (0 : Word))
  let t := (List.range size.log2).foldl (fun t k =>
    (List.range (32 / size)).foldl (fun t b => treeStep k (b * size) size t) t) start
  .done (writeTriples x fun l =>
    let r := t.getD (l - l % size) (emptyTriple, 0)
    (r.1.normal, r.2))

def sfinEff (x : View) : Eff :=
  match x.f.d with
  | .v n =>
    .done (x.put ((maskLanes x.act).foldl (fun g l =>
      let r := statFinal (x.seen.triple x.f.a.op l) (word (readB x l))
      ((g.setV n.toNat l r.1.1).setV (n.toNat + 1) l r.1.2).orFlags l r.2) x.g1))
  | _ => .done x.s

-- CONVERSION (R101, R102)
/-- The bits of a group of consecutive registers in a lane, or of an s register or immediate that stands for a side. -/
def sideBits (x : View) (src : Src) (ty : Ty) (regs w l : Nat) : Nat :=
  match src.op with
  | .v n => (List.range regs).foldl (fun a i => a + (x.seen.vreg (n.toNat + i) l).toNat * 2 ^ (32 * i)) 0
  | o => rawOpnd x (if w = 64 then .n64 else ty) o l

/-- An element's modifiers, by the source type; `w` its width in bits. -/
def modSide (ty : Ty) (src : Src) (w x : Nat) : Nat :=
  if src.neg || src.abs then modElem ty src.neg src.abs w x else x

/-- A floating value of an integer element. -/
def intFv (n : Int) : Fv := .fin (decide (n < 0)) n.natAbs 0

/-- One element converted (R57, R58, R60, R74, R101). -/
def cvtElem (f : Form) (mode : Mode) (u : Nat) (E : Int) (code : Nat) : Nat × Word :=
  let sub := cvtSub f
  let srcT := tyOfCode f.fn.toNat
  if sub = 3 then
    match fmtOf srcT with
    | some fm => f32ToFx mode u E (fm.read code)
    | none => (0, 0)
  else if sub = 4 then
    let z := finishFp .f32 .rne 0 f.ds f.dc (fxExact E code)
    z
  else
    let srcInt := sub = 1 || (fmtOf srcT).isNone
    let v : Fv :=
      if sub = 1 then intFv (signedNat 4 code)
      else match fmtOf srcT with
        | some fm => fm.read code
        | none => intFv (intVal srcT.signed srcT.width code)
    if sub = 2 ∨ (fmtOf f.ty).isNone then
      let w := if sub = 2 then 4 else f.ty.width
      let sg := sub = 2 || f.ty.signed
      if srcInt then
        let n := if sub = 1 then signedNat 4 code else intVal srcT.signed srcT.width code
        let r := saturate sg w n
        (wrapInt w r.1, if r.2 then flagNV else 0)
      else fpToInt mode u sg w (exactOf v)
    else
      match fmtOf f.ty with
      | some fm =>
        let z := finishFp fm mode u f.ds f.dc (exactOf v)
        (z.1, sigFlag [v] ||| z.2)
      | none => (0, 0)

/-- The bits of an element that its register field holds; a 6-bit element ignores bits [7:6] (R102). -/
def elemBits (f : Form) : Nat :=
  if cvtSub f = 1 then 4 else if cvtSub f = 4 then 64 else (tyOfCode f.fn.toNat).width

def cvtEff (x : View) : Eff :=
  let f := x.f
  let mode := roundingOf f
  let n := cvtCount f
  let ws := cvtSrcWidth f
  let wd := cvtDstWidth f
  let srcT := if cvtSub f = 1 then .i8 else tyOfCode f.fn.toNat
  let one := fun (l : Nat) =>
    let bits := sideBits x f.a srcT (cvtRegs n ws) ws l
    let E := signedNat 8 (if isImm f.b then immLane f.ty f else readAs x .n32 f.b l)
    (List.range n).foldl (fun (r : Nat × Word) e =>
      let u := match mode with | .rsr => x.rnd l (if wd = 64 then 0 else e % (32 / wd)) | _ => 0
      let z := cvtElem f mode u E (modSide srcT f.a (elemBits f) (bitsAt bits (e * ws) (elemBits f)))
      (r.1 + z.1 % 2 ^ wd * 2 ^ (e * wd), r.2 ||| z.2)) ((0 : Nat), (0 : Word))
  let s := match f.d with
    | .v n0 =>
      x.put ((maskLanes x.act).foldl (fun g l =>
        let r := one l
        ((List.range (cvtRegs n wd)).foldl (fun g i => g.setV (n0.toNat + i) l (word (r.1 / 2 ^ (32 * i)))) g).orFlags l r.2) x.g1)
    | _ => writeEach x (if wd = 64 then .n64 else f.ty) one
  .done (bumpRcnt x mode s)

-- MX QUANTISATION (R103, R104)
/-- The element format of a type; `none` is MXINT8. -/
def mxFmt (ty : Ty) : Option Fmt := fmtOf ty

/-- DEDUCED (log entry 64): A is an FP32 value whatever the type, its 96-bit immediate too. -/
def mxqEff (x : View) : Eff :=
  let mode := roundingOf x.f
  let fm := mxFmt x.f.ty
  let val := fun (l : Nat) => readF32 (word (readAs x .f32 x.f.a l))
  let vals := (maskLanes x.act).map val
  let s :=
    if vals.any Fv.isNaN then
      writeEach x .n32 fun l => (0xFF * 256, sigFlag [val l])
    else
      let amax := vals.foldl (fun a v => magMax a (mxMag v)) (0, 0)
      let sc := mxScale fm amax
      writeEach x .n32 fun l =>
        let u := match mode with | .rsr => x.rnd l 0 | _ => 0
        let z := mxQuant fm mode u sc (val l)
        (z.1 % 256 + sc * 256, z.2)
  .done (bumpRcnt x mode s)

def mxdqEff (x : View) : Eff :=
  .done (writeEach x .n32 fun l =>
    let a := readAs x .n32 x.f.a l
    let v := mxElem (mxFmt x.f.ty) (a % 2 ^ x.f.ty.width) (bitsAt a 8 8)
    match v with
    | .nan .. => (canonNaN.toNat, 0)
    | v => roundTo .f32 .rne 0 (exactOf v))

-- RANDOM NUMBERS (R105)
def rndEff (x : View) : Eff :=
  let val := fun (l : Nat) =>
    rndValue (BitVec.ofNat 64 (readAs x .n64 x.f.a l)) (BitVec.ofNat 64 (readAs x .n64 x.f.b l))
  match x.f.fn.toNat with
  | 0 => .done (writeEach x .n64 fun l => ((val l).toNat, 0))
  | 1 => .done (writeEach x .f32 fun l => ((roundTo .f32 .rne 0 (.fin false ((val l).toNat / 2 ^ 40) (-24) false)).1, 0))
  | _ => .done (writeMaskEach x fun l => (decide (readC x .n32 l % 2 ^ 24 ≤ (val l).toNat / 2 ^ 40), 0))

-- SPECIAL FUNCTIONS (R106 to R108)
/-- The queue of a group slot. -/
def sfQueue (slot : Nat) : Nat := slot % 32 / 4

/-- The tokens that other groups of the core hold in a queue: a saved group's tokens left the queue with it (R262). -/
def State.queueUse (s : State) (gk : Nat) : Nat :=
  let g := s.group gk
  let core := s.groupCore g
  let placed := fun (p : Group) =>
    let st := (s.cluster (s.clusterOf (s.launchOf p) p.team)).stage
    st == .running || st == .leaving
  (s.groups.filter fun p =>
    p.1 != gk && p.2.present && s.groupCore p.2 == core && placed p.2 && sfQueue p.2.slot == sfQueue g.slot).foldl
    (fun a p => a + p.2.tokens.length) 0

/-- Retire a token: each result to the destination in the lanes that acted, with its flags (R108). An s destination takes
the value of the lowest lane. -/
def retireToken (t : Token) (g : Group) : Group :=
  let r := fun l => sfResult t.fn (mapGet 0 t.args l)
  let g := match t.dst with
    | .s n => match maskLanes t.lanes with
              | l :: _ => g.setS n.toNat (sExtend .f32 (r l).1.toNat)
              | [] => g
    | .v n => (maskLanes t.lanes).foldl (fun g l => g.setV n.toNat l (r l).1) g
    | _ => g
  let g := (maskLanes t.lanes).foldl (fun g l => g.orFlags l (r l).2) g
  { g with tokens := g.tokens.filter (·.num != t.num) }

def Group.token (g : Group) (n : Nat) : Option Token := g.tokens.find? (·.num == n)

/-- Retire the held tokens of a mask in increasing number. -/
def retireMask (names : Nat) (g : Group) : Group :=
  (List.range 16).foldl (fun g n => if names.testBit n then (match g.token n with | some t => retireToken t g | none => g) else g) g

/-- Whether a named, held token has no result yet. -/
def awaits (names : Nat) (g : Group) : Bool := g.tokens.any fun t => names.testBit t.num && !t.arrived

/-- sfq: a pending token of the new number retires first; the group waits for it, and for an entry of a full queue. -/
def sfqEff (x : View) : Eff :=
  let n := x.g.sfcnt % 16
  if awaits (2 ^ n) x.g then .wait x.s0 .token
  else if 16 ≤ x.s0.queueUse x.gk + (x.g.tokens.filter (·.num != n)).length then .wait x.s0 .token
  else
    -- the sources are read with the retiring token's result, which an earlier instruction gave (R80)
    let y := { x with seen := retireMask (2 ^ n) x.seen }
    let g := markAll x.i x.f x.act (retireMask (2 ^ n) (x.s0.group x.gk))
    let args := (maskLanes x.act).map fun l => (l, word (readAs y .f32 x.f.a l))
    let tok : Token := { num := n, fn := x.f.fn.toNat, dst := x.f.d, lanes := x.act, args := args, arrived := false }
    let g : Group := match x.f.d with
      | .v r => (maskLanes x.act).foldl (fun (g : Group) l => g.setV r.toNat l poison) g
      | .s r => g.setS r.toNat (BitVec.ofNat 64 poisonNat)
      | _ => g
    let g : Group := match x.f.b.op with
      | .s r => g.setS r.toNat (BitVec.ofNat 64 n)
      | _ => g
    .done (x.put { g with tokens := g.tokens ++ [tok], sfcnt := g.sfcnt + 1 })

/-- The tokens an sfw names, as a mask of 16 numbers. -/
def sfwNames (x : View) : Nat :=
  let a := if isImm x.f.a then x.f.x6.toNat else uniform32 x x.f.a
  match x.f.fn.toNat with
  | 0 => 2 ^ (a % 16)
  | 1 => a % 2 ^ 16
  | _ => 2 ^ 16 - 1

def sfwEff (x : View) : Eff :=
  let names := sfwNames x
  if awaits names x.g then .wait x.s0 .token
  else .done (x.put (retireMask names x.g1))

-- MEANINGS
def execSupd (f : Form) (s : State) : Host.Outcome State Fault Refusal := runActing (.supd f) f supdEff s
def execSmrg (f : Form) (s : State) : Host.Outcome State Fault Refusal := runActing (.smrg f) f smrgEff s
def execSred (f : Form) (s : State) : Host.Outcome State Fault Refusal := runActing (.sred f) f sredEff s
def execSfin (f : Form) (s : State) : Host.Outcome State Fault Refusal := runActing (.sfin f) f sfinEff s
def execCvt (f : Form) (s : State) : Host.Outcome State Fault Refusal := runActing (.cvt f) f cvtEff s
def execMxq (f : Form) (s : State) : Host.Outcome State Fault Refusal := runActing (.mxq f) f mxqEff s
def execMxdq (f : Form) (s : State) : Host.Outcome State Fault Refusal := runActing (.mxdq f) f mxdqEff s
def execRnd (f : Form) (s : State) : Host.Outcome State Fault Refusal := runActing (.rnd f) f rndEff s
def execSfq (f : Form) (s : State) : Host.Outcome State Fault Refusal := runActing (.sfq f) f sfqEff s
/-- sfw is unguarded, and retires tokens whichever path issues it (R108). -/
def execSfw (f : Form) (s : State) : Host.Outcome State Fault Refusal := runForm (.sfw f) f sfwEff s

end Sys2Proof.Machine
end

