-- ==== Sys2Proof/Machine/EvClock.lean ====
section
/-! DEFINITION. Clocks, the frame and the timebase (R274, R282, R311 to R318, R345). -/

namespace Sys2Proof.Machine

-- CLOCK REGIONS (R311 to R314)
/-- The bench-edge regions of the four dies: row 15 on C0 and C1, row 0 on C2 and C3 (R313). -/
def edgeBays : List Nat := [12, 13, 14, 15, 28, 29, 30, 31, 32, 33, 34, 35, 48, 49, 50, 51]

/-- The greatest %cyc of a bench-edge region. -/
def State.edgeCyc (s : State) : Nat := edgeBays.foldl (fun a b => max a (s.bay b).cyc) 0

/-- A frequency change armed for %cyc value `at_`, or refused (R313). -/
def State.armFreq (s : State) (code at_ : Nat) : State :=
  if at_ % 4096 != 0 || at_ < s.edgeCyc + 65536 || 4 < code || (s.tb.refLost && code != 4) then
    { s with clock := { s.clock with refused := true } }
  else { s with clock := { s.clock with pend := true, next := code, at_ := at_, made := [], refused := false } }

/-- A change that the bench steward schedules through CLKSCHED and CLKFREQ, at the first %cyc value that may be armed (R313, R364). -/
def State.scheduleFreq (s : State) (code : Nat) : State :=
  let c := (s.edgeCyc + 65536 + 4095) / 4096 * 4096
  { s with clock := { s.clock with count := BitVec.ofNat 64 c } }.armFreq code c

/-- A write of CLKFREQ (R313). -/
def execClkfreqWrite (val : DWord) (s : State) : Host.Outcome State Fault Refusal :=
  let s := s.openExpert 0
  .next (s.armFreq (val.toNat % 16) s.clock.count.toNat)

/-- A region is to change to code 4 at its present cycle (R314). -/
def State.forceDue (s : State) (bay : Nat) : Bool := s.clock.forced.contains bay && (s.bay bay).cyc % 4096 == 0

/-- The code a region is to change to at its present cycle. -/
def State.freqDue (s : State) (bay : Nat) : Option Nat :=
  if s.forceDue bay then some 4
  else if s.clock.pend && s.clock.at_ ≤ (s.bay bay).cyc && !s.clock.made.contains bay then some s.clock.next else none

/-- A region changes frequency at the start of its own cycle C (R313), or of a multiple of 4,096 (R314); the change is over
once every region has made it. -/
def execClockFreqChange (bay : Nat) (s : State) : Host.Outcome State Fault Refusal :=
  match s.freqDue bay with
  | none => .next s
  | some code =>
    let c := s.clock
    let t := s.updBay bay fun b => { b with freq := code }
    if s.forceDue bay then
      let rest := c.forced.filter (· != bay)
      .next { t with clock := { c with forced := rest, cur := if rest.isEmpty then 4 else c.cur } }
    else
      let made := bay :: c.made
      let all := (List.range 64).all made.contains
      .next { t with clock := if all then { c with pend := false, cur := code, made := [] } else { c with made := made } }

/-- The droop monitor stretches the region's present cycle: at most 8 of any 64 (R312). -/
def execCycleStretch (bay : Nat) (s : State) : Host.Outcome State Fault Refusal :=
  let b := s.bay bay
  let recent := b.stretch.filter fun c => b.cyc < c + 64
  if 8 ≤ recent.length then .next s else .next (s.setBay bay { b with stretch := recent ++ [b.cyc] })

/-- No reference edge for 100 ns (R314). -/
def execRefLoss (s : State) : Host.Outcome State Fault Refusal :=
  let s := { s with tb := { s.tb with refLost := true }, clock := { s.clock with pend := false, made := [], forced := List.range 64 } }
  .next (s.logOpen 7 0)

/-- The reference has run for 1 s (R314). -/
def execRefRestored (s : State) : Host.Outcome State Fault Refusal :=
  .next { s with tb := { s.tb with refLost := false } }

-- STATES OF THE TIMEBASE (R316)
/-- The timebase enters FAILED, which raises the telemetry interrupt; its exchanges are over. -/
def State.failTime (s : State) : State :=
  { s with tb := { s.tb with state := 3, reacq := false, asked := [], retry := false } }.enterFailed.logOpen 7 0

/-- The fallback oscillator fails too (R314): the counter stands still. -/
def execFallbackOscFail (s : State) : Host.Outcome State Fault Refusal :=
  if s.tb.refLost then .next { s.failTime with clock := { s.clock with stopped := true } } else .next s

/-- eps exceeds EPSFAIL. -/
def State.epsOver (s : State) : Bool := (s.tb.state == 1 || s.tb.state == 2) && decide (s.tb.epsfail < s.tb.eps)
def execEpsFail (s : State) : Host.Outcome State Fault Refusal := if s.epsOver then .next s.failTime else .next s

/-- Ticks of an exchange period (R317). -/
def Timebase.period (t : Timebase) : Nat := 250 * 2 ^ t.pxlog

/-- No exchange has succeeded for two periods. -/
def State.holdoverDue (s : State) : Bool :=
  s.tb.state == 1 && decide (2 * s.tb.period ≤ (s.tb.est - s.tb.lastOk).toNat)
def execHoldoverEntry (s : State) : Host.Outcome State Fault Refusal :=
  if s.holdoverDue then .next ({ s with tb := { s.tb with state := 2 } }.logOpen 7 0) else .next s

/-- TBCMD reacquire has an effect in FAILED alone. -/
def execTbcmdReacquire (s : State) : Host.Outcome State Fault Refusal :=
  let s := s.openExpert 0
  .next (if s.tb.state = 3 then { s with tb := { s.tb with reacq := true } } else s)

def execTbcmdForceFailed (s : State) : Host.Outcome State Fault Refusal := .next (s.openExpert 0).failTime

-- WHAT PASSING TICKS BRING (R282, R345)
/-- Exchanges that have no reply when pitch 0 ends have failed (R317). -/
def Timebase.endPitch (t : Timebase) : Timebase := { t with asked := [], retry := t.retry || t.asked.any (·.first) }

/-- The team whose window holds the word that the injection registers arm (R350). -/
def State.armedTeam (s : State) : Option Nat :=
  if !s.inject.arm then none else
  (s.teams.find? fun p =>
    let l := s.launch (teamLaunch p.1)
    p.2.present && teamIndex p.1 == s.inject.team && l.fn == s.inject.fn && l.ctx == s.inject.ctx &&
    decide (4 * s.inject.off < l.r.lsz) && (s.cluster (s.clusterOf l p.1)).onCores && !s.clusterOver (s.clusterOf l p.1)).map (·.1)

/-- The scrub of pitch 4 (R224): it reads every vault word within 10 s, 10^7 frames, so it finds an armed word by then; which
words it reads in a frame the spec does not say (log entry 68). -/
def State.scrub (s : State) : State :=
  match s.armedTeam with
  | none => s
  | some tk =>
    let d := s.draw
    if d.1.getLsbD 0 || s.tb.est.toNat / 250 % 10000000 = 0 then d.2.findsAlone tk (4 * s.inject.off) else d.2

/-- est has reached, since it was `a`, a tick that is `k` of its frame. -/
def Timebase.reached (t : Timebase) (a k : Nat) : Bool := decide ((a + 250 - k) / 250 < (t.est.toNat + 250 - k) / 250)

/-- What the ticks that est has passed since it was `a` bring: the end of pitch 0, after which no exchange travels; the start of the
frame; the stamped traffic that pitches 1 and 2 have had to carry, at their last tick (R321; log entry 14); the scrub of pitch 4; the
draining of pitch 5. -/
def State.pitches (s : State) (a : Nat) : State :=
  let s := if s.tb.pitch = 0 then s else
    { s with tb := s.tb.endPitch, outbox := s.outbox.filter fun l => match l.msg with | .timeAsk .. | .timeReply .. => false | _ => true }
  let s := if s.tb.reached a 0 then { s with agenda := s.agenda ++ [.event .frameStart] } else s
  let s := if s.tb.reached a 29 then { s with agenda := s.agenda ++ [.stamped] } else s
  let s := if s.tb.reached a 40 then s.scrub else s
  if s.tb.reached a 50 then (mapKeys s.cores).foldl State.drainRing s else s

-- EXCHANGES (R317)
/-- The centre c and the bound b of an exchange, or of a time-input edge, against the present interval. -/
def State.intersect (s : State) (c b : Int) : State :=
  let t := s.tb
  let est : Int := t.est.toNat
  if t.state = 3 then
    if !t.reacq then s
    else
      let s := { s with tb := { t with est := BitVec.ofInt 64 c, epsx := b.toNat, tx := BitVec.ofInt 64 c, state := 1, reacq := false
                                       lastOk := BitVec.ofInt 64 c } }
      -- an est that goes back enters its frame anew
      s.pitches (if s.tb.est.toNat < t.est.toNat then s.tb.est.toNat / 250 * 250 - 1 else t.est.toNat)
  else
    let lo := max (est - t.eps) (c - b)
    let hi := min (est + t.eps) (c + b)
    if hi < lo then { s with tb := { t with conflict := true } }.failTime
    else
      let e := (lo + hi) / 2
      { s with tb := { t with est := BitVec.ofInt 64 e, epsx := (hi - e).toNat, tx := BitVec.ofInt 64 e, state := 1
                              lastOk := BitVec.ofInt 64 e } }.pitches t.est.toNat

/-- The child asks the module at a parent port; a port that cannot answer fails the exchange at once. -/
def State.askTime (s : State) (p : Nat) (first : Bool) : State :=
  let t := s.tb
  if s.portUp p then
    let a : Asked := { port := p, t1 := t.est, first := first }
    { s with tb := { t with asked := t.asked ++ [a] } }.post (s.port p).peerPkg (.timeAsk t.est 0)
  else { s with tb := { t with retry := t.retry || first } }

/-- Whether this module exchanges: in a pod, without a time input, and not FAILED but for a reacquire. -/
def Timebase.exchanges (t : Timebase) : Bool := t.pod && !t.ref && (t.state != 3 || t.reacq)

def execTimebaseExchange (s : State) : Host.Outcome State Fault Refusal :=
  .next (if s.tb.exchanges then s.askTime s.tb.par0 true else s)

/-- One extra exchange with PAR1 in the frame after a failed one with PAR0. -/
def execPar1Exchange (s : State) : Host.Outcome State Fault Refusal :=
  .next (if s.tb.exchanges && s.tb.retry then { s with tb := { s.tb with retry := false } }.askTime s.tb.par1 false else s)

/-- The parent answers with its own stamps and its eps, which its port writes as the reply leaves. -/
def execExchangeAtParent (i : Nat) (s : State) : Host.Outcome State Fault Refusal :=
  match s.net[i]? with
  | some { msg := .timeAsk t1 t2, from_ := src, .. } =>
    let s := { s with net := s.net.eraseIdx i }
    .next (s.post src (.timeReply t1 t2 s.tb.est (BitVec.ofNat 64 s.tb.epsRead) 0))
  | _ => .next s

/-- The reply reaches the child; one from a FAILED parent is a failed exchange. -/
def execExchangeReply (i : Nat) (s : State) : Host.Outcome State Fault Refusal :=
  match s.net[i]? with
  | some { msg := .timeReply t1 t2 t3 eps t4, from_ := src, .. } =>
    let s := { s with net := s.net.eraseIdx i }
    match s.tb.asked.find? fun a => a.t1 == t1 && (s.port a.port).peerPkg == src with
    | none => .next s
    | some a =>
      let s := { s with tb := { s.tb with asked := s.tb.asked.erase a } }
      if eps.toNat = allOnes64 then .next { s with tb := { s.tb with retry := s.tb.retry || a.first } }
      else
        let th := (((t2.toNat : Int) - t1.toNat) + ((t3.toNat : Int) - t4.toNat)) / 2
        .next (s.intersect (t4.toNat + th) ((eps.toNat : Int) + 1 + 1))
  | _ => .next s

/-- A reference module takes the frame's edge as c, with b = REFEPS. -/
def execTimeInputEdge (edge : DWord) (s : State) : Host.Outcome State Fault Refusal :=
  let t := { s with tb := { s.tb with edge := true, tinLost := false } }
  if !s.tb.ref then .next s
  else if s.tb.pod then .next (t.intersect edge.toNat s.tb.refeps)
  else .next t

-- REGISTERS (R318)
def execTbcfgWrite (val : DWord) (s : State) : Host.Outcome State Fault Refusal :=
  let s := s.openExpert 0
  .next { s with tb := { s.tb with newCfg := some val } }

def State.stampedMapped (s : State) : Bool := s.ctxs.any fun p => p.2.enabled && s.hasStamped 5 p.2.root

/-- A TBLIM that breaks its ranges, or changes DLVB while a stamped page is mapped, is discarded whole. -/
def execTblimWrite (val : DWord) (s : State) : Host.Outcome State Fault Refusal :=
  let s := s.openExpert 0
  let d := bitsAt val.toNat 16 16
  if d < 256 || val.toNat % 2 ^ 16 = 0 || (d != s.tb.dlvb && s.stampedMapped) then .next s
  else .next { s with tb := { s.tb with newLim := some val } }

/-- TBCFG takes effect: a change of POD or REF enters FAILED, or ALONE when POD becomes 0. -/
def Timebase.setCfg (t : Timebase) (v : Nat) : Timebase :=
  let pod := bitOf v 49
  let ref := bitOf v 48
  let px := bitsAt v 44 4
  let t' := { t with pod := pod, ref := ref, pxlog := if px ≤ 10 then px else 6, par1 := bitsAt v 40 4, par0 := bitsAt v 36 4
                     drift := bitsAt v 16 16, driftfb := bitsAt v 0 16, newCfg := none }
  if pod != t.pod || ref != t.ref then { t' with state := if pod then 3 else 0, reacq := false, asked := [], retry := false } else t'

def Timebase.setLim (t : Timebase) (v : Nat) : Timebase :=
  { t with epsfail := bitsAt v 40 24, refeps := bitsAt v 32 8, dlvb := bitsAt v 16 16, epslim := bitsAt v 0 16, newLim := none }

/-- What was written since the last frame takes effect. -/
def Timebase.latch (t : Timebase) : Timebase :=
  let t := match t.newCfg with | some v => t.setCfg v.toNat | none => t
  match t.newLim with | some v => t.setLim v.toNat | none => t

-- THE FRAME (R282) AND THE TICK
/-- The 1 µs frame begins: registers take effect (R318), and pitch 0 has the scheduled exchange and the extra one that the last
frame's failure asks for, in this very frame alone (R317). -/
def execFrameStart (s : State) : Host.Outcome State Fault Refusal :=
  let t := s.tb.endPitch.latch
  let t := { t with tinLost := t.ref && !t.edge, edge := false }
  let s' := { s with tb := { t with retry := t.retry && t.exchanges } }
  let s' := if t.state == 3 && s.tb.state != 3 then s'.enterFailed else s'
  let now := if !t.exchanges then [] else
    (if t.retry then [Move.event .par1Exchange] else []) ++
    (if t.est.toNat / 250 * 250 % t.period = 0 then [Move.event .timebaseExchange] else [])
  .next { s' with agenda := s'.agenda ++ now }

/-- est advances by one tick (R315). -/
def execTimebaseTick (s : State) : Host.Outcome State Fault Refusal :=
  if s.clock.stopped then .next s else .next ({ s with tb := { s.tb with est := s.tb.est + 1 } }.pitches s.tb.est.toNat)

end Sys2Proof.Machine
end

