-- ==== Sys2Proof/Machine/EvLinks.lean ====
section
/-! DEFINITION. Pod ports and dovetail links (R8, R286 to R288, R327, R341), the messages that a port brings in, and the configuration of the pod (R12). -/

namespace Sys2Proof.Machine

-- CHECKPOINTS OF ANOTHER MODULE (R360)
/-- As the buddy, the module's bench steward reserves the two slots and writes one; it acknowledges every byte, or none in the safe state. -/
def State.takeCheckpoint (s : State) (l : Letter) : State :=
  match l.msg with
  | .ckWrite base slot bs =>
    if s.health.pstate = 2 || 3 * 2 ^ 39 < base + 768 * 2 ^ 30 then s.postLetter { l with to_ := l.from_, from_ := s.pkg, msg := .ckAck false }
    else
      { s with ck := { s.ck with kept := some base } }.setMemBytes (2 ^ 52 + base + slot * (384 * 2 ^ 30)) bs |>.postLetter
        { l with to_ := l.from_, from_ := s.pkg, msg := .ckAck true }
  | _ => s

/-- A checkpoint goes to the buddy. -/
def State.toBuddy (s : State) (l : Letter) : State := if l.to_ = s.pkg then s.takeCheckpoint l else s.postLetter l

-- WHAT ARRIVES
/-- A message for this module: a version, a remote read and an acceptance take effect at once; every other waits for its event. -/
def State.deliver (s : State) (l : Letter) : State :=
  if l.to_ != s.pkg then { s with outbox := s.outbox ++ [l] } else
  match l.msg with
  | .remoteRead fn ctx off t grp va seq =>
    match s.remotePlace fn ctx off with
    | none => s.post l.from_ (.reject grp va seq)
    | some a =>
      if (s.badRead [.stamped a]).isSome then s.post l.from_ (.readPoison grp seq) else
      let r := pickVersion (s.versions (a / 64)) t
      s.post l.from_ (.readReply grp seq r.1 r.2)
  | .remoteVersion .. => s.takeVersion l
  | .ckWrite .. => s.takeCheckpoint l
  -- the port stamps what arrives (R317)
  | .timeAsk t1 _ => { s with net := s.net ++ [{ l with msg := .timeAsk t1 s.tb.est }] }
  | .timeReply t1 t2 t3 eps _ => { s with net := s.net ++ [{ l with msg := .timeReply t1 t2 t3 eps s.tb.est }] }
  | .stampReply grp true st =>
    { s with pendings := s.pendings.filter fun p => !(p.grp == grp && p.kind == 4 && p.group == st.toNat) }
  | .numbered _ _ _ id sender =>
    -- a number that a store of this module carries (R228)
    { (if sender = s.pkg then s.updPending id fun p => { p with placed := true } else s) with net := s.net ++ [l] }
  | _ => { s with net := s.net ++ [l] }

/-- Sequence numbers from `a` up to `b`, mod 4,096. -/
def seqDist (a b : Nat) : Nat := (b + 4096 - a % 4096) % 4096

/-- Flits up to a sequence number are acknowledged (R287). -/
def Port.acked (p : Port) (seq : Nat) : Port :=
  { p with buffer := p.buffer.filter fun f => !decide (seqDist f.seq seq < 512) }

/-- The fields of a flit (R286). -/
def flitSeq (f : Flit) : Nat := field f.raw 0 2 % 4096
def flitTyp (f : Flit) : Nat := field f.raw 0 2 / 4096
def flitAck (f : Flit) : Nat := field f.raw 2 2 % 4096
def flitNak (f : Flit) : Bool := bitOf (field f.raw 2 2) 12

/-- A flit of 256 bytes whose CRC holds and whose TYPE is not reserved. -/
def flitOk (f : Flit) : Bool := f.raw.length == 256 && field f.raw 252 4 == crc32 (f.raw.take 252) && decide (flitTyp f < 7)

/-- A letter of a flit's payload is delivered. One that was sent again in place of a link to this module is not, where that link's
port has accepted its flit already (R288). -/
def State.accept1 (s : State) (l : Letter) : State :=
  let mine := l.again.filter (·.1 == s.pkg)
  if mine.any fun a => decide (seqDist a.2.2 (s.port a.2.1).lastIn < 2048) then s
  else (mine.foldl (fun s a => s.setPort a.2.1 { s.port a.2.1 with lastIn := a.2.2 }) s).deliver
    { l with again := l.again.filter (·.1 != s.pkg) }

/-- The 256 bytes of a flit that a port sends (R286). -/
def FlitSent.bytes (f : FlitSent) : List Byte :=
  let pay := match f.part with | some p => Config.payload p.1 p.2 | Option.none => []
  let bs := bytesOf 2 (f.seq % 4096 + 4096 * f.typ) ++ bytesOf 2 (f.ack % 4096 + b2d f.nak 12) ++ (pay ++ List.replicate 248 0).take 248
  bs ++ bytesOf 4 (crc32 bs)

/-- A flit goes on the link, with the number of the last that the port has accepted, and the NAK it owes (R286). -/
def Port.transmit (p : Port) (f : FlitOut) : Port :=
  { p with wire := p.wire ++ [{ seq := f.seq, typ := f.typ, ack := p.lastIn, nak := p.owed == some true, part := f.part }], owed := Option.none }

/-- The next flit in order: it stays in the replay buffer until it is acknowledged (R287); 2^20 flits are a window (R288). -/
def Port.put (p : Port) (typ : Nat) (part : Option (Letter × Nat)) (last : Bool) : Port :=
  let f : FlitOut := { seq := p.nextSeq, typ := typ, part := part, last := last, tries := 0 }
  let full := decide (2 ^ 20 ≤ p.sent + 1)
  { p.transmit f with
    buffer := p.buffer ++ [f], nextSeq := (p.nextSeq + 1) % 4096, sent := (p.sent + 1) % 2 ^ 20
    window := if full then 0 else p.window, raised := if full then false else p.raised }

/-- An idle flit carries an acknowledgement, or a NAK, once there is room for it (R286, R287; log entry 66). -/
def Port.answer (p : Port) (nak : Bool) : Port :=
  let p := { p with owed := some (nak || p.owed == some true) }
  if p.buffer.length < 512 then p.put 0 Option.none false else p

/-- The flits of the buffer go out again, in order, which is one replay (R287, R288). -/
def State.replay (s : State) (port : Nat) : State :=
  let p := s.port port
  let p := p.buffer.foldl Port.transmit { p with
    buffer := p.buffer.map fun f => { f with tries := f.tries + 1 }, replays := min (p.replays + 1) (2 ^ 32 - 1), window := p.window + 1 }
  { s.setPort port p with agenda := s.agenda ++ [.event (.replayThreshold port)] }

/-- A NAK: every buffered flit after the one it names goes out again (R287). -/
def State.nak (s : State) (port seq : Nat) : State := (s.setPort port ((s.port port).acked seq)).replay port

/-- What a port owes its far end for a flit that it has accepted: any but an idle one is acknowledged. -/
def Port.accepted (p : Port) (typ : Nat) : Port :=
  match p.owed with
  | some nak => p.answer nak
  | Option.none => if typ = 0 then p else p.answer false

/-- A port accepts a flit in order, and answers any other with a NAK that names the last it accepted (R286, R287). -/
def execFlitReceive (port : Nat) (flit : Flit) (s : State) : Host.Outcome State Fault Refusal :=
  let p := s.port port
  if p.state != 2 then .next s
  else if !flitOk flit || flitSeq flit != (p.lastIn + 1) % 4096 then .next (s.setPort port (p.answer true))
  else
    let s := s.setPort port ({ p.acked (flitAck flit) with lastIn := flitSeq flit }.accepted (flitTyp flit))
    .next (flit.body.foldl State.accept1 (if flitNak flit then s.nak port (flitAck flit) else s))

-- WHAT LEAVES
/-- The port to a module: one whose far module it is, or else the first that is up. -/
def State.portTo (s : State) (pkg : Nat) : Option Nat :=
  match (List.range 12).find? fun p => s.portUp p && (s.port p).peerPkg == pkg with
  | some p => some p
  | none => (List.range 12).find? s.portUp

/-- The data bytes that a transaction carries (log entry 66). -/
def storeSize : McStore → Nat
  | .bytes ws => ws.length
  | .cas offs _ _ => 2 * offs.length

def msgSize : Msg → Nat
  | .version .. | .remoteVersion .. | .readReply .. => 64
  | .mcst _ st _ _ | .mcsq _ st _ | .numbered _ _ st _ _ => storeSize st
  | .mldrAnswer _ _ vals _ _ | .mldrReply _ vals _ _ => 8 * vals.length
  | .chunk _ _ _ _ _ _ bytes _ => bytes.length
  | .resyncCopy _ _ bytes => bytes.length
  | .ckWrite _ _ bytes => bytes.length
  | .join _ _ _ list _ _ _ => 2 * list.length
  | _ => 0

/-- The flits that a transaction spans (R286). -/
def msgFlits (m : Msg) : Nat := max 1 ((msgSize m + 247) / 248)

/-- The TYPE of a message's flits (R286; log entry 66). -/
def msgType (m : Msg) : Nat :=
  match m with
  | .remoteRead .. | .readReply .. | .readPoison .. => 1
  | .version .. | .remoteVersion .. => 2
  | .mcst .. | .mcstAck .. | .mcsq .. | .numbered .. | .applied .. | .seqReply .. | .seqDone .. | .seqFail .. | .seqCancel .. => 3
  | .mldr .. | .mldrAsk .. | .mldrAnswer .. | .mldrReply .. => 4
  | .chunk .. | .chunkAck .. => 5
  | _ => 6

/-- The module that a message is to reach next: the far end of a link that it takes the place of, or its receiver. -/
def State.via (s : State) (l : Letter) : Nat := (l.again.find? fun a => !s.unreachable a.1).elim l.to_ (·.1)

/-- The port stamps an exchange as it leaves (R317). -/
def State.stampOut (s : State) (m : Msg) : State × Msg :=
  match m with
  | .timeAsk t1 t2 =>
    ({ s with tb := { s.tb with asked := s.tb.asked.map fun a => if a.t1 == t1 then { a with t1 := s.tb.est } else a } }, .timeAsk s.tb.est t2)
  | .timeReply t1 t2 _ _ t4 => (s, .timeReply t1 t2 s.tb.est (BitVec.ofNat 64 s.tb.epsRead) t4)
  | m => (s, m)

/-- A message leaves as the flits it spans, the last of which completes it; with 512 flits unacknowledged nothing new is sent
(R287), and what is left of the message waits. -/
def State.sendFlit (s : State) (l : Letter) : State × Option Letter :=
  match s.portTo (s.via l) with
  | none => (s, some l)
  | some k =>
    let p := s.port k
    let all := msgFlits l.msg
    let n := min (all - l.parts) (512 - p.buffer.length)
    let r := s.stampOut l.msg
    let m := { l with msg := r.2, parts := 0 }
    let p := (List.range n).foldl (fun p i => p.put (msgType m.msg) (some (m, l.parts + i)) (l.parts + i + 1 == all)) p
    if l.parts + n = all then (r.1.setPort k p, none) else (s.setPort k p, some { l with parts := l.parts + n })

/-- A message for a module that no route reaches is lost; one that asks for a stamped line is rejected (R288, R327). -/
def bounced (l : Letter) : Option Msg :=
  match l.msg with
  | .remoteVersion _ _ _ _ grp va => some (.reject grp va 0)
  | .remoteRead _ _ _ _ grp va seq => some (.reject grp va seq)
  | _ => none

/-- What a message travels with (R282): 0 exchanges of the timebase, in pitch 0, 1 stamped traffic, in pitches 1 and 2, 2 all else. -/
def msgClass (m : Msg) : Nat :=
  match m with
  | .timeAsk .. | .timeReply .. => 0
  | .version .. | .remoteVersion .. => 1
  | _ => 2

/-- A class of messages may travel now. -/
def State.travels (s : State) (c : Nat) : Bool := match c with | 0 => s.tb.pitch == 0 | 1 => s.stampedPitch | _ => true

/-- Messages of a class leave in the order of their receivers for as long as they may travel and their ports take them; `held` are
those that wait. -/
def State.flushFrom (s : State) (held : List Letter) : List Letter → State
  | [] => { s with outbox := held }
  | l :: ls =>
    if s.unreachable l.to_ then
      match bounced l with
      | none => s.flushFrom held ls
      | some m =>
        let r : Letter := { to_ := l.from_, from_ := s.pkg, msg := m }
        if r.to_ = s.pkg then { s with net := s.net ++ [r] }.flushFrom held ls else s.flushFrom (held ++ [r]) ls
    else if !s.travels (msgClass l.msg) || held.any (fun h => s.via h == s.via l && msgClass h.msg == msgClass l.msg) then
      s.flushFrom (held ++ [l]) ls
    else
      let r := s.sendFlit l
      match r.2 with
      | none => r.1.flushFrom held ls
      | some x => r.1.flushFrom (held ++ [x]) ls

/-- Program traffic leaves last (R282). -/
def State.flush (s : State) (ls : List Letter) : State :=
  let prog := fun (l : Letter) => msgClass l.msg == 2
  s.flushFrom [] (ls.filter (fun l => !prog l) ++ ls.filter prog)

/-- Retraining begins (R288): the switch sends the port's unacknowledged messages by the other ports, each with the sequence number
it had, and what is left of a message that went by it all over. The flits stay in the buffer. -/
def State.retrain (s : State) (port : Nat) : State :=
  let p := s.port port
  let ls := p.buffer.filterMap fun f =>
    if f.last then f.part.map fun q => { q.1 with again := (p.peerPkg, p.peer, f.seq) :: q.1.again } else none
  let rest := s.outbox.map fun l => if s.portTo (s.via l) == some port then { l with parts := 0 } else l
  let s := s.setPort port { p with
    state := 3, buffer := p.buffer.map fun f => { f with tries := 0 }, since := s.tb.est.toNat }
  { s with outbox := ls ++ rest }.logOpen 1 port

/-- A NAK reaches a port. -/
def execNakReceive (port seq : Nat) (s : State) : Host.Outcome State Fault Refusal := .next (s.nak port seq)

/-- The replay count of a window passes 16, or 256; or a flit has had 8 replays with no acknowledgement (R288). -/
def execReplayThreshold (port : Nat) (s : State) : Host.Outcome State Fault Refusal :=
  let p := s.port port
  if p.state != 2 then .next s
  else
    let s := if 16 < p.window && !p.raised then (s.setPort port { p with cei := true, raised := true }).logOpen 0 port else s
    .next (if p.window = 257 || p.buffer.any (fun f => 8 ≤ f.tries) then s.retrain port else s)

/-- A port in training or retraining comes up, and sends what its buffer holds: the sequence numbers keep a transaction that went
another way from being accepted twice (R288). -/
def execPortRetrainComplete (port : Nat) (s : State) : Host.Outcome State Fault Refusal :=
  let p := s.port port
  if p.state = 1 ∨ p.state = 3 then
    let s := s.setPort port { p with state := 2 }
    .next (if p.buffer.isEmpty then s else s.replay port)
  else .next s

/-- Retraining has lasted 10 ms, which is 2,500,000 ticks. -/
def State.retrainOver (s : State) (port : Nat) : Bool :=
  (s.port port).state == 3 && decide ((s.port port).since + 2500000 ≤ s.tb.est.toNat)

/-- The port is declared down. -/
def execPortRetrainTimeout (port : Nat) (s : State) : Host.Outcome State Fault Refusal :=
  if s.retrainOver port then .next ((s.setPort port { s.port port with state := 0, buffer := [] }).logOpen 1 port) else .next s

-- DOVETAIL LINKS (R8, R341)
/-- The links of R8, by number, which is the model's choice (log entry 70): 0 to 31 are the rows of the pair edges, 32 to 35 the
bench links, 36 to 43 the stack links, two for each die. -/
def linkCount : Nat := 44

/-- The pair that the retirement of a link takes out of every partition: a bench link takes its die and the die's pair partner (R341).
DESIGN CHOICE (log entry 70): so does a stack link, and the launches on the partner stop with it. -/
def linkPair (link : Nat) : Nat := if link < 32 then link / 16 else if link < 36 then (link - 32) / 2 else (link - 36) / 4

/-- A beat that failed parity is replayed: with success nothing changes; eight failures retire the link. -/
def execDovetailParityReplay (link : Nat) (ok : Bool) (s : State) : Host.Outcome State Fault Refusal :=
  let n := mapGet 0 s.links link
  if 8 ≤ n || linkCount ≤ link then .next s
  else if ok then .next { s with links := mapSet 0 s.links link 0 }
  else if n + 1 < 8 then .next { s with links := mapSet 0 s.links link (n + 1) }
  else .next { s with links := mapSet 0 s.links link 8, agenda := s.agenda ++ [.event (.dovetailLinkRetire link)] }

/-- A launch with a team on a pair. -/
def State.usesPair (s : State) (lk pair : Nat) : Bool :=
  s.clusters.any fun p => p.2.launch == lk && p.2.onCores && p.2.cores.any (dieOf · / 2 == pair)

/-- A link is retired (R341): the launches on its dies end with 0x1D08, the pair leaves every partition, and the event is
logged. -/
def execDovetailLinkRetire (link : Nat) (s : State) : Host.Outcome State Fault Refusal :=
  if mapGet 0 s.links link ≠ 8 then .next s else
  let pair := linkPair link
  let hit := (s.launches.filter fun p => p.2.active && s.usesPair p.1 pair).map (·.1)
  let s := hit.foldl (fun s lk => s.killLaunch lk trapLinkUncorr) s
  let s := (mapKeys s.fns).foldl (fun s f => s.updFn f fun x => { x with part := if bitOf x.part pair then x.part - 2 ^ pair else x.part }) s
  let s := { s with links := mapSet 0 s.links link 9 }
  .next (s.logErr 2 link (BitVec.ofNat 64 link) [])

/-- The bench steward assigns the module's %pkg (R12). -/
def execPodConfigure (index : Nat) (s : State) : Host.Outcome State Fault Refusal := .next { s with pkg := index % 2 ^ 12 }

end Sys2Proof.Machine
end

