-- ==== Sys2Proof/Machine/EvLife.lean ====
section
/-! DEFINITION. Self-test, firmware, attestation and secure sessions, checkpoints and recovery, power and temperature (R285, R343, R356 to R364). -/

namespace Sys2Proof.Machine

-- FIRMWARE (R358)
def Firmware.other (f : Firmware) : Nat := 1 - f.active

/-- The image of a bank: header of 64 bytes, body, signature. -/
def Firmware.image (f : Firmware) (bank : Nat) : List Byte := mapGet (Config.firmwareImage bank) f.banks bank
def fwLength (d : List Byte) : Nat := field d 12 8
def fwSvn (d : List Byte) : Nat := field d 8 4

/-- The header and the body of an image, which its signature covers. -/
def fwSigned (d : List Byte) : List Byte := d.take (64 + fwLength d)

/-- The header keeps its form and the signature verifies. -/
def fwGood (d : List Byte) : Bool :=
  field d 0 4 == 0x57465844 && ((d.take 64).drop 20).all (· == 0) &&
  verifyWith firmwareKey (sha256 (fwSigned d)) (d.drop (64 + fwLength d))

/-- Whether the ROM runs the image of a bank: one whose signature verifies, at or above the fuse's minimum. -/
def Firmware.runs (f : Firmware) (bank : Nat) : Bool := fwGood (f.image bank) && decide (f.fuse ≤ fwSvn (f.image bank))

/-- The bank that step 1 of R356 runs: the active one, or the other where that fails or its image is abandoned after three boots in a
row short of step 6; none where neither image runs. -/
def Firmware.rom (f : Firmware) : Option Nat :=
  if f.runs f.active && !(decide (3 ≤ f.boots) && f.runs f.other) then some f.active
  else if f.runs f.other then some f.other else none

/-- A boot begins: its image raises the fuse, and it has not reached step 6 yet. -/
def Firmware.start (f : Firmware) : Firmware :=
  match f.rom with
  | none => f
  | some b => { f with active := b, fuse := max f.fuse (fwSvn (f.image b)), boots := if b = f.active then f.boots + 1 else 1 }

/-- A write of FWCMD: with STAGE the image at the host address goes to the inactive bank, unless one is being verified. -/
def execFwStage (val : DWord) (s : State) : Host.Outcome State Fault Refusal :=
  let s := s.openExpert 0
  if !bitOf val.toNat 0 || s.fw.st = 1 then .next s else
  let a := 2 ^ 53 + s.fw.base.toNat % 2 ^ 52
  let n := fwLength (s.memBytes a 64)
  .next { s with fw := { s.fw with banks := mapInsert s.fw.banks s.fw.other (s.memBytes a (64 + n + 64)), st := 1 } }

/-- Verification ends: staged, bad signature or below the minimum SVN. -/
def execFwVerifyComplete (s : State) : Host.Outcome State Fault Refusal :=
  let f := s.fw
  let d := f.image f.other
  if f.st ≠ 1 then .next s
  else .next { s with fw := { f with st := if !fwGood d then 3 else if fwSvn d < f.fuse then 4 else 2 } }

/-- What a reset makes of the firmware: a staged image becomes the active one. -/
def Firmware.atReset (f : Firmware) : Firmware :=
  { f with st := 0, active := if f.st = 2 then f.other else f.active, base := 0, boots := if f.st = 2 then 0 else f.boots }

-- SELF-TEST (R356, R357)
/-- The step of R356 that finds a failing unit; firmware that fails, bit 58 too, is found by step 1. -/
def unitStep (bit : Nat) : Nat := if bit < 8 then 6 else if bit < 40 then 5 else if bit < 58 then 4 else if bit = 59 then 2 else 3

/-- The failing units of a self-test. -/
def failing (units : DWord) : List Nat := (List.range 61).filter units.getLsbD

/-- The module as a reset leaves it: firmware banks keep their images. -/
def State.afterReset (s : State) : State := { State.reset with fw := s.fw.atReset, frees := s.frees, picks := s.picks }

/-- Ports are trained; what lies at their far ends is not the module's to say (log entry 12). -/
def State.trainPorts (s : State) : State :=
  (List.range 12).foldl (fun s p =>
    let d := s.draw
    d.2.setPort p { s.port p with state := 1, peer := d.1.toNat % 12, peerPkg := d.1.toNat / 16 % 4096 }) s

/-- Self-test from power-good, or from a reset when it has begun before: `units` are the units that will fail. -/
def execPowerUpSelfTest (units : DWord) (s : State) : Host.Outcome State Fault Refusal :=
  let s := if s.health.diag = 1 && s.health.test.isNone then s else s.afterReset
  .next { s with health := { s.health with test := some (1, units) } }

/-- A step has found some units that fail (R357). -/
def Health.found (h : Health) (step : Nat) (bad : List Nat) : Health :=
  let u := bad.foldl (fun u b => u ||| BitVec.ofNat 64 (2 ^ b)) h.diagu
  { h with diagu := u, nfail := (failing u).length, first := if h.first = 0 && !bad.isEmpty then step else h.first }

/-- Self-test is over: the module runs, or is in the safe state. -/
def State.selfTestOver (s : State) : State :=
  if s.health.nfail = 0 then { s with health := { s.health with pstate := 1, diag := 0, test := none } }.trainPorts
  else { s with health := { s.health with pstate := 2, diag := 2, test := none } }

/-- One step of the self-test, which writes DIAGST and DIAGU; step 1 starts a bank's firmware, and a boot with no failure before step 6
reaches it. -/
def State.selfTestStep (s : State) : State :=
  match s.health.test with
  | none => s
  | some (k, units) =>
    let bad := (failing units).filter (unitStep · == k) ++ if k = 1 && s.fw.rom.isNone then [58] else []
    let fw := if k = 1 then s.fw.start else if k = 6 && s.health.first = 0 then { s.fw with boots := 0 } else s.fw
    let s := { s with fw := fw, health := { s.health.found k bad with test := some (k + 1, units) } }
    if k < 6 then s else s.selfTestOver

-- SECURE SESSIONS (R285, R343, R359)
/-- An answer of the security block on a function's mailbox. -/
def State.respond (s : State) (fn : Nat) (st : Spdm) (bs : List Byte) : State :=
  s.updFn fn fun f => { f with spdm := st, spdmLog := bs :: f.spdmLog }

/-- A request that comes before the ones it depends on changes nothing. -/
def State.spdmStep (s : State) (fn : Nat) (need : List Spdm) (st : Spdm) (bs : List Byte) : Host.Outcome State Fault Refusal :=
  if need.contains (s.fn fn).spdm then .next (s.respond fn st bs) else .next s

/-- The states in which algorithms have been agreed. -/
def agreed : List Spdm := [.negotiated, .keyed, .secure]

/-- Versions 1.2 and 1.3. -/
def execGetVersion (fn : Nat) (s : State) : Host.Outcome State Fault Refusal := .next (s.respond fn .versioned [0x12, 0x13])

/-- The capabilities that R359 gives, in SPDM's encoding (log entry 12). -/
def execGetCapabilities (fn : Nat) (s : State) : Host.Outcome State Fault Refusal :=
  s.spdmStep fn [.versioned] .capable (Config.spdmReply 0)

/-- ECDSA P-256, SHA-256 and AES-256-GCM, in SPDM's encoding (log entry 12). -/
def execNegotiateAlgorithms (fn : Nat) (s : State) : Host.Outcome State Fault Refusal :=
  s.spdmStep fn [.capable] .negotiated (Config.spdmReply 1)

/-- The number of the alias key, which derives from the measurement of the running firmware (R359); those of other keys are below 2^8. -/
def State.aliasKey (s : State) : Nat := 2 ^ 8 + ofBytesBE (sha256 (fwSigned (s.fw.image s.fw.active)))

/-- The key of a certificate slot: the alias key, or the image key of R343. -/
def State.slotKey (s : State) (slot : Nat) : Nat := if slot = 0 then s.aliasKey else imageKey

/-- The certificate chain of a slot. -/
def State.chain (s : State) (slot : Nat) : List Byte := Config.certificate slot (s.slotKey slot)

/-- The digests of the two certificate slots. -/
def execGetDigests (fn : Nat) (s : State) : Host.Outcome State Fault Refusal :=
  s.spdmStep fn agreed (s.fn fn).spdm (sha256 (s.chain 0) ++ sha256 (s.chain 1))

/-- The chain of slot 0 or 1. -/
def execGetCertificate (fn slot : Nat) (s : State) : Host.Outcome State Fault Refusal :=
  if 2 ≤ slot then .next s else s.spdmStep fn agreed (s.fn fn).spdm (s.chain slot)

/-- A challenge signed with the key of a slot. -/
def execChallenge (fn slot : Nat) (nonce : List Byte) (s : State) : Host.Outcome State Fault Refusal :=
  if 2 ≤ slot then .next s
  else s.spdmStep fn agreed (s.fn fn).spdm (signWith (s.slotKey slot) (sha256 (s.chain slot ++ nonce)))

/-- A code of a TDI's state. -/
def tdiCode : Tdi → Nat
  | .unlocked => 0 | .locked => 1 | .run => 2 | .error => 3

/-- The content of a measurement (R359). -/
def State.measure (s : State) (fn index : Nat) : List Byte :=
  let f := s.fn fn
  let d := s.fw.image s.fw.active
  match index with
  | 1 => Config.romDigest
  | 2 => sha256 (fwSigned d)
  | 3 => sha256 (Config.stewardPart d)
  | 4 => bytesOf 4 (fwSvn d) ++ bytesOf 4 s.fw.fuse
  | _ => bytesOf 8 f.part ++ bytesOf 8 f.tslice ++ bytesOf 8 (tdiCode f.tdi)

def execGetMeasurements (fn index : Nat) (s : State) : Host.Outcome State Fault Refusal :=
  if 1 ≤ index ∧ index ≤ 5 then s.spdmStep fn agreed (s.fn fn).spdm (s.measure fn index) else .next s

def execKeyExchange (fn : Nat) (share : List Byte) (s : State) : Host.Outcome State Fault Refusal :=
  let d := s.draw
  d.2.spdmStep fn [.negotiated] .keyed (bytesOf 8 d.1.toNat ++ signWith s.aliasKey (sha256 share))

def execFinish (fn : Nat) (_mac : List Byte) (s : State) : Host.Outcome State Fault Refusal := s.spdmStep fn [.keyed] .secure []

def execEndSession (fn : Nat) (s : State) : Host.Outcome State Fault Refusal := s.spdmStep fn [.secure] .negotiated []

/-- A session message configures a stream (R285): H = 0, with counter 0 marked accepted; up to 64 for each context, and none
while the TDI is in RUN (R284). -/
def execStreamConfig (fn ctx num : Nat) (key salt : List Byte) (s : State) : Host.Outcome State Fault Refusal :=
  let ck := ctxKey fn ctx
  let c := s.ctx ck
  let rest := c.streams.filter (·.num != num)
  if (s.fn fn).spdm != .secure || (s.fn fn).tdi == .run || !c.enabled || 4096 ≤ num || 64 ≤ rest.length then .next s
  else .next (s.setCtx ck { c with streams := rest ++ [{ num := num, key := key, salt := salt, high := 0, win := 1 }] })

/-- A session message sets the dump key (R343). -/
def execDumpKeySet (fn : Nat) (key : List Byte) (s : State) : Host.Outcome State Fault Refusal :=
  if (s.fn fn).spdm != .secure then .next s else .next (s.updFn fn fun f => { f with dumpKey := some key })

-- CHECKPOINTS (R360)
/-- A write of CKT arms a checkpoint, unless one is armed or in progress. -/
def execCktWrite (val : DWord) (s : State) : Host.Outcome State Fault Refusal :=
  let s := s.openExpert 0
  if s.ck.busy || !s.ck.en then .next s else .next { s with ck := { s.ck with t := val, busy := true, stage := 1 } }

/-- Ranges of CKLIST: context, virtual base, length; the first zero length ends it. None where the list's device address cannot be
read (R365). -/
def State.ckRanges (s : State) : Nat → Nat → Option (List (Nat × Nat × Nat))
  | 0, _ => some []
  | fuel + 1, a => (s.devBytes a 16).bind fun e =>
    let b := field e 0 8
    let n := field e 8 8
    if n = 0 then some [] else (s.ckRanges fuel (a + 16)).map fun rest => (bitsAt b 60 4, b % 2 ^ 57, n) :: rest

/-- A byte of a range: of a stamped line as an rdat at T would read it (R157); none where no page of memory holds it. -/
def State.ckByte (s : State) (ck va : Nat) : Option Byte :=
  match s.walkPage ck (va / 2 ^ 16) with
  | .error _ => none
  | .ok t =>
    let a := t.addr + va % 2 ^ 16
    some (if t.stmp then (pickVersion (s.versions (a / 64)) s.ck.t).1.bytes.getD (a % 64) 0 else s.memByte a)

/-- The bytes of a range from its place `i` on. -/
def State.ckRange (s : State) (r : Nat × Nat × Nat) : Option (List Byte) :=
  (List.range r.2.2).foldr (fun i a => (s.ckByte r.1 (r.2.1 + i)).bind fun b => a.map (b :: ·)) (some [])

/-- The bytes of every range, in the order of the list. -/
def State.ckData (s : State) : Option (List Byte) :=
  (s.ckRanges 256 s.ck.list.toNat).bind fun rs =>
    rs.foldr (fun r a => (s.ckRange r).bind fun b => a.map (b ++ ·)) (some [])

/-- The saved state of every team: the sections of its image (log entry 23). -/
def State.ckTeams (s : State) : List Byte := (mapKeys s.teams).flatMap fun tk => (s.imageSections tk).flatten

/-- What goes to the buddy: the header, the saved teams, the ranges, and the digest of all of it (log entry 23). -/
def State.ckBytes (s : State) : Option (List Byte) := s.ckData.map fun ranges =>
  let rest := s.ckTeams ++ ranges
  let body := bytesOf 4 0x4B435844 ++ bytesOf 4 s.pkg ++ bytesOf 8 s.ck.t.toNat ++ bytesOf 8 rest.length ++ rest
  body ++ sha256 body

/-- Every cluster that holds cores, on the resume list or over. -/
def State.allSaved (s : State) : Bool := s.clusters.all fun p => !p.2.onCores || s.clusterOver p.1

/-- No group is held for a stamp up to T (R361). -/
def State.holdsOver (s : State) : Bool :=
  s.groups.all fun p => match p.2.hold with | some st => decide (s.ck.t.toNat < st.toNat) | none => true

/-- A checkpoint moves on: earliest has passed T, with no hold of a stamp up to T left, and the clusters leave; all have left and
earliest has passed T + D, and the state is written to the buddy's other slot. -/
def State.ckReady (s : State) : Bool :=
  (s.ck.stage == 1 && decide (s.ck.t.toNat < s.tb.earliest) && s.holdsOver) ||
  (s.ck.stage == 2 && s.allSaved && decide (s.ck.t.toNat + s.tb.dlvb < s.tb.earliest))

/-- The checkpoint in progress did not complete: FAIL, and the clusters resume. -/
def Check.failed (c : Check) : Check := { c with stage := 0, busy := false, fail := true, next := none }

/-- What the module holds of its launches (R360). -/
def State.snapshot (s : State) : Snap :=
  { groups := s.groups, teams := s.teams, clusters := s.clusters, launches := s.launches }

/-- The clusters leave; then the state goes to the buddy, and the clusters resume. A list or a range that cannot be read, a slot larger than
384 GiB and a buddy that is unreachable fail the checkpoint. -/
def execCheckpointStart (s : State) : Host.Outcome State Fault Refusal :=
  if !s.ckReady then .next s
  else if s.ck.stage = 1 then
    .next { (s.clusters.foldl (fun s p => s.leave p.1) s) with ck := { s.ck with stage := 2 } }
  else match s.ckBytes with
    | none => .next { s with ck := s.ck.failed }
    | some bs =>
      if 384 * 2 ^ 30 < bs.length || s.unreachable s.ck.buddy then .next { s with ck := s.ck.failed }
      else
        let s := { s with ck := { s.ck with stage := 3, next := some s.snapshot } }
        .next (s.toBuddy { to_ := s.ck.buddy, from_ := s.pkg, msg := .ckWrite s.ck.base.toNat (1 - s.ck.slot) bs })

/-- The buddy acknowledges every byte, or the checkpoint fails. -/
def execCheckpointComplete (ack : Bool) (s : State) : Host.Outcome State Fault Refusal :=
  let s := { s with net := s.net.filter (·.msg != .ckAck ack) }
  if s.ck.stage ≠ 3 then .next s
  else if ack then
    let slot := 1 - s.ck.slot
    .next { s with ck := { s.ck with stage := 0, busy := false, slot := slot, last := s.ck.t, next := none
                                     snaps := mapSet none s.ck.snaps slot s.ck.next } }
  else .next { s with ck := s.ck.failed }

-- RECOVERY (R362, R363)
/-- Every membership is marked stale, and its resync asked for. -/
def State.resyncAll (s : State) : State :=
  s.members.foldl (fun s p => match p.2 with
    | some m => (s.setMember p.1 (some { m with stale := true })).post m.root (.resyncStart p.1 m.rank)
    | none => s) s

/-- Whether the last 32 bytes of a checkpoint are the digest of the ones before them (R360, R363). -/
def digestGood (bytes : List Byte) : Bool :=
  decide (32 ≤ bytes.length) && bytes.drop (bytes.length - 32) == sha256 (bytes.take (bytes.length - 32))

/-- The bytes of the ranges with their places: the last bytes before the digest. -/
def rangeImage (places : List Nat) (bytes : List Byte) : List (Nat × Byte) :=
  places.zip ((bytes.take (bytes.length - 32)).drop (bytes.length - 32 - places.length))

/-- A byte restored at a place of memory; of one of some stamped lines the home then retains one version, of stamp 0 (log entry
23). -/
def State.restoreByte (stamped : List Nat) (s : State) (p : Nat × Byte) : State :=
  if stamped.contains (p.1 / 64) then
    let v := (pickVersion (s.versions (p.1 / 64)) s.ck.t).1
    { s with lines := mapSet [Version.zero] s.lines (p.1 / 64) [{ Version.zero with bytes := v.bytes.set (p.1 % 64) p.2 }] }
  else s.setMemByte p.1 p.2

/-- Some bytes restored at their places. -/
def State.restoreBytes (s : State) (image : List (Nat × Byte)) : State :=
  image.foldl (State.restoreByte (mapKeys s.lines)) s

/-- The saved teams take the module's launches over (R362). -/
def State.restoreTeams (s : State) (k : Snap) : State :=
  { (mapKeys s.launches).foldl State.clearRun s with groups := k.groups, teams := k.teams, clusters := k.clusters, launches := k.launches }

/-- Every launch of the module ends FAULTED with ACCESS (R363). -/
def State.loseLaunches (s : State) : State :=
  s.launches.foldl (fun s p => if p.2.active then s.killLaunch p.1 trapAccess else s) s

/-- The slot a restore reads: that of the last complete checkpoint, or the older one. -/
def Check.slotOf (c : Check) (older : Bool) : Nat := if older then 1 - c.slot else c.slot

/-- The saved teams that the bytes of another module's checkpoint hold: their layout is that module's (log entries 12, 23). -/
opaque savedTeams (bytes : List Byte) : Option Snap

/-- The spare restores the failed module's checkpoint; where the digest does not match, the launches it holds end with ACCESS (R363). -/
def State.restoreSpare (s : State) (r : Restore) : State :=
  let good := digestGood r.bytes
  let s := s.restoreBytes (if good then rangeImage r.places r.bytes else [])
  let s := match savedTeams r.bytes with | some k => s.restoreTeams k | none => s
  if good then { s with ck := { s.ck with spare := false } } else s.loseLaunches

/-- A module of the job restores a slot of its own; where the digest does not match, or the slot holds nothing, its launches end with
ACCESS and the slot is not used again (R363). -/
def State.restoreOwn (s : State) (r : Restore) : State :=
  let slot := s.ck.slotOf r.older
  match (if digestGood r.bytes then mapGet none s.ck.snaps slot else none) with
  | some k => ((s.restoreBytes (rangeImage r.places r.bytes)).restoreTeams k).resyncAll
  | none => { s.loseLaunches.resyncAll with ck := { s.ck with snaps := mapSet none s.ck.snaps slot none } }

/-- A module has failed and the pod recovers (R362). The spare, which has passed self-test, takes the failed module's %pkg, and once its
timebase is LOCKED it restores; the management repeats the event until then, and with the older slot after a mismatch. Every other module of
the job restores a slot of its own. -/
def execModuleFailureTakeover (failed : Nat) (r : Restore) (s : State) : Host.Outcome State Fault Refusal :=
  let chosen := r.spare == s.pkg && failed != s.pkg && s.health.pstate == 1
  if chosen || (s.ck.spare && failed == s.pkg) then
    let s := { s with pkg := failed % 2 ^ 12, ck := { s.ck with spare := true } }
    .next (if s.tb.state = 1 then s.restoreSpare r else s)
  else if failed = s.pkg || r.spare = s.pkg then .next s
  else .next (s.restoreOwn r)

-- POWER AND TEMPERATURE (R364)
/-- TLPWR holds every reading. Above 3.6 kW: matrix issue is paced, and after that the frequency code rises. -/
def execPowerLimitExceeded (watts : Nat) (s : State) : Host.Outcome State Fault Refusal :=
  let h := { s.health with watts := watts, pacing := s.health.pacing || decide (3600 < watts) }
  if watts ≤ 3600 then .next { s with health := h }
  else if !s.health.pacing then .next ({ s with health := { h with before := s.clock.cur } }.logOpen 7 0)
  else .next (({ s with health := h }.scheduleFreq (min (s.clock.cur + 1) 4)).logOpen 7 0)

/-- 5 % below the limit for 10 ms: the settings return. -/
def execPowerLimitCleared (watts : Nat) (s : State) : Host.Outcome State Fault Refusal :=
  let done := s.health.pacing && decide (watts ≤ 3420)
  let t := { s with health := { s.health with watts := watts, pacing := s.health.pacing && !done } }
  .next (if !done || s.clock.cur = s.health.before then t else t.scheduleFreq s.health.before)

/-- TLTMP holds every reading. At 105 °C code 4 is scheduled. -/
def execThermalThrottle (tj : Nat) (s : State) : Host.Outcome State Fault Refusal :=
  let s := { s with health := { s.health with tj := tj } }
  .next (if tj < 105 then s else (s.scheduleFreq 4).logOpen 7 0)

/-- At 115 °C the module's power is removed, with no completion block. -/
def execThermalTrip (tj : Nat) (s : State) : Host.Outcome State Fault Refusal :=
  .next { s with health := { s.health with tj := tj, powered := s.health.powered && decide (tj < 115) } }

end Sys2Proof.Machine
end

