-- ==== Sys2Proof/Machine/Collect.lean ====
section
/-! DEFINITION. Collective scripts, opcode 0xE7 (R185 to R187), and their steps, credits and chunks (R297 to R301, R366). -/

namespace Sys2Proof.Machine

-- THE SCRIPTS OF A MODULE
def State.script (s : State) (c h : Nat) : Option Script := s.scripts.find? fun x => ctxKey x.fn x.ctx == c && x.handle == h

def State.putScript (s : State) (x : Script) : State :=
  { s with scripts := s.scripts.map fun y => if y.fn == x.fn && y.ctx == x.ctx && y.handle == x.handle then x else y }

def Script.ck (x : Script) : Nat := ctxKey x.fn x.ctx

/-- The name of a script in its module, which credit carries to its senders and chunks bring back. -/
def Script.name (x : Script) : Nat := 1024 * x.handle + x.ck

def SStep.none : SStep :=
  { slot := 0, kind := .end_, len := 0, k := 0, pm := 0, tag := 0, kl := false, am := 0, addr := 0, k2 := 0, pm2 := 0, kl2 := false,
    tag2 := 0, addr2 := 0 }

def Script.step (x : Script) : SStep := x.steps.getD x.cur SStep.none
/-- The end step, which gives the status array. -/
def Script.endStep (x : Script) : SStep := x.steps.getLastD SStep.none

/-- The loop counter c0. -/
def Script.c0 (x : Script) : Nat := mapGet 0 x.ctrs 0

/-- A peer by PM, K and KL (R297): none with PM = 00. -/
def Script.peerOf (x : Script) (pm k : Nat) (kl : Bool) : Option Nat :=
  let k := k + (if kl then x.c0 else 0)
  match pm with
  | 0 => Option.none
  | 1 => some ((x.rank + k) % x.size)
  | 2 => some ((x.rank + x.size - k % x.size) % x.size)
  | _ => some ((x.rank ^^^ k) % x.size)

def Script.peer (x : Script) (t : SStep) : Option Nat := x.peerOf t.pm t.k t.kl

/-- The address of a step's buffer (R297). -/
def Script.addrOf (x : Script) (t : SStep) : Nat :=
  let m := match t.am with
    | 0 => 0
    | 1 => x.rank
    | 2 => (x.peer t).getD 0
    | _ => x.c0
  (t.addr + m * t.len) % 2 ^ 64

/-- Whether a step receives chunks. -/
def SStep.receives (t : SStep) : Bool := t.kind == .recv || t.kind == .rrs || t.kind == .wait

/-- The chunks of `len` bytes; an empty send has one. -/
def chunksOf (len : Nat) : Nat := max 1 ((len + 4095) / 4096)

/-- The count at which a receiving step is armed (R298). -/
def SStep.count (t : SStep) : Nat := if t.kind == .wait then t.len else chunksOf t.len

/-- The membership of a script's group. -/
def State.scriptMember (s : State) (x : Script) : Option Member :=
  match s.member x.group with
  | some m => if ctxKey m.fn m.ctx = x.ck then some m else none
  | none => none

/-- RLIM of the group, which bounds every wait (R297). -/
def State.scriptLimit (s : State) (x : Script) : Nat := match s.scriptMember x with | some m => m.rlim | none => 2500

-- CREDITS (R299)
/-- The module of a rank of a script's group. -/
def State.rankPkg (s : State) (x : Script) (rank : Nat) : Option Nat :=
  match s.scriptMember x with
  | some m => m.list[rank]?
  | none => none

/-- A letter to every rank, or to one. -/
def State.toRanks (s : State) (x : Script) (to_ : Option Nat) (msg : Nat → Msg) : State :=
  let ranks := match to_ with | some r => [r] | none => List.range x.size
  ranks.foldl (fun s r => match s.rankPkg x r with | some p => s.post p (msg r) | none => s) s

/-- The credit that a step gives a rank. -/
def Script.creditOf (x : Script) (t : SStep) (r : Nat) : Credit :=
  { group := x.group, giver := x.rank, taker := r, tag := t.tag, step := t.slot, script := x.name }

def State.grant (s : State) (x : Script) (t : SStep) : State :=
  if t.receives then s.toRanks x (x.peer t) fun r => .credit (x.creditOf t r) else s

def State.withdraw (s : State) (x : Script) (t : SStep) : State :=
  if t.receives then s.toRanks x none fun r => .uncredit (x.creditOf t r) else s

def Script.armOf (x : Script) (slot : Nat) : Option Nat := (x.arms.find? (·.1 == slot)).map (·.2)
def Script.setArm (x : Script) (slot n : Nat) : Script := { x with arms := (x.arms.filter (·.1 != slot)) ++ [(slot, n)] }
def Script.stepAt (x : Script) (slot : Nat) : Option SStep := x.steps.find? (·.slot == slot)

/-- Every armed step takes its credit back. -/
def State.withdrawAll (s : State) (x : Script) : State :=
  x.steps.foldl (fun s t => if (x.armOf t.slot).getD 0 = 0 then s else s.withdraw x t) s

/-- A counter set to `n` above zero: its step grants credit. -/
def State.armStep (s : State) (x : Script) (slot n : Nat) : State :=
  let s := s.putScript (x.setArm slot n)
  match x.stepAt slot with
  | some t => if (x.armOf slot).getD 0 = 0 then s.grant x t else s
  | none => s

-- MEMORY OF A SCRIPT (R366)
/-- An access that fails: with a page fault of a kind, or otherwise. -/
inductive Fail where
  | fault (va level kind : Nat)
  | bad
  deriving DecidableEq, Repr

/-- The translation of a page of a script's accesses, if they may make it; a status word is no access of an alias page's widths
(R280). -/
def State.scriptPage (s : State) (ck va : Nat) (write view : Bool) : Except Fail Tr :=
  if 2 ^ 57 ≤ va then .error .bad else
  match s.walkPage ck (va / 2 ^ 16) with
  | .error level => .error (.fault (va / 2 ^ 16 * 2 ^ 16) level (if write then 2 else 1))
  | .ok t => if t.x || (t.bf && !view) || (write && (!t.w || t.stmp)) || s.inSlots t.addr then .error .bad else .ok t

/-- The places of some bytes, page by page: `fuel` pages at most. -/
def State.scriptPlaces (s : State) (ck : Nat) (write view : Bool) : Nat → Nat → Nat → Except Fail (List Place)
  | _, _, 0 => .ok []
  | 0, _, _ + 1 => .error .bad
  | fuel + 1, va, n + 1 =>
    let k := min (n + 1) (2 ^ 16 - va % 2 ^ 16)
    match s.scriptPage ck va write view with
    | .error e => .error e
    | .ok t =>
      if write && (List.range k).any (fun i => s.inCopy ck (va + i)) then .error .bad else
      match s.scriptPlaces ck write view fuel ((va + k) % 2 ^ 64) (n + 1 - k) with
      | .error e => .error e
      | .ok r => .ok ((List.range k).filterMap (fun i => s.placeOf (ck / 16) t (va + i)) ++ r)

/-- Bytes that a script reads; one that finds an error fails (R340). -/
def State.scriptRead (s : State) (ck : Nat) (view : Bool) (va n : Nat) : Except Fail (State × List Byte) :=
  match s.scriptPlaces ck false view (pagesOf va n) va n with
  | .error e => .error e
  | .ok ps => if (s.badRead ps).isSome then .error .bad else .ok (s.readPlaces s ps)

/-- Bytes that a script writes; a write to an alias block reads it first. -/
def State.scriptWrite (s : State) (ck : Nat) (view : Bool) (va : Nat) (bs : List Byte) : Except Fail State :=
  match s.scriptPlaces ck true view (pagesOf va bs.length) va bs.length with
  | .error e => .error e
  | .ok ps =>
    if (s.badRead (ps.filter fun p => match p with | .view .. => true | _ => false)).isSome then .error .bad
    else .ok (s.applyBytes 0 0 ((List.zip ps bs).map fun p => { place := p.1, val := p.2, en := 0xFF }))

-- READING A SCRIPT (R297)
/-- The two words of a slot. -/
abbrev Slot := Nat × Nat

/-- One step from its slot and, for rrs and copy, the next; none where a field breaks the table. -/
def readStep (i : Nat) (starts : List Nat) (a : Slot) (b : Option Slot) : Option SStep :=
  let w := a.1
  let kind := w % 16
  let len := bitsAt w 32 32
  let k := bitsAt w 20 12
  let pm := bitsAt w 18 2
  let tag := bitsAt w 8 8
  let am := bitsAt w 4 2
  let base : SStep := { SStep.none with slot := i, len := len, k := k, pm := pm, tag := tag, kl := bitOf w 6, am := am, addr := a.2 }
  if bitsAt w 16 2 != 0 || bitOf w 7 || 2 ^ 57 ≤ a.2 || (am == 2 && pm == 0) || (i == 0 && kind != 7) then none else
  match kind, b with
  | 0, _ => if len = 0 ∧ tag = 0 then some { base with kind := .end_ } else none
  | 1, _ => if len % 16 = 0 then some { base with kind := .send } else none
  | 2, _ => if len % 16 = 0 then some { base with kind := .recv } else none
  | 3, some b =>
    let v := b.1
    if len % 16 = 0 ∧ len ≠ 0 ∧ v % 64 = 0 ∧ bitOf v 7 = false ∧ bitsAt v 16 2 = 0 ∧ bitsAt v 32 32 = 0 ∧ b.2 < 2 ^ 57 then
      some { base with kind := .rrs, k2 := bitsAt v 20 12, pm2 := bitsAt v 18 2, kl2 := bitOf v 6, tag2 := bitsAt v 8 8, addr2 := b.2 }
    else none
  | 4, some b => if len % 16 = 0 ∧ len ≠ 0 ∧ tag = 0 ∧ b.1 = 0 ∧ b.2 < 2 ^ 57 then some { base with kind := .copy, addr2 := b.2 } else none
  | 5, _ => if len ≠ 0 then some { base with kind := .wait } else none
  | 6, _ => if len ≠ 0 ∧ tag < 4 ∧ starts.contains k then some { base with kind := .loop } else none
  | 7, _ => if len = 0 ∧ tag = 0 ∧ k < 1024 then some { base with kind := .comm } else none
  | _, _ => none

/-- Whether a kind takes two slots. -/
def twoSlots (w : Nat) : Bool := w % 16 == 3 || w % 16 == 4

/-- The steps up to the end step; `starts` are the first slots of the steps so far. -/
def readSteps : Nat → Nat → List Nat → List Slot → Option (List SStep)
  | 0, _, _, _ => none
  | _ + 1, _, _, [] => none
  | fuel + 1, i, starts, a :: rest =>
    match readStep i starts a rest.head? with
    | none => none
    | some t =>
      if t.kind = .end_ then some [t]
      else
        let n := if twoSlots a.1 then 2 else 1
        (readSteps fuel (i + n) (i :: starts) (rest.drop (n - 1))).map (t :: ·)

/-- What reading the slots gives: them up to the end step, a page to walk, a trap, or a poisoned byte. -/
inductive SlotsOf where
  | slots (l : List Slot)
  | miss (page : Nat)
  | trap (b : Bad)
  | poisoned (p : Place)
  deriving DecidableEq, Repr

def slotAcc : Acc := { space := 2, bits := 128, sw := 0, write := false, atomic := false, stamped := false, kind := 1 }

/-- The slots in memory from slot `i`, at most `fuel` of them; `skip` marks the second slot of a step. -/
def readSlots (s : State) (x : View) (addr : Nat) : Nat → Nat → Bool → SlotsOf
  | 0, _, _ => .slots []
  | fuel + 1, i, skip =>
    match locate s x.g slotAcc x.low ((addr + 16 * i) % 2 ^ 64) with
    | .error b => if b.code = trapPageFault then .miss b.arg else .trap b
    | .ok l =>
      match s.badRead l.places with
      | some p => .poisoned p
      | none =>
        let bs := (s.readPlaces s l.places).2
        let w : Slot := (ofBytes (bs.take 8), ofBytes (bs.drop 8))
        if !skip && w.1 % 16 == 0 then .slots [w]
        else match readSlots s x addr fuel (i + 1) (!skip && twoSlots w.1) with
          | .slots ws => .slots (w :: ws)
          | r => r

-- CSTART, CARM, CSTAT
/-- The script starts: every receiving step is armed, and the comm step is the current one. -/
def startScript (s : State) (x : View) (l : Launch) (rank size group : Nat) (steps : List SStep) : State × Nat :=
  let ck := l.ctxKey
  let h := (s.ctx ck).handles + 1
  let sc : Script :=
    { handle := h, fn := l.fn, ctx := l.ctx, grp := x.gk, core := s.groupCore x.g, team := teamIndex x.g.team, rank := rank, size := size,
      group := group, steps := steps, cur := 0, ctrs := [], arms := [], fresh := (steps.filter SStep.receives).map (·.slot)
      sending := none, frag := none, since := s.tb.est.toNat, held := [], ovr := false, absent := false, closing := none }
  let s := s.updCtx ck fun c => { c with handles := h }
  let s := { s with scripts := s.scripts ++ [sc] }
  (steps.foldl (fun s t => if t.receives then s.armStep ((s.script ck h).getD sc) t.slot t.count else s) s, h)

/-- cstart (R185, R297, R301). DEDUCED (log entry 39): TARG of its ACCESS is the address of the script. -/
def cstartEff (x : View) : Eff :=
  let a := uniform64 x x.f.a
  let b := uniform64 x x.f.b
  let rank := bitsAt b 0 16
  let size := bitsAt b 16 16
  let l := x.s0.launchOf x.g
  let access : Eff := .trap trapAccess (BitVec.ofNat 64 a) 0
  if a % 16 ≠ 0 then .trap trapMisalign (BitVec.ofNat 64 a) 0 else
  withAccess x slotAcc [(x.low, a)] fun _ =>
    if size = 0 || size ≤ rank || bitsAt b 32 32 != 0 then access
    else if x.g.acquiring || !x.s0.performed x.gk 15 4 then .wait x.s0 .drain
    else if 64 ≤ x.s0.scripts.length then .wait x.s0 .script
    else if l.det && !(x.s0.holdsToken x.g.team && (x.s0.team x.g.team).staging.isEmpty) then .wait x.s0 .script
    else match readSlots x.s0 x a 256 0 false with
      | .miss page => waitWalks x 1 [page]
      | .trap b => .trap b.code (BitVec.ofNat 64 b.arg) b.lane
      | .poisoned p => .jump (x.s0.raiseRead x.gk x.pc p) true
      | .slots ws =>
        match readSteps 257 0 [] ws with
        | none => access
        | some steps =>
          let group := (steps.headD SStep.none).k
          match x.s0.memberOf l.ctxKey group with
          | none => access
          | some m =>
            if m.size < size then access
            else
              let r := startScript x.s x l rank size group steps
              .done (match x.f.d with
                | .s n => r.1.updGroup x.gk fun g => g.setS n.toNat (BitVec.ofNat 64 r.2)
                | _ => r.1)

/-- The status word of a running script (R187). -/
def Script.word (x : Script) : Nat := x.step.slot * 2 ^ 16 + (if x.ovr then 2 ^ 9 else 0)

/-- The script ends with a status (R300): its word is kept with the step it had reached, and the credit it gave is withdrawn. -/
def State.endScript (s : State) (x : Script) (st : Nat) : State :=
  let w := x.step.slot * 2 ^ 16 + (if x.ovr then 2 ^ 9 else 0) + 2 ^ 8 + st % 256
  let s := if x.closing.isSome then s else s.withdrawAll x
  let s := { s with scripts := s.scripts.filter fun y => !(y.fn == x.fn && y.ctx == x.ctx && y.handle == x.handle) }
  s.updCtx x.ck fun c =>
    { c with finals := ({ handle := x.handle, word := BitVec.ofNat 64 w, grp := x.grp, arms := x.arms } :: c.finals).take 64 }

def statusAddr (x : Script) (slot : Nat) : Nat := (x.endStep.addr + 8 * slot) % 2 ^ 64

/-- A script that ends before its end step writes the status words it can, one after another, and is over; a page fault on one
leaves it to wait for its record (R299, R366). -/
def State.closeScript (s : State) (x : Script) (st : Nat) : List (Nat × Nat) → State
  | [] => s.endScript x st
  | (slot, w) :: ws =>
    match s.scriptWrite x.ck false (statusAddr x slot) (bytesOf 8 w) with
    | .ok s => s.closeScript x st ws
    | .error .bad => s.closeScript x st ws
    | .error (.fault ..) =>
      (if x.closing.isSome then s else s.withdrawAll x).putScript { x with closing := some (st, (slot, w) :: ws) }

/-- The software reset of R299: every step not yet complete is CANCELLED, and the script ends. -/
def State.cancelScript (s : State) (x : Script) : State := s.closeScript x 3 ((x.steps.drop x.cur).map fun t => (t.slot, 3))

/-- A step whose counter is set before it is reached keeps that count when it is (R298). -/
def Script.keepFor (x : Script) (slot : Nat) : Script := if x.step.slot = slot then x else { x with fresh := slot :: x.fresh }

/-- carm (R186). DEDUCED (log entry 39): TARG of its ACCESS is the handle. -/
def carmEff (x : View) : Eff :=
  let h := uniform64 x x.f.a
  let b := uniform64 x x.f.b
  let imm := isImm x.f.b
  let slot := if imm then x.f.ext.toNat else bitsAt b 0 16
  let n := if imm then uniform64 x x.f.c % 2 ^ 32 else bitsAt b 16 32
  let access : Eff := .trap trapAccess (BitVec.ofNat 64 h) 0
  if !imm && bitsAt b 48 16 != 0 then access else
  match x.s0.script (x.s0.launchOf x.g).ctxKey h with
  | none => access
  | some sc =>
    if sc.endStep.slot < slot || sc.closing.isSome then access
    else if n ≠ 0 then .done (x.s.armStep (sc.keepFor slot) slot n)
    else if (sc.armOf slot).getD 0 = 0 then .done x.s
    else .done (x.s.cancelScript sc)

/-- cstat (R187). DEDUCED (log entry 39): TARG of its ACCESS is the handle. -/
def cstatEff (x : View) : Eff :=
  let h := uniform64 x x.f.a
  let ck := (x.s0.launchOf x.g).ctxKey
  let word := match x.s0.script ck h with
    | some sc => some (BitVec.ofNat 64 sc.word)
    | none => ((x.s0.ctx ck).finals.find? (·.handle == h)).map (·.word)
  match word with
  | none => .trap trapAccess (BitVec.ofNat 64 h) 0
  | some w => .done (match x.f.d with
    | .s n => x.s.updGroup x.gk fun g => g.setS n.toNat w
    | _ => x.s)

-- MEANINGS
def execCstart (f : Form) (s : State) : Host.Outcome State Fault Refusal := runActing (.cstart f) f cstartEff s
def execCarm (f : Form) (s : State) : Host.Outcome State Fault Refusal := runActing (.carm f) f carmEff s
def execCstat (f : Form) (s : State) : Host.Outcome State Fault Refusal := runActing (.cstat f) f cstatEff s

-- STEPS (R298)
/-- A step becomes the current one: a receiving step is armed, unless its counter was set for it before. -/
def State.enter (s : State) (x : Script) (cur : Nat) : State :=
  let x := { x with cur := cur, since := s.tb.est.toNat, sending := none, frag := none }
  let t := x.step
  let kept := x.fresh.contains t.slot
  let x := { x with fresh := x.fresh.filter (· != t.slot) }
  let s := s.putScript x
  if t.receives && !kept then s.armStep x t.slot t.count else s

/-- A step completes with a status, and the script goes on. -/
def State.stepDone (s : State) (x : Script) (st : Nat) : Except Fail State :=
  match s.scriptWrite x.ck false (statusAddr x x.step.slot) (bytesOf 8 st) with
  | .error e => .error e
  | .ok s => .ok (s.enter { x with absent := x.absent || st == 1 } (x.cur + 1))

/-- The credit of the lowest step that has given some to this script's rank for a peer and tag: of the script that started first,
where several of the peer's have. -/
def State.creditFor (s : State) (x : Script) (peer tag : Nat) : Option Credit :=
  match s.credits.filter fun c => c.group == x.group && c.giver == peer && c.taker == x.rank && c.tag == tag with
  | [] => none
  | c :: cs => some (cs.foldl (fun a b =>
      if b.script < a.script ∨ (b.script = a.script ∧ b.step < a.step) then b else a) c)

/-- Undelivered news about the credit of a script. -/
def State.creditNews (s : State) (x : Script) : Bool :=
  s.net.any fun m => match m.msg with
    | .credit c => c.group == x.group && c.taker == x.rank
    | .uncredit c => c.group == x.group && c.taker == x.rank
    | _ => false

/-- One move of a step's sending side: it takes credit, posts its next chunk, or completes. -/
def State.sendMove (s : State) (x : Script) (peer : Option Nat) (tag : Nat) : Except Fail State :=
  let t := x.step
  match x.sending with
  | none =>
    if s.creditNews x then .ok s else
    match peer.bind fun p => (s.creditFor x p tag).map fun c => (p, c) with
    | none => .ok s
    | some (p, c) =>
      .ok ({ s with nextId := s.nextId + 1 }.putScript { x with
        since := s.tb.est.toNat,
        sending := some { peer := p, tag := tag, addr := x.addrOf t, len := t.len, toStep := c.step, toName := c.script,
                          next := 0, acked := 0, id := s.nextId } })
  | some d =>
    if d.next < chunksOf d.len then
      let off := 4096 * d.next
      match s.scriptRead x.ck true ((d.addr + off) % 2 ^ 64) (min 4096 (d.len - off)), s.rankPkg x d.peer with
      | .error e, _ => .error e
      | .ok _, none => .ok s
      | .ok r, some pkg =>
        .ok ((r.1.putScript { x with since := s.tb.est.toNat, sending := some { d with next := d.next + 1 } }).post pkg
          (.chunk x.group x.rank d.peer d.toStep d.toName off r.2 d.id))
    else if chunksOf d.len ≤ d.acked then s.stepDone x 0
    else .ok s

/-- One move of the current step of each kind. -/
def State.stepMove (s : State) (x : Script) : Except Fail State :=
  let t := x.step
  match t.kind with
  | .comm => s.stepDone x 0
  | .send => s.sendMove x (x.peer t) t.tag
  | .recv => if x.armOf t.slot = some 0 then s.stepDone x 0 else .ok s
  | .wait => if x.armOf t.slot = some 0 then s.stepDone x 0 else .ok s
  | .rrs =>
    match x.frag with
    | some 0 => s.sendMove x (x.peerOf t.pm2 t.k2 t.kl2) t.tag2
    | some _ => .ok s
    | none =>
      if x.armOf t.slot = some 0 then
        let r := s.begin_ x.fn x.ctx 3 8 t.addr2 (some (x.ck, x.handle))
        .ok (r.1.putScript { x with frag := some r.2 })
      else .ok s
  | .copy =>
    match s.scriptRead x.ck true (x.addrOf t) t.len with
    | .error e => .error e
    | .ok r => match r.1.scriptWrite x.ck true t.addr2 r.2 with
      | .error e => .error e
      | .ok s => s.stepDone x 0
  | .loop =>
    match s.scriptWrite x.ck false (statusAddr x t.slot) (bytesOf 8 0) with
    | .error e => .error e
    | .ok s =>
      let c := mapGet 0 x.ctrs t.tag + 1
      if c < t.len then
        .ok (s.enter { x with ctrs := mapSet 0 x.ctrs t.tag c } ((x.steps.findIdx? (·.slot == t.k)).getD 0))
      else .ok (s.enter { x with ctrs := mapSet 0 x.ctrs t.tag 0 } (x.cur + 1))
  | .end_ =>
    match s.scriptWrite x.ck false (statusAddr x t.slot) (bytesOf 8 0) with
    | .error e => .error e
    | .ok s => .ok (s.endScript x (if x.absent then 1 else 0))

/-- A step that a fault record holds (R366). -/
def Script.holds (x : Script) (slot : Nat) : Bool := x.held.any (·.2 == slot)

/-- The step whose access comes next: the current one, or the one whose status word a closing script writes. -/
def Script.slotNow (x : Script) : Nat := match x.closing with | some (_, (slot, _) :: _) => slot | _ => x.step.slot

/-- The move of a script whose current step is of a kind, unless that step is held or its access fails; one that is closing goes on
with its status words as at its end. -/
def moveScript (kind : StepKind) (c h : Nat) (s : State) : State :=
  match s.script c h with
  | none => s
  | some x =>
    if x.holds x.slotNow then s else
    match x.closing with
    | some (st, ws) => if kind == .end_ then s.closeScript x st ws else s
    | none =>
      if x.step.kind != kind then s else
      match s.stepMove x with
      | .ok t => t
      | .error _ => s

-- CHUNKS (R299)
/-- COLL_OVERRUN for the group that started a script, if it has not ended (R299). -/
def State.raiseOverrun (s : State) (gk handle step : Nat) : State :=
  if s.group gk = Group.none then s else s.postNext gk trapCollOverrun (BitVec.ofNat 64 (handle * 2 ^ 16 + step)) none

/-- A chunk reaches a script that has ended: at a counter that stood at zero it is an overrun, but after a reset it is none
(R299). -/
def State.lateChunk (s : State) (name step : Nat) : State :=
  let ck := name % 1024
  let h := name / 1024
  match (s.ctx ck).finals.find? (·.handle == h) with
  | none => s
  | some f =>
    if f.word.toNat % 256 = 3 || mapGet 0 f.arms step != 0 then s
    else
      (s.updCtx ck fun c => { c with finals := c.finals.map fun q => if q.handle == h then { q with word := q.word ||| 0x200 } else q }
        ).raiseOverrun f.grp h step

/-- A chunk lands at its step's counter. -/
def State.landChunk (s : State) (x : Script) (step off : Nat) (bs : List Byte) : Except Fail State :=
  match (x.stepAt step), (x.armOf step).getD 0 with
  | none, _ => .ok s
  | some t, n =>
    if t.kind = .wait ∧ bs ≠ [] then .ok s
    else if n = 0 then
      .ok ((s.putScript { x with ovr := true }).raiseOverrun x.grp x.handle step)
    else
      match (if bs = [] then .ok s else s.scriptWrite x.ck true ((x.addrOf t + off) % 2 ^ 64) bs) with
      | .error e => .error e
      | .ok s =>
        let s := s.putScript { x.setArm step (n - 1) with since := if step = x.step.slot then s.tb.est.toNat else x.since }
        .ok (if n = 1 then s.withdraw x t else s)

/-- The arrival of the letter at a place of the net, acknowledged when it has been dealt with. -/
def State.chunkMove (s : State) (i : Nat) : Except Fail State :=
  match s.net[i]? with
  | some { msg := .chunk _ _ _ step name off bs id, from_ := src, .. } =>
    let t := { s with net := s.net.eraseIdx i }
    match s.script (name % 1024) (name / 1024) with
    | none => .ok ((t.lateChunk name step).post src (.chunkAck id))
    | some x =>
      if x.closing.isSome then .ok (t.post src (.chunkAck id))
      else if x.holds step then .ok s else
      match t.landChunk x step off bs with
      | .error e => .error e
      | .ok t => .ok (t.post src (.chunkAck id))
  | _ => .ok s

-- EVENTS
def execScriptComm (c h : Nat) (s : State) : Host.Outcome State Fault Refusal := .next (moveScript .comm c h s)
def execScriptSend (c h : Nat) (s : State) : Host.Outcome State Fault Refusal := .next (moveScript .send c h s)
def execScriptRecv (c h : Nat) (s : State) : Host.Outcome State Fault Refusal := .next (moveScript .recv c h s)
def execScriptRrs (c h : Nat) (s : State) : Host.Outcome State Fault Refusal := .next (moveScript .rrs c h s)
def execScriptCopy (c h : Nat) (s : State) : Host.Outcome State Fault Refusal := .next (moveScript .copy c h s)
def execScriptWait (c h : Nat) (s : State) : Host.Outcome State Fault Refusal := .next (moveScript .wait c h s)
def execScriptLoop (c h : Nat) (s : State) : Host.Outcome State Fault Refusal := .next (moveScript .loop c h s)
def execScriptEnd (c h : Nat) (s : State) : Host.Outcome State Fault Refusal := .next (moveScript .end_ c h s)

def execChunkArrival (i : Nat) (s : State) : Host.Outcome State Fault Refusal :=
  match s.chunkMove i with
  | .ok t => .next t
  | .error _ => .next s

/-- Credit, or its end, reaches the rank that sends (R299). -/
def execCreditGrant (i : Nat) (s : State) : Host.Outcome State Fault Refusal :=
  match s.net[i]? with
  | some { msg := .credit c, .. } => .next { s with net := s.net.eraseIdx i, credits := s.credits ++ [c] }
  | some { msg := .uncredit c, .. } => .next { s with net := s.net.eraseIdx i, credits := s.credits.erase c }
  | _ => .next s

/-- The acknowledgement of a chunk reaches its sender (R298). -/
def execChunkAcknowledged (i : Nat) (s : State) : Host.Outcome State Fault Refusal :=
  match s.net[i]? with
  | some { msg := .chunkAck id, .. } =>
    let s := { s with net := s.net.eraseIdx i }
    .next { s with scripts := s.scripts.map fun x => match x.sending with
      | some d => if d.id == id then { x with sending := some { d with acked := d.acked + 1 }, since := s.tb.est.toNat } else x
      | none => x }
  | _ => .next s

/-- Whether the current step has waited for its peer without progress for RLIM (R299). -/
def State.peerLate (s : State) (x : Script) : Bool :=
  let t := x.step
  !x.holds t.slot && x.closing.isNone && (t.kind == .send || t.receives) && (x.frag.isNone || x.frag == some 0) &&
  decide (x.since + s.scriptLimit x ≤ s.tb.est.toNat)

def execScriptPeerAbsent (c h : Nat) (s : State) : Host.Outcome State Fault Refusal :=
  match s.script c h with
  | none => .next s
  | some x =>
    if !s.peerLate x then .next s else
    match s.stepDone x 1 with
    | .ok t => .next t
    | .error _ => .next s

/-- A fragment launch completes (R298): with OK the step forwards its buffer, otherwise the script ends with that status. -/
def execFragmentComplete (c h : Nat) (s : State) : Host.Outcome State Fault Refusal :=
  match s.launches.find? fun p => p.2.script == some (c, h) && !p.2.active with
  | none => .next s
  | some p =>
    let s := s.setLaunch p.1 Launch.none
    match s.script c h with
    | none => .next s
    | some x =>
      if x.closing.isSome then .next s
      else if p.2.extra % 256 = 0 then .next (s.putScript { x with frag := some 0, since := s.tb.est.toNat })
      else .next (s.endScript x (p.2.extra % 256))

/-- What a script's accesses fail with now, and the step they belong to: those of its current step, its status word, and the chunks
that reach it; the next status word of one that is closing. -/
def State.scriptFail (s : State) (x : Script) : Option (Nat × Fail) :=
  let fails := fun (r : Except Fail State) => match r with | .error e => some e | .ok _ => none
  let mine := fun (m : Letter) => match m.msg with
    | .chunk _ _ _ step name _ _ _ => if name = x.name then some step else none
    | _ => none
  let chunks := (List.range s.net.length).filterMap fun i =>
    ((s.net[i]?).bind mine).bind fun step => (fails (s.chunkMove i)).map fun e => (step, e)
  let now := if x.holds x.slotNow then none else match x.closing with
    | some (_, (slot, w) :: _) => fails (s.scriptWrite x.ck false (statusAddr x slot) (bytesOf 8 w))
    | some (_, []) => none
    | none =>
      match fails (s.stepMove x) with
      | some e => some e
      | none => if s.peerLate x then fails (s.stepDone x 1) else none
  match now with
  | some e => some (x.slotNow, e)
  | none => if x.closing.isSome then none else chunks.head?

/-- A step, and with it the script, ends FAULTED (R366). -/
def State.faultScript (s : State) (x : Script) (slot : Nat) : State := s.closeScript x 8 [(slot, 8)]

/-- RESUME with FAIL = 1 of a record that holds a step: the step ends FAULTED; a script that is closing leaves that status word
unwritten (R366). -/
def State.resumeFailScript (s : State) (x : Script) (fid : Nat) : State :=
  let y := { x with held := x.held.filter (·.1 != fid) }
  match x.held.find? (·.1 == fid), x.closing with
  | none, _ => s
  | some h, some (st, ws) => if h.2 = x.slotNow then s.closeScript y st (ws.drop 1) else s.putScript y
  | some h, none => s.faultScript y h.2

/-- RESUME with FAIL = 0 of a record that holds a step: the step goes on, and RLIM runs for it from now. -/
def Script.resumed (x : Script) (fid now : Nat) : Script :=
  if x.held.any (·.1 == fid) then
    { x with held := x.held.filter (·.1 != fid), since := if x.held.any (fun h => h.1 == fid && h.2 == x.slotNow) then now else x.since }
  else x

/-- A page fault holds the step on a record until RESUME; any other failure ends the script (R366). -/
def execScriptAccessFault (c h : Nat) (s : State) : Host.Outcome State Fault Refusal :=
  match s.script c h with
  | none => .next s
  | some x =>
    if !s.faultRoom c && x.held.any (·.1 == 0) then .next s else
    -- a step whose record has waited for space fails again, or goes on
    let x := x.resumed 0 s.tb.est.toNat
    let s := s.putScript x
    match s.scriptFail x with
    | none => .next s
    | some (slot, .bad) => .next (if x.closing.isSome then s else s.faultScript x slot)
    | some (slot, .fault va level kind) =>
      if !s.faultRoom c then .next (s.putScript { x with held := x.held ++ [(0, slot)] }) else
      let fid := s.nextFid c
      .next ((s.faultRecordOf c va kind level x.core x.team 0).putScript { x with held := x.held ++ [(fid, slot)] })

end Sys2Proof.Machine
end

