-- ==== Sys2Proof/Machine/EvWalk.lean ====
section
/-! DEFINITION. Events of translation: the end of a walk, fault records and RESUME, and the invalidation of translations (R277 to R279, R335, R366). -/

namespace Sys2Proof.Machine

/-- The groups that joined a walk. -/
def Walk.groups (w : Walk) : List Nat := (w.joined.map (·.1)).eraseDups

/-- A walk that ended in a page fault writes its record, and every group that joined it is suspended on it (R277). -/
def State.walkFault (s : State) (i : Nat) (w : Walk) (level : Nat) : State :=
  if !s.faultRoom w.ctx then { s with walks := s.walks.set i { w with held := some level } }
  else
    let fid := s.nextFid w.ctx
    let s := s.faultRecord w.ctx (w.page * 2 ^ 16) w.kind level (w.groups.headD 0) w.groups.length
    let s := w.joined.foldl (fun s p => (s.suspend p.1 p.2 fid).updGroup p.1 fun g => { g with why := .none }) s
    { s with walks := s.walks.eraseIdx i }

/-- A walk ends (R277): with a translation that every core that waits takes, or with a fault. -/
def execPageWalkComplete (i : Nat) (s : State) : Host.Outcome State Fault Refusal :=
  match s.walks[i]? with
  | none => .next s
  | some w =>
    if w.held.isSome then .next s
    else if w.joined.isEmpty then .next { s with walks := s.walks.eraseIdx i }
    else match s.walkPage w.ctx w.page with
      | .error level => .next (s.walkFault i w level)
      | .ok t =>
        let cores := (w.groups.map fun k => s.groupCore (s.group k)).eraseDups
        let s := cores.foldl (fun s c => s.fillTlb c { ctx := w.ctx, page := w.page, tr := t }) s
        let s := w.groups.foldl (fun s k => s.updGroup k fun g => { g with why := .none }) s
        .next { s with walks := s.walks.eraseIdx i }

/-- A held walker writes its record once the ring has space (R277). -/
def execFaultRingSpaceFree (i : Nat) (s : State) : Host.Outcome State Fault Refusal :=
  match s.walks[i]? with
  | some w => match w.held with
    | some level => if w.joined.isEmpty then .next { s with walks := s.walks.eraseIdx i } else .next (s.walkFault i w level)
    | none => .next s
  | none => .next s

-- RESUME (R272, R278)
/-- The contexts of a function whose ring holds a fault identifier. -/
def State.openCtxs (s : State) (fn fid : Nat) : List Nat :=
  ((List.range 16).map (ctxKey fn)).filter fun ck => (s.ctx ck).open_.any (·.1 == fid)

/-- The lanes of a group suspended on a fault identifier, and perhaps on others. -/
def Group.suspendedOn (g : Group) (fid : Nat) : Mask :=
  maskOf fun l => match (g.lane l).cond with | .suspended fs => fs.contains fid | _ => false

/-- The groups of a function with lanes suspended on a fault identifier. -/
def State.suspendedGroups (s : State) (fn fid : Nat) : List Nat :=
  (s.groups.filter fun p => (s.launchOf p.2).fn == fn && p.2.suspendedOn fid != 0).map (·.1)

def Group.resumeLanes (g : Group) (fid : Nat) : Group := g.updLanes (g.suspendedOn fid) fun x => { x with cond := .voting }

/-- Lanes that replay their instruction whole wait for no walk of its first issue (log entry 15). -/
def State.resumeGroup (s : State) (gk fid : Nat) : State :=
  let m := (s.group gk).suspendedOn fid
  { s.updGroup gk (·.resumeLanes fid) with walks := s.walks.map fun w =>
      { w with joined := w.joined.filter fun p => !(p.1 == gk && p.2 &&& m != 0) } }

/-- A fault identifier is resumed: it leaves its ring. -/
def State.closeFid (s : State) (fn fid : Nat) : State :=
  (s.openCtxs fn fid).foldl (fun s ck => s.updCtx ck fun c => { c with open_ := c.open_.filter (·.1 != fid) }) s

/-- The clusters of a function that a debug stop with this identifier holds. -/
def State.debugged (s : State) (fn fid : Nat) : List Nat :=
  (s.clusters.filter fun p => (s.launch p.2.launch).fn == fn && (p.2.halted.map (·.1)) == some fid).map (·.1)

/-- RESUME with FAIL = 0: every suspended group replays its instruction whole, a debug stop ends, a held script goes on. -/
def execResumeReplay (fn fid : Nat) (s : State) : Host.Outcome State Fault Refusal :=
  if !s.present fn then .next s else
  if s.openCtxs fn fid = [] then .next s else
  let s := (s.suspendedGroups fn fid).foldl (fun s k => s.resumeGroup k fid) s
  let s := (s.debugged fn fid).foldl (fun s ck => s.setCluster ck { s.cluster ck with halted := none }) s
  let s := { s with scripts := s.scripts.map fun (x : Script) => if x.fn == fn then x.resumed fid s.tb.est.toNat else x }
  .next (s.closeFid fn fid)

/-- RESUME with FAIL = 1: ACCESS, which is fatal, takes the place of the replay (R335); a held script ends FAULTED (R366). -/
def execResumeFail (fn fid : Nat) (s : State) : Host.Outcome State Fault Refusal :=
  if !s.present fn then .next s else
  if s.openCtxs fn fid = [] then .next s else
  let s := (s.suspendedGroups fn fid).foldl (fun s k =>
    let m := (s.group k).suspendedOn fid
    let pc := ((maskLanes m).head?.map fun l => ((s.group k).lane l).pc).getD 0
    (s.resumeGroup k fid).takeTrap k trapAccess 0 0 m pc pc) s
  let s := (s.debugged fn fid).foldl (fun s ck =>
    let c := s.cluster ck
    let s := s.setCluster ck { c with halted := none }
    match c.halted with
    | some d => s.fatalTeam d.2 trapAccess 0
    | none => s) s
  let s := (s.scripts.filter fun (x : Script) => x.fn == fn && x.held.any (·.1 == fid)).foldl (fun s x => s.resumeFailScript x fid) s
  .next (s.closeFid fn fid)

-- INVALIDATION (R279)
/-- A write of INVAL: every buffer drops the named translations, and the accesses the context has issued are noted. -/
def execInval (fn : Nat) (val : DWord) (s : State) : Host.Outcome State Fault Refusal :=
  if !s.present fn then .next s else
  let ck := ctxKey fn (val.toNat % 16)
  let vp := bitsAt val.toNat 16 48
  let page := if vp = 2 ^ 48 - 1 then none else some vp
  let keep := fun (e : TlbEntry) => !(e.ctx == ck && (page == none || page == some e.page))
  let s := (mapKeys s.cores).foldl (fun s c => s.updCore c fun x => { x with tlb := x.tlb.filter keep }) s
  let s := (mapKeys s.bays).foldl (fun s b => s.updBay b fun x => { x with tlb := x.tlb.filter keep }) s
  let seqs := (s.groups.filter fun p => (s.launchOf p.2).ctxKey == ck).map fun p => (p.1, p.2.seq)
  .next (s.updFn fn fun f => { f with invals := f.invals ++ [{ ctx := ck, page := page, seqs := seqs }] })

/-- The accesses an invalidation waits for have been performed at module scope: an rdat that waits and the stores that a
deterministic launch has staged among them. -/
def State.invalDone (s : State) (v : Inval) : Bool := v.seqs.all fun p =>
  let g := s.group p.1
  !s.dueBefore p.1 (p.2 + 1) 4 && !(match g.rdat with | some w => decide (w.seq ≤ p.2) | none => false) &&
  !(s.teamOf g).staging.any fun r => r.grp == g.grp && decide (r.seq ≤ p.2)

/-- INVST gains 1. -/
def execInvalComplete (fn : Nat) (s : State) : Host.Outcome State Fault Refusal :=
  match (s.fn fn).invals with
  | [] => .next s
  | v :: vs => if s.invalDone v then .next (s.updFn fn fun f => { f with invals := vs, invst := f.invst + 1 }) else .next s

end Sys2Proof.Machine
end

