-- ==== Sys2Proof/Machine/Limbs.lean ====
section
/-! DEFINITION. The limb instructions, opcodes 0xB2 to 0xB9 (R128 to R132). -/

namespace Sys2Proof.Machine

/-- Bits of a segment's integer. -/
def View.limbBits (x : View) : Nat := 32 * x.g.binding

/-- A v register's integer over the segment that begins at lane `b` (R129). -/
def limbInt (x : View) (src : Src) (b : Nat) : Nat :=
  (List.range x.g.binding).foldl (fun a i => a + readAs x .n32 src (b + i) * 2 ^ (32 * i)) 0

/-- A uniform source's 64-bit value (R25, R129). -/
def limbUniform (x : View) (src : Src) (b : Nat) : Nat :=
  if isImm src then immInteger 64 x.f else readAs x .n64 src b

/-- A source as the exact integer of its segment. -/
def limbVal (x : View) (src : Src) (b : Nat) : Int :=
  let w := x.limbBits
  if isV src.op then intVal x.f.ty.signed w (limbInt x src b)
  else
    let u := limbUniform x src b
    let v : Int := if x.f.ty.signed then signedNat 64 u else (u : Int)
    intVal x.f.ty.signed w (wrapInt w v)

/-- The multiplier b of lmac, read as the type (R129): from the limb-0 lane, or the low 32 bits of a uniform source, which is what
holds x below 2^(32n+32) as R131 has it (log entry 63). -/
def limbMul (x : View) (b : Nat) : Int :=
  intVal x.f.ty.signed 32 (if isV x.f.b.op then readAs x .n32 x.f.b b else limbUniform x x.f.b b % 2 ^ 32)

/-- The shift count k of lshl and lshr, as n32, and no more than the width. -/
def limbCount (x : View) (b : Nat) : Nat :=
  min ((if isImm x.f.b then immInteger 32 x.f else readAs x .n32 x.f.b b) % 2 ^ 32) x.limbBits

/-- The carry-in of ladd and lsub. -/
def limbCarry (x : View) (b : Nat) : Int :=
  if x.f.len == .l96 && maskBit (maskOpnd x.seen x.f.c.op) b then 1 else 0

/-- A segment's result: the value kept, the carry word and the indicator. -/
structure LimbRes where
  base  : Nat
  val   : Nat
  carry : Nat
  ind   : Bool
  deriving DecidableEq, Repr

/-- The exact result of an instruction in a segment, and an indicator that is not the range test of R128. -/
abbrev LimbOp := View → Nat → Int × Option Bool

def limbAdd : LimbOp := fun x b => (limbVal x x.f.a b + limbVal x x.f.b b + limbCarry x b, none)
def limbSub : LimbOp := fun x b => (limbVal x x.f.a b - limbVal x x.f.b b - limbCarry x b, none)
def limbNeg : LimbOp := fun x b => (- limbVal x x.f.a b, none)
def limbShl : LimbOp := fun x b => (limbVal x x.f.a b * (2 ^ limbCount x b : Nat), none)
def limbShr : LimbOp := fun x b =>
  let a := limbVal x x.f.a b
  let k := limbCount x b
  (a / (2 ^ k : Nat), some (wrapInt x.limbBits a % 2 ^ k != 0))
def limbMov : LimbOp := fun x b => (limbVal x x.f.a b, some false)
def limbMac : LimbOp := fun x b =>
  let d := intVal x.f.ty.signed x.limbBits (limbInt x { unused with op := x.f.d } b)
  (d + limbVal x x.f.a b * limbMul x b, none)

/-- The segments that hold an acting lane, by their first lane. -/
def View.segs (x : View) : List Nat :=
  (segments x.g.binding).filter fun b => (segmentOf x.g.binding b &&& x.act) != 0

def limbResult (op : LimbOp) (x : View) (b : Nat) : LimbRes :=
  let w := x.limbBits
  let r := op x b
  { base := b, val := wrapInt w r.1, carry := wrapInt (w + 32) r.1 / 2 ^ w
    ind := match r.2 with
      | some i => i
      | none => !(decide (intMin x.f.ty.signed w ≤ r.1) && decide (r.1 ≤ intMax x.f.ty.signed w)) }

/-- The lanes of a segment that act. -/
def View.segLanes (x : View) (b : Nat) : Mask := segmentOf x.g.binding b &&& x.act

/-- A segment's result written to D, its carry word to C and its indicator to the carry-out mask. -/
def putLimb (x : View) (r : LimbRes) (isMac hasInd : Bool) (g : Group) : Group :=
  let m := x.segLanes r.base
  let g := (maskLanes m).foldl (fun g l =>
    let g := putLane .n32 x.f.d l (bitsAt r.val (32 * (l - r.base)) 32) g
    if isMac && x.f.len == .l96 then putLane .n32 x.f.c.op l r.carry g else g) g
  if hasInd then
    let k := x.f.fn.toNat % 8
    g.setM k (maskMerge m (if r.ind then BitVec.allOnes 32 else 0) (g.mreg k))
  else g

/-- The bit of a segment in the detail of LIMB_OVF (R332). -/
def limbDetail (x : View) (rs : List LimbRes) : DWord :=
  BitVec.ofNat 64 ((rs.filter (·.ind)).foldl (fun a r => a + 2 ^ (r.base / x.g.binding)) 0)

/-- DEDUCED (log entry 77): a limb instruction that raises LIMB_OVF has completed, so its last-use marks stand. -/
def limbEff (op : LimbOp) (isMac hasInd : Bool) (x : View) : Eff :=
  let rs := x.segs.map (limbResult op x)
  let s := x.put (rs.foldl (fun g r => putLimb x r isMac hasInd g) x.g1)
  if hasInd && 8 ≤ x.f.fn.toNat && rs.any (·.ind) then .after s trapLimbOvf (limbDetail x rs) else .done s

/-- lcmp: the condition of each segment in the bits of its acting lanes. -/
def lcmpEff (x : View) : Eff :=
  let holds : Nat → Bool := fun b => condHolds x.f.fn.toNat (compare (limbVal x x.f.a b) (limbVal x x.f.b b))
  .done (writeMask x (x.segs.foldl (fun m b => if holds b then m ||| segmentOf x.g.binding b else m) 0))

-- MEANINGS
def execLadd (f : Form) (s : State) : Host.Outcome State Fault Refusal := runActing (.ladd f) f (limbEff limbAdd false true) s
def execLsub (f : Form) (s : State) : Host.Outcome State Fault Refusal := runActing (.lsub f) f (limbEff limbSub false true) s
def execLneg (f : Form) (s : State) : Host.Outcome State Fault Refusal := runActing (.lneg f) f (limbEff limbNeg false true) s
def execLshl (f : Form) (s : State) : Host.Outcome State Fault Refusal := runActing (.lshl f) f (limbEff limbShl false true) s
def execLshr (f : Form) (s : State) : Host.Outcome State Fault Refusal := runActing (.lshr f) f (limbEff limbShr false true) s
def execLcmp (f : Form) (s : State) : Host.Outcome State Fault Refusal := runActing (.lcmp f) f lcmpEff s
def execLmov (f : Form) (s : State) : Host.Outcome State Fault Refusal := runActing (.lmov f) f (limbEff limbMov false false) s
def execLmac (f : Form) (s : State) : Host.Outcome State Fault Refusal := runActing (.lmac f) f (limbEff limbMac true true) s

end Sys2Proof.Machine
end

