-- ==== Sys2Proof/Machine/Matrix.lean ====
section
/-! DEFINITION. Matrix operations, opcodes 0xE8 to 0xEF, and the unit that performs the entries of the queue (R72, R73, R175 to R178, R181 to R183). -/

namespace Sys2Proof.Machine

-- THE SHAPE MENU (R49, R176)
/-- An operation: its K, whether its slots are block-scaled and complex, its rows and columns. -/
structure Shape where
  k    : Nat
  mx   : Bool
  cplx : Bool
  size : Nat
  deriving DecidableEq, Repr

/-- The eight operations by the low bits of their opcodes. -/
def shapeOf (op : Nat) : Shape :=
  match op with
  | 0 => { k := 32, mx := false, cplx := false, size := 64 }
  | 1 => { k := 64, mx := false, cplx := false, size := 64 }
  | 2 => { k := 64, mx := false, cplx := false, size := 64 }
  | 3 => { k := 64, mx := true, cplx := false, size := 64 }
  | 4 => { k := 96, mx := true, cplx := false, size := 64 }
  | 5 => { k := 128, mx := true, cplx := false, size := 64 }
  | 6 => { k := 32, mx := false, cplx := true, size := 32 }
  | _ => { k := 16, mx := false, cplx := false, size := 64 }

/-- Type codes that slot B may hold for an A of code `t`. -/
def slotBTypes (op t : Nat) : List Nat :=
  match op with
  | 1 => [7, 8]
  | 2 => [0xC, 0xD]
  | 3 => if t = 0xC then [0xC] else [7, 8]
  | 4 => [9, 0xA]
  | _ => [t]

/-- Bits of an element in memory: a complex element is a pair. -/
def elemWidth (sh : Shape) (t : Nat) : Nat := if sh.cplx then 32 else (tyOfCode t).width

/-- The rows of an operand as they are stored: `kMajor` when a stored row runs along the other index. -/
def operandSpans (space sw addr : Nat) (sl : SlotRec) (kMajor : Bool) (sh : Shape) : List Span :=
  let w := elemWidth sh sl.fmt
  let n := if kMajor then sh.k else sh.size
  let m := if kMajor then sh.size else sh.k
  (List.range n).map fun i =>
    { space := space, sw := sw, addr := (addr + i * sl.rstride) % 2 ^ 64, len := (m * w + 7) / 8, write := false, unit_ := 1 }

/-- Address of the scale of block b of row or column i. -/
def scaleAt (addr : Nat) (sl : SlotRec) (i b : Nat) : Nat :=
  (BitVec.ofNat 64 addr + BitVec.ofInt 64 sl.sbase + BitVec.ofNat 64 (i * sl.sstride + b)).toNat

def scaleSpans (space sw addr : Nat) (sl : SlotRec) (sh : Shape) : List Span :=
  if !sh.mx then [] else
  (List.range sh.size).map fun i => { space := space, sw := sw, addr := scaleAt addr sl i 0, len := sh.k / 32, write := false, unit_ := 1 }

/-- A matrix operation at issue (R176, R177). -/
def mmEff (op : Nat) (x : View) : Eff :=
  withTile x (
    let sh := shapeOf op
    let t := tysAll.idxOf x.f.ty
    let a := baseAddr x
    let b := match x.f.b.op with | .s n => (x.sval n.toNat).toNat | _ => 0
    let c := match x.f.b.op with | .s n => (x.sval (n.toNat + 1)).toNat | _ => 0
    let ctx := x.s0.ctx (x.s0.launchOf x.g).ctxKey
    let an := bitsAt c 0 8
    let bn := bitsAt c 8 8
    if 2 ^ 22 ≤ c || 2 ≤ bitsAt c 16 2 then .trap trapAccess (BitVec.ofNat 64 a) 0
    else match ctx.slot an, ctx.slot bn with
      | none, _ => .trap trapSlotEmpty (BitVec.ofNat 64 an) 0
      | some _, none => .trap trapSlotEmpty (BitVec.ofNat 64 bn) 0
      | some sa, some sb =>
        let fits := fun (sl : SlotRec) (ts : List Nat) => ts.contains sl.fmt && sl.mx == sh.mx && sl.cplx == sh.cplx
        if !fits sa [t] then .trap trapSlotMismatch (BitVec.ofNat 64 an) 0
        else if !fits sb (slotBTypes op t) then .trap trapSlotMismatch (BitVec.ofNat 64 bn) 0
        else match misaligned4 [a, b] with
          | some v => .trap trapMisalign (BitVec.ofNat 64 v) 0
          | none =>
            let bsp := bitsAt c 16 2
            let bsw := bitsAt c 18 3
            withSpans x (operandSpans (dSP x.f) (dSW x.f) a sa sa.tr sh ++ operandSpans bsp bsw b sb (!sb.tr) sh ++
                scaleSpans (dSP x.f) (dSW x.f) a sa sh ++ scaleSpans bsp bsw b sb sh) fun ps =>
              withFullLines x (linesOf ps.flatten) (withQueue x (
                .done (enterQueue x x.g1 (tileOf x.f.d) true (.mm op x.f.ty (bitOf c 21)
                  { isCw := dSP x.f == 1, base := a, sw := dSW x.f, slot := sa }
                  { isCw := bsp == 1, base := b, sw := bsw, slot := sb })))))

-- MEANINGS
def execMmbf (f : Form) (s : State) : Host.Outcome State Fault Refusal := runForm (.mmbf f) f (mmEff 0) s
def execMmf8 (f : Form) (s : State) : Host.Outcome State Fault Refusal := runForm (.mmf8 f) f (mmEff 1) s
def execMmi8 (f : Form) (s : State) : Host.Outcome State Fault Refusal := runForm (.mmi8 f) f (mmEff 2) s
def execMmx8 (f : Form) (s : State) : Host.Outcome State Fault Refusal := runForm (.mmx8 f) f (mmEff 3) s
def execMmx6 (f : Form) (s : State) : Host.Outcome State Fault Refusal := runForm (.mmx6 f) f (mmEff 4) s
def execMmx4 (f : Form) (s : State) : Host.Outcome State Fault Refusal := runForm (.mmx4 f) f (mmEff 5) s
def execMmcx (f : Form) (s : State) : Host.Outcome State Fault Refusal := runForm (.mmcx f) f (mmEff 6) s
def execMmf32 (f : Form) (s : State) : Host.Outcome State Fault Refusal := runForm (.mmf32 f) f (mmEff 7) s

-- OPERANDS AT THE UNIT
/-- A stored row as one number, least significant byte first. -/
def State.rowNat (s : State) (gk : Nat) (o : TileOp) (a n : Nat) : Nat :=
  ofBytes ((s.tileBytes gk o.isCw o.sw a n).map s.byteAtHome)

/-- The codes of an operand, row by row or, for B, column by column: `lineMajor` when each line is stored as a row. -/
def State.operandCodes (s : State) (gk : Nat) (o : TileOp) (lineMajor : Bool) (sh : Shape) : List (List Nat) :=
  let w := elemWidth sh o.slot.fmt
  let n := if lineMajor then sh.size else sh.k
  let m := if lineMajor then sh.k else sh.size
  let rows := (List.range n).map fun i => s.rowNat gk o ((o.base + i * o.slot.rstride) % 2 ^ 64) ((m * w + 7) / 8)
  if lineMajor then rows.map fun r => (List.range sh.k).map fun k => bitsAt r (k * w) w
  else (List.range sh.size).map fun i => rows.map fun r => bitsAt r (i * w) w

/-- The scale codes of each line of an operand. -/
def State.operandScales (s : State) (gk : Nat) (o : TileOp) (sh : Shape) : List (List Nat) :=
  if !sh.mx then [] else
  (List.range sh.size).map fun i => (List.range (sh.k / 32)).map fun b =>
    s.rowNat gk o (scaleAt o.base o.slot i b) 1

/-- The bytes an operand reads, for errors found on a read. -/
def operandPlaces (s : State) (gk : Nat) (o : TileOp) (kMajor : Bool) (sh : Shape) : List Place :=
  ((operandSpans 0 0 o.base o.slot kMajor sh ++ scaleSpans 0 0 o.base o.slot sh).map fun sp =>
    s.tileBytes gk o.isCw o.sw sp.addr sp.len).flatten

/-- The values of a line: a pair for each position, its second part 0 outside complex operands. -/
def lineValues (sh : Shape) (fmt : Nat) (codes scales : List Nat) : List (Fv × Fv) :=
  let zero : Fv := .fin false 0 0
  codes.mapIdx fun k c =>
    if sh.cplx then (Fmt.bf16.read (c % 2 ^ 16), Fmt.bf16.read (c / 2 ^ 16))
    else if sh.mx then (mxElem (fmtOf (tyOfCode fmt)) c (scales.getD (k / 32) 0), zero)
    else match fmtOf (tyOfCode fmt) with
      | some fm => (fm.read c, zero)
      | none => let n := intVal (tyOfCode fmt).signed 8 c
                (.fin (decide (n < 0)) n.natAbs 0, zero)

-- SUMS (R72, R73)
/-- A finite value cut to 8 significant bits with rne and no limit of exponent. -/
def cut8 (v : Fv) : Fv :=
  match v with
  | .fin neg m e => if m = 0 then v else
      let q := expOf m e - 7
      .fin neg (roundMag .rne 0 neg q m e false).1 q
  | v => v

/-- a − b, exact, of finite values. -/
def subExact (a b : Fv) : Fv :=
  match a, b with
  | .fin n1 m1 e1, .fin n2 m2 e2 =>
    let lo := min e1 e2
    let v := finInt n1 m1 e1 lo - finInt n2 m2 e2 lo
    .fin (decide (v < 0)) v.natAbs lo
  | a, _ => a

def Fv.special (v : Fv) : Bool := match v with | .fin .. => false | _ => true

/-- The products of one chunk of f32 inputs: hi·hi, hi·lo and lo·hi, or the plain products where an input is not finite. -/
def splitTerms (ps : List (Fv × Fv)) : List (Fv × Fv) :=
  if ps.any fun p => p.1.special || p.2.special then ps
  else (ps.map fun p =>
    let ah := cut8 p.1
    let al := cut8 (subExact p.1 ah)
    let bh := cut8 p.2
    let bl := cut8 (subExact p.2 bh)
    [(ah, bh), (ah, bl), (al, bh)]).flatten

/-- The sum of one chunk's products, rounded once to f32. -/
def chunkSum (ps : List (Fv × Fv)) : Word × Word :=
  let ins := (ps.map fun p => [p.1, p.2]).flatten
  let t := (ps.map fun p => (fpMul p.1 p.2).1).foldl Sum.add Sum.empty
  let bad := ps.any (fun p => (fpMul p.1 p.2).2 != 0 && !p.1.isNaN && !p.2.isNaN) || (t.pinf && t.ninf)
  let nv := if bad then flagNV else 0
  if ins.any Fv.isNaN then (canonNaN, sigFlag ins ||| nv)
  else
    let r := f32Of (t.exact .rne)
    (r.1, r.2 ||| nv)

/-- Chunks of 32 positions. -/
def chunks (ps : List (Fv × Fv)) : List (List (Fv × Fv)) :=
  (List.range ((ps.length + 31) / 32)).map fun c => (ps.drop (32 * c)).take 32

/-- An element after its chunks, added in order. -/
def accumulate (acc : Word) (cs : List (List (Fv × Fv))) : Word × Word :=
  cs.foldl (fun (r : Word × Word) c =>
    let z := chunkSum c
    let y := addR r.1 z.1
    (y.1, r.2 ||| z.2 ||| y.2)) (acc, 0)

/-- The words of one element: one, or the real and the imaginary part. -/
def elementWords (op : Nat) (start : Nat → Word) (a b : List (Fv × Fv)) : List (Word × Word) :=
  let ps := List.zip a b
  if op = 2 then
    let v := ps.foldl (fun (t : Int) p => match p.1.1, p.2.1 with
      | .fin n1 m1 _, .fin n2 m2 _ => t + signedMag n1 m1 * signedMag n2 m2
      | _, _ => t) 0
    [(BitVec.ofInt 32 v + start 0, 0)]
  else if op = 6 then
    -- 64 products of a complex chunk are one sum
    let re := (ps.map fun p => [(p.1.1, p.2.1), (p.1.2.negate, p.2.2)]).flatten
    let im := (ps.map fun p => [(p.1.1, p.2.2), (p.1.2, p.2.1)]).flatten
    [accumulate (start 0) [re], accumulate (start 1) [im]]
  else if op = 7 then [accumulate (start 0) [splitTerms (ps.map fun p => (p.1.1, p.2.1))]]
  else [accumulate (start 0) (chunks (ps.map fun p => (p.1.1, p.2.1)))]

/-- A matrix operation on its tile. -/
def State.runMm (s : State) (tk gk tile op : Nat) (ovw : Bool) (a b : TileOp) : State × Word :=
  let sh := shapeOf op
  let t := s.team tk
  let values := fun (o : TileOp) (major : Bool) =>
    let sc := s.operandScales gk o sh
    (s.operandCodes gk o major sh).mapIdx fun i cs => lineValues sh o.slot.fmt cs (sc.getD i [])
  let as := values a (!a.slot.tr)
  let bs := values b b.slot.tr
  let per := if op = 6 then 2 else 1
  let out := as.mapIdx fun i row => bs.mapIdx fun j col =>
    (i, per * j, elementWords op (fun h => if ovw then 0 else t.tileWord tile i (per * j + h)) row col)
  out.flatten.foldl (fun (r : State × Word) e =>
    ((r.1.updTeam tk fun t => (e.2.2.mapIdx fun h w => (h, w.1)).foldl (fun t w => t.setTileWord tile e.1 (e.2.1 + w.1) w.2) t),
     r.2 ||| e.2.2.foldl (fun f w => f ||| w.2) 0)) (s, 0)

-- ALOAD AND ADRAIN AT THE UNIT
def State.runAload (s : State) (tk gk tile : Nat) (ty : Ty) (isCw : Bool) (base sw stride : Nat) : State :=
  let eb := ty.width / 8
  (List.range 64).foldl (fun s i =>
    let r := ofBytes ((s.tileBytes gk isCw sw (base + i * stride) (64 * eb)).map s.byteAtHome)
    s.updTeam tk fun t => (List.range 64).foldl (fun t j =>
      let e := bitsAt r (8 * eb * j) (8 * eb)
      t.setTileWord tile i j (BitVec.ofNat 32 (if eb = 2 then e * 2 ^ 16 else e))) t) s

/-- POISON as an element of a type (R180). -/
def poisonOf (ty : Ty) : Nat :=
  match ty with
  | .f32 | .i32 | .n32 | .b32 => 0x7FF00BAD
  | .bf16 => 0x7FF0
  | .f16 => 0x7F80
  | .e4m3 => 0x7F
  | .e5m2 => 0x7E
  | .e3m2 | .e2m3 | .e2m1 => 0
  | .i16 => 0x0BAD
  | _ => 0xAD

/-- The values of a row before conversion, its triple and the flags (R183); with an empty triple EMPTY passes through x − m (R70). -/
def drainRow (d : Drain) (row : List Word) (bias : List Word) (norm : Triple) : List Word × Triple × Word :=
  let scaled := row.map fun w => if d.scl = 0 then (w, (0 : Word)) else f32Of (fpLdexp (readF32 w) d.scl)
  let biased := if bitOf d.fn 2 then (List.zip scaled bias).map fun p => let r := addR p.1.1 p.2
                                                                         (r.1, p.1.2 ||| r.2)
                else scaled
  let st := if bitOf d.fn 0 then
      biased.foldl (fun (t : Triple × Word) p => let r := statUpdate t.1 p.1 0x3F800000#32
                                                 (r.1, t.2 ||| r.2)) (emptyTriple, 0)
    else (norm, 0)
  let outs := if bitOf d.fn 1 then
      let f := statFinal st.1 d.eps
      biased.map fun p =>
        let a := subR p.1 st.1.normal.m
        let b := mulR a.1 f.1.2
        (b.1, p.2 ||| a.2 ||| b.2 ||| f.2)
    else biased
  (outs.map (·.1), st.1, st.2 ||| outs.foldl (fun f p => f ||| p.2) 0)

/-- An element converted to the drain's type. -/
def drainElem (s : State) (tk grp : Nat) (d : Drain) (i j : Nat) (w : Word) : Nat × Word :=
  match fmtOf d.ty with
  | some fm =>
    let mode := modeOf (d.x6 % 8)
    let u := match mode with
      | .rsr => rndU (s.launch (teamLaunch tk)).r.rkey (BitVec.ofNat 64 (teamIndex tk % 2 ^ 24 * 2 ^ 40 + grp % 32 * 2 ^ 35 +
          i * 2 ^ 29 + j * 2 ^ 23 + d.count % 2 ^ 23))
      | _ => 0
    let v := readF32 w
    let z := roundTo fm mode u (exactOf v)
    (z.1, sigFlag [v] ||| z.2)
  | none =>
    let v := w.toInt
    fpToInt .rtz 0 d.ty.signed d.ty.width (.fin (decide (v < 0)) v.natAbs d.scl false)

/-- A row's bytes. -/
def packRow (w : Nat) (es : List Nat) : List Byte := bytesOf (64 * w / 8) (es.foldr (fun e a => e % 2 ^ w + a * 2 ^ w) 0)

/-- One row of a drain written at its home, or staged (R264). -/
def State.putRow (s : State) (q : QEntry) (d : Drain) (i : Nat) (data : List Byte) : State :=
  let g := s.group q.grp
  let bs := List.zipWith (fun p b => { place := p, val := b, en := 0xFF : ByteWrite }) (d.rows.getD i []) data
  if d.space = 2 && (s.launchOf g).det then
    (s.updTeam g.team fun t => { t with staging := t.staging ++ [
      { grp := g.grp, seq := q.seq, pc := q.pc, kind := 1, opc := 0, ty := d.ty, va := d.addrs.getD i 0, rval := 0, op := .write bs, data := data, enab := 0, row := true }] })
  else s.applyBytes q.grp q.pc bs

def State.runDrain (s : State) (tk : Nat) (q : QEntry) (d : Drain) : State × Word :=
  let t := s.team tk
  let grp := (s.group q.grp).grp
  let bias := (List.range 64).map fun j => BitVec.ofNat 32 (ofBytes (((d.bias.drop (4 * j)).take 4).map s.byteAtHome))
  (List.range 64).foldl (fun (r : State × Word) i =>
    let norm : Triple := { w := d.norm.getD (3 * i) 0, m := d.norm.getD (3 * i + 1) 0, q := d.norm.getD (3 * i + 2) 0 }
    let row := (List.range 64).map fun j => t.tileWord q.tile i j
    let isInt := (fmtOf d.ty).isNone
    let x := if d.poisoned then ([], { w := poison, m := poison, q := poison }, flagAPEND)
             else if isInt then (row, norm, 0) else drainRow d row bias norm
    let ys := if d.poisoned then List.replicate 64 (poisonOf d.ty, (0 : Word))
              else x.1.mapIdx fun j w => drainElem s tk grp d i j w
    let s := r.1.putRow q d i (packRow d.ty.width (ys.map (·.1)))
    let s := if bitOf d.fn 0 then s.updGroup q.grp fun g =>
        let reg := d.tregs + 4 * (i / 32)
        ((g.setV reg (i % 32) x.2.1.w).setV (reg + 1) (i % 32) x.2.1.m).setV (reg + 2) (i % 32) x.2.1.q
      else s
    (s, r.2 ||| x.2.2 ||| ys.foldl (fun f y => f ||| y.2) 0)) (s, 0)

-- THE UNIT
/-- Bytes an entry reads. -/
def State.entryReads (s : State) (q : QEntry) : List Place :=
  match q.what with
  | .mm op _ _ a b => operandPlaces s q.grp a a.slot.tr (shapeOf op) ++ operandPlaces s q.grp b (!b.slot.tr) (shapeOf op)
  | .aload ty isCw base sw stride =>
    ((List.range 64).map fun i => s.tileBytes q.grp isCw sw (base + i * stride) (8 * ty.width)).flatten
  | .adrain d => if d.poisoned then [] else d.bias
  | .azero => []

/-- A drain waits for the group's earlier loads of its rows and earlier writes to them. -/
def State.drainWaits (s : State) (q : QEntry) : Bool :=
  match q.what with
  | .adrain d =>
    let ps := d.rows.flatten
    let g := s.group q.grp
    g.loads.any (fun l => l.seq < q.seq && overlaps l.places ps) ||
    s.copies.any (fun c => c.grp == q.grp && c.seq < q.seq && c.unread) ||
    g.stores.any fun e => e.seq < q.seq &&
      (overlaps e.op.places ps || (d.space == 2 && e.path == .g && (s.launchOf g).det))
  | _ => false

/-- The unit performs and completes the first entry of a team's queue; its flags go to every lane of the issuing group. -/
def execMatrixEntryExecute (tk : Nat) (s : State) : Host.Outcome State Fault Refusal :=
  match (s.team tk).queue with
  | [] => .next s
  | q :: qs =>
    if (s.team tk).dead || s.drainWaits q then .next s else
    let s := s.updTeam tk fun t => { t with queue := qs }
    match s.badRead (s.entryReads q) with
    | some p => .next (s.raiseRead q.grp q.pc p)
    | none =>
      let r := match q.what with
        | .azero => (s.updTeam tk fun t => { t with tiles := t.tiles.filter fun p => p.1 / 4096 != q.tile }, (0 : Word))
        | .aload ty isCw base sw stride => (s.runAload tk q.grp q.tile ty isCw base sw stride, 0)
        | .mm op _ ovw a b => s.runMm tk q.grp q.tile op ovw a b
        | .adrain d => s.runDrain tk q d
      .next (r.1.updGroup q.grp fun g => g.orFlagsIn allLanes r.2)

end Sys2Proof.Machine
end

