-- ==== Sys2Proof/Machine/Wait.lean ====
section
/-! DEFINITION. The wait-and-wake table: waitv and wake, opcodes 0xD4 and 0xD5, the wake register and the end of a wait (R162, R163, R283). -/

namespace Sys2Proof.Machine

/-- The key of an address of a context (R283). -/
def wakeKey (ck va : Nat) : Nat := ck * 2 ^ 64 + va

/-- Whether the table has an entry for a key: 65,536 entries, one for each key with a sleeper. -/
def State.wakeRoom (s : State) (key : Nat) : Bool :=
  s.sleepers.any (·.key == key) || decide ((s.sleepers.map (·.key)).eraseDups.length < 65536)

/-- The word that the address g[sk + OFF] of waitv and wake names after the swizzle (R28, R136), which is the key. -/
def keyWord (x : View) : Nat := swizzle (dSW x.f) (baseAddr x)

/-- n of R162. -/
def waitLimit (x : View) : Nat :=
  match x.f.b.op with
  | .zero => 2 ^ 32 - 1
  | _ => min (uniform64 x x.f.b) (2 ^ 32 - 1)

/-- waitv: the compare and the enqueue as one step. -/
def waitvEff (x : View) : Eff :=
  let va := baseAddr x
  let acc : Acc := { space := 2, bits := x.f.ty.width, sw := dSW x.f, write := false, atomic := false, stamped := false, kind := 1 }
  withAccess x acc [(x.low, va)] fun ls => withIssue x 1 (withReadNow x (allPlaces ls) fun x bs =>
      let expect := match x.f.d with | .s n => (x.sval n.toNat).toNat % 2 ^ x.f.ty.width | _ => 0
      let key := wakeKey (x.s0.launchOf x.g).ctxKey (keyWord x)
      if ofBytes bs != expect || !x.s0.wakeRoom key then .done x.s
      else
        let until_ := x.s0.groupCyc x.g + waitLimit x
        let s := x.s.updGroup x.gk fun g => g.updLanes x.act fun y => { y with pc := x.next, cond := .waitv key until_ }
        .jump { s with sleepers := s.sleepers ++ [{ key := key, grp := x.gk, lanes := x.act, order := s.order }]
                       order := s.order + 1 } true)

/-- The first `n` groups that sleep on a key, earliest first. -/
def State.sleepersOn (s : State) (key n : Nat) : List Nat :=
  (((s.sleepers.filter (·.key == key)).map (·.grp)).eraseDups).take n

/-- Groups leave a key's entry: their lanes that sleep on it vote again. -/
def State.wakeGroups (s : State) (key : Nat) (gs : List Nat) : State :=
  let s := gs.foldl (fun s gk => s.updGroup gk fun g => g.updLanes g.live fun y =>
    match y.cond with
    | .waitv k _ => if k = key then { y with cond := .voting } else y
    | _ => y) s
  { s with sleepers := s.sleepers.filter fun p => !(p.key == key && gs.contains p.grp) }

/-- wake: a release at module scope, then up to sj groups; the number woken goes to sj. An address that no ordinary instruction
may use raises ACCESS (R136, R327). -/
def wakeEff (x : View) : Eff :=
  if 2 ^ 57 ≤ baseAddr x then .trap trapAccess (BitVec.ofNat 64 (baseAddr x)) x.low
  else if x.g.acquiring || !x.s0.performed x.gk 15 4 then .wait x.s0 .drain else
  match x.f.d with
  | .s n =>
    let key := wakeKey (x.s0.launchOf x.g).ctxKey (keyWord x)
    let gs := x.s0.sleepersOn key ((x.sval n.toNat).toNat % 2 ^ 32)
    .done ((x.s.wakeGroups key gs).updGroup x.gk fun g => g.setS n.toNat (BitVec.ofNat 64 gs.length))
  | _ => .done x.s

-- MEANINGS
def execWaitv (f : Form) (s : State) : Host.Outcome State Fault Refusal := runActing (.waitv f) f waitvEff s
def execWake (f : Form) (s : State) : Host.Outcome State Fault Refusal := runActing (.wake f) f wakeEff s

-- EVENTS
/-- Lanes whose time limit has come leave their entries (R162). -/
def execWaitvTimeout (gk : Nat) (s : State) : Host.Outcome State Fault Refusal :=
  let g := s.group gk
  if (s.teamOf g).stopped then .next s else
  let late := maskOf fun l => match (g.lane l).cond with | .waitv _ c => c ≤ s.groupCyc g | _ => false
  let s := s.setGroup gk (g.updLanes late fun y => { y with cond := .voting })
  .next { s with sleepers := (s.sleepers.map fun p => if p.grp == gk then { p with lanes := p.lanes &&& ~~~late } else p).filter
                   fun p => p.lanes != 0 }

/-- A write of WAKEN (R272, R283): sleepers on the key of WAKEA wake, and the register reads the number. -/
def execWaken (fn : Nat) (val : DWord) (s : State) : Host.Outcome State Fault Refusal :=
  if !s.present fn then .next s else
  let f := s.fn fn
  let key := wakeKey (ctxKey fn (bitsAt f.wakea.toNat 60 4)) (f.wakea.toNat % 2 ^ 57)
  let gs := s.sleepersOn key (val.toNat % 2 ^ 32)
  .next ((s.wakeGroups key gs).updFn fn fun f => { f with waken := BitVec.ofNat 32 gs.length })

end Sys2Proof.Machine
end

