-- ==== Sys2Proof/Machine/Issue.lean ====
section
/-! DEFINITION. Issue (R34 to R36, R48, R51 to R53, R80, R83, R110, R111, R202 to R205): fetch, the register interlock, the ports of a core in one cycle, and the grant of its issue slots. -/

namespace Sys2Proof.Machine

-- ENGINES (R51)
def engineOfOpcode (op : Nat) : Engine :=
  if op = 0 then .none
  else if op = 0x94 ∨ op = 0x95 then .special
  else if op < 0xC0 then .vector
  else if op < 0xCF then .loadStore
  else if op < 0xD4 then .fabric
  else if op < 0xE0 then .loadStore
  else if op < 0xE2 then .copy
  else if op = 0xE7 then .collective
  else if op < 0xF0 then .matrix
  else .vector

def engineOf (i : Instr) : Engine := engineOfOpcode ((opcodeOf i).getD 0)

def Engine.code : Engine → Nat
  | .none => 0 | .vector => 1 | .special => 2 | .loadStore => 3 | .fabric => 4 | .copy => 5 | .matrix => 6 | .collective => 7

/-- A nop ranks as a vector instruction (R203). -/
def Engine.ranked : Engine → Engine
  | .none => .vector
  | e => e

/-- The limit of R202 on an engine is reached in this cycle. -/
def Core.full (c : Core) (e : Engine) : Bool :=
  match e with
  | .none => false
  | .vector => decide (2 ≤ (c.used.filter (· == .vector)).length)
  | e => c.used.contains e

-- FETCH (R34 to R36)
/-- Whether `n` bytes at an address lie in one kernel image of a context: the image of a launch that has not completed. -/
def State.inImage (s : State) (ck a n : Nat) : Bool :=
  s.launches.any fun p => p.2.active && p.2.ctxKey == ck && decide (p.2.r.image ≤ a ∧ a + n ≤ p.2.r.image + p.2.r.ilen)

inductive Fetch where
  | instr (i : Instr)
  | bad (why : BadWord) (word : DWord)
  | miss (page : Nat)
  | poisoned (a : Nat)

/-- The word at an address, against the checks of R36 in their order; the word that TARG reports stands beside its failure. -/
def State.fetch (s : State) (core ck pc : Nat) : Fetch :=
  if pc % 4 != 0 then .bad .misaligned 0
  else if !s.inImage ck pc 1 then .bad .outside 0
  else match s.lookup core ck (pc / 2 ^ 16) with
    | none => .miss (pc / 2 ^ 16)
    | some t =>
      let a := t.addr + pc % 2 ^ 16
      let head := s.memNat a 8
      if !t.x || t.bf || t.stmp || t.basic || s.inSlots t.addr then .bad .outside 0
      else if s.poisoned.contains (granule a) then .poisoned a
      else match lenOf (head % 4) with
        | none => .bad .badLen (BitVec.ofNat 64 (head % 256))
        | some len =>
          if 32 < pc % 32 + len.bytes then .bad .crosses 0
          else if !s.inImage ck pc len.bytes then .bad .outside 0
          else match decodeNat (s.memNat a len.bytes) with
            | .ok i => .instr i
            | .error _ => .bad .illegal (BitVec.ofNat 64 head)

/-- A path issues a word that names no instruction (R34 to R36, R52, R53): the trap of the check that failed. -/
def execUnassignedOpcode (why : BadWord) (word : DWord) (s : State) : Host.Outcome State Fault Refusal :=
  let gk := s.cur.grp
  let pc := s.cur.pc
  let trap := fun (code : Nat) (arg : DWord) => (s.takeTrap gk code arg 0 s.cur.path pc pc).cut gk
  match why with
  | .misaligned => .next (trap trapFetchAlign pc)
  | .crosses => .next (trap trapFetchAlign pc)
  | .outside => .next (trap trapAccess pc)
  | .badLen => .next (trap trapIllegal word)
  | .illegal => .next (trap trapIllegal word)

-- THE INTERLOCK (R80)
/-- A register that an earlier instruction of the group is still to write, in one lane for a v register. -/
structure Due where
  isS  : Bool
  reg  : Nat
  lane : Nat
  seq  : Nat
  deriving DecidableEq, Repr

def dueOf (seq : Nat) (d : Dst) : List Due :=
  let one := fun (r : Nat) => ({ isS := d.isS, reg := r, lane := d.lane, seq := seq } : Due)
  if !d.isS && d.ty.width = 64 then [one d.reg, one (d.reg + 1)] else [one d.reg]

def dueS (seq reg : Nat) : Due := { isS := true, reg := reg, lane := 0, seq := seq }

/-- The registers that the fabric is still to write for a pending access (R160, R161). -/
def Pending.due (p : Pending) : List Due :=
  if p.replied then [] else
  (p.dst.map (dueOf p.seq)).flatten ++
  (if p.kind = 1 ∨ p.kind = 2 then [dueS p.seq (p.sreg + 1)]
   else if p.kind = 3 then [dueS p.seq (p.sreg + 1), dueS p.seq (p.sreg + 2)] else [])

/-- The triple registers that a queued drain with .stat is still to write (R183). -/
def QEntry.due (q : QEntry) : List Due :=
  match q.what with
  | .adrain d =>
    if d.fn % 2 = 1 then
      ((List.range 8).map fun r => Machine.lanes.map fun l => ({ isS := false, reg := d.tregs + r, lane := l, seq := q.seq } : Due)).flatten
    else []
  | _ => []

def State.due (s : State) (gk : Nat) : List Due :=
  let g := s.group gk
  (g.loads.map fun l => dueOf l.seq l.dst).flatten ++
  (g.stores.map fun e => match e.op with
    | .rmw _ _ _ _ _ (some d) _ => dueOf e.seq d
    | _ => []).flatten ++
  ((s.pendings.filter (·.grp == gk)).map Pending.due).flatten ++
  (((s.teamOf g).queue.filter (·.grp == gk)).map QEntry.due).flatten

/-- Registers that an instruction reads or writes: an operand and the registers after it, in some lanes; whether it is written. -/
structure Touch where
  op     : Opnd
  n      : Nat
  lanes  : Mask
  writes : Bool

/-- The registers an instruction on a path reads or writes: those its fields name, the source of shfl and bcast in every lane that
supplies it (R94), and the destinations of the tokens it retires in the lanes that wait for them (R107, R108). -/
def touches (i : Instr) (f : Form) (g : Group) (path : Mask) (pc : DWord) : List Touch :=
  let tokens := g.tokens.map fun t => { op := t.dst, n := 1, lanes := t.lanes, writes := true : Touch }
  let supplied := { op := f.a.op, n := max 1 (f.ty.width / 32), lanes := maskOf (g.atPc pc), writes := false : Touch }
  (groupsOf i f).map (fun o => { op := o.1, n := o.2, lanes := path, writes := o.1 == f.d }) ++ (match i with
    | .sfq _ => tokens
    | .sfw _ => tokens
    | .shfl _ => [supplied]
    | .bcast _ => [supplied]
    | _ => [])

/-- Whether a register that an instruction touches is due. -/
def dueIn (ds : List Due) (o : Touch) : Bool :=
  match o.op with
  | .v n => ds.any fun d => !d.isS && o.lanes.getLsbD d.lane && decide (n.toNat ≤ d.reg ∧ d.reg < n.toNat + o.n)
  | .s n => ds.any fun d => d.isS && decide (n.toNat ≤ d.reg ∧ d.reg < n.toNat + o.n)
  | _ => false

/-- An instruction at an address waits for its registers. On port 1 its sources are those of before the cycle (R83), as the group
`seen` has them, and only what it writes meets what port 0 has issued since access `seq0`. -/
def State.interlocked (s : State) (gk : Nat) (path : Mask) (pc : DWord) (port1 : Option (Nat × Group)) (i : Instr) : Bool :=
  match formOf i with
  | none => false
  | some f =>
    let ds := s.due gk
    match port1 with
    | none => (touches i f (s.group gk) path pc).any (dueIn ds)
    | some (n, old) => (touches i f ((s.group gk).reading old) path pc).any fun o => dueIn (ds.filter fun d => o.writes || d.seq ≤ n) o

-- THE MEANINGS OF ENCODED INSTRUCTIONS
/-- The meaning of an encoded instruction on the state's focus; nothing for an event. -/
def runCoded (i : Instr) (s : State) : Host.Outcome State Fault Refusal :=
  match i with
  | .nop f => execNop f s
  | .mov f => execMov f s
  | .addInt f => execAddInt f s
  | .subInt f => execSubInt f s
  | .mulInt f => execMulInt f s
  | .mulh f => execMulh f s
  | .mad f => execMad f s
  | .madh f => execMadh f s
  | .divInt f => execDivInt f s
  | .rem f => execRem f s
  | .minInt f => execMinInt f s
  | .maxInt f => execMaxInt f s
  | .sadd f => execSadd f s
  | .ssub f => execSsub f s
  | .and f => execAnd f s
  | .or f => execOr f s
  | .xor f => execXor f s
  | .not f => execNot f s
  | .shl f => execShl f s
  | .shr f => execShr f s
  | .sar f => execSar f s
  | .rol f => execRol f s
  | .ror f => execRor f s
  | .popc f => execPopc f s
  | .clz f => execClz f s
  | .ctz f => execCtz f s
  | .brev f => execBrev f s
  | .bfx f => execBfx f s
  | .bfi f => execBfi f s
  | .sel f => execSel f s
  | .lea f => execLea f s
  | .bsel f => execBsel f s
  | .sext f => execSext f s
  | .zext f => execZext f s
  | .dot4 f => execDot4 f s
  | .sad f => execSad f s
  | .addFp f => execAddFp f s
  | .mulFp f => execMulFp f s
  | .subFp f => execSubFp f s
  | .fma f => execFma f s
  | .minFp f => execMinFp f s
  | .maxFp f => execMaxFp f s
  | .divFp f => execDivFp f s
  | .sqrt f => execSqrt f s
  | .rcp f => execRcp f s
  | .frac f => execFrac f s
  | .rint f => execRint f s
  | .floor f => execFloor f s
  | .ceil f => execCeil f s
  | .trunc f => execTrunc f s
  | .ldexp f => execLdexp f s
  | .classF f => execClassF f s
  | .padd f => execPadd f s
  | .psub f => execPsub f s
  | .pmul f => execPmul f s
  | .pfma f => execPfma f s
  | .pmin f => execPmin f s
  | .pmax f => execPmax f s
  | .pdot f => execPdot f s
  | .cmp f => execCmp f s
  | .mand f => execMand f s
  | .mor f => execMor f s
  | .mxor f => execMxor f s
  | .mnot f => execMnot f s
  | .mpopc f => execMpopc f s
  | .mffs f => execMffs f s
  | .vote f => execVote f s
  | .shfl f => execShfl f s
  | .bcast f => execBcast f s
  | .lred f => execLred f s
  | .lscan f => execLscan f s
  | .supd f => execSupd f s
  | .smrg f => execSmrg f s
  | .sred f => execSred f s
  | .sfin f => execSfin f s
  | .cvt f => execCvt f s
  | .mxq f => execMxq f s
  | .mxdq f => execMxdq f s
  | .rnd f => execRnd f s
  | .sfq f => execSfq f s
  | .sfw f => execSfw f s
  | .br f => execBr f s
  | .call f => execCall f s
  | .ret f => execRet f s
  | .exit f => execExit f s
  | .sleep f => execSleep f s
  | .yield f => execYield f s
  | .jset f => execJset f s
  | .join f => execJoin f s
  | .brx f => execBrx f s
  | .callx f => execCallx f s
  | .bind f => execBind f s
  | .unbind f => execUnbind f s
  | .ladd f => execLadd f s
  | .lsub f => execLsub f s
  | .lneg f => execLneg f s
  | .lshl f => execLshl f s
  | .lshr f => execLshr f s
  | .lcmp f => execLcmp f s
  | .lmov f => execLmov f s
  | .lmac f => execLmac f s
  | .ld f => execLd f s
  | .st f => execSt f s
  | .gld f => execGld f s
  | .sct f => execSct f s
  | .atom f => execAtom f s
  | .red f => execRed f s
  | .cas f => execCas f s
  | .msred f => execMsred f s
  | .fence f => execFence f s
  | .wcnt f => execWcnt f s
  | .fset f => execFset f s
  | .ftest f => execFtest f s
  | .barSync f => execBarSync f s
  | .barArrive f => execBarArrive f s
  | .barWait f => execBarWait f s
  | .blineInit f => execBlineInit f s
  | .blineClr f => execBlineClr f s
  | .tnow f => execTnow f s
  | .stst f => execStst f s
  | .rdat f => execRdat f s
  | .mcst f => execMcst f s
  | .mcsq f => execMcsq f s
  | .mcsqCas f => execMcsqCas f s
  | .mldr f => execMldr f s
  | .waitv f => execWaitv f s
  | .wake f => execWake f s
  | .tdload f => execTdload f s
  | .tddrop f => execTddrop f s
  | .copy f => execCopy f s
  | .copyMc f => execCopyMc f s
  | .copyGcm f => execCopyGcm f s
  | .aready f => execAready f s
  | .await f => execAwait f s
  | .azero f => execAzero f s
  | .aload f => execAload f s
  | .adrain f => execAdrain f s
  | .aread f => execAread f s
  | .cstart f => execCstart f s
  | .carm f => execCarm f s
  | .cstat f => execCstat f s
  | .mmbf f => execMmbf f s
  | .mmf8 f => execMmf8 f s
  | .mmi8 f => execMmi8 f s
  | .mmx8 f => execMmx8 f s
  | .mmx6 f => execMmx6 f s
  | .mmx4 f => execMmx4 f s
  | .mmcx f => execMmcx f s
  | .mmf32 f => execMmf32 f s
  | .trap f => execTrap f s
  | .tret f => execTret f s
  | .brk f => execBrk f s
  | .mark f => execMark f s
  | .sysr f => execSysr f s
  | .sysw f => execSysw f s
  | .flag f => execFlag f s
  | _ => .next s

/-- The state with its focus on a path of a group. -/
def State.focus (s : State) (gk : Nat) (path : Mask) (pc : DWord) (port : Nat) (old : Group) : State :=
  { s with cur := { grp := gk, path := path, pc := pc, port := port, old := old, waited := false, edge := false } }

-- SLOTS
/-- The holder of an issue slot. -/
def State.holder (s : State) (core k : Nat) : Option Holder := mapGet none (s.core core).holders k

def State.updHolder (s : State) (core k : Nat) (f : Holder → Holder) : State :=
  s.updCore core fun c => { c with holders := mapSet none c.holders k ((mapGet none c.holders k).map f) }

/-- The holders of a core in the order of R202. -/
def State.holdersOf (s : State) (core : Nat) : List (Nat × Holder) :=
  let first := fun (a b : Holder) => a.began < b.began || (a.began == b.began && (s.group a.grp).slot ≤ (s.group b.grp).slot)
  match s.holder core 0, s.holder core 1 with
  | some a, some b => if first a b then [(0, a), (1, b)] else [(1, b), (0, a)]
  | some a, none => [(0, a)]
  | none, some b => [(1, b)]
  | none, none => []

/-- The issue slot and port that a core takes next in this cycle (R202). -/
def State.candidate (s : State) (core : Nat) : Option (Nat × Nat) :=
  if 2 ≤ (s.core core).count then none else
  let hs := s.holdersOf core
  match hs.find? fun p => !p.2.tried0 && decide (p.2.began ≤ s.cyc core) with
  | some p => some (p.1, 0)
  | none => (hs.find? fun p => p.2.done0 && !p.2.tried1 && p.2.second != 0).map fun p => (p.1, 1)

/-- Runs that ended in this cycle give up their slots (R48, R204). -/
def State.releaseOver (s : State) (core : Nat) : State :=
  let s := (s.holdersOf core).foldl (fun s p =>
    if p.2.ends then s.updGroup p.2.grp fun g => { g with run := 0, ready := s.cyc core } else s) s
  s.updCore core fun c => { c with holders := c.holders.filter fun h => match h.2 with
                                                                        | some x => !x.ends
                                                                        | none => false }

-- READINESS AND GRANTS (R203)
/-- A group that may issue in its run: placed, with a voting lane, its team not stopped, and held by neither stst, rdat, await nor
an empty line that an access of it has met (R139). -/
def State.mayIssue (s : State) (gk : Nat) : Bool :=
  let g := s.group gk
  g.present && g.voting != 0 && !(s.teamOf g).stopped && g.hold.isNone && g.rdat.isNone && !s.awaiting g && (s.heldAccess g).isNone

/-- A group that may begin a run: not of a cluster that leaves its cores (R262), nor on a core held stopped (R348). -/
def State.mayBeginRun (s : State) (gk : Nat) : Bool :=
  let g := s.group gk
  s.mayIssue gk && !(s.core (s.groupCore g)).held && (s.cluster (s.clusterOf (s.launchOf g) g.team)).stage == .running

/-- The wait of R204 that a group's paths[0] instruction meets, with the %cyc at which a stall on an empty line traps; none where
it meets none, or has a walk to start or to join. -/
def State.waitOf (s : State) (gk : Nat) : Option (Why × Option Nat) :=
  let g := s.group gk
  let p := g.first
  let ck := (s.launchOf g).ctxKey
  if !g.nexts.isEmpty then none
  else match s.fetch (s.groupCore g) ck p.pc.toNat with
    | .bad .. => none
    | .poisoned _ => none
    | .miss page => if (s.joinWalk ck page 4 gk p.lanes).walks = s.walks then some (.walk, none) else none
    | .instr i =>
      if s.interlocked gk p.lanes p.pc none i then some (.result, none)
      else match runCoded i (s.focus gk p.lanes p.pc 0 g) with
        | .next t => if t.cur.waited && decide (t.walks = s.walks) then some ((t.group gk).why, (t.group gk).stall) else none
        | _ => none

def State.meetsNoWait (s : State) (gk : Nat) : Bool := (s.waitOf gk).isNone

/-- Whether a group holds an issue slot of its core. -/
def State.holdsSlot (s : State) (gk : Nat) : Bool :=
  (s.core (s.groupCore (s.group gk))).holders.any fun h => match h.2 with
    | some x => x.grp == gk
    | none => false

def State.ready (s : State) (gk : Nat) : Bool := s.mayBeginRun gk && !s.holdsSlot gk && s.meetsNoWait gk

/-- The engine of a group's paths[0] instruction, as R203 ranks it. -/
def State.nextEngine (s : State) (gk : Nat) : Engine :=
  let g := s.group gk
  match s.fetch (s.groupCore g) (s.launchOf g).ctxKey g.first.pc.toNat with
  | .instr i => (engineOf i).ranked
  | _ => .vector

/-- The groups of a core. -/
def State.coreGroups (s : State) (core : Nat) : List Nat :=
  (s.groups.filter fun p => p.2.present && s.groupCore p.2 == core).map (·.1)

/-- Whether a ready group takes a slot before another (R203); the second run of checking mode turns the last tie round
(R269). -/
def State.grantBefore (s : State) (core a b : Nat) : Bool :=
  let x := s.group a
  let y := s.group b
  let now := s.cyc core
  let late := fun (g : Group) => decide (g.ready + 4096 ≤ now)
  let idle := fun (k : Nat) => now - mapGet 0 (s.core core).last (s.nextEngine k).code
  let tie := if (s.launchOf x).second then decide (y.slot < x.slot) else decide (x.slot < y.slot)
  let longest := x.ready < y.ready || (x.ready == y.ready && tie)
  if late x || late y then (if late x && late y then longest else late x)
  else idle b < idle a || (idle a == idle b && longest)

/-- The group that takes a free slot of a core. -/
def State.grantee (s : State) (core : Nat) : Option Nat :=
  match (s.coreGroups core).filter s.ready with
  | [] => none
  | k :: ks => some (ks.foldl (fun a b => if s.grantBefore core b a then b else a) k)

/-- The free issue slot of a core. -/
def State.freeIssueSlot (s : State) (core : Nat) : Option Nat :=
  if (s.holder core 0).isNone then some 0 else if (s.holder core 1).isNone then some 1 else none

/-- A free issue slot goes to a ready group, whose run begins in the next cycle (R203). -/
def execIssueSlotGrant (core : Nat) (s : State) : Host.Outcome State Fault Refusal :=
  match s.freeIssueSlot core, s.grantee core with
  | some k, some gk =>
    let h : Holder := { grp := gk, began := s.cyc core + 1, tried0 := false, done0 := false, tried1 := false, second := 0, pc1 := 0
                        old := Group.none, seq0 := 0, ends := false }
    .next (s.updCore core fun c => { c with holders := mapInsert c.holders k (some h) })
  | _, _ => .next s

-- SAMPLED ACCESSES (R346)
/-- The class of a memory instruction, the lowest of its classes (R147). -/
def memClass : Instr → Option Nat
  | .ld _ | .gld _ | .ftest _ | .rdat _ | .mldr _ | .atom _ | .cas _ | .waitv _ => some 0
  | .st _ | .sct _ | .red _ | .msred _ | .fset _ | .blineInit _ | .blineClr _ | .stst _ | .mcst _ | .mcsq _ | .mcsqCas _ => some 1
  | .copy _ | .copyMc _ | .copyGcm _ | .tdload _ => some 2
  | .mmbf _ | .mmf8 _ | .mmi8 _ | .mmx8 _ | .mmx6 _ | .mmx4 _ | .mmcx _ | .mmf32 _ | .aload _ | .adrain _ => some 3
  | _ => none

/-- The address that a sampled record shows: that of the lowest acting lane (log entry 24). -/
def sampleAddr (x : View) : Nat :=
  match x.i with
  | .waitv _ | .tdload _ | .copy _ | .copyMc _ | .copyGcm _ => baseAddr x
  | .gld _ => table x
  | .sct _ => table x
  | .adrain _ => ((BitVec.ofNat 64 (quadOf x x.f.b.op).src) + dOFF x.f).toNat
  | i => if memClass i = some 3 then baseAddr x else effAddr x x.low
where
  /-- The element of the lane's index, or with .mi the word of its index. -/
  table (x : View) : Nat :=
    if x.f.fn = 0 then
      ((BitVec.ofNat 64 ((tableBase x).1 + readAs x .n32 x.f.b x.low * 2 ^ dIS x.f)) + dOFF x.f).toNat
    else (uniform64 x x.f.b + 4 * x.low) % 2 ^ 64

/-- Every 4,096th memory instruction of a core leaves a record of KIND 2. -/
def State.sample (s : State) (core : Nat) (x : View) : State :=
  match memClass x.i with
  | none => s
  | some cl =>
    let n := (s.core core).sampled + 1
    let s := s.updCore core fun c => { c with sampled := n }
    if n % 4096 != 0 || x.act = 0 then s
    else s.trace x.gk 2 (cl * 2 ^ 61 + dSP x.f * 2 ^ 59 + sampleAddr x % 2 ^ 57)

-- ONE PORT OF ONE CYCLE
/-- The tile instructions (R175), which never issue on port 1 (R212). -/
def isTile : Instr → Bool
  | .azero _ | .aload _ | .adrain _ | .aread _ => true
  | .mmbf _ | .mmf8 _ | .mmi8 _ | .mmx8 _ | .mmx6 _ | .mmx4 _ | .mmcx _ | .mmf32 _ => true
  | _ => false

/-- An engine accepts an instruction. -/
def State.accept (s : State) (core : Nat) (e : Engine) : State :=
  let now := s.cyc core
  s.updCore core fun c =>
    { c with count := c.count + 1
             used := if e = .none then c.used else c.used ++ [e]
             last := if e = .none then c.last else mapSet 0 c.last e.code now }

/-- What follows an instruction on a port (R48, R83, R204, R205): `s` is the state at its issue and `t` the state it left. A wait
ends the run on port 0 and leaves no mark on port 1; a run also ends when no lane of its group votes; after a trap of port 0, port
1 does not issue. -/
def State.settle (s : State) (core k port : Nat) (e : Engine) (x : Option View) (t : State) : State :=
  let gk := s.cur.grp
  let g := s.group gk
  if t.cur.waited then
    if port = 0 then t.updHolder core k fun h => { h with ends := true }
    else t.updGroup gk fun y => { y with why := g.why, stall := g.stall }
  else
    let u := t.accept core e
    let u := match x with | some x => u.sample core x | none => u
    let trapped := ((t.group gk).frame && !g.frame) || (t.teamOf (t.group gk)).stopped
    u.updHolder core k fun h =>
      if port = 0 then
        let q := (g.paths[1]?).getD { lanes := 0, pc := 0, standing := 0 }
        { h with done0 := true, ends := h.ends || t.cur.edge || (t.group gk).voting == 0, second := if trapped then 0 else q.lanes, pc1 := q.pc }
      else { h with ends := h.ends || t.cur.edge || (t.group gk).voting == 0 }

def thenDo (o : Host.Outcome State Fault Refusal) (f : State → State) : Host.Outcome State Fault Refusal :=
  match o with
  | .next t => .next (f t)
  | .fault r => .fault r
  | .refused r => .refused r

/-- The trap of class Next with the lowest code, and the others (R334). -/
def Group.lowestNext (g : Group) : Option NextTrap :=
  match g.nexts with
  | [] => .none
  | t :: ts => some (ts.foldl (fun a b => if b.code < a.code then b else a) t)

/-- A path issues on a port: the state `s` has its focus on it. A miss, an operand that is due, a tile instruction on port 1 and
a refused engine do not issue. -/
def State.issuePath (ex : Instr → State → Host.Outcome State Fault Refusal) (s : State) (core k port seq0 : Nat) :
    Host.Outcome State Fault Refusal :=
  let gk := s.cur.grp
  let ck := (s.launchOf (s.group gk)).ctxKey
  let wait := fun (s : State) (why : Why) =>
    if port = 0 then (s.updGroup gk fun g => { g with why := why }).updHolder core k fun h => { h with ends := true } else s
  match s.fetch core ck s.cur.pc.toNat with
  | .miss page => .next (wait (s.joinWalk ck page 4 gk s.cur.path) .walk)
  | .poisoned a => .next ((s.raiseRead gk s.cur.pc (.mem a)).cut gk)
  | .bad why word => thenDo (ex (.unassignedOpcode why word) s) (s.settle core k port .none none)
  | .instr i =>
    if s.interlocked gk s.cur.path s.cur.pc (if port = 0 then none else some (seq0, s.cur.old)) i then .next (wait s .result)
    else if (port == 1 && isTile i) || (s.core core).full (engineOf i) then .next s
    else thenDo (ex i s) (s.settle core k port (engineOf i) ((formOf i).map fun f => viewOf i f s))

/-- Port 0 of a holder: a group that may not issue gives up its slot, a trap of class Next comes first, and otherwise paths[0]
issues. -/
def State.issue0 (ex : Instr → State → Host.Outcome State Fault Refusal) (s : State) (core k : Nat) (h : Holder) :
    Host.Outcome State Fault Refusal :=
  let g := s.group h.grp
  let s := s.updHolder core k fun h => { h with tried0 := true, done0 := false, tried1 := false, second := 0, old := g, seq0 := g.seq }
  if !s.mayIssue h.grp then .next (s.updHolder core k fun h => { h with ends := true }) else
  let p := g.first
  let s := s.focus h.grp p.lanes p.pc 0 g
  match g.lowestNext with
  | some t =>
    let s := s.setGroup h.grp { g with nexts := g.nexts.erase t }
    .next (((s.takeTrap h.grp t.code t.arg 0 p.lanes (t.at_.getD p.pc) p.pc).cut h.grp).updHolder core k fun h => { h with ends := true })
  | none => s.issuePath ex core k 0 0

/-- Port 1 of a holder issues paths[1] of this cycle's vote (R110). -/
def State.issue1 (ex : Instr → State → Host.Outcome State Fault Refusal) (s : State) (core k : Nat) (h : Holder) :
    Host.Outcome State Fault Refusal :=
  let s := s.updHolder core k fun h => { h with tried1 := true }
  (s.focus h.grp h.second h.pc1 1 h.old).issuePath ex core k 1 h.seq0

/-- A core's cycle goes on with its next port until none is left; the slots of the runs that ended are free after it. -/
def State.afterPort (s : State) (core : Nat) : State :=
  if (s.candidate core).isSome then { s with agenda := .issue core :: s.agenda } else s.releaseOver core

/-- The next port of a core's cycle. -/
def State.issue (ex : Instr → State → Host.Outcome State Fault Refusal) (s : State) (core : Nat) : Host.Outcome State Fault Refusal :=
  match s.candidate core with
  | none => .next s
  | some (k, port) =>
    match s.holder core k with
    | none => .next s
    | some h => thenDo (if port = 0 then s.issue0 ex core k h else s.issue1 ex core k h) fun t => t.afterPort core

end Sys2Proof.Machine
end

