-- ==== Sys2Proof/Machine/Moves.lean ====
section
/-! DEFINITION. What may move next and how it moves: the events that are due, the cycles of the clock regions, the work of the bay stewards, and a program placed for the very next step. -/

namespace Sys2Proof.Machine

-- EVENTS THAT MAY BE DUE
/-- Events of one group: its loads, FIFOs, updates, tokens, deadlines and holds. -/
def groupEvents (gk : Nat) (g : Group) : List Instr :=
  (List.range g.loads.length).map (.loadResultReturn gk) ++
  ((List.range 5).map fun p => (List.range (g.headOf (pathOfCode p)).length).map fun k => .storeAppliedAtHome gk (p + 8 * k)).flatten ++
  (List.range g.msreds.length).map (.msauUpdateApply gk) ++
  (g.tokens.filter (!·.arrived)).map (fun t => .sfResultArrival gk t.num) ++
  Machine.lanes.map (.barrierTimeout gk) ++
  [.watchdog gk, .sleepExpiry gk, .waitvTimeout gk, .ststHoldRelease gk, .rdatWaitEnd gk]

/-- The event of the letter at place `i`. -/
def letterEvents (i : Nat) (l : Letter) : List Instr :=
  match l.msg with
  | .version .. => [.stampedVersionArrival i]
  | .remoteVersion .. => [.stampedVersionArrival i]
  | .stampReply .. => [.stampRejectArrival i]
  | .reject .. => [.remoteAccessReject i]
  | .remoteRead .. => []
  | .readReply .. => []
  | .readPoison .. => []
  | .mcst .. => [.memberApply i]
  | .mcstAck id _ => [.mcstComplete id]
  | .mcsq .. => [.crierNumbering i]
  | .numbered .. => [.memberApply i]
  | .applied .. => [.crierNumbering i]
  | .seqReply .. => [.mcsqReply i]
  | .seqDone id => [.mcstComplete id]
  | .seqFail id => [.mcsqReject id]
  | .seqCancel .. => [.crierNumbering i]
  | .roster .. => [.mcgResyncComplete i]
  | .mldr .. => [.mldrResponseFold i]
  | .mldrAsk .. => [.memberApply i]
  | .mldrAnswer .. => [.mldrResponseFold i]
  | .mldrReply .. => [.mldrReply i]
  | .chunk .. => [.chunkArrival i]
  | .chunkAck _ => [.chunkAcknowledged i]
  | .credit .. => [.creditGrant i]
  | .uncredit .. => [.creditGrant i]
  | .barArrive .. => [.clusterBarrierArrival i]
  | .barRelease .. => [.clusterBarrierRelease i]
  | .staleMark group rank => [.memberStaleMark group rank]
  | .join .. => [.mcgResyncComplete i]
  | .joinReply .. => [.mcgResyncComplete i]
  | .leave .. => [.mcgResyncComplete i]
  | .resyncStart .. => [.mcgResyncComplete i]
  | .resyncAsk .. => [.memberApply i]
  | .resyncDone .. => [.mcgResyncComplete i]
  | .resyncCopy .. => [.mcgResyncComplete i]
  | .ckWrite .. => []
  | .ckAck _ => []
  | .timeAsk .. => [.exchangeAtParent i]
  | .timeReply .. => [.exchangeReply i]

/-- What a letter keeps the order of its sender with: the credit of one script, the messages of a membership. -/
def orderOf (m : Msg) : Option (Nat × Nat × Nat) :=
  match m with
  | .credit c => some (1, c.group, c.taker)
  | .uncredit c => some (1, c.group, c.taker)
  | .join .. => some (2, 0, 0)
  | .joinReply .. => some (2, 0, 0)
  | .leave .. => some (2, 0, 0)
  | .resyncStart .. => some (2, 0, 0)
  | .resyncDone .. => some (2, 0, 0)
  | .roster .. => some (2, 0, 0)
  | _ => none

/-- Whether an earlier letter of the same sender comes first. -/
def State.behind (s : State) (i : Nat) (l : Letter) : Bool :=
  (orderOf l.msg).isSome && (s.net.take i).any fun m => m.from_ == l.from_ && orderOf m.msg == orderOf l.msg

def netEvents (s : State) : List Instr :=
  ((s.net.mapIdx fun i l => (i, l)).filter fun p => !s.behind p.1 p.2).map (fun p => letterEvents p.1 p.2) |>.flatten

/-- The event of a script's current step, with its failures. -/
def scriptEvents (x : Script) : List Instr :=
  let c := x.ck
  let h := x.handle
  [(match (if x.closing.isSome then .end_ else x.step.kind) with
    | .end_ => .scriptEnd c h | .send => .scriptSend c h | .recv => .scriptRecv c h | .rrs => .scriptRrs c h
    | .copy => .scriptCopy c h | .wait => .scriptWait c h | .loop => .scriptLoop c h | .comm => .scriptComm c h),
   .scriptPeerAbsent c h, .scriptAccessFault c h]

def copyEvents (c : Copy) : List Instr := .gcmMessageProcess c.id :: (List.range c.units.length).map (.copyLineFill c.id)

def pendingEvents (p : Pending) : List Instr := [.mcsqReject p.id, .mcstComplete p.id, .mldrNoReply p.id]

/-- Events of contexts, queues, launches, clusters and dies. -/
def launchEvents (s : State) : List Instr :=
  ((mapKeys s.fns).map fun f => [.invalComplete f, .contextEnableChange f]).flatten ++
  [.queueService 0, .queueService 1, .timeSliceExpiry 0, .timeSliceExpiry 1] ++
  (List.range 4).map .clusterPlacement ++ (List.range 4).map .clusterResume ++
  ((mapKeys s.clusters).map fun c => [.preemption c, .clusterRelaunch c]).flatten ++
  (mapKeys s.teams).map .stagingOverflowPreempt ++ (mapKeys s.teams).map .matrixEntryExecute ++
  ((mapKeys s.launches).map fun l => [.releaseTokenPass l, .launchCompletion l, .checkSecondRun l]).flatten

/-- Events of the timebase, the ports, the firmware and the checkpoint. -/
def unitEvents (s : State) : List Instr :=
  [.timebaseTick, .epsFail, .holdoverEntry, .fwVerifyComplete, .checkpointStart] ++ (mapKeys s.ports).map .portRetrainTimeout

/-- Every event that the module can make itself. -/
def State.events (s : State) : List Instr :=
  (s.groups.map fun p => groupEvents p.1 p.2).flatten ++ netEvents s ++ (s.scripts.map scriptEvents).flatten ++
  (s.copies.map copyEvents).flatten ++ (s.pendings.map pendingEvents).flatten ++
  s.folds.map (fun f => .mldrResponseTimeout f.id) ++
  (s.criers.map fun p => p.2.members.map fun m => .memberStaleMark p.1 m.rank).flatten ++
  (s.members.filterMap fun p => p.2.map fun m => .memberStaleMark p.1 m.rank) ++
  ((List.range s.walks.length).map fun i => [.pageWalkComplete i, .faultRingSpaceFree i]).flatten ++
  launchEvents s ++ unitEvents s ++ ((List.range 768).filter fun c => (s.grantee c).isSome).map .issueSlotGrant

/-- An event is due when it would change the state. -/
def State.dueEvent (ex : Instr → State → Host.Outcome State Fault Refusal) (s : State) (i : Instr) : Bool :=
  match ex i s with
  | .next t => decide (t ≠ s)
  | _ => true

/-- Events that come before every other: the stop of a launch with a fatal trap (R337), the join tests of each cycle (R121). -/
def State.promptEvents (s : State) : List Instr :=
  ((s.launches.filter fun p => p.2.fatal.isSome).map fun p => .fatalTrapStop p.1) ++
  ((s.groups.filter fun p => !p.2.joins.isEmpty).map fun p => .joinRelease p.1)

-- CYCLES (R202, R203, R311)
/-- The cores of a bay. -/
def bayCores (bay : Nat) : List Nat := (List.range 12).map (bayCore bay)

/-- A cycle of a region ends once its cores have issued what they can and granted what they can. -/
def State.cycleOver (s : State) (bay : Nat) : Bool :=
  (bayCores bay).all fun c => (s.candidate c).isNone && ((s.freeIssueSlot c).isNone || (s.grantee c).isNone)

/-- The start of a core's next cycle: what its ports did is over, and a group without a slot that waits counts its wait from now
or from before (R203, R211). -/
def State.startCycle (s : State) (core : Nat) : State :=
  let now := s.cyc core
  let s := s.updCore core fun c =>
    { c with used := [], count := 0
             holders := c.holders.map fun h => (h.1, h.2.map fun x =>
               { x with tried0 := false, done0 := false, tried1 := false, second := 0, pc1 := 0, old := Group.none, seq0 := 0 }) }
  (s.coreGroups core).foldl (fun s gk =>
    let s := s.watchHeld gk
    if s.holdsSlot gk then s
    else if !s.mayBeginRun gk then (unstall s gk).updGroup gk fun g => { g with ready := now }
    else match s.waitOf gk with
      | none => s.updGroup gk fun g => { g with why := .none, stall := none }
      | some w => s.updGroup gk fun g => { g with ready := now, why := w.1, stall := w.2 }) s
where
  /-- A stall on lines that are full again is over, whether or not the group may issue. -/
  unstall (s : State) (gk : Nat) : State :=
    match (s.group gk).why with
    | .empty _ lines => if s.emptyLines lines == [] then s.updGroup gk fun g => { g with why := .none, stall := none } else s
    | _ => s

/-- The deadlines of a group that have come at a %cyc of its core (R118, R162, R211). -/
def Group.expired (gk : Nat) (g : Group) (now : Nat) : List Move :=
  let any := fun (p : Cond → Bool) => Machine.lanes.any fun l => p (g.lane l).cond
  (if any fun c => match c with | .asleep u => decide (u ≤ now) | _ => false then [.event (.sleepExpiry gk)] else []) ++
  (if any fun c => match c with | .waitv _ u => decide (u ≤ now) | _ => false then [.event (.waitvTimeout gk)] else []) ++
  (Machine.lanes.filter fun l => match (g.lane l).cond with | .barrier _ _ _ _ u => decide (u ≤ now) | _ => false).map
    (fun l => .event (.barrierTimeout gk l)) ++
  (if [g.stall, g.held].any fun c => match c with | .some c => decide (c < now) | .none => false then [.event (.watchdog gk)] else [])

/-- %cyc of a region counts (R311); a frequency change that is due takes effect at the start of the cycle (R313), and every
deadline that has come is met before anything issues in it. -/
def State.cycle (s : State) (bay : Nat) : State :=
  if !s.cycleOver bay then s else
  let s := s.updBay bay fun b => { b with cyc := b.cyc + 1 }
  let s := (bayCores bay).foldl State.startCycle s
  let late := ((bayCores bay).map fun c =>
    (s.coreGroups c).map fun gk => if (s.teamOf (s.group gk)).stopped then [] else (s.group gk).expired gk (s.cyc c)).flatten.flatten
  let freq := if (s.freqDue bay).isSome then [.event (.clockFreqChange bay)] else []
  { s with agenda := freq ++ late ++ s.agenda }

-- STEWARDS (R348, R349)
/-- A bay steward goes on with its image: it takes the request, has the security block seal the body, reports it done. -/
def State.steward (s : State) (bay : Nat) : Host.Outcome State Fault Refusal :=
  let b := s.bay bay
  match b.job, b.done with
  | none, _ =>
    match s.images.find? fun q => bayOf q.core == bay with
    | some q => execImageReq bay q s
    | none => .next s
  | some q, none =>
    -- the steward reads the whole window (R225, R344)
    let s := s.readWindow (teamKey q.launch q.team)
    .next (s.sealBody bay s.imageSections)
  | some q, some d => execImageDone bay q.launch (field d.2 28 4) (field d.2 44 4) s

/-- Whether a bay steward's core has a program to run (log entry 71). -/
def State.hartRuns (s : State) (bay : Nat) : Bool := !(s.bay bay).sram.isEmpty

/-- Whether a bay steward has work. -/
def State.stewardDue (s : State) (bay : Nat) : Bool :=
  (s.bay bay).job.isSome || ((s.bay bay).inbox.isNone && s.images.any fun q => bayOf q.core == bay)

/-- Some bytes of device memory that differ. -/
def changedBytes (a b : State) : List Nat :=
  ((mapKeys a.mem ++ mapKeys b.mem).eraseDups).filter fun x => a.memByte x != b.memByte x

/-- The context descriptors and page tables of a TDI in RUN are locked (R284; log entry 61): where an access of the physical function's
kernel has changed one, the TDI moves to ERROR, and to any other kernel's access it keeps what it held. -/
def State.keepLocked (old : State) (fn : Option Nat) (s : State) : State :=
  ((mapKeys old.fns).filter fun f => (old.fn f).tdi == .run && (s.fn f).tdi == .run).foldl (fun s f =>
    let hit := (changedBytes old s).filter fun a => old.locked f a 1
    if hit.isEmpty then s
    else if fn == some 0 then s.tdiError f
    else hit.foldl (fun s a => s.setMemByte a (old.memByte a)) s) s

/-- The team whose group performs accesses at their homes by an event. -/
def State.writer (s : State) (i : Instr) : Option Nat :=
  match i with
  | .storeAppliedAtHome gk _ | .msauUpdateApply gk _ => some (s.group gk).team
  | .copyLineFill id _ | .gcmMessageProcess id => (s.copies.find? (·.id == id)).map fun c => (s.group c.grp).team
  | .matrixEntryExecute tk => some tk
  | _ => none

/-- The function whose kernel accesses memory by an event. -/
def State.kernelOf (s : State) (i : Instr) : Option Nat :=
  match i with
  | .memberApply k | .mcgResyncComplete k => (s.net[k]?).bind fun l => match l.msg with
      | .mcst g _ _ _ | .numbered g _ _ _ _ | .resyncCopy g _ _ => (s.member g).map (·.fn)
      | _ => none
  | i => (s.writer i).map fun tk => (s.launch (teamLaunch tk)).fn

/-- What the buddy has answered; one that is unreachable acknowledges nothing (R360). -/
def State.buddyAnswers (s : State) : List Bool :=
  if s.ck.stage == 3 && s.unreachable s.ck.buddy then [false]
  else s.net.filterMap fun l => match l.msg with | .ckAck ack => some ack | _ => none

-- MOVES
/-- After a group's accesses, what its cluster has read ahead of an acquire is read again (R230). -/
def State.reread (s : State) (tk : Option Nat) : State := match tk with | some tk => s.forgetEarly tk | none => s

/-- One move. -/
def State.move (ex : Instr → State → Host.Outcome State Fault Refusal) (s : State) (m : Move) : Host.Outcome State Fault Refusal :=
  match m with
  | .event i => thenDo (ex i s) fun t => (s.keepLocked (s.kernelOf i) t).reread (s.writer i)
  | .issue core => s.issue ex core
  | .cycle bay => .next (s.cycle bay)
  | .hostWrite a bs => .next (s.hostWrite a bs)
  | .steward bay => s.steward bay
  | .hart bay => .next (s.stewardStep bay)
  | .links => .next (s.flush s.outbox)
  | .bench bay => .next (s.updBay bay Bay.taken)
  | .stamped =>
    let s := s.carryStamped (s.groups.map fun p => p.2.stores.length).sum
    .next (s.flush s.outbox)
  | .selfTest => .next s.selfTestStep
  | .buddy ack => execCheckpointComplete ack s
  | .release lk =>
    .next ((s.keepLocked (some (s.launch lk).fn) (s.releaseNext lk)).forgetEarly (teamKey lk (s.launch lk).token))

/-- The moves that may come next, when the agenda holds none. -/
def State.offered (ex : Instr → State → Host.Outcome State Fault Refusal) (s : State) : List Move :=
  (s.events.filter (s.dueEvent ex)).map .event ++
  ((List.range 768).filter fun c => (s.candidate c).isSome).map .issue ++
  ((List.range 64).filter s.cycleOver).map .cycle ++ ((List.range 64).filter s.stewardDue).map .steward ++
  ((List.range 64).filter s.hartRuns).map .hart ++
  (if s.outbox.isEmpty then [] else [.links]) ++
  (if s.health.test.isSome then [.selfTest] else []) ++ s.buddyAnswers.map .buddy ++ ((List.range 64).filter fun b => (s.bay b).ready).map .bench ++
  ((s.launches.filter fun p => p.2.active && p.2.fatal.isNone && !(s.team (teamKey p.1 p.2.token)).staging.isEmpty).map (·.1)).map .release

/-- The next move and the state it starts from: the head of the agenda, else a prompt event, else one of the moves offered
(log entry 4). -/
def State.nextMove (ex : Instr → State → Host.Outcome State Fault Refusal) (s : State) : Option (Move × State) :=
  match s.agenda with
  | m :: ms => some (m, { s with agenda := ms })
  | [] =>
    match s.promptEvents.find? (s.dueEvent ex) with
    | some i => some (.event i, s)
    | none =>
      let ms := s.offered ex
      (ms[Config.pickMove s.picks ms.length % ms.length]?).map fun m => (m, { s with picks := s.picks + 1 })

/-- One step of the module over a meaning of its instructions. -/
def State.advanceBy (ex : Instr → State → Host.Outcome State Fault Refusal) (s : State) : Host.Outcome State Fault Refusal :=
  if !s.health.powered then .fault .noPower
  else match s.nextMove ex with
    | some p => p.2.move ex p.1
    | none => .next s

-- A PROGRAM FOR THE NEXT STEP (log entry 5)
/-- The base of the placed image, and the device address of its page. -/
def placedBase : Nat := 0x10000

/-- A launch of one group on core 0 with the bytes `bs` as its image, about to issue its first instruction: what the host's
launch, the placement, the first walk and the grant of an issue slot leave behind. -/
def State.placeImage (s : State) (bs : List Byte) : State :=
  let lk := s.nextLaunch
  let tk := teamKey lk 0
  let l : Launch := { Launch.none with
    active := true, counts := [], one := some 0, order := s.order
    r := { LaunchRec.none with groups := 1, vregs := 128, teams := 1, lsz := 4096, image := placedBase, ilen := 32 } }
  let s := { s with nextLaunch := lk + 1, order := s.order + 1, agenda := [.issue 0], health := { s.health with pstate := 1, powered := true } }
  let s := (s.setMemBytes placedBase bs).setLaunch lk l
  let s := s.setTeam tk { Team.none with launch := lk, present := true }
  let s := s.setCluster (clusterKey lk 0) { Cluster.none with launch := lk, stage := .running, cores := [0] }
  let s := s.setGroup (groupKey tk 0) (l.freshGroup tk 0)
  let h : Holder := { grp := groupKey tk 0, began := 0, tried0 := false, done0 := false, tried1 := false, second := 0, pc1 := 0
                      old := Group.none, seq0 := 0, ends := false }
  let t : Tr := { addr := placedBase, bf := false, stmp := false, x := true, w := false, basic := false }
  s.setCore 0 { s.core 0 with holders := [(0, some h)], used := [], count := 0, held := false
                              tlb := { ctx := 0, page := 1, tr := t } :: (s.core 0).tlb.filter fun e => !(e.ctx == 0 && e.page == 1) }

end Sys2Proof.Machine
end

