-- ==== Sys2Proof/Machine/Dispatch.lean ====
section
/-! DEFINITION. The dispatch: one arm for each instruction and event. -/

namespace Sys2Proof.Machine

def exec (i : Instr) (s : State) : Host.Outcome State Fault Refusal :=
  match i with
  | .nop f => Sys2Proof.Machine.execNop f s
  | .mov f => Sys2Proof.Machine.execMov f s
  | .addInt f => Sys2Proof.Machine.execAddInt f s
  | .subInt f => Sys2Proof.Machine.execSubInt f s
  | .mulInt f => Sys2Proof.Machine.execMulInt f s
  | .mulh f => Sys2Proof.Machine.execMulh f s
  | .mad f => Sys2Proof.Machine.execMad f s
  | .madh f => Sys2Proof.Machine.execMadh f s
  | .divInt f => Sys2Proof.Machine.execDivInt f s
  | .rem f => Sys2Proof.Machine.execRem f s
  | .minInt f => Sys2Proof.Machine.execMinInt f s
  | .maxInt f => Sys2Proof.Machine.execMaxInt f s
  | .sadd f => Sys2Proof.Machine.execSadd f s
  | .ssub f => Sys2Proof.Machine.execSsub f s
  | .and f => Sys2Proof.Machine.execAnd f s
  | .or f => Sys2Proof.Machine.execOr f s
  | .xor f => Sys2Proof.Machine.execXor f s
  | .not f => Sys2Proof.Machine.execNot f s
  | .shl f => Sys2Proof.Machine.execShl f s
  | .shr f => Sys2Proof.Machine.execShr f s
  | .sar f => Sys2Proof.Machine.execSar f s
  | .rol f => Sys2Proof.Machine.execRol f s
  | .ror f => Sys2Proof.Machine.execRor f s
  | .popc f => Sys2Proof.Machine.execPopc f s
  | .clz f => Sys2Proof.Machine.execClz f s
  | .ctz f => Sys2Proof.Machine.execCtz f s
  | .brev f => Sys2Proof.Machine.execBrev f s
  | .bfx f => Sys2Proof.Machine.execBfx f s
  | .bfi f => Sys2Proof.Machine.execBfi f s
  | .sel f => Sys2Proof.Machine.execSel f s
  | .lea f => Sys2Proof.Machine.execLea f s
  | .bsel f => Sys2Proof.Machine.execBsel f s
  | .sext f => Sys2Proof.Machine.execSext f s
  | .zext f => Sys2Proof.Machine.execZext f s
  | .dot4 f => Sys2Proof.Machine.execDot4 f s
  | .sad f => Sys2Proof.Machine.execSad f s
  | .addFp f => Sys2Proof.Machine.execAddFp f s
  | .mulFp f => Sys2Proof.Machine.execMulFp f s
  | .subFp f => Sys2Proof.Machine.execSubFp f s
  | .fma f => Sys2Proof.Machine.execFma f s
  | .minFp f => Sys2Proof.Machine.execMinFp f s
  | .maxFp f => Sys2Proof.Machine.execMaxFp f s
  | .divFp f => Sys2Proof.Machine.execDivFp f s
  | .sqrt f => Sys2Proof.Machine.execSqrt f s
  | .rcp f => Sys2Proof.Machine.execRcp f s
  | .frac f => Sys2Proof.Machine.execFrac f s
  | .rint f => Sys2Proof.Machine.execRint f s
  | .floor f => Sys2Proof.Machine.execFloor f s
  | .ceil f => Sys2Proof.Machine.execCeil f s
  | .trunc f => Sys2Proof.Machine.execTrunc f s
  | .ldexp f => Sys2Proof.Machine.execLdexp f s
  | .classF f => Sys2Proof.Machine.execClassF f s
  | .padd f => Sys2Proof.Machine.execPadd f s
  | .psub f => Sys2Proof.Machine.execPsub f s
  | .pmul f => Sys2Proof.Machine.execPmul f s
  | .pfma f => Sys2Proof.Machine.execPfma f s
  | .pmin f => Sys2Proof.Machine.execPmin f s
  | .pmax f => Sys2Proof.Machine.execPmax f s
  | .pdot f => Sys2Proof.Machine.execPdot f s
  | .cmp f => Sys2Proof.Machine.execCmp f s
  | .mand f => Sys2Proof.Machine.execMand f s
  | .mor f => Sys2Proof.Machine.execMor f s
  | .mxor f => Sys2Proof.Machine.execMxor f s
  | .mnot f => Sys2Proof.Machine.execMnot f s
  | .mpopc f => Sys2Proof.Machine.execMpopc f s
  | .mffs f => Sys2Proof.Machine.execMffs f s
  | .vote f => Sys2Proof.Machine.execVote f s
  | .shfl f => Sys2Proof.Machine.execShfl f s
  | .bcast f => Sys2Proof.Machine.execBcast f s
  | .lred f => Sys2Proof.Machine.execLred f s
  | .lscan f => Sys2Proof.Machine.execLscan f s
  | .supd f => Sys2Proof.Machine.execSupd f s
  | .smrg f => Sys2Proof.Machine.execSmrg f s
  | .sred f => Sys2Proof.Machine.execSred f s
  | .sfin f => Sys2Proof.Machine.execSfin f s
  | .cvt f => Sys2Proof.Machine.execCvt f s
  | .mxq f => Sys2Proof.Machine.execMxq f s
  | .mxdq f => Sys2Proof.Machine.execMxdq f s
  | .rnd f => Sys2Proof.Machine.execRnd f s
  | .sfq f => Sys2Proof.Machine.execSfq f s
  | .sfw f => Sys2Proof.Machine.execSfw f s
  | .br f => Sys2Proof.Machine.execBr f s
  | .call f => Sys2Proof.Machine.execCall f s
  | .ret f => Sys2Proof.Machine.execRet f s
  | .exit f => Sys2Proof.Machine.execExit f s
  | .sleep f => Sys2Proof.Machine.execSleep f s
  | .yield f => Sys2Proof.Machine.execYield f s
  | .jset f => Sys2Proof.Machine.execJset f s
  | .join f => Sys2Proof.Machine.execJoin f s
  | .brx f => Sys2Proof.Machine.execBrx f s
  | .callx f => Sys2Proof.Machine.execCallx f s
  | .bind f => Sys2Proof.Machine.execBind f s
  | .unbind f => Sys2Proof.Machine.execUnbind f s
  | .ladd f => Sys2Proof.Machine.execLadd f s
  | .lsub f => Sys2Proof.Machine.execLsub f s
  | .lneg f => Sys2Proof.Machine.execLneg f s
  | .lshl f => Sys2Proof.Machine.execLshl f s
  | .lshr f => Sys2Proof.Machine.execLshr f s
  | .lcmp f => Sys2Proof.Machine.execLcmp f s
  | .lmov f => Sys2Proof.Machine.execLmov f s
  | .lmac f => Sys2Proof.Machine.execLmac f s
  | .ld f => Sys2Proof.Machine.execLd f s
  | .st f => Sys2Proof.Machine.execSt f s
  | .gld f => Sys2Proof.Machine.execGld f s
  | .sct f => Sys2Proof.Machine.execSct f s
  | .atom f => Sys2Proof.Machine.execAtom f s
  | .red f => Sys2Proof.Machine.execRed f s
  | .cas f => Sys2Proof.Machine.execCas f s
  | .msred f => Sys2Proof.Machine.execMsred f s
  | .fence f => Sys2Proof.Machine.execFence f s
  | .wcnt f => Sys2Proof.Machine.execWcnt f s
  | .fset f => Sys2Proof.Machine.execFset f s
  | .ftest f => Sys2Proof.Machine.execFtest f s
  | .barSync f => Sys2Proof.Machine.execBarSync f s
  | .barArrive f => Sys2Proof.Machine.execBarArrive f s
  | .barWait f => Sys2Proof.Machine.execBarWait f s
  | .blineInit f => Sys2Proof.Machine.execBlineInit f s
  | .blineClr f => Sys2Proof.Machine.execBlineClr f s
  | .tnow f => Sys2Proof.Machine.execTnow f s
  | .stst f => Sys2Proof.Machine.execStst f s
  | .rdat f => Sys2Proof.Machine.execRdat f s
  | .mcst f => Sys2Proof.Machine.execMcst f s
  | .mcsq f => Sys2Proof.Machine.execMcsq f s
  | .mcsqCas f => Sys2Proof.Machine.execMcsqCas f s
  | .mldr f => Sys2Proof.Machine.execMldr f s
  | .waitv f => Sys2Proof.Machine.execWaitv f s
  | .wake f => Sys2Proof.Machine.execWake f s
  | .tdload f => Sys2Proof.Machine.execTdload f s
  | .tddrop f => Sys2Proof.Machine.execTddrop f s
  | .copy f => Sys2Proof.Machine.execCopy f s
  | .copyMc f => Sys2Proof.Machine.execCopyMc f s
  | .copyGcm f => Sys2Proof.Machine.execCopyGcm f s
  | .aready f => Sys2Proof.Machine.execAready f s
  | .await f => Sys2Proof.Machine.execAwait f s
  | .azero f => Sys2Proof.Machine.execAzero f s
  | .aload f => Sys2Proof.Machine.execAload f s
  | .adrain f => Sys2Proof.Machine.execAdrain f s
  | .aread f => Sys2Proof.Machine.execAread f s
  | .cstart f => Sys2Proof.Machine.execCstart f s
  | .carm f => Sys2Proof.Machine.execCarm f s
  | .cstat f => Sys2Proof.Machine.execCstat f s
  | .mmbf f => Sys2Proof.Machine.execMmbf f s
  | .mmf8 f => Sys2Proof.Machine.execMmf8 f s
  | .mmi8 f => Sys2Proof.Machine.execMmi8 f s
  | .mmx8 f => Sys2Proof.Machine.execMmx8 f s
  | .mmx6 f => Sys2Proof.Machine.execMmx6 f s
  | .mmx4 f => Sys2Proof.Machine.execMmx4 f s
  | .mmcx f => Sys2Proof.Machine.execMmcx f s
  | .mmf32 f => Sys2Proof.Machine.execMmf32 f s
  | .trap f => Sys2Proof.Machine.execTrap f s
  | .tret f => Sys2Proof.Machine.execTret f s
  | .brk f => Sys2Proof.Machine.execBrk f s
  | .mark f => Sys2Proof.Machine.execMark f s
  | .sysr f => Sys2Proof.Machine.execSysr f s
  | .sysw f => Sys2Proof.Machine.execSysw f s
  | .flag f => Sys2Proof.Machine.execFlag f s
  | .watchdog g => Sys2Proof.Machine.execWatchdog g s
  | .barrierTimeout g lane => Sys2Proof.Machine.execBarrierTimeout g lane s
  | .issueSlotGrant core => Sys2Proof.Machine.execIssueSlotGrant core s
  | .loadResultReturn g k => Sys2Proof.Machine.execLoadResultReturn g k s
  | .storeAppliedAtHome g path => Sys2Proof.Machine.execStoreAppliedAtHome g path s
  | .msauUpdateApply g k => Sys2Proof.Machine.execMsauUpdateApply g k s
  | .copyLineFill copy unit => Sys2Proof.Machine.execCopyLineFill copy unit s
  | .matrixEntryExecute team => Sys2Proof.Machine.execMatrixEntryExecute team s
  | .sfResultArrival g num => Sys2Proof.Machine.execSfResultArrival g num s
  | .sleepExpiry g => Sys2Proof.Machine.execSleepExpiry g s
  | .waitvTimeout g => Sys2Proof.Machine.execWaitvTimeout g s
  | .joinRelease g => Sys2Proof.Machine.execJoinRelease g s
  | .clusterBarrierArrival k => Sys2Proof.Machine.execClusterBarrierArrival k s
  | .clusterBarrierRelease k => Sys2Proof.Machine.execClusterBarrierRelease k s
  | .ststHoldRelease g => Sys2Proof.Machine.execStstHoldRelease g s
  | .stampedVersionArrival k => Sys2Proof.Machine.execStampedVersionArrival k s
  | .stampRejectArrival k => Sys2Proof.Machine.execStampRejectArrival k s
  | .rdatWaitEnd g => Sys2Proof.Machine.execRdatWaitEnd g s
  | .remoteAccessReject k => Sys2Proof.Machine.execRemoteAccessReject k s
  | .crierNumbering k => Sys2Proof.Machine.execCrierNumbering k s
  | .memberApply k => Sys2Proof.Machine.execMemberApply k s
  | .memberStaleMark group rank => Sys2Proof.Machine.execMemberStaleMark group rank s
  | .mcsqReply k => Sys2Proof.Machine.execMcsqReply k s
  | .mcsqReject id => Sys2Proof.Machine.execMcsqReject id s
  | .mcstComplete id => Sys2Proof.Machine.execMcstComplete id s
  | .mldrResponseFold k => Sys2Proof.Machine.execMldrResponseFold k s
  | .mldrResponseTimeout id => Sys2Proof.Machine.execMldrResponseTimeout id s
  | .mldrReply k => Sys2Proof.Machine.execMldrReply k s
  | .mldrNoReply id => Sys2Proof.Machine.execMldrNoReply id s
  | .mcgJoin fn val => Sys2Proof.Machine.execMcgJoin fn val s
  | .mcgLeave fn val => Sys2Proof.Machine.execMcgLeave fn val s
  | .mcgResync fn val => Sys2Proof.Machine.execMcgResync fn val s
  | .mcgResyncComplete k => Sys2Proof.Machine.execMcgResyncComplete k s
  | .scriptComm c h => Sys2Proof.Machine.execScriptComm c h s
  | .scriptSend c h => Sys2Proof.Machine.execScriptSend c h s
  | .scriptRecv c h => Sys2Proof.Machine.execScriptRecv c h s
  | .scriptRrs c h => Sys2Proof.Machine.execScriptRrs c h s
  | .scriptCopy c h => Sys2Proof.Machine.execScriptCopy c h s
  | .scriptWait c h => Sys2Proof.Machine.execScriptWait c h s
  | .scriptLoop c h => Sys2Proof.Machine.execScriptLoop c h s
  | .scriptEnd c h => Sys2Proof.Machine.execScriptEnd c h s
  | .chunkArrival k => Sys2Proof.Machine.execChunkArrival k s
  | .scriptPeerAbsent c h => Sys2Proof.Machine.execScriptPeerAbsent c h s
  | .fragmentComplete c h => Sys2Proof.Machine.execFragmentComplete c h s
  | .scriptAccessFault c h => Sys2Proof.Machine.execScriptAccessFault c h s
  | .gcmMessageProcess copy => Sys2Proof.Machine.execGcmMessageProcess copy s
  | .pageWalkComplete k => Sys2Proof.Machine.execPageWalkComplete k s
  | .faultRingSpaceFree k => Sys2Proof.Machine.execFaultRingSpaceFree k s
  | .resumeReplay fn fid => Sys2Proof.Machine.execResumeReplay fn fid s
  | .resumeFail fn fid => Sys2Proof.Machine.execResumeFail fn fid s
  | .inval fn val => Sys2Proof.Machine.execInval fn val s
  | .invalComplete fn => Sys2Proof.Machine.execInvalComplete fn s
  | .waken fn val => Sys2Proof.Machine.execWaken fn val s
  | .slotcmdLoad fn val => Sys2Proof.Machine.execSlotcmdLoad fn val s
  | .slotcmdDrop fn val => Sys2Proof.Machine.execSlotcmdDrop fn val s
  | .gateDecrement fn val => Sys2Proof.Machine.execGateDecrement fn val s
  | .qtailWrite fn q val => Sys2Proof.Machine.execQtailWrite fn q val s
  | .ctxenWrite fn val => Sys2Proof.Machine.execCtxenWrite fn val s
  | .contextEnableChange fn => Sys2Proof.Machine.execContextEnableChange fn s
  | .registerWrite fn page off val => Sys2Proof.Machine.execRegisterWrite fn page off val s
  | .queueService pair => Sys2Proof.Machine.execQueueService pair s
  | .clusterPlacement die => Sys2Proof.Machine.execClusterPlacement die s
  | .preemption cluster => Sys2Proof.Machine.execPreemption cluster s
  | .timeSliceExpiry pair => Sys2Proof.Machine.execTimeSliceExpiry pair s
  | .stagingOverflowPreempt team => Sys2Proof.Machine.execStagingOverflowPreempt team s
  | .clusterResume die => Sys2Proof.Machine.execClusterResume die s
  | .releaseTokenPass launch => Sys2Proof.Machine.execReleaseTokenPass launch s
  | .launchCompletion launch => Sys2Proof.Machine.execLaunchCompletion launch s
  | .checkSecondRun launch => Sys2Proof.Machine.execCheckSecondRun launch s
  | .fatalTrapStop launch => Sys2Proof.Machine.execFatalTrapStop launch s
  | .clusterRelaunch cluster => Sys2Proof.Machine.execClusterRelaunch cluster s
  | .frameStart => Sys2Proof.Machine.execFrameStart s
  | .timebaseTick => Sys2Proof.Machine.execTimebaseTick s
  | .epsFail => Sys2Proof.Machine.execEpsFail s
  | .holdoverEntry => Sys2Proof.Machine.execHoldoverEntry s
  | .timebaseExchange => Sys2Proof.Machine.execTimebaseExchange s
  | .par1Exchange => Sys2Proof.Machine.execPar1Exchange s
  | .exchangeReply k => Sys2Proof.Machine.execExchangeReply k s
  | .timeInputEdge edge => Sys2Proof.Machine.execTimeInputEdge edge s
  | .tbcmdReacquire => Sys2Proof.Machine.execTbcmdReacquire s
  | .tbcmdForceFailed => Sys2Proof.Machine.execTbcmdForceFailed s
  | .tbcfgWrite val => Sys2Proof.Machine.execTbcfgWrite val s
  | .tblimWrite val => Sys2Proof.Machine.execTblimWrite val s
  | .tbnowRead fn late => Sys2Proof.Machine.execTbnowRead fn late s
  | .clkfreqWrite val => Sys2Proof.Machine.execClkfreqWrite val s
  | .clockFreqChange bay => Sys2Proof.Machine.execClockFreqChange bay s
  | .cycleStretch bay => Sys2Proof.Machine.execCycleStretch bay s
  | .refLoss => Sys2Proof.Machine.execRefLoss s
  | .refRestored => Sys2Proof.Machine.execRefRestored s
  | .fallbackOscFail => Sys2Proof.Machine.execFallbackOscFail s
  | .flitReceive port flit => Sys2Proof.Machine.execFlitReceive port flit s
  | .nakReceive port seq => Sys2Proof.Machine.execNakReceive port seq s
  | .replayThreshold port => Sys2Proof.Machine.execReplayThreshold port s
  | .portRetrainComplete port => Sys2Proof.Machine.execPortRetrainComplete port s
  | .portRetrainTimeout port => Sys2Proof.Machine.execPortRetrainTimeout port s
  | .dovetailParityReplay link ok => Sys2Proof.Machine.execDovetailParityReplay link ok s
  | .dovetailLinkRetire link => Sys2Proof.Machine.execDovetailLinkRetire link s
  | .powerUpSelfTest units => Sys2Proof.Machine.execPowerUpSelfTest units s
  | .fwStage val => Sys2Proof.Machine.execFwStage val s
  | .fwVerifyComplete => Sys2Proof.Machine.execFwVerifyComplete s
  | .cktWrite val => Sys2Proof.Machine.execCktWrite val s
  | .checkpointStart => Sys2Proof.Machine.execCheckpointStart s
  | .checkpointComplete ack => Sys2Proof.Machine.execCheckpointComplete ack s
  | .moduleFailureTakeover failed image => Sys2Proof.Machine.execModuleFailureTakeover failed image s
  | .powerLimitExceeded watts => Sys2Proof.Machine.execPowerLimitExceeded watts s
  | .powerLimitCleared watts => Sys2Proof.Machine.execPowerLimitCleared watts s
  | .thermalThrottle tj => Sys2Proof.Machine.execThermalThrottle tj s
  | .thermalTrip tj => Sys2Proof.Machine.execThermalTrip tj s
  | .sstop bay cores => Sys2Proof.Machine.execSstop bay cores s
  | .sgo bay cores => Sys2Proof.Machine.execSgo bay cores s
  | .smbx bay val => Sys2Proof.Machine.execSmbx bay val s
  | .sseal bay addr => Sys2Proof.Machine.execSseal bay addr s
  | .imageReq bay req => Sys2Proof.Machine.execImageReq bay req s
  | .imageDone bay launch size flags => Sys2Proof.Machine.execImageDone bay launch size flags s
  | .err bay rec_ => Sys2Proof.Machine.execErr bay rec_ s
  | .diagReq bay test cores => Sys2Proof.Machine.execDiagReq bay test cores s
  | .diagDone bay result => Sys2Proof.Machine.execDiagDone bay result s
  | .vinjbArm val => Sys2Proof.Machine.execVinjbArm val s
  | .getVersion fn => Sys2Proof.Machine.execGetVersion fn s
  | .getCapabilities fn => Sys2Proof.Machine.execGetCapabilities fn s
  | .negotiateAlgorithms fn => Sys2Proof.Machine.execNegotiateAlgorithms fn s
  | .getDigests fn => Sys2Proof.Machine.execGetDigests fn s
  | .getCertificate fn slot => Sys2Proof.Machine.execGetCertificate fn slot s
  | .challenge fn slot nonce => Sys2Proof.Machine.execChallenge fn slot nonce s
  | .getMeasurements fn index => Sys2Proof.Machine.execGetMeasurements fn index s
  | .keyExchange fn share => Sys2Proof.Machine.execKeyExchange fn share s
  | .finish fn mac => Sys2Proof.Machine.execFinish fn mac s
  | .endSession fn => Sys2Proof.Machine.execEndSession fn s
  | .streamConfig fn ctx num key salt => Sys2Proof.Machine.execStreamConfig fn ctx num key salt s
  | .dumpKeySet fn key => Sys2Proof.Machine.execDumpKeySet fn key s
  | .unassignedOpcode why word => Sys2Proof.Machine.execUnassignedOpcode why word s
  | .exchangeAtParent k => Sys2Proof.Machine.execExchangeAtParent k s
  | .creditGrant k => Sys2Proof.Machine.execCreditGrant k s
  | .chunkAcknowledged k => Sys2Proof.Machine.execChunkAcknowledged k s
  | .tdispRequest fn req => Sys2Proof.Machine.execTdispRequest fn req s
  | .podConfigure index => Sys2Proof.Machine.execPodConfigure index s

end Sys2Proof.Machine
end

