-- ==== Sys2Proof/Machine/Step.lean ====
section
/-! DEFINITION. One step of the module, and the instruction placed where the next step fetches. -/

namespace Sys2Proof.Machine

/-- One step: the next move of the module. -/
def step (s : State) : Host.Outcome State Fault Refusal := s.advanceBy exec

/-- The state with an instruction of the opcode table placed as the very next one (log entry 5). -/
def State.withFetchWord (s : State) (nbits w : Nat) : State := s.placeImage (bytesOf 16 (w % 2 ^ nbits))

end Sys2Proof.Machine
end

