-- ==== Sys2Proof/Safety.lean ====
section
/-! DEFINITION. What a safe run is, and the terms in which claims speak of what an instruction leaves alone: the rest of the module, the other groups, the lanes that did not act, the registers that are no destination. -/

namespace Sys2Proof.Machine

/-- The invariant of the module: device memory is in its one canonical form (R365). -/
def State.Inv (s : State) : Prop := Memory.wf s.mem = true

/-- A step that does not stop the module. -/
def State.SafeStep (s : State) : Prop := ∃ t, step s = .next t

-- THE REST OF THE MODULE
/-- From `s` to `t` nothing changed but the group `gk` and the model's focus: no byte of memory, no window, tile or queue of a
team, no launch, no register of a function, no other group. -/
structure Apart (gk : Nat) (s t : State) : Prop where
  rest   : { t with groups := s.groups, cur := s.cur } = s
  others : ∀ k, k ≠ gk → t.group k = s.group k

/-- Nothing of a group changed but its lanes, its registers, its rounding counter and what the issue logic keeps. -/
def SameControl (g h : Group) : Prop :=
  { h with lanes := g.lanes, v := g.v, s := g.s, m := g.m, j := g.j, run := g.run, why := g.why, stall := g.stall
           rcnt := g.rcnt } = g

/-- The group after the last-use marks of the instruction (R43). -/
def View.marked (x : View) : Group := markAll x.i x.f x.act x.g

/-- The instruction ran and its path went on: the lanes of the issuing path stand at the next instruction, the other lanes
where they stood; no lane's call stack, standing or condition changed; the run counts one more instruction (R48). -/
structure Passes (x : View) (t : State) : Prop where
  apart : Apart x.gk x.s0 t
  own   : SameControl x.g (t.group x.gk)
  pcs   : ∀ l, ((t.group x.gk).lane l).pc = if maskBit x.path l then x.next else (x.g.lane l).pc
  lanes : ∀ l, ((t.group x.gk).lane l).stack = (x.g.lane l).stack ∧
               ((t.group x.gk).lane l).standing = (x.g.lane l).standing ∧
               ((t.group x.gk).lane l).cond = (x.g.lane l).cond
  run   : (t.group x.gk).run = x.g.run + 1

/-- A lane of the issuing path goes on to the next instruction. -/
def View.on (x : View) (l : Nat) (y : Lane) : Lane := if maskBit x.path l then { y with pc := x.next } else y

/-- The instruction ran, and what it left: the module is `w` but for the group it ran in and the model's focus; outside its
registers, its lanes and what the issue logic keeps, that group is `g`; each lane is what `h` makes of it; the run counts one
more instruction (R48). -/
structure Leaves (x : View) (t w : State) (g : Group) (h : Nat → Lane → Lane) : Prop where
  rest   : { t with groups := w.groups, cur := w.cur } = w
  others : ∀ k, k ≠ x.gk → t.group k = w.group k
  own    : { t.group x.gk with lanes := g.lanes, v := g.v, s := g.s, run := g.run, why := g.why, stall := g.stall } = g
  lanes  : ∀ l, (t.group x.gk).lane l = h l (x.g.lane l)
  run    : (t.group x.gk).run = x.g.run + 1

/-- The instruction did not issue: it waits for `why` and is tried again in a later cycle (R204). Beside that and the model's focus
the module is `w`. -/
structure Waits (x : View) (t w : State) (why : Why) : Prop where
  rest   : { t with groups := w.groups, cur := w.cur } = w
  others : ∀ k, k ≠ x.gk → t.group k = w.group k
  own    : { t.group x.gk with why := x.g.why, stall := x.g.stall } = x.g
  why    : (t.group x.gk).why = why
  waits  : t.cur.waited = true

-- REGISTERS
/-- Register `r` is one of the `k` v registers that an operand names. -/
def inV (o : Opnd) (k r : Nat) : Prop := match o with | .v n => n.toNat ≤ r ∧ r < n.toNat + k | _ => False

/-- Register `r` is one of the `k` s registers that an operand names. -/
def inS (o : Opnd) (k r : Nat) : Prop := match o with | .s n => n.toNat ≤ r ∧ r < n.toNat + k | _ => False

/-- Every register outside the sets given reads as it did after the last-use marks. -/
structure Keeps (dv : Nat → Nat → Prop) (ds dm dj : Nat → Prop) (x : View) (t : State) : Prop where
  v : ∀ r l, l < 32 → ¬ dv r l → (t.group x.gk).vreg r l = x.marked.vreg r l
  s : ∀ r, ¬ ds r → (t.group x.gk).sreg r = x.marked.sreg r
  m : ∀ r, ¬ dm r → (t.group x.gk).mreg r = x.g.mreg r
  j : ∀ r, ¬ dj r → (t.group x.gk).jreg r = x.g.jreg r

/-- A result `r` (its bits and its flags) for each acting lane, in the destination D of a type: a v register, or pair for a
64-bit type, in each acting lane; an s register once, from the lowest acting lane, with its flags in every acting lane
(R81, R82); with the destination zero only the flags. Every other register is kept, the flags of R62 only gather, and the
rounding counter of R61 advances by `c`. -/
structure Result (x : View) (t : State) (ty : Ty) (c : Nat) (r : Nat → Nat × Word) : Prop where
  passes : Passes x t
  inV    : ∀ n, x.f.d = .v n → ∀ l, maskBit x.act l = true →
    if ty.width = 64 then (t.group x.gk).vpair n.toNat l = (r l).1 % 2 ^ 64
    else ((t.group x.gk).vreg n.toNat l).toNat = (r l).1 % 2 ^ 32
  inS    : ∀ n, x.f.d = .s n → x.act ≠ 0 → (t.group x.gk).sreg n.toNat = sExtend ty (r x.low).1
  keeps  : Keeps (fun q l => maskBit x.act l = true ∧ Machine.inV x.f.d (if ty.width = 64 then 2 else 1) q)
                 (fun q => x.act ≠ 0 ∧ Machine.inS x.f.d 1 q) (fun _ => False) (fun _ => False) x t
  flags  : ∀ l, ((t.group x.gk).lane l).flags = (x.g.lane l).flags |||
    (if maskBit x.act l then (r (if isS x.f.d then x.low else l)).2 else 0)
  count  : (t.group x.gk).rcnt = x.g.rcnt + c

/-- A truth value and flags for each acting lane, the value in a mask destination; m0 discards it (R41, R93). -/
structure MaskResult (x : View) (t : State) (r : Nat → Bool × Word) : Prop where
  passes : Passes x t
  bits   : ∀ n, x.f.d = .m n → n ≠ 0 → ∀ l, l < 32 →
    maskBit ((t.group x.gk).mreg n.toNat) l = if maskBit x.act l then (r l).1 else maskBit (x.g.mreg n.toNat) l
  keeps  : Keeps (fun _ _ => False) (fun _ => False) (fun q => ∃ n, x.f.d = .m n ∧ n ≠ 0 ∧ q = n.toNat) (fun _ => False) x t
  flags  : ∀ l, ((t.group x.gk).lane l).flags = (x.g.lane l).flags ||| (if maskBit x.act l then (r l).2 else 0)
  count  : (t.group x.gk).rcnt = x.g.rcnt

/-- A result of `k` consecutive v registers for each acting lane, with its flags (R42). -/
structure WideResult (x : View) (t : State) (k c : Nat) (r : Nat → (Nat → Word) × Word) : Prop where
  passes : Passes x t
  inV    : ∀ n, x.f.d = .v n → ∀ l, maskBit x.act l = true → ∀ q, q < k → (t.group x.gk).vreg (n.toNat + q) l = (r l).1 q
  keeps  : Keeps (fun q l => maskBit x.act l = true ∧ Machine.inV x.f.d k q) (fun _ => False) (fun _ => False) (fun _ => False) x t
  flags  : ∀ l, ((t.group x.gk).lane l).flags = (x.g.lane l).flags ||| (if maskBit x.act l then (r l).2 else 0)
  count  : (t.group x.gk).rcnt = x.g.rcnt + c

/-- A uniform 64-bit result in an s destination, if a lane acts. -/
structure UniformResult (x : View) (t : State) (r : Nat) : Prop where
  passes : Passes x t
  inS    : ∀ n, x.f.d = .s n → x.act ≠ 0 → (t.group x.gk).sreg n.toNat = BitVec.ofNat 64 r
  keeps  : Keeps (fun _ _ => False) (fun q => x.act ≠ 0 ∧ Machine.inS x.f.d 1 q) (fun _ => False) (fun _ => False) x t
  flags  : ∀ l, ((t.group x.gk).lane l).flags = (x.g.lane l).flags
  count  : (t.group x.gk).rcnt = x.g.rcnt

end Sys2Proof.Machine
end

