-- ==== Sys2Proof/Certificates/Slice0/Obligations.lean ====
section
/-! DEFINITION. The statements for the provers, and before them the terms they are written in. -/

namespace Sys2Proof.Claims

open Sys2Proof.Machine

/-- The instruction passes the checks that every encoded instruction shares (R36, R42, R126): its registers lie in the
launch's allocation, and a bound group's guard and path do not split a segment. -/
abbrev Clear (i : Instr) (f : Form) (s : State) : Prop := sharedTrap (viewOf i f s) = none

/-- Where it passes them, the instruction answers a next state of which `post` holds. -/
def Does (i : Instr) (f : Form) (post : View → State → Prop) : Prop :=
  ∀ s, Clear i f s → ∃ t, exec i s = .next t ∧ post (viewOf i f s) t

-- INTEGER AND ADDRESS INSTRUCTIONS (R84 to R86)
/-- What an integer instruction computes from its sources as w-bit numbers, with the flags it sets. -/
abbrev IntSpec := Nat → Bool → Nat → Nat → Nat → Nat × Word

/-- The signed or unsigned value of a w-bit number. -/
def val (sg : Bool) (w a : Nat) : Int :=
  if sg && decide (2 ^ (w - 1) ≤ a % 2 ^ w) then (a % 2 ^ w : Nat) - (2 ^ w : Nat) else (a % 2 ^ w : Nat)

/-- An integer modulo 2^w. -/
def mod2 (w : Nat) (x : Int) : Nat := (x % (2 ^ w : Nat)).toNat

/-- An integer kept in the range of its type, with OF where it left it. -/
def clampInt (sg : Bool) (w : Nat) (x : Int) : Nat × Word :=
  let lo : Int := if sg then -(2 ^ (w - 1) : Nat) else 0
  let hi : Int := if sg then (2 ^ (w - 1) : Nat) - 1 else (2 ^ w : Nat) - 1
  if x < lo then (mod2 w lo, flagOF) else if hi < x then (mod2 w hi, flagOF) else (mod2 w x, 0)

/-- The field of R86 that a control value names: lowest bit and width. -/
def field (w c : Nat) : Nat × Nat :=
  let lo := c % 64
  let hi := c / 256 % 64
  if w ≤ lo ∨ hi < lo then (0, 0) else (lo, min hi (w - 1) - lo + 1)

/-- A number from the bits a predicate names. -/
def bitsWhere (w : Nat) (p : Nat → Bool) : Nat := (List.range w).foldl (fun r i => if p i then r + 2 ^ i else r) 0

/-- The integer instructions of R84 and R85 with two or three sources, and what each computes. -/
def intRows : List ((Form → Instr) × IntSpec) :=
  [ (.mov, fun w _ a _ _ => (a % 2 ^ w, 0)),
    (.addInt, fun w _ a b _ => ((a + b) % 2 ^ w, 0)),
    (.subInt, fun w _ a b _ => (mod2 w ((a : Int) - b), 0)),
    (.mulInt, fun w _ a b _ => (a * b % 2 ^ w, 0)),
    (.mulh, fun w sg a b _ => (mod2 w (val sg w a * val sg w b / (2 ^ w : Nat)), 0)),
    (.mad, fun w _ a b c => ((a * b + c) % 2 ^ w, 0)),
    (.madh, fun w sg a b c => (mod2 w ((val sg w a * val sg w b + val sg w c) / (2 ^ w : Nat)), 0)),
    (.divInt, fun w sg a b _ =>
      if val sg w b = 0 then (2 ^ w - 1, flagDZ) else (mod2 w ((val sg w a).tdiv (val sg w b)), 0)),
    (.rem, fun w sg a b _ =>
      if val sg w b = 0 then (a % 2 ^ w, flagDZ) else (mod2 w ((val sg w a).tmod (val sg w b)), 0)),
    (.minInt, fun w sg a b _ => (mod2 w (min (val sg w a) (val sg w b)), 0)),
    (.maxInt, fun w sg a b _ => (mod2 w (max (val sg w a) (val sg w b)), 0)),
    (.sadd, fun w sg a b _ => clampInt sg w (val sg w a + val sg w b)),
    (.ssub, fun w sg a b _ => clampInt sg w (val sg w a - val sg w b)),
    (.and, fun w _ a b _ => (bitsWhere w fun i => a.testBit i && b.testBit i, 0)),
    (.or, fun w _ a b _ => (bitsWhere w fun i => a.testBit i || b.testBit i, 0)),
    (.xor, fun w _ a b _ => (bitsWhere w fun i => a.testBit i != b.testBit i, 0)),
    (.not, fun w _ a _ _ => (bitsWhere w fun i => !a.testBit i, 0)),
    (.shl, fun w _ a n _ => (bitsWhere w fun i => decide (n ≤ i) && a.testBit (i - n), 0)),
    (.shr, fun w _ a n _ => (bitsWhere w fun i => decide (i + n < w) && a.testBit (i + n), 0)),
    (.sar, fun w _ a n _ => (bitsWhere w fun i => a.testBit (min (i + n) (w - 1)), 0)),
    (.rol, fun w _ a n _ => (bitsWhere w fun i => a.testBit ((i + (w - n % w)) % w), 0)),
    (.ror, fun w _ a n _ => (bitsWhere w fun i => a.testBit ((i + n) % w), 0)),
    (.popc, fun w _ a _ _ => (((List.range w).filter fun i => a.testBit i).length, 0)),
    (.clz, fun w _ a _ _ => (((List.range w).takeWhile fun i => !a.testBit (w - 1 - i)).length, 0)),
    (.ctz, fun w _ a _ _ => (((List.range w).takeWhile fun i => !a.testBit i).length, 0)),
    (.brev, fun w _ a _ _ => (bitsWhere w fun i => a.testBit (w - 1 - i), 0)),
    (.bfx, fun w sg a b _ =>
      let p := field w b
      (mod2 w (if p.2 = 0 then 0 else val sg p.2 (a / 2 ^ p.1)), 0)),
    (.bfi, fun w _ a b c =>
      let p := field w c
      (bitsWhere w fun i => if p.1 ≤ i ∧ i < p.1 + p.2 then b.testBit (i - p.1) else a.testBit i, 0)) ]

/-- Byte j of the result of bsel. -/
def bselSpec (a b c j : Nat) : Nat :=
  let k := c / 2 ^ (8 * j) % 256
  let src := if k % 8 < 4 then a / 2 ^ (8 * (k % 8)) % 256 else b / 2 ^ (8 * (k % 8 - 4)) % 256
  if k.testBit 3 then 0 else if k.testBit 4 then 255 - src else src

/-- Four terms, one for each byte of two words. -/
def overBytes (h : Nat → Nat → Int) (a b : Nat) : Int :=
  h (a % 256) (b % 256) + h (a / 2 ^ 8 % 256) (b / 2 ^ 8 % 256) + h (a / 2 ^ 16 % 256) (b / 2 ^ 16 % 256) +
  h (a / 2 ^ 24 % 256) (b / 2 ^ 24 % 256)

/-- The integer instructions on 32-bit lanes taken as four bytes (R84, R86). -/
def byteRows : List ((Form → Instr) × IntSpec) :=
  [ (.bsel, fun _ _ a b c =>
      (bselSpec a b c 0 + 2 ^ 8 * bselSpec a b c 1 + 2 ^ 16 * bselSpec a b c 2 + 2 ^ 24 * bselSpec a b c 3, 0)),
    (.dot4, fun _ sg a b c => (mod2 32 (c + overBytes (fun p q => val sg 8 p * val sg 8 q) a b), 0)),
    (.sad, fun _ _ a b c => (mod2 32 (c + overBytes (fun p q => ((p : Int) - q).natAbs) a b), 0)) ]

-- FLOATING INSTRUCTIONS (R87, R88)
/-- What a floating instruction computes exactly from three f32 values, with the flags of its operands. -/
def fpRows : List ((Form → Instr) × (Mode → Nat → Fv → Fv → Fv → Exact × Word)) :=
  [ (.addFp, fun m _ a b _ => fpAdd m a b),
    (.subFp, fun m _ a b _ => fpAdd m a (if b.isNaN then b else b.negate)),
    (.mulFp, fun _ _ a b _ => fpMul a b),
    (.fma, fun m _ a b c => fpFma m a b c),
    (.minFp, fun _ _ a b _ => fpMinMax false a b),
    (.maxFp, fun _ _ a b _ => fpMinMax true a b),
    (.divFp, fun _ _ a b _ => fpDiv a b),
    (.sqrt, fun _ _ a _ _ => fpSqrt a),
    (.rcp, fun _ _ a _ _ => fpDiv (readF32 0x3F800000#32) a),
    (.frac, fun _ _ a _ _ => fpFrac a),
    (.rint, fun m u a _ _ => fpIntegral m u true a) ]

/-- The three with a rounding of their own. -/
def integralRows : List ((Form → Instr) × Mode) := [(.floor, .rdn), (.ceil, .rup), (.trunc, .rtz)]

/-- An exact result scaled by DS, rounded once to a format and clamped by DC, with all its flags (R26, R60). -/
def finished (fm : Fmt) (mode : Mode) (u : Nat) (f : Form) (r : Exact × Word) : Nat × Word :=
  let c := finishFp fm mode u f.ds f.dc r.1
  (c.1, r.2 ||| c.2)

/-- The stochastic bits of an element, under rsr alone (R61). -/
def stoch (x : View) (mode : Mode) (l e : Nat) : Nat := if mode = .rsr then x.rnd l e else 0

/-- How far the rounding counter advances (R61). -/
def counts (x : View) (mode : Mode) : Nat := if mode = .rsr ∧ x.act ≠ 0 then 1 else 0

/-- A source in a lane as an f32 value. -/
def fpA (x : View) (l : Nat) : Fv := readF32 (BitVec.ofNat 32 (readA x l))
def fpB (x : View) (l : Nat) : Fv := readF32 (BitVec.ofNat 32 (readB x l))
def fpC (x : View) (l : Nat) : Fv := readF32 (BitVec.ofNat 32 (readC x .f32 l))

-- PACKED INSTRUCTIONS (R63, R90)
/-- What a packed instruction computes from floating and from integer elements. -/
def packRows : List ((Form → Instr) × (Mode → Fv → Fv → Fv → Exact × Word) × (Int → Int → Int → Int)) :=
  [ (.padd, fun m a b _ => fpAdd m a b, fun a b _ => a + b),
    (.psub, fun m a b _ => fpSub m a b, fun a b _ => a - b),
    (.pmul, fun _ a b _ => fpMul a b, fun a b _ => a * b),
    (.pfma, fun m a b c => fpFma m a b c, fun a b c => a * b + c),
    (.pmin, fun _ a b _ => fpMinMax false a b, fun a b _ => min a b),
    (.pmax, fun _ a b _ => fpMinMax true a b, fun a b _ => max a b) ]

/-- Element i of a lane's 32 bits. -/
def elemOf (w i a : Nat) : Nat := a / 2 ^ (w * i) % 2 ^ w

/-- Element i of a packed result, and its flags. -/
def packElem (x : View) (fop : Mode → Fv → Fv → Fv → Exact × Word) (iop : Int → Int → Int → Int) (l i : Nat) : Nat × Word :=
  let w := x.f.ty.width
  let a := elemOf w i (readA x l)
  let b := elemOf w i (readB x l)
  let c := elemOf w i (readC x x.f.ty l)
  match fmtOf x.f.ty with
  | some fm =>
    let mode := roundingOf x.f
    finished fm mode (stoch x mode l i) x.f (fop mode (fm.read a) (fm.read b) (fm.read c))
  | none =>
    let sg := x.f.ty.signed
    let v := iop (val sg w a) (val sg w b) (val sg w c)
    if x.f.x6 = 1 then clampInt sg w v else (mod2 w v, 0)

-- COMPARES, MASKS, VOTES (R92, R93)
/-- A condition of R92 on an integer or b32 pair. -/
def holdsInt (fn : Nat) (a b : Int) : Bool :=
  match fn with
  | 0 => decide (a = b) | 1 => decide (a ≠ b) | 2 => decide (a < b) | 3 => decide (a ≤ b) | 4 => decide (b < a)
  | _ => decide (b ≤ a)

/-- A condition of R92 on an f32 pair: a NaN makes every one false but ne and un. -/
def holdsF32 (fn : Nat) (a b : Fv) : Bool :=
  let nan := a.isNaN || b.isNaN
  match fn with
  | 0 => !nan && fpCompare a b == .eq
  | 1 => nan || fpCompare a b != .eq
  | 2 => !nan && fpCompare a b == .lt
  | 3 => !nan && fpCompare a b != .gt
  | 4 => !nan && fpCompare a b == .gt
  | 5 => !nan && fpCompare a b != .lt
  | 6 => nan
  | _ => !nan

/-- NV of an f32 compare: an ordered condition on any NaN, another on a signalling one. -/
def cmpFlags (fn : Nat) (a b : Fv) : Word :=
  if 2 ≤ fn ∧ fn ≤ 5 then (if a.isNaN || b.isNaN then flagNV else 0) else (if a.isSig || b.isSig then flagNV else 0)

/-- The mask instructions with a mask destination. -/
def maskRows : List ((Form → Instr) × (Bool → Bool → Bool)) :=
  [(.mand, fun a b => a && b), (.mor, fun a b => a || b), (.mxor, fun a b => a != b), (.mnot, fun a _ => !a)]

/-- The acting lanes whose bit of mask source A is set. -/
def setLanes (x : View) : List Nat := (List.range 32).filter fun l => maskBit x.act l && maskBit (maskOpnd x.seen x.f.a.op) l

/-- Whether every acting lane, or no acting lane, has its bit set: the two bits of .uni. -/
def uniBits (x : View) : Nat :=
  (if setLanes x = maskLanes x.act then 3 else if setLanes x = [] then 1 else 0)

/-- The immediate of an instruction as a 32-bit number (R25). -/
def immWord (f : Form) : Nat :=
  match f.len with
  | .l64 => f.x6.toNat
  | .l96 => mod2 32 (val true 20 f.ext.toNat)
  | .l128 => f.ext.toNat % 2 ^ 32

/-- Whether as many acting lanes as the quorum asks have their bit set. -/
def quorum (x : View) : Bool :=
  let q := if x.f.b.op = .imm then immWord x.f else uniform32 x x.f.b
  decide ((if q = 0 then (maskLanes x.act).length else q) ≤ (setLanes x).length)

-- LANES TO LANES (R94 to R98, R100)
/-- Whether a lane is on the issuing path as R94 has it, when the instruction's sources are read (R111): live, at its address, and not
parked. -/
def standsHere (x : View) (k : Nat) : Bool :=
  decide ((x.seen.lane k).pc = x.pc) && match (x.seen.lane k).cond with
    | .ended => false
    | .join _ => false
    | .barrier .. => false
    | _ => true

/-- A value that lane k supplies: POISON where it is not on the issuing path (R94). -/
def supplied (x : View) (k : Nat) : Nat := if standsHere x k then readA x k else 0x7FF00BAD

/-- The lane that lane l of a shfl reads, none where it takes the fill (R95). -/
def shflFrom (mode l k : Nat) : Option Nat :=
  match mode with
  | 0 => some (k % 32)
  | 1 => some ((l + k) % 32)
  | 2 => let t := (l : Int) + val true 32 k
         if 0 ≤ t ∧ t < 32 then some t.toNat else none
  | _ => some (l ^^^ (k % 32))

/-- The fixed tree of R97 over 2^k lanes from lane b: the lower half is the left operand. -/
def treeVal {α : Type} (step : Nat → α → α → α) (v : Nat → α) : Nat → Nat → α
  | 0, b => v b
  | k + 1, b => step b (treeVal step v k b) (treeVal step v k (b + 2 ^ k))

/-- k steps of the scan of R98 in segments of a size. -/
def scanVal {α : Type} (step : Nat → α → α → α) (v : Nat → α) (size : Nat) : Nat → Nat → α
  | 0, l => v l
  | k + 1, l => if 2 ^ k ≤ l % size then step l (scanVal step v size k (l - 2 ^ k)) (scanVal step v size k l)
                else scanVal step v size k l

/-- A lane's value in a reduction: the identity where it does not act. -/
def redLane (x : View) (op l : Nat) : Nat × Word := (if maskBit x.act l then readA x l else identity x.f.ty op, 0)

/-- A step of a reduction, which gathers the flags of both sides; the step of a scan keeps those of its own lane. -/
def redOp (x : View) (op : Nat) (l : Nat) (a b : Nat × Word) : Nat × Word :=
  let r := redStep x.f.ty op (redMode x.f) (stoch x (redMode x.f) l 0) a.1 b.1
  (r.1, a.2 ||| b.2 ||| r.2)
def scanOp (x : View) (op : Nat) (l : Nat) (a b : Nat × Word) : Nat × Word :=
  let r := redStep x.f.ty op (redMode x.f) (stoch x (redMode x.f) l 0) a.1 b.1
  (r.1, b.2 ||| r.2)

/-- The segment size of R97: X6[5:3], 0 for the whole group. -/
def segLog (f : Form) : Nat := if f.x6.toNat / 8 = 0 then 5 else f.x6.toNat / 8

/-- The scale and clamp of a written value, with the flags it brings. -/
def redOut (x : View) (l : Nat) (v : Nat × Word) : Nat × Word :=
  let r := redFinish x (redMode x.f) l v.1
  (r.1, v.2 ||| r.2)

-- STATISTICS (R67 to R70, R100)
/-- A triple as three consecutive registers. -/
def tripleRegs (t : Triple) : Nat → Word := fun i => if i = 0 then t.w else if i = 1 then t.m else t.q

/-- The three registers of a triple operand in a lane. -/
def tripleAt (x : View) (o : Opnd) (l : Nat) : Triple :=
  match o with
  | .v n => { w := x.seen.vreg n.toNat l, m := x.seen.vreg (n.toNat + 1) l, q := x.seen.vreg (n.toNat + 2) l }
  | _ => emptyTriple

-- CONVERSIONS (R101, R102)
/-- The element of a cvt source in a lane, after its modifiers. -/
def cvtSource (x : View) (l e : Nat) : Nat :=
  let srcT := if cvtSub x.f = 1 then .i8 else tyOfCode x.f.fn.toNat
  modSide srcT x.f.a (elemBits x.f)
    (sideBits x x.f.a srcT (cvtRegs (cvtCount x.f) (cvtSrcWidth x.f)) (cvtSrcWidth x.f) l / 2 ^ (e * cvtSrcWidth x.f) % 2 ^ elemBits x.f)

/-- The scale exponent of the FX64 forms. -/
def cvtExp (x : View) (l : Nat) : Int := val true 8 (if x.f.b.op = .imm then immLane x.f.ty x.f else readAs x .n32 x.f.b l)

/-- Element e of a cvt result in a lane, with its flags. -/
def cvtOne (x : View) (l e : Nat) : Nat × Word :=
  let wd := cvtDstWidth x.f
  cvtElem x.f (roundingOf x.f) (stoch x (roundingOf x.f) l (if wd = 64 then 0 else e % (32 / wd))) (cvtExp x l) (cvtSource x l e)

-- CONTROL (R109 to R125)
/-- From `s` to `t` nothing changed but the group `gk`, the model's focus, and the trace ring of the group's core (R345). -/
structure ApartRing (gk : Nat) (s t : State) : Prop where
  rest   : { t with groups := s.groups, cores := s.cores, cur := s.cur } = s
  others : ∀ k, k ≠ gk → t.group k = s.group k
  cores  : ∀ c, c ≠ s.groupCore (s.group gk) → t.core c = s.core c
  ring   : { t.core (s.groupCore (s.group gk)) with
             ring := (s.core (s.groupCore (s.group gk))).ring
             head := (s.core (s.groupCore (s.group gk))).head
             lost := (s.core (s.groupCore (s.group gk))).lost
             all := (s.core (s.groupCore (s.group gk))).all } = s.core (s.groupCore (s.group gk))

/-- The acting lanes take the lane `h` gives them, the other lanes of the issuing path the next instruction, and every other lane
of the group stays as it was. -/
def LanesTo (x : View) (t : State) (h : Nat → Lane → Lane) : Prop :=
  ∀ l, (t.group x.gk).lane l =
    if maskBit x.act l then h l (x.g.lane l)
    else if maskBit x.path l then { x.g.lane l with pc := x.next } else x.g.lane l

/-- Nothing of the group changed but its lanes and what the issue logic keeps; the last-use marks stand. -/
def OnlyLanes (x : View) (t : State) : Prop :=
  { t.group x.gk with lanes := x.g.lanes, run := x.g.run, why := x.g.why, stall := x.g.stall } = x.marked ∧
  (t.group x.gk).run = x.g.run + 1

/-- A transfer of control: each acting lane goes to its target with the call stack given. The ring takes a record only when a lane
leaves the straight path. -/
structure Turns (x : View) (t : State) (tgt : Nat → DWord) (stack : Nat → List DWord) : Prop where
  apart : ApartRing x.gk x.s0 t
  lanes : LanesTo x t fun l y => { y with pc := tgt l, stack := stack l }
  own   : OnlyLanes x t
  still : (∀ l, maskBit x.act l = true → tgt l = x.next) → t.cores = x.s0.cores

/-- The target of a relative branch: pc + 4 × sext(IMM20), or pc + the extension (R114). -/
def relTo (x : View) : DWord :=
  if x.f.len = .l96 then x.pc + 4 * (BitVec.ofInt 64 (val true 20 x.f.ext.toNat)) else x.pc + x.f.ext

/-- The target of an indirect branch in a lane (R115). -/
def regTo (x : View) (l : Nat) : DWord := BitVec.ofNat 64 (readAs x .n64 x.f.a l)

/-- A value is the same over the acting lanes of every bound segment (R126). -/
def Even {α : Type} (x : View) (v : Nat → α) : Prop :=
  x.g.binding ≠ 1 → ∀ l k, maskBit x.act l = true → maskBit x.act k = true → k / x.g.binding = l / x.g.binding → v k = v l

-- LIMBS (R128 to R132)
/-- The exact integer a limb instruction computes in the segment that begins at a lane. -/
def limbRows : List ((Form → Instr) × (View → Nat → Int)) :=
  [ (.ladd, fun x b => limbVal x x.f.a b + limbVal x x.f.b b + limbCarry x b),
    (.lsub, fun x b => limbVal x x.f.a b - limbVal x x.f.b b - limbCarry x b),
    (.lneg, fun x b => - limbVal x x.f.a b),
    (.lshl, fun x b => limbVal x x.f.a b * (2 ^ limbCount x b : Nat)),
    (.lmac, fun x b => val x.f.ty.signed x.limbBits (limbInt x { unused with op := x.f.d } b) + limbVal x x.f.a b * limbMul x b) ]

/-- Whether an exact result leaves the range of its segment's integer (R128). -/
def leaves (x : View) (r : Int) : Bool :=
  let lo : Int := if x.f.ty.signed then -(2 ^ (x.limbBits - 1) : Nat) else 0
  let hi : Int := if x.f.ty.signed then (2 ^ (x.limbBits - 1) : Nat) - 1 else (2 ^ x.limbBits : Nat) - 1
  decide (r < lo ∨ hi < r)

/-- What a limb instruction leaves: in each segment with an acting lane the limbs of the exact result `r` in D, for lmac the carry
word in C, and the indicator `ind` in the mask that FN names. -/
structure LimbWritten (x : View) (g : Group) (mac flagged : Bool) (r : Nat → Int) (ind : Nat → Bool) : Prop where
  limbs : ∀ n, x.f.d = .v n → ∀ b ∈ x.segs, ∀ l, maskBit (x.segLanes b) l = true →
    (g.vreg n.toNat l).toNat = mod2 x.limbBits (r b) / 2 ^ (32 * (l - b)) % 2 ^ 32
  carry : mac = true → x.f.len = .l96 → ∀ n, x.f.c.op = .v n → ∀ b ∈ x.segs, ∀ l, maskBit (x.segLanes b) l = true →
    (g.vreg n.toNat l).toNat = mod2 (x.limbBits + 32) (r b) / 2 ^ x.limbBits
  bits  : flagged = true → x.f.fn.toNat % 8 ≠ 0 → ∀ b ∈ x.segs, ∀ l, maskBit (x.segLanes b) l = true →
    maskBit (g.mreg (x.f.fn.toNat % 8)) l = ind b
  other : flagged = true → x.f.fn.toNat % 8 ≠ 0 → ∀ l, l < 32 → (∀ b ∈ x.segs, maskBit (x.segLanes b) l = false) →
    maskBit (g.mreg (x.f.fn.toNat % 8)) l = maskBit (x.g.mreg (x.f.fn.toNat % 8)) l

/-- The registers a limb instruction may write. -/
def LimbKeeps (x : View) (t : State) (mac flagged : Bool) : Prop :=
  Keeps (fun q l => maskBit x.act l = true ∧
      (Machine.inV x.f.d 1 q ∨ (mac = true ∧ x.f.len = .l96 ∧ Machine.inV x.f.c.op 1 q)))
    (fun _ => False) (fun q => flagged = true ∧ q = x.f.fn.toNat % 8 ∧ q ≠ 0) (fun _ => False) x t

-- MEMORY INSTRUCTIONS (R27, R135 to R147)
/-- The effective address of a lane (R27): base + sext32(index) × scale + sext40(OFF), modulo 2^64. -/
def addrOf (x : View) (l : Nat) : Nat :=
  mod2 64 (readAs x .n64 x.f.a l + val true 32 (readAs x .n32 x.f.b l) * (2 ^ (x.f.ext.toNat / 2 ^ 54 % 4) : Nat) +
    val true 40 x.f.ext.toNat)

/-- The address of an entry that has no index: base + sext40(OFF), modulo 2^64. -/
def baseOf (x : View) : Nat := mod2 64 (readAs x .n64 x.f.a x.low + val true 40 x.f.ext.toNat)

/-- The lanes that perform an access, with their addresses: the lowest acting lane of a uniform instruction (R135). -/
def accesses (x : View) : List (Nat × Nat) :=
  (if isS x.f.d then [x.low] else maskLanes x.act).map fun l => (l, addrOf x l)

/-- An access of an instruction's type. -/
def accFor (x : View) (bits : Nat) (write atomic : Bool) : Acc :=
  { space := x.f.ext.toNat / 2 ^ 62 % 4, bits := bits, sw := x.f.ext.toNat / 2 ^ 56 % 8, write := write, atomic := atomic,
    stamped := false, kind := if atomic then 3 else if write then 2 else 1 }

/-- The path of a space (R229): ls, cw or g. -/
def pathFor (x : View) : Path := match x.f.ext.toNat / 2 ^ 62 % 4 with | 0 => .ls | 1 => .cw | _ => .g

/-- The instruction meets nothing that traps, walks, stalls or waits: every lane is located in `ls` (R138), no wider acquire is
outstanding (R140), the counts of its classes leave room (R147), the group has no change of a touched line on its way (R221), and
the lines of a loading instruction are full (R139). -/
structure Finds (x : View) (acc : Acc) (eas : List (Nat × Nat)) (classes : Nat) (loads : Bool) (ls : List Loc) : Prop where
  acts  : x.act ≠ 0
  found : accessAll x.s0 x.g acc eas = .locs ls
  quiet : x.g.acquiring = false
  room  : x.s0.countsAtMost x.gk classes 62 = true
  own   : x.g.stores.any (fun e => touchesLine e (linesOf (allPlaces ls))) = false
  full  : loads = true → x.s0.emptyLines (linesOf (allPlaces ls)) = []

/-- g accesses of a deterministic launch are staged (R264). -/
def Staged (x : View) : Bool := x.f.ext.toNat / 2 ^ 62 % 4 == 2 && (x.s0.launchOf x.g).det

/-- Its records have room in the staging region, or the team holds the token (R266). -/
def RoomFor (x : View) (bytes : Nat) : Prop :=
  Staged x = true → x.s0.holdsToken x.g.team = true ∨ x.s0.stagingUse x.g.team + bytes ≤ 131072

/-- Nothing of a lane but its standing changed: every lane of the acting segments has the standing given (R112, R125). -/
def stands (x : View) (n l : Nat) (y : Lane) : Lane := if maskBit (x.g.segmentsOf x.act) l then { y with standing := n } else y

/-- The indices of a gather or scatter (R143): the lanes of B, or the words of the list that B addresses, read as ordinary loads: full,
not in flight and not in error. `w` is the module after that reading. -/
def Indexed (x : View) (w : State) (is : List (Nat × Nat)) : Prop :=
  if x.f.fn = 0 then w = x.s0 ∧ is = (maskLanes x.act).map fun l => (l, readAs x .n32 x.f.b l)
  else ∃ ls, accessAll x.s0 x.g { space := x.f.ext.toNat / 2 ^ 62 % 4, bits := 32, sw := 0, write := false, atomic := false,
                                   stamped := false, kind := 1 }
      ((maskLanes x.act).map fun l => (l, (uniform64 x x.f.b + 4 * l) % 2 ^ 64)) = .locs ls ∧
    x.s0.emptyLines (linesOf (allPlaces ls)) = [] ∧ x.g.stores.any (fun e => touchesLine e (linesOf (allPlaces ls))) = false ∧
    x.g.inFlight (allPlaces ls) = false ∧ x.s0.badRead (allPlaces ls) = none ∧
    let r := x.s0.readPlaces (x.s0.shadow x.g) (allPlaces ls)
    w = r.1 ∧ is = ls.mapIdx fun i c => (c.lane, ofBytes ((r.2.drop (4 * i)).take 4))

/-- The table of R143: base and count in the pair of s registers that A names. -/
def tableOf (x : View) : Nat × Nat :=
  match x.f.a.op with | .s n => ((x.sval n.toNat).toNat, (x.sval (n.toNat + 1)).toNat) | _ => (0, 0)

/-- The lanes whose index names an element, with its address. -/
def elements (x : View) (is : List (Nat × Nat)) : List (Nat × Nat) :=
  is.filterMap fun p => if p.2 = 0xFFFFFFFF ∨ (tableOf x).2 ≤ p.2 then none
    else some (p.1, mod2 64 ((tableOf x).1 + (p.2 * 2 ^ (x.f.ext.toNat / 2 ^ 54 % 4) : Nat) + val true 40 x.f.ext.toNat))

/-- IDXR in the lanes whose index lies beyond the table (R143). -/
def flagsOver (x : View) (is : List (Nat × Nat)) (l : Nat) (y : Lane) : Lane :=
  if is.any (fun p => p.1 == l && p.2 != 0xFFFFFFFF && decide ((tableOf x).2 ≤ p.2)) then { y with flags := y.flags ||| flagIDXR } else y

/-- The loads of the located lanes (R141, R228). -/
def loadsOf (x : View) (acq : Nat) (ls : List Loc) : List Load :=
  ls.map fun c => { seq := x.g.seq + 1, path := pathFor x, places := c.places, bit := c.bit, bits := x.f.ty.width,
                    dst := dstOf x.f.d x.f.ty c.lane, acq := acq, pc := x.pc }

/-- No v or s register but those given is written, and no m or j register. -/
abbrev KeepsBut (dv : Nat → Nat → Prop) (ds : Nat → Prop) (x : View) (t : State) : Prop :=
  Keeps dv ds (fun _ => False) (fun _ => False) x t

abbrev KeepsAll (x : View) (t : State) : Prop := KeepsBut (fun _ _ => False) (fun _ => False) x t

/-- An address fails the check of step `st` of R138 with a trap code: alignment first, then byte by byte. -/
def Fails (s : State) (g : Group) (acc : Acc) (ea st code : Nat) : Prop :=
  if 8 ≤ acc.bits ∧ ea % (acc.bits / 8) ≠ 0 then st = 1 ∧ code = trapMisalign
  else ∃ i, i < (elemSpan acc.bits ea).2.1 ∧ placeByte s g acc (swizzle acc.sw ((elemSpan acc.bits ea).1 + i)) = .error (st, code)

/-- The encoded instructions that do nothing when they act in no lane (R47). -/
def actingRows : List (Form → Instr) :=
  [.mov, .addInt, .subInt, .mulInt, .mulh, .mad, .madh, .divInt, .rem, .minInt, .maxInt, .sadd, .ssub, .and, .or, .xor] ++
  [.not, .shl, .shr, .sar, .rol, .ror, .popc, .clz, .ctz, .brev, .bfx, .bfi, .sel, .lea, .bsel, .sext] ++
  [.zext, .dot4, .sad, .addFp, .mulFp, .subFp, .fma, .minFp, .maxFp, .divFp, .sqrt, .rcp, .frac, .rint, .floor, .ceil] ++
  [.trunc, .ldexp, .classF, .padd, .psub, .pmul, .pfma, .pmin, .pmax, .pdot, .cmp, .mand, .mor, .mxor, .mnot, .mpopc] ++
  [.mffs, .vote, .shfl, .bcast, .lred, .lscan, .supd, .smrg, .sred, .sfin, .cvt, .mxq, .mxdq, .rnd, .sfq, .br] ++
  [.call, .ret, .exit, .jset, .join, .brx, .callx, .ladd, .lsub, .lneg, .lshl, .lshr, .lcmp, .lmov] ++
  [.lmac, .ld, .st, .gld, .sct, .atom, .red, .cas, .msred, .fence, .wcnt, .fset, .ftest, .barSync, .barArrive, .barWait] ++
  [.blineInit, .blineClr, .tnow, .stst, .rdat, .mcst, .mcsq, .mcsqCas, .mldr, .waitv, .wake, .tdload, .tddrop, .copy, .copyMc, .copyGcm] ++
  [.aready, .await, .cstart, .carm, .cstat, .trap, .brk, .mark, .sysr, .sysw, .flag]

/-- The update that an msred sends for a located lane (R146). -/
def updateOf (x : View) (c : Loc) : Msred :=
  { seq := x.g.seq + 1, op := msredOp x.f.fn.toNat, mode := rmwMode (msredOp x.f.fn.toNat) (x.f.x6.toNat % 8), ty := x.f.ty, va := c.ea,
    places := c.places, operand := msredData x c.lane, opc := x.f.fn.toNat, pc := x.pc }

-- FENCES, LINES, BARRIERS, TIME (R147 to R157)
/-- Every earlier access of the named classes is performed at a scope (R148, R228). -/
structure Performed (x : View) (classes scope : Nat) : Prop where
  loads  : classes.testBit 0 = true → x.g.loads = [] ∧ x.g.rdat = none ∧ (∀ p ∈ x.s0.pendings, p.grp = x.gk → p.kind ≠ 3) ∧
    (2 ≤ scope → (∀ e ∈ x.g.stores, e.fwd = false ∧ isRmwLoad e = false) ∧
      ∀ p ∈ x.s0.pendings, p.grp = x.gk → p.kind = 2 → scope < 5 ∧ p.placed = true)
  stores : classes.testBit 1 = true → 2 ≤ scope → x.g.stores = [] ∧ x.g.msreds = [] ∧
    ∀ p ∈ x.s0.pendings, p.grp = x.gk → p.kind = 3 ∨ (scope < 5 ∧ (p.kind = 0 ∨ p.placed = true))
  copies : classes.testBit 2 = true → (x.s0.counts x.gk).getD 2 0 = 0
  tiles  : classes.testBit 3 = true → (x.s0.counts x.gk).getD 3 0 = 0

/-- An outstanding acquire holds a load back (R140): for a plain one of device memory, an acquire wider than cluster scope, or of an
atomic; for any other, one of any scope wider than the group. -/
def HeldBack (x : View) (ls : List Loc) : Prop :=
  (∃ l ∈ x.g.loads, 2 ≤ l.acq ∧ (4 ≤ l.acq ∨ x.scope (x.f.fn.toNat % 8) ≠ 0 ∨ ∃ p ∈ allPlaces ls, ∀ a, p ≠ .mem a)) ∨ ∃ e ∈ x.g.stores, 2 ≤ e.acq

/-- The limit of a wcnt (R149). -/
def limitOf (x : View) : Nat := match x.f.a.op with | .imm => x.f.x6.toNat | _ => min (uniform32 x x.f.a) 63

/-- The acting lanes with their addresses. -/
def actingAt (x : View) : List (Nat × Nat) := (maskLanes x.act).map fun l => (l, addrOf x l)

/-- The uniform access of a bar or bline names a line of a team's window. -/
def AtLine (x : View) (tm line : Nat) : Prop :=
  ∃ ls, accessAll x.s0 x.g (accFor x 32 false false) [(x.low, addrOf x x.low)] = .locs ls ∧
    (linesOf (allPlaces ls)).head? = some (tm, line)

/-- An entry of the store FIFO for a change of a line's attributes. -/
def lineEntry (x : View) (op : StoreOp) : Store :=
  { seq := x.g.seq + 1, path := pathFor x, rel := 0, acq := 0, va := 0, kind := 0, opc := 0, ty := .i32, rval := 0, fwd := false, pc := x.pc,
    op := op }

/-- The low word of an s operand. -/
def lowWord (x : View) (o : Opnd) : Word := match o with | .s n => BitVec.ofNat 32 (x.sval n.toNat).toNat | _ => 0

/-- The group's earlier accesses are performed before it arrives or waits at a barrier (R153). -/
def Drained (x : View) : Prop := x.g.acquiring = false ∧ x.s0.countsAtMost x.gk 15 0 = true

/-- The record of R207 for a line, or a new one of the line's phase. -/
def recordAt (x : View) (cw : Bool) (tm off : Nat) (b : BarLine) : BarRec :=
  (x.s0.barRec x.g.team cw tm off).getD { cw := cw, team := tm, off := off, phase := b.phase, masks := [], arrived := [], sent := false }

/-- No acting lane is recorded yet, and the record is not a 17th open line (R210). -/
def MayArrive (x : View) (r : BarRec) : Prop :=
  mapGet 0 r.masks x.g.grp &&& x.act = 0 ∧ ((∀ p ∈ r.masks, p.2 = 0) → x.s0.openLines x.g.team < 16)

/-- The acting lanes added to a record. -/
def withArrival (x : View) (r : BarRec) : BarRec :=
  { r with masks := mapSet 0 r.masks x.g.grp (mapGet 0 r.masks x.g.grp ||| x.act) }

/-- The space of a barrier instruction is cw. -/
def inCw (x : View) : Bool := x.f.ext.toNat / 2 ^ 62 % 4 == 1

/-- %cyc beyond which a parked lane traps (R211). -/
def deadline (x : View) : Nat := x.s0.groupCyc x.g + (x.s0.launchOf x.g).watchdog

/-- Every lane of a stamped access lies in one aligned line (R156, R157): a line of this module's stamped page, or another module's
window (R327). -/
def StampedAt (x : View) (write : Bool) (home : Option Nat) : Prop :=
  oddLane x (accesses x) = none ∧ offLine x (accesses x) = none ∧
  if (∀ p ∈ accesses x, (remoteAddr p.2).isSome = true) then home = none
  else
    let acc : Acc := { space := 2, bits := x.f.ty.width, sw := x.f.ext.toNat / 2 ^ 56 % 8, write := write, atomic := false, stamped := true, kind := if write then 2 else 1 }
    (∀ p ∈ accesses x, (remoteAddr p.2).isSome = false) ∧ ∃ ls a, accessAll x.s0 x.g acc (accesses x) = .locs ls ∧
    (allPlaces ls).head? = some (.stamped a) ∧ home = some (a / 64)

/-- The version that a stst publishes, and the letter that carries it to its home. -/
def versionOf (x : View) : Version :=
  { stamp := BitVec.ofNat 64 x.s0.tb.latest, pkg := x.s0.pkg, core := x.s0.groupCore x.g, slot := x.g.slot,
    bytes := versionBytes x (accesses x) }
def versionVa (x : View) : DWord := BitVec.ofNat 64 (swizzle (x.f.ext.toNat / 2 ^ 56 % 8) ((accesses x).headD (0, 0)).2)
def versionLetter (x : View) (home : Option Nat) : Letter :=
  match home with
  | some line => { to_ := x.s0.pkg, from_ := x.s0.pkg, msg := .version line (versionOf x) x.gk (versionVa x) }
  | none =>
    { to_ := (versionVa x).toNat / 2 ^ 40 % 2 ^ 12, from_ := x.s0.pkg,
      msg := .remoteVersion (x.s0.launchOf x.g).fn (x.s0.launchOf x.g).ctx ((versionVa x).toNat % 2 ^ 40 / 64 * 64) (versionOf x) x.gk
        (versionVa x) }

/-- What a fabric access leaves to wait for its reply. -/
def pendingOf (x : View) (kind group sreg : Nat) (va : DWord) (dst : List Dst) (waits : List Nat) : Pending :=
  { id := x.s0.nextId, grp := x.gk, seq := x.g.seq + 1, kind := kind, group := group, pc := x.pc, va := va, sreg := sreg, dst := dst,
    ty := x.f.ty, waits := waits, replied := kind == 0, placed := false, cancel := false, issued := x.s0.tb.est.toNat }

/-- The module with one more fabric access on its way. -/
def withPending (s : State) (p : Pending) : State := { s with nextId := s.nextId + 1, pendings := s.pendings ++ [p] }

/-- The instruction ends in a trap before any effect (R36, R334). -/
def Traps (i : Instr) (f : Form) (s : State) (code : Nat) (arg : DWord) (lane : Nat) : Prop :=
  let x := viewOf i f s
  exec i s = .next ((s.takeTrap x.gk code arg lane x.path x.pc x.pc).cut x.gk)

/-- The phase in the destination of a bar.arrive. -/
def phaseTo (x : View) (b : BarLine) : Group :=
  match x.f.d with | .s n => x.marked.setS n.toNat (BitVec.ofNat 64 b.phase.toNat) | _ => x.marked

-- MULTICAST, WAIT AND WAKE, SLOTS, COPIES, TILES (R158 to R184)
/-- Every lane of a multicast access is aligned, names the group, and lies in the member's window (R158). -/
structure PodAt (x : View) (group : Nat) (m : Member) : Prop where
  one    : ((accesses x).headD (0, 0)).2 / 2 ^ 53 % 2 ^ 10 = group
  member : x.s0.memberOf (x.s0.launchOf x.g).ctxKey group = some m
  lanes  : ∀ p ∈ accesses x, p.2 % (x.f.ty.width / 8) = 0 ∧ 2 ^ 63 ≤ p.2 ∧ p.2 / 2 ^ 40 % 2 ^ 13 = 0 ∧ p.2 / 2 ^ 53 % 2 ^ 10 = group ∧
    ∀ b ∈ laneAddrs x p.2, b % 2 ^ 40 < m.wlen

/-- The number of an s operand. -/
def sNum (o : Opnd) : Nat := match o with | .s n => n.toNat | _ => 0

/-- The address that a fabric access reports. -/
def firstVa (x : View) : DWord := BitVec.ofNat 64 ((accesses x).headD (0, 0)).2

/-- The entry of the fabric FIFO that carries a message. -/
def fabricEntry (x : View) (m : Msg) : Store :=
  { lineEntry x (.fabric x.s0.nextId { to_ := x.s0.pkg, from_ := x.s0.pkg, msg := m }) with
    path := .fabric, va := ((accesses x).headD (0, 0)).2, ty := x.f.ty }

/-- The address g[sk + OFF] of waitv and wake. -/
def wordAt (x : View) : Nat := mod2 64 (uniform64 x x.f.a + val true 40 x.f.ext.toNat)

/-- The key of R283 that the word has in the instruction's context, after the swizzle of R28. -/
def keyOf (x : View) : Nat := (x.s0.launchOf x.g).ctxKey * 2 ^ 64 + swizzle (x.f.ext.toNat / 2 ^ 56 % 8) (wordAt x)

/-- The bound of a wait: n cycles, or 2^32 − 1 with B zero (R162). -/
def waitFor (x : View) : Nat := match x.f.b.op with | .zero => 2 ^ 32 - 1 | _ => min (uniform64 x x.f.b) (2 ^ 32 - 1)

/-- Lanes of a group that sleep on a key vote again. -/
def Woken (key : Nat) (g h : Group) : Prop :=
  ∀ l u, l < 32 → (g.lane l).cond = .waitv key u → h.lane l = { g.lane l with cond := .voting }

/-- The first groups that sleep on a key, in the order in which they began. -/
def asleepOn (s : State) (key n : Nat) : List Nat := (((s.sleepers.filter fun p => p.key == key).map (·.grp)).eraseDups).take n

/-- The value of the s register that D names. -/
def dValue (x : View) : DWord := match x.f.d with | .s n => x.sval n.toNat | _ => 0

/-- Every address of a list is located, in `ls`. -/
def Located (x : View) (acc : Acc) (addrs : List Nat) (ls : List Loc) : Prop :=
  addrs.map (fun a => locate x.s0 x.g acc x.low a) = ls.map Except.ok

/-- The words of a block (R168). -/
def blockWords (base stride len rows : Nat) : List Nat :=
  ((List.range rows).map fun r => (List.range (len / 4)).map fun i => (base + r * stride + 4 * i) % 2 ^ 64).flatten

/-- A copy's quad and addresses are in order (R168, R169). -/
def QuadOk (x : View) (dest : Nat) : Prop :=
  let q := quadOf x x.f.d
  q.bad = false ∧ q.src % 4 = 0 ∧ dest % 4 = 0 ∧ q.dstr % 4 = 0 ∧ q.sstr % 4 = 0

/-- No stamped source waits for an earlier write of the group. -/
def SourceReady (x : View) (ss : List Loc) : Prop :=
  ¬ ((allPlaces ss).any (fun p => match p with | .stamped _ => true | _ => false) = true ∧
     x.s0.writesDue x.gk (x.g.seq + 1) (allPlaces ss) = true)

/-- No change of the lines of some destinations is still on its way from the group (R221). -/
def MarksDone (x : View) (ds : List Loc) : Prop := x.g.stores.any (fun e => touchesLine e (linesOf (allPlaces ds))) = false

/-- A copy under way (R170): its units, and the marks of its lines at the end of the group's FIFO. -/
structure CopyEnters (x : View) (t : State) (us : List Unit_) (gcm : Option Gcm) : Prop where
  left : Leaves x t { x.s0 with nextCopy := x.s0.nextCopy + 1,
                                copies := x.s0.copies ++ [{ id := x.s0.nextCopy, path := pathOf (quadOf x x.f.d).ssp, grp := x.gk, seq := x.g.seq + 1, pc := x.pc, units := us, gcm := gcm }] }
    (x.g.addStores ((markLines us).map fun p => { lineEntry x (.mark x.s0.nextCopy p.1 p.2) with ty := .b32 })) (fun l y => x.on l y)
  keeps : KeepsAll x t

/-- A tile instruction acts in all lanes, nothing holds it back, and the matrix queue has room (R175). -/
structure TileReady (x : View) : Prop where
  all   : x.act = BitVec.allOnes 32
  quiet : x.g.acquiring = false
  room  : x.s0.countsAtMost x.gk 8 62 = true
  queue : (x.s0.teamOf x.g).queue.length < 8

/-- The runs of bytes that an instruction names are located, run by run, and the lines that it loads are full. -/
structure SpansAt (x : View) (spans : List Span) (ps : List (List Place)) (loads : List Place) : Prop where
  found : ∃ lss : List (List Loc), lss.map allPlaces = ps ∧
    spans.map (fun sp => (List.range (sp.len / sp.unit_)).map fun i => locate x.s0 x.g
      { space := sp.space, bits := 8 * sp.unit_, sw := sp.sw, write := sp.write, atomic := false, stamped := false, kind := if sp.write then 2 else 1 }
      x.low ((sp.addr + sp.unit_ * i) % 2 ^ 64)) = lss.map fun ls => ls.map Except.ok
  own   : x.g.stores.any (fun e => touchesLine e (linesOf loads)) = false
  full  : x.s0.emptyLines (linesOf loads) = []

/-- An entry enters the matrix queue behind the others; where it changes its tile it raises the tile's issue count (R174, R175). -/
def Enqueues (x : View) (t : State) (g : Group) (tile : Nat) (raises : Bool) (what : Entry) : Prop :=
  let tm := x.s0.team x.g.team
  let n := mapGet 0 tm.issued tile + 1
  Leaves x t (x.s0.setTeam x.g.team
      { tm with issued := if raises then mapSet 0 tm.issued tile n else tm.issued,
                queue := tm.queue ++ [{ grp := x.gk, seq := x.g.seq + 1, tile := tile, cnt := if raises then n else 0, pc := x.pc, what := what }] })
    { g with seq := x.g.seq + 1 } (fun l y => x.on l y) ∧ KeepsAll x t

/-- The tile that an operand names. -/
def tileNum (o : Opnd) : Nat := match o with | .a n => n.toNat | _ => 0

/-- The matrix operations and their shapes (R49, R176). -/
def mmRows : List ((Form → Instr) × Nat) :=
  [(.mmbf, 0), (.mmf8, 1), (.mmi8, 2), (.mmx8, 3), (.mmx6, 4), (.mmx4, 5), (.mmcx, 6), (.mmf32, 7)]

/-- The two registers of B: address of B, and the control word of R176. -/
def bPair (x : View) : Nat × Nat :=
  match x.f.b.op with | .s n => ((x.sval n.toNat).toNat, (x.sval (n.toNat + 1)).toNat) | _ => (0, 0)

/-- The runs of bytes that a matrix operation reads. -/
def mmSpans (x : View) (op : Nat) (sa sb : SlotRec) : List Span :=
  let sh := shapeOf op
  let c := (bPair x).2
  let sp := x.f.ext.toNat / 2 ^ 62 % 4
  let sw := x.f.ext.toNat / 2 ^ 56 % 8
  operandSpans sp sw (wordAt x) sa sa.tr sh ++ operandSpans (c / 2 ^ 16 % 4) (c / 2 ^ 18 % 8) (bPair x).1 sb (!sb.tr) sh ++
    scaleSpans sp sw (wordAt x) sa sh ++ scaleSpans (c / 2 ^ 16 % 4) (c / 2 ^ 18 % 8) (bPair x).1 sb sh

/-- A slot's record suits an operand (R176). -/
def Suits (sl : SlotRec) (sh : Shape) (types : List Nat) : Prop := sl.fmt ∈ types ∧ sl.mx = sh.mx ∧ sl.cplx = sh.cplx

-- TRAPS, SYSTEM REGISTERS, SCRIPTS (R185 to R193, R297 to R301, R332)
/-- The codes of R332 that no handler takes. -/
def fatalCodes : List Nat := [0x04, 0x05, 0x07, 0x17, 0x1C, 0x1D, 0x1E]

/-- The sixteen-bit fields of a trace record's first word (R345). -/
def traceHead (s : State) (g : Group) (kind : Nat) : Nat :=
  kind * 2 ^ 60 + g.slot % 64 * 2 ^ 54 + g.grp % 32 * 2 ^ 49 + s.cyc (s.groupCore g) % 2 ^ 48

/-- A core whose ring of 512 takes one record more, over the oldest; where that one was not yet drained it counts as lost (R191). -/
def withRecord (c : Core) (r : Nat × Nat) : Core :=
  { c with ring := (c.ring ++ [r]).drop (c.ring.length + 1 - 512), head := c.head + 1, all := (c.all ++ [r]).drop (c.all.length + 1 - 512), lost := if 512 ≤ c.ring.length then min (c.lost + 1) (2 ^ 32 - 1) else c.lost }

/-- A core after a record: where some are lost and the ring has room again, a record of KIND 6 tells their number first (R345, R346). -/
def recorded (c : Core) (r : Nat × Nat) : Core :=
  if c.lost = 0 ∨ 512 ≤ c.ring.length then withRecord c r
  else withRecord (withRecord { c with lost := 0 } (6 * 2 ^ 60 + r.1 % 2 ^ 60, c.lost)) r

/-- The registers of R192. -/
def sysRows (s : State) (g : Group) : List (Nat × Nat) :=
  [(0, g.tcode), (1, g.tresume.toNat), (2, g.tmask.toNat), (3, g.targ.toNat), (4, g.tlane), (5, g.rcnt), (6, g.sfcnt),
   (7, (s.launchOf g).r.lsz), (8, s.tb.epslim), (9, s.tb.dlvb)]

/-- An operand that is an s register or an immediate, as 64 bits. -/
def wideOpnd (x : View) : Nat :=
  match x.f.a.op with
  | .imm => (match x.f.len with | .l64 => x.f.x6.toNat | .l96 => mod2 64 (val true 20 x.f.ext.toNat) | .l128 => x.f.ext.toNat)
  | _ => uniform64 x x.f.a

/-- The bits that a flag.clr clears in a lane (R193): six of an immediate, eight of a register. -/
def cleared (x : View) (l : Nat) : Word :=
  match x.f.a.op with
  | .imm => BitVec.ofNat 32 x.f.x6.toNat
  | _ => BitVec.ofNat 32 (readAs x .n32 x.f.a l % 256)

/-- A script of this module is the one that a handle of a context names. -/
def Names (s : State) (c h : Nat) (x : Script) : Prop := s.script c h = some x

/-- A script with the key of `x` stands at a step. -/
def StandsAt (t : State) (x : Script) (cur : Nat) : Prop :=
  ∃ y ∈ t.scripts, y.fn = x.fn ∧ y.ctx = x.ctx ∧ y.handle = x.handle ∧ y.cur = cur

/-- The address of a step's status word (R300): eight bytes a slot from the address of the end step. -/
def statusAt (x : Script) : Nat := ((x.steps.getLastD SStep.none).addr + 8 * x.step.slot) % 2 ^ 64

/-- What the module keeps of a script that ends with a status (R187, R300). -/
def finalOf (x : Script) (st : Nat) : Final :=
  { handle := x.handle, word := BitVec.ofNat 64 (x.step.slot * 2 ^ 16 + (if x.ovr then 2 ^ 9 else 0) + 2 ^ 8 + st), grp := x.grp, arms := x.arms }

/-- The current step writes its status word and the script goes on to the step at `cur`. -/
def StepEnds (s t : State) (x : Script) (st cur : Nat) : Prop :=
  ∃ u, s.scriptWrite x.ck false (statusAt x) (bytesOf 8 st) = .ok u ∧ t.mem = u.mem ∧ t.groups = s.groups ∧ t.teams = s.teams ∧ StandsAt t x cur

-- EVENTS OF MEMORY, COPIES AND THE MATRIX UNIT (R107, R121, R139, R146, R170, R173, R175, R203, R208, R211, R228, R229)
/-- The module is `s` but for the group `gk`, which is `g`. -/
structure GroupIs (gk : Nat) (s t : State) (g : Group) : Prop where
  rest   : { t with groups := s.groups } = s
  others : ∀ k, k ≠ gk → t.group k = s.group k
  own    : t.group gk = g

/-- A group after one of its loads has bound to the bytes `x`. -/
def bindTo (g : Group) (l : Load) (x : Nat) : Group :=
  { (g.putDst l.dst (extendElem l.dst.ty (x / 2 ^ l.bit % 2 ^ l.bits))) with loads := g.loads.erase l }

/-- No acquire of team scope or wider stands before an instruction's loads (R140, R230). -/
abbrev freeOf (g : Group) (seq : Nat) : Prop := ∀ a ∈ g.loads, a.seq < seq → a.acq < 2

/-- A group `h` after an access has brought its load the bytes of some places, as the group `g` reads them: it binds with its last byte,
once no acquire stands before it. -/
def brought (s : State) (g h : Group) (m : Load) (ps : List Place) : Group :=
  let got := m.got ++ (ps.filter m.lacks.contains).map fun p => (p, s.byteFor g p)
  if (∀ p ∈ m.places, got.any (·.1 == p) = true) ∧ freeOf g m.seq
  then bindTo h m (ofBytes (m.places.map fun p => ((got.find? (·.1 == p)).map (·.2)).getD 0))
  else { h with loads := h.loads.map fun y => if y = m then { m with got := got } else y }

/-- The other lanes' loads of one instruction that share a load's access to a word of a vault, and may read there now (R219). -/
def sharing (s : State) (g : Group) (gk : Nat) (l : Load) : List Load :=
  g.loads.filter fun m => m != l && m.seq == l.seq && (m.sharing l.nextBytes).any m.lacks.contains && s.mayBind g gk m && bindFrom g m == .home

/-- A place of plain storage: a vault byte or a byte of device memory. -/
def plainPlace (p : Place) : Prop := (∃ tm o, p = .vault tm o) ∨ ∃ a, p = .mem a

/-- A byte of device memory after the writes of one access, none of which lands in a poisoned granule that they do not cover (R340). -/
def memAfter (s : State) (bs : List ByteWrite) (a : Nat) : Byte :=
  if s.poisoned.contains (granule a) && !coversGranule bs (granule a) then s.memByte a
  else bs.foldl (fun v b => if b.place = .mem a then mergeByte b.en b.val v else v) (s.memByte a)

/-- A byte of a team's window after the writes of one access; the words of a barrier line are not written (R151). -/
def winAfter (s : State) (bs : List ByteWrite) (tm o : Nat) : Byte :=
  if ((s.team tm).bline (o / 128)).isSome then (s.team tm).byte o
  else bs.foldl (fun v b => if b.place = .vault tm o then mergeByte b.en b.val v else v) ((s.team tm).byte o)

/-- An entry of a store FIFO is the first of its path, and nothing of R229 or R140 holds it back. -/
structure AppliesNow (s : State) (gk : Nat) (p : Path) (e : Store) : Prop where
  alive : (s.teamOf (s.group gk)).dead = false
  first : ((s.group gk).stores.filter (·.path == p)).head? = some e
  loads : s.unboundBefore gk e.seq = false
  rel   : 2 ≤ e.rel → s.dueBefore gk e.seq e.rel = false
  marks : (s.group gk).markAhead e = false
  line  : s.lineBusy e.op = false
  order : s.fabricBehind gk e = false
  stamp : s.stampedBehind gk e = false

/-- Its launch stages the accesses of the path, or does not (R264). -/
def stages (s : State) (gk : Nat) (p : Path) : Bool := p == .g && (s.launchOf (s.group gk)).det

/-- The bytes of places that one update reads and writes hold a word, read whole and not in error. -/
structure WordOf (s : State) (ps : List Place) (old : Nat) : Prop where
  plain : ∀ p ∈ ps, ∃ a, p = .mem a
  once  : ps.Nodup
  sound : s.badRead ps = none
  value : old = ofBytes (ps.map s.byteAtHome)

/-- The rows of an operand at the unit, as values. -/
def operandLines (s : State) (gk : Nat) (o : TileOp) (lineMajor : Bool) (sh : Shape) (i : Nat) : List (Fv × Fv) :=
  lineValues sh o.slot.fmt ((s.operandCodes gk o lineMajor sh).getD i []) ((s.operandScales gk o sh).getD i [])

/-- An element of a matrix operation's result: element (i, j) has one word, or two of a complex operation. -/
def mmWords (s : State) (tk : Nat) (q : QEntry) (op : Nat) (ovw : Bool) (a b : TileOp) (i j : Nat) : List (Word × Word) :=
  let sh := shapeOf op
  elementWords op (fun h => if ovw then 0 else (s.team tk).tileWord q.tile i ((if op = 6 then 2 else 1) * j + h))
    (operandLines s q.grp a (!a.slot.tr) sh i) (operandLines s q.grp b b.slot.tr sh j)

/-- A row of a drain before its conversion, and its triple (R182, R183). -/
def drained (s : State) (tk : Nat) (q : QEntry) (d : Drain) (i : Nat) : List Word × Triple × Word :=
  let row := (List.range 64).map fun j => (s.team tk).tileWord q.tile i j
  let norm : Triple := { w := d.norm.getD (3 * i) 0, m := d.norm.getD (3 * i + 1) 0, q := d.norm.getD (3 * i + 2) 0 }
  if d.poisoned then ([], { w := 0x7FF00BAD#32, m := 0x7FF00BAD#32, q := 0x7FF00BAD#32 }, flagAPEND)
  else if (fmtOf d.ty).isNone then (row, norm, 0)
  else drainRow d row ((List.range 64).map fun j => BitVec.ofNat 32 (ofBytes (((d.bias.drop (4 * j)).take 4).map s.byteAtHome))) norm

/-- The bytes of a row of a drain. -/
def drainedBytes (s : State) (tk : Nat) (q : QEntry) (d : Drain) (i : Nat) : List Byte :=
  packRow d.ty.width (if d.poisoned then List.replicate 64 (poisonOf d.ty)
    else (drained s tk q d i).1.mapIdx fun j w => (drainElem s tk (s.group q.grp).grp d i j w).1)

/-- The first entry of a team's queue may be performed (R175). -/
structure Performs (s : State) (tk : Nat) (q : QEntry) (qs : List QEntry) : Prop where
  queue : (s.team tk).queue = q :: qs
  alive : (s.team tk).dead = false
  quiet : s.drainWaits q = false
  sound : s.badRead (s.entryReads q) = none

/-- The tiles of a team but one are as they were, the queue has lost its first entry, and memory and every register stand. -/
structure TileDone (s t : State) (tk : Nat) (q : QEntry) (qs : List QEntry) : Prop where
  queue : (t.team tk).queue = qs
  tiles : ∀ a i j, a ≠ q.tile → i < 64 → j < 64 → (t.team tk).tileWord a i j = (s.team tk).tileWord a i j
  mem   : t.mem = s.mem
  regs  : ∀ k, (t.group k).v = (s.group k).v ∧ (t.group k).s = (s.group k).s ∧ (k ≠ q.grp → t.group k = s.group k)
  teams : ∀ k, k ≠ tk → t.team k = s.team k

/-- A lane of the group waits at a line of a team for its phase to pass. -/
def ParkedAt (g : Group) (cw : Bool) (tm off l : Nat) : Prop := ∃ p u, (g.lane l).cond = .barrier cw tm off p u

-- LETTERS, STAMPED LINES, MULTICAST (R155 to R161, R290 to R296, R322 to R327)
/-- Letter i on its way to a part of this module holds a message of a module. -/
def Comes (s : State) (i : Nat) (src : Nat) (m : Msg) : Prop := ∃ l, s.net[i]? = some l ∧ l.from_ = src ∧ l.msg = m

/-- The module without that letter. -/
def taken (s : State) (i : Nat) : State := { s with net := s.net.eraseIdx i }

/-- A letter for each of some modules: those of this module join its net, the others its outbox. -/
def Posted (s t : State) (ls : List (Nat × Msg)) : Prop :=
  let letter := fun (p : Nat × Msg) => { to_ := p.1, from_ := s.pkg, msg := p.2 : Letter }
  t.net = s.net ++ (ls.filter fun p => p.1 = s.pkg).map letter ∧ t.outbox = s.outbox ++ (ls.filter fun p => p.1 ≠ s.pkg).map letter

/-- The module is `s` but for what it posts. -/
structure Posts (s t : State) (ls : List (Nat × Msg)) : Prop where
  rest   : { t with net := s.net, outbox := s.outbox } = s
  posted : Posted s t ls

/-- The pitches of a frame in which stamped versions travel (R282). -/
abbrev InStampedPitch (s : State) : Prop := s.tb.est.toNat % 250 / 10 = 1 ∨ s.tb.est.toNat % 250 / 10 = 2

/-- A home keeps a version that comes by tick s + D while its timebase is in order (R156, R322). -/
def KeepsVersion (s : State) (v : Version) : Prop :=
  s.tb.state ≠ 3 ∧ s.tb.eps ≤ s.tb.epslim ∧ s.tb.latest ≤ v.stamp.toNat + s.tb.dlvb

/-- The versions of a line with one more: in order, and at most the last four (R155). -/
def withVersion (vs : List Version) (v : Version) : List Version :=
  if 4 < (insertVersion v vs).length then (insertVersion v vs).drop 1 else insertVersion v vs

/-- The home answers: it settles a writer of its own module at once, and sends another its answer. -/
def Answers (s t : State) (src grp : Nat) (ok : Bool) (stamp : DWord) : Prop :=
  if src = s.pkg ∧ ok = true then Posted s t [] ∧
    t.pendings = s.pendings.filter (fun p => !(p.grp == grp && p.kind == 4 && p.group == stamp.toNat))
  else Posted s t [(src, .stampReply grp ok stamp)] ∧ t.pendings = s.pendings

/-- A version reaches the home of a line. -/
def VersionAt (s t : State) (line : Nat) (v : Version) (src grp : Nat) : Prop :=
  (KeepsVersion s v → Answers s t src grp true v.stamp ∧ t.poisoned = s.poisoned.filter (· != 64 * line) ∧
    (∀ n, t.versions n = if n = line then withVersion (s.versions line) v else s.versions n)) ∧
  (¬ KeepsVersion s v → Answers s t src grp false v.stamp ∧ t.lines = s.lines ∧ t.poisoned = s.poisoned) ∧
  { t with lines := s.lines, poisoned := s.poisoned, pendings := s.pendings, net := s.net, outbox := s.outbox } = s

/-- The version of R157 for a time: the latest whose stamp is not beyond it, else the earliest kept, with its status. -/
def VersionFor (vs : List Version) (t : DWord) (v : Version) (st : Nat) : Prop :=
  ((vs.filter fun v => v.stamp.toNat ≤ t.toNat).getLast? = some v ∧ st = 0) ∨
  ((∀ w ∈ vs, t.toNat < w.stamp.toNat) ∧ vs.head? = some v ∧ st = 2)

/-- A group takes a trap before its next issue; one with no live lane leaves a trace record instead (R332). -/
def TakesNext (s t : State) (gk code : Nat) (arg : DWord) (at_ : Option DWord) : Prop :=
  if (s.group gk).live = 0 then t = s.trace gk 5 (code * 2 ^ 56)
  else GroupIs gk s t { s.group gk with nexts := (s.group gk).nexts ++ [{ code := code, arg := arg, at_ := at_ }] }

/-- The lanes of an rdat go on, and it waits no more. -/
def rdatPasses (g : Group) (w : RdatWait) : Group := { (g.updLanes w.lanes fun y => { y with pc := w.pc + 16 }) with rdat := none }

/-- A membership with its word at ACNT written (R291). -/
def CountAt (s t : State) (group : Nat) (m : Member) : Prop :=
  t.member group = some m ∧ (∀ k, k ≠ group → t.member k = s.member k) ∧
  match s.setVaNat (ctxKey m.fn m.ctx) m.acnt 8 (m.count % 2 ^ 48 + (if m.stale then 2 ^ 63 else 0)) with
  | some u => t.mem = u.mem
  | none => t.mem = s.mem

/-- The module with the crier's books in order: it has answered for a sender whose copy is stale, and a store that every live member has
acknowledged is done, which its sender hears; other letters go before (R292, R307). -/
def Settles (s t : State) (group : Nat) (c : Crier) (before : List (Nat × Msg)) : Prop :=
  let sent := c.sent.map fun p => { p with answered := p.answered || (c.answer p).isSome }
  let settled := fun (p : Sent) => !c.owes p && c.members.all fun m => m.stale || decide (p.num ≤ m.acked)
  let rest := sent.filter fun p => !settled p
  Posts (s.setCrier group { c with sent := rest, olds := c.olds.filter fun o => rest.any (·.num == o.1) }) t
    (before ++ c.sent.filterMap (fun p => (c.answer p).map fun m => (p.sender, m)) ++ (sent.filter settled).map fun p => (p.sender, .seqDone p.id))

/-- The pendings of a sender that its own crier has numbered. -/
def placedAt (s : State) (src id : Nat) : List Pending :=
  if src = s.pkg then s.pendings.map fun p => if p.id = id then { p with placed := true } else p else s.pendings

/-- A join of a function to a group is over: MCGST tells its end unless a later command stands there. -/
def JoinEnds (s t : State) (fn group st : Nat) : Prop :=
  t.fn fn = { s.fn fn with joining := (s.fn fn).joining.filter (·.1 != group), mcgst := if (s.fn fn).mcgLast = group then st else (s.fn fn).mcgst } ∧
    ∀ k, k ≠ fn → t.fn k = s.fn k

/-- No context of this module waits for the crier's answer to its join to a group. -/
def NoJoin (s : State) (group : Nat) : Prop := ∀ p ∈ s.fns, ∀ q ∈ p.2.joining, q.1 ≠ group

/-- A reply to an rdat of a group. -/
def repliesTo (gk seq : Nat) (m : Msg) : Prop := (∃ v st, m = .readReply gk seq v st) ∨ m = .readPoison gk seq

-- SCRIPTS, TRANSLATION, REGISTERS, LAUNCHES (R254 to R279, R284, R298 to R300, R335, R366)
/-- A script of `t` with the key of `x`, of which `p` holds. -/
def ScriptIs (t : State) (x : Script) (p : Script → Prop) : Prop := ∃ y ∈ t.scripts, y.fn = x.fn ∧ y.ctx = x.ctx ∧ y.handle = x.handle ∧ p y

/-- The current step has waited for its peer for RLIM without progress (R299). -/
def PeerLate (s : State) (x : Script) : Prop :=
  (∀ p ∈ x.held, p.2 ≠ x.step.slot) ∧ x.closing = none ∧ x.step.kind ∈ [.send, .recv, .rrs, .wait] ∧ (x.frag = none ∨ x.frag = some 0) ∧ x.since + s.scriptLimit x ≤ s.tb.est.toNat

/-- The bytes of a fault record (R278). -/
def faultBytes (s : State) (ck va kind level core team count : Nat) : List Byte :=
  bytesOf 8 va ++ bytesOf 4 (s.nextFid ck) ++ bytesOf 1 kind ++ bytesOf 1 level ++ bytesOf 2 core ++ bytesOf 4 team ++ bytesOf 4 count ++
    bytesOf 8 s.tb.est.toNat

/-- A context's ring has one record more, at its next place. -/
def Recorded (s t : State) (ck : Nat) (bytes : List Byte) : Prop :=
  let c := s.ctx ck
  let slot := c.written % 2 ^ c.fqs
  t.memBytes (c.fqb + 32 * slot) 32 = bytes ∧
  t.ctx ck = { c with written := c.written + 1, open_ := c.open_ ++ [(s.nextFid ck, slot)] } ∧ (t.fn (ck / 16)).nextFid = (s.nextFid ck + 1) % 2 ^ 32

/-- A lane that is suspended on one more record. -/
def onRecord (x : Lane) (fid : Nat) : Lane := { x with cond := .suspended ((match x.cond with | .suspended fs => fs | _ => []) ++ [fid]) }

/-- A lane when a record is resumed: one suspended on it votes again. -/
def offRecord (x : Lane) (fid : Nat) : Lane := match x.cond with
  | .suspended fs => if fid ∈ fs then { x with cond := .voting } else x
  | _ => x

/-- A walk has ended in a page fault: its record is written and every group that joined it is suspended on the record (R277). -/
def WalkFaults (s t : State) (i : Nat) (w : Walk) (level : Nat) : Prop :=
  Recorded s t w.ctx (faultBytes s w.ctx (w.page * 2 ^ 16) w.kind level (s.groupCore (s.group (w.groups.headD 0)))
    (teamIndex (s.group (w.groups.headD 0)).team) w.groups.length) ∧
  t.walks = s.walks.eraseIdx i ∧
  (∀ p ∈ w.joined, ∀ l, maskBit (p.2 &&& (s.group p.1).live) l = true →
    (t.group p.1).lane l = onRecord ((s.group p.1).lane l) (s.nextFid w.ctx)) ∧
  ∀ k, k ∉ w.groups → t.group k = s.group k

/-- The registers that a host may write and read back: page, offset, and the bits kept (R256, R272, R273, R280, R313, R327, R347, R350, R358,
R360); those of the third list are function 0's, and PART is written by function 0 alone. -/
def basicRows : List (Nat × Nat) :=
  [(0x018, 2 ^ 32 - 1), (0x028, 15 * 2 ^ 60 + 2 ^ 57 - 1), (0x050, 2 ^ 64 - 1), (0x078, 2 ^ 64 - 1), (0x080, 2 ^ 40 - 1), (0x090, 2 ^ 64 - 1),
   (0x098, 2 ^ 32 - 1)] ++ (List.range 8).map fun q => (0x100 + 0x20 * q, 2 ^ 64 - 1)
def expertRows : List (Nat × Nat) :=
  [(0x010, 1), (0x300, 2 ^ 64 - 1)] ++ (List.range 64).map (fun k => (0x100 + 8 * k, 2 ^ 64 - 1)) ++
  (List.range 16).map (fun c => (0x600 + 16 * c, 2 ^ 64 - 1)) ++ (List.range 16).map fun c => (0x608 + 16 * c, 2 ^ 41 - 1)
def zeroRows : List (Nat × Nat) :=
  [(0x520, 2 ^ 64 - 1), (0x708, 2 ^ 9 - 1), (0x710, 2 ^ 64 - 1), (0x720, (2 ^ 32 - 1) * 2 ^ 32 + (2 ^ 19 - 1) * 4), (0x800, (2 ^ 12 - 1) * 2 ^ 36 + 1),
   (0x808, 2 ^ 64 - 1), (0x810, 2 ^ 64 - 1), (0x840, 2 ^ 64 - 1)]

/-- A record as it begins (R258): the parsed launch, or nothing, and the status of its rejection. -/
def Begins (s t : State) (fn ctx pri queue addr : Nat) : Prop :=
  let p := s.parseRecord fn ctx addr
  (p.reason = 0 → t.launch s.nextLaunch = { p.launch with pri := pri, queue := queue, order := s.order, script := none } ∧
    (∀ k, k ≠ s.nextLaunch → t.launch k = s.launch k) ∧ t.mem = s.mem) ∧
  (p.reason ≠ 0 → t.launches = s.launches ∧
    match p.done with
    | some d => t.mem = (s.writeCompletion fn ctx d (7 + 256 * p.reason) 0 (List.replicate 32 0)).mem
    | none => t.mem = s.mem)

/-- The launch is complete: its run has left the module, and its block is written; one that a script waits for leaves its status to it. -/
def Completes (s t : State) (lk status reln : Nat) (digest : List Byte) : Prop :=
  let l := s.launch lk
  t.launch lk = (if l.script.isSome then { Launch.none with fn := l.fn, ctx := l.ctx, script := l.script, extra := status } else Launch.none) ∧
  t.agenda = s.agenda ++ (l.script.toList.map fun p => .event (.fragmentComplete p.1 p.2)) ∧ (∀ k, teamLaunch (k / 32) = lk → t.group k = Group.none) ∧ (∀ k, teamLaunch k = lk → t.team k = Team.none) ∧
  (∀ p ∈ t.clusters, p.2.launch ≠ lk) ∧ t.mem = (s.writeCompletion l.fn l.ctx l.r.done status reln digest).mem ∧
  (∀ k, teamLaunch (k / 32) ≠ lk → t.group k = s.group k) ∧ (∀ k, k ≠ lk → t.launch k = s.launch k)

/-- A group at the start of its team (R31, K23): every lane votes at the entry with an empty call stack, every register reads zero but the
arguments. -/
def Fresh (l : Launch) (tk n : Nat) (g : Group) : Prop :=
  g.team = tk ∧ g.grp = n ∧ g.present = true ∧ g.binding = 1 ∧ g.frame = false ∧ g.rcnt = 0 ∧ g.sfcnt = 0 ∧
  (∀ i, i < 32 → g.lane i = { pc := BitVec.ofNat 64 l.r.image, stack := [], standing := 0, cond := .voting, flags := 0 }) ∧
  (∀ r i, g.vreg r i = 0) ∧ (∀ r, r ≠ 0 → g.mreg r = 0) ∧ (∀ r, g.jreg r = 0) ∧ (∀ r, (∀ p ∈ l.argv, p.1 ≠ r) → g.sreg r = 0) ∧
  ((l.argv.map (·.1)).Nodup → ∀ p ∈ l.argv, g.sreg p.1 = p.2)

-- CLOCKS AND THE TIMEBASE (R311 to R318, R282)
/-- The timebase after pitch 0: the exchanges without a reply have failed (R317). -/
def pitchOver (t : Timebase) : Timebase := { t with asked := [], retry := t.retry || t.asked.any (·.first) }

/-- A timebase whose est stands where an exchange has put it: beyond pitch 0 the exchanges of the frame are over. -/
def now (t : Timebase) : Timebase := if t.est.toNat % 250 / 10 = 0 then t else pitchOver t

/-- An interval with centre c and bound b meets that of a timebase (R317): in FAILED only a reacquire takes it; otherwise the two are intersected, and
where they do not meet the timebase enters FAILED with CONFLICT, its exchanges over. -/
def Meets (t u : Timebase) (c b : Int) : Prop :=
  let lo := max ((t.est.toNat : Int) - t.eps) (c - b)
  let hi := min ((t.est.toNat : Int) + t.eps) (c + b)
  let e := (lo + hi) / 2
  (t.state = 3 → t.reacq = false → u = t) ∧
  (t.state = 3 → t.reacq = true → u = now { t with est := BitVec.ofInt 64 c, epsx := b.toNat, tx := BitVec.ofInt 64 c, state := 1, reacq := false
                                                   lastOk := BitVec.ofInt 64 c }) ∧
  (t.state ≠ 3 → lo ≤ hi → u = now { t with est := BitVec.ofInt 64 e, epsx := (hi - e).toNat, tx := BitVec.ofInt 64 e, state := 1
                                            lastOk := BitVec.ofInt 64 e }) ∧
  (t.state ≠ 3 → hi < lo → u = { t with state := 3, reacq := false, conflict := true, asked := [], retry := false })

/-- Telemetry: the event is logged (R347), which may write a record to the log ring, and nothing of a group, a team or a launch changes. -/
def Logged (s t : State) (kind : Nat) : Prop :=
  t.err.st = s.err.st ||| 2 ^ kind ∧ t.err.irqs = s.err.irqs + (if s.err.msk.testBit kind then 0 else 1) ∧ t.groups = s.groups ∧ t.teams = s.teams ∧
  t.launches = s.launches ∧ (s.err.lb = 0 → t.mem = s.mem)

/-- The largest %cyc of a bench-edge region (R313). -/
def edgeMost (s : State) (n : Nat) : Prop := (∃ b ∈ edgeBays, (s.bay b).cyc = n) ∧ ∀ b ∈ edgeBays, (s.bay b).cyc ≤ n

/-- A child asks at a port, or notes the failure (R317). -/
def Asks (s t : State) (p : Nat) (first : Bool) : Prop :=
  if (s.port p).state = 2 ∧ p < 12 then t.tb = { s.tb with asked := s.tb.asked ++ [{ port := p, t1 := s.tb.est, first := first }] } ∧
    Posted s t [((s.port p).peerPkg, .timeAsk s.tb.est 0)]
  else t = { s with tb := { s.tb with retry := s.tb.retry || first } }

/-- The timebase as it enters FAILED (R316). -/
def failed (t : Timebase) : Timebase := { t with state := 3, reacq := false, asked := [], retry := false }

/-- The start of every frame that est has gone into is on the agenda (R317, R318). -/
def FramesBegin (s t : State) : Prop := s.tb.est.toNat / 250 < t.tb.est.toNat / 250 → .event .frameStart ∈ t.agenda

/-- What an entry to FAILED does to the groups: the holds end, and every rdat that waits has failed (R156, R157, R323). -/
def FailsInto (s t : State) : Prop := t.groups = if t.tb.state = 3 ∧ s.tb.state ≠ 3 then s.enterFailed.groups else s.groups

/-- A region at its new code, with the state of the change. -/
def Changed (s : State) (bay code : Nat) (c : Clock) : State := { s.setBay bay { s.bay bay with freq := code } with clock := c }

-- PORTS, STEWARDS, LIFE OF THE MODULE (R11, R12, R284 to R288, R340 to R349, R356 to R364)
/-- The flits of a replay buffer that a sequence number leaves unacknowledged: it and the 511 before it have arrived (R287). -/
def unacked (p : Port) (seq : Nat) : List FlitOut := p.buffer.filter fun f => decide (512 ≤ ((seq : Int) - f.seq) % 4096)

/-- A port after the answer to a flit (R286, R287): an idle flit with a sequence number of its own, which carries a NAK if one is owed; with 512 flits
unacknowledged the answer waits. -/
def idleAfter (p : Port) (nak : Bool) : Port :=
  let n := nak || p.owed == some true
  if 512 ≤ p.buffer.length then { p with owed := some n }
  else { p with
    owed := none, wire := p.wire ++ [{ seq := p.nextSeq, typ := 0, ack := p.lastIn, nak := n, part := none }]
    buffer := p.buffer ++ [{ seq := p.nextSeq, typ := 0, part := none, last := false, tries := 0 }]
    nextSeq := (p.nextSeq + 1) % 4096, sent := (p.sent + 1) % 2 ^ 20
    window := if p.sent + 1 < 2 ^ 20 then p.window else 0, raised := if p.sent + 1 < 2 ^ 20 then p.raised else false }

/-- Every flit of a port's buffer has gone on its link again, in order, which counts as one replay (R287, R288); the first carries the NAK it owed. -/
def SendsAgain (s t : State) (port : Nat) (p : Port) : Prop :=
  (∃ ws, t.port port = { p with
      buffer := p.buffer.map fun f => { f with tries := f.tries + 1 }
      replays := min (p.replays + 1) (2 ^ 32 - 1), window := p.window + 1, wire := p.wire ++ ws, owed := if p.buffer = [] then p.owed else none } ∧
    (ws.map fun f => (f.seq, f.typ, f.part, f.ack)) = (p.buffer.map fun f => (f.seq, f.typ, f.part, p.lastIn)) ∧
    ∀ i f, ws[i]? = some f → f.nak = (i == 0 && p.owed == some true)) ∧
  (∀ k, k ≠ port → t.port k = s.port k) ∧ t.agenda = s.agenda ++ [.event (.replayThreshold port)] ∧ t.mem = s.mem ∧ t.groups = s.groups

/-- A message that a module takes in as it came, to act on in an event of its own. -/
def keptWhole (pkg : Nat) : Msg → Prop
  | .remoteRead .. | .remoteVersion .. | .ckWrite .. | .timeAsk .. | .timeReply .. => False
  | .stampReply _ ok _ => ok = false
  | .numbered _ _ _ _ sender => sender ≠ pkg
  | _ => True

/-- The cores that a mask of a bay names. -/
def Named (bay : Nat) (cores : BitVec 12) (c : Nat) : Prop := ∃ k, k < 12 ∧ cores.getLsbD k = true ∧ c = bayCore bay k

/-- A message of R349: operation, bay, sequence and a payload of up to 56 bytes. -/
def mail (op bay seq : Nat) (payload : List Byte) : List Byte :=
  bytesOf 2 op ++ bytesOf 2 bay ++ bytesOf 4 seq ++ payload ++ List.replicate (56 - payload.length) 0

/-- A bay after a message to the bench, which has the next number of its sequence; it waits behind one that stands in the slot. -/
def mailed (b : Bay) (op bay : Nat) (payload : List Byte) : Bay :=
  if b.ready = true then { b with sent := b.sent + 1, queued := b.queued ++ [mail op bay b.sent payload] }
  else { b with sent := b.sent + 1, outbox := mail op bay b.sent payload, ready := true }

/-- The image of a body in parts (R342, R343): the envelope, the encrypted parts that fit, the tag and the signature; without a dump key the envelope
and the signature. -/
def imageOf (s : State) (q : ImageReq) (all : List (List Byte)) : List Byte × List Byte :=
  let f := s.fn (s.launch q.launch).fn
  let nonce := bytesOf 2 s.pkg ++ bytesOf 2 0 ++ bytesOf 8 q.num
  let signed := fun (b : List Byte) => b ++ signWith imageKey (sha256 b)
  match f.dumpKey with
  | none => (signed (s.envelope q nonce 128 1), s.envelope q nonce 128 1)
  | some key =>
    let kept := fitSections (f.dumpSize - 144) all
    let e := s.envelope q nonce (144 + kept.flatten.length) (if kept.length < all.length then 2 else 0)
    let c := gcmCrypt key nonce kept.flatten
    (signed (e ++ c ++ gcmTag key nonce e c), e)

/-- The image of a bay's request has been written to its slot of the ring; where images are disabled its envelope alone is made (R342). -/
def ImageWritten (s t : State) (bay : Nat) (q : ImageReq) (parts : List (List Byte)) : Prop :=
  let f := s.fn (s.launch q.launch).fn
  let on := f.dumpb ≠ 0 ∧ f.dumpSlots ≠ 0 ∧ f.dumpSize ≠ 0
  t.groups = s.groups ∧ t.teams = s.teams ∧ t.fns = s.fns ∧
  (¬ on → t.mem = s.mem ∧ (t.bay bay).done = some (false, (imageOf s q parts).2)) ∧
  (on → (t.bay bay).done = some (true, (imageOf s q parts).2) ∧
    ∀ u, s.setDevBytes (f.dumpb.toNat + q.slot % f.dumpSlots * f.dumpSize) (imageOf s q parts).1 = some u → t.mem = u.mem)

/-- The module is `s` but for its self-test, its health and its firmware. -/
def OnlyHealth (s t : State) : Prop := { t with health := s.health, fw := s.fw } = s

/-- The image of a firmware bank keeps its form, and its signature verifies (R358). -/
def signedImage (d : List Byte) : Bool :=
  let word := fun (o n : Nat) => ofBytes ((d.drop o).take n)
  word 0 4 == 0x57465844 && ((d.take 64).drop 20).all (· == 0) &&
    verifyWith firmwareKey (sha256 (d.take (64 + word 12 8))) (d.drop (64 + word 12 8))

/-- The SVN of an image. -/
def imageSvn (d : List Byte) : Nat := ofBytes ((d.drop 8).take 4)

/-- The module holds the launches of a checkpoint. -/
def HoldsSaved (t : State) (k : Snap) : Prop := t.groups = k.groups ∧ t.teams = k.teams ∧ t.clusters = k.clusters ∧ t.launches = k.launches

/-- A launch that a function's stop has reached: its first code stands, and its teams perform no further access (R225, R337). -/
def Killed (s t : State) (lk code : Nat) : Prop :=
  (t.launch lk).fatal = some ((s.launch lk).fatal.getD code) ∧
  ∀ p ∈ s.teams, teamLaunch p.1 = lk → (t.team p.1).dead = true ∧ (t.team p.1).stopped = true ∧ (t.team p.1).staging = []

/-- The response of the security block on a function's mailbox (R359), with the state of its session. -/
def Responds (s t : State) (fn : Nat) (st : Spdm) (bs : List Byte) : Prop :=
  t = s.updFn fn fun f => { f with spdm := st, spdmLog := bs :: f.spdmLog }

/-- Algorithms have been agreed. -/
def Agreed (s : State) (fn : Nat) : Prop := (s.fn fn).spdm = .negotiated ∨ (s.fn fn).spdm = .keyed ∨ (s.fn fn).spdm = .secure

-- ENCODING
/-- A form of 64 bits with every field zero. -/
def blank : Form :=
  { len := .l64, e := false, fn := 0, g := 0, gn := false, d := .v 0, dc := false, ds := 0, a := unused, b := unused, c := unused, ty := .i32
    x6 := 0, ext := 0 }


-- ENCODING
-- ONE STEP
-- THE WHOLE MODULE
-- THE STATEMENTS: INTEGERS
/-- R84, R85, R86, R22, R81, R82: each integer instruction of `intRows` completes, writes its result and changes nothing else. -/
def IntegerInstructionsOnNumbers : Prop :=
  ∀ p ∈ intRows, ∀ f, (p.1 f).wellFormed = true → Does (p.1 f) f fun x t =>
    Result x t f.ty 0 fun l => p.2 f.ty.width f.ty.signed (readA x l) (readB x l) (readC x f.ty l)

/-- R84, R86: bsel, dot4 and sad on the four bytes of a lane. -/
def ByteInstructionsWriteTheirResult : Prop :=
  ∀ p ∈ byteRows, ∀ f, (p.1 f).wellFormed = true → Does (p.1 f) f fun x t =>
    Result x t f.ty 0 fun l => p.2 f.ty.width f.ty.signed (readA x l) (readB x l) (readC x f.ty l)

/-- R84: sel, lea, sext and zext; R29: nop. -/
def SelectAddressExtendAndNop : Prop :=
  (∀ f, (Instr.sel f).wellFormed = true → Does (.sel f) f fun x t =>
    Result x t f.ty 0 fun l => (if maskBit (maskOpnd x.seen f.c.op) l then readA x l else readB x l, 0)) ∧
  (∀ f, (Instr.lea f).wellFormed = true → Does (.lea f) f fun x t =>
    Result x t f.ty 0 fun l => (mod2 64 (readA x l + val true 32 (readAs x .i32 f.b l) * (2 ^ f.fn.toNat : Nat)), 0)) ∧
  (∀ f, (Instr.sext f).wellFormed = true → Does (.sext f) f fun x t =>
    Result x t f.ty 0 fun l => (mod2 f.ty.width (val true (8 * 2 ^ f.fn.toNat) (readAs x .n32 f.a l)), 0)) ∧
  (∀ f, (Instr.zext f).wellFormed = true → Does (.zext f) f fun x t =>
    Result x t f.ty 0 fun l => (readAs x .n32 f.a l % 2 ^ (8 * 2 ^ f.fn.toNat), 0)) ∧
  (∀ f, (Instr.nop f).wellFormed = true → Does (.nop f) f fun x t =>
    Passes x t ∧ Keeps (fun _ _ => False) (fun _ => False) (fun _ => False) (fun _ => False) x t ∧
    ∀ l, ((t.group x.gk).lane l).flags = (x.g.lane l).flags)

-- FLOATING
/-- R26, R60, R87, R88: each floating instruction completes with its exact result, scaled, rounded once and clamped, and with
the flags of its operands and of that rounding. -/
def FloatingInstructionsOfF32 : Prop :=
  (∀ p ∈ fpRows, ∀ f, (p.1 f).wellFormed = true → Does (p.1 f) f fun x t =>
    Result x t .f32 (counts x (roundingOf f)) fun l =>
      let u := stoch x (roundingOf f) l 0
      finished .f32 (roundingOf f) u f (p.2 (roundingOf f) u (fpA x l) (fpB x l) (fpC x l))) ∧
  (∀ p ∈ integralRows, ∀ f, (p.1 f).wellFormed = true → Does (p.1 f) f fun x t =>
    Result x t .f32 0 fun l => finished .f32 .rne 0 f (fpIntegral p.2 0 false (fpA x l)))

/-- R87: ldexp by a signed integer, and R89: class against a mask of class bits. -/
def LdexpAndClass : Prop :=
  (∀ f, (Instr.ldexp f).wellFormed = true → Does (.ldexp f) f fun x t =>
    Result x t .f32 (counts x (roundingOf f)) fun l =>
      finished .f32 (roundingOf f) (stoch x (roundingOf f) l 0) f (fpLdexp (fpA x l) (val true 32 (readAs x .i32 f.b l)))) ∧
  (∀ f, (Instr.classF f).wellFormed = true → Does (.classF f) f fun x t =>
    MaskResult x t fun l =>
      let b := if f.b.op = .imm then immZero 32 f else readAs x .n32 f.b l
      ((List.range 10).any fun k => (classBits (BitVec.ofNat 32 (readA x l))).testBit k && b.testBit k, 0))

/-- R63, R90: each element of a packed instruction is computed alone, and its lane gathers the flags of all. -/
def PackedInstructionsOnElements : Prop :=
  ∀ p ∈ packRows, ∀ f, (p.1 f).wellFormed = true → Does (p.1 f) f fun x t =>
    ∃ r : Nat → Nat × Word,
      Result x t f.ty (if (fmtOf f.ty).isSome then counts x (roundingOf f) else 0) r ∧
      ∀ l, maskBit x.act l = true →
        (∀ i, i < 32 / f.ty.width → elemOf f.ty.width i (r l).1 = (packElem x p.2.1 p.2.2 l i).1 % 2 ^ f.ty.width) ∧
        (r l).2 = (List.range (32 / f.ty.width)).foldl (fun a i => a ||| (packElem x p.2.1 p.2.2 l i).2) 0

/-- R91: pdot adds C and the exact products of the elements, and rounds once; an integer pdot wraps modulo 2^32. -/
def PackedDotProduct : Prop :=
  ∀ f, (Instr.pdot f).wellFormed = true → Does (.pdot f) f fun x t =>
    match fmtOf f.ty with
    | some fm => Result x t .f32 (counts x (roundingOf f)) fun l =>
        let es := fun (n : Nat) => (List.range (32 / f.ty.width)).map fun i => fm.read (elemOf f.ty.width i n)
        finished .f32 (roundingOf f) (stoch x (roundingOf f) l 0) f
          (dotExact (roundingOf f) (es (readA x l)) (es (readB x l)) (fpC x l))
    | none => Result x t .n32 0 fun l =>
        let w := f.ty.width
        let sg := f.ty.signed
        (mod2 32 ((List.range (32 / w)).foldl (fun a i => a + val sg w (elemOf w i (readA x l)) * val sg w (elemOf w i (readB x l)))
          (readC x .i32 l : Int)), 0)

-- COMPARES AND MASKS
/-- R92: cmp writes the truth of its condition in the acting lanes of a mask; a NaN makes an f32 condition false but for ne
and un. -/
def CompareWritesAMask : Prop :=
  ∀ f, (Instr.cmp f).wellFormed = true → Does (.cmp f) f fun x t =>
    MaskResult x t fun l =>
      if f.ty = .f32 then (holdsF32 f.fn.toNat (fpA x l) (fpB x l), cmpFlags f.fn.toNat (fpA x l) (fpB x l))
      else (holdsInt f.fn.toNat (val f.ty.signed f.ty.width (readA x l)) (val f.ty.signed f.ty.width (readB x l)), 0)

/-- R93: mand, mor, mxor and mnot lane by lane; mpopc and mffs over the acting lanes; the three forms of vote. -/
def MaskInstructions : Prop :=
  (∀ p ∈ maskRows, ∀ f, (p.1 f).wellFormed = true → Does (p.1 f) f fun x t =>
    MaskResult x t fun l => (p.2 (maskBit (maskOpnd x.seen f.a.op) l) (maskBit (maskOpnd x.seen f.b.op) l), 0)) ∧
  (∀ f, (Instr.mpopc f).wellFormed = true → Does (.mpopc f) f fun x t => UniformResult x t (setLanes x).length) ∧
  (∀ f, (Instr.mffs f).wellFormed = true → Does (.mffs f) f fun x t => UniformResult x t ((setLanes x).headD (2 ^ 64 - 1))) ∧
  (∀ f, (Instr.vote f).wellFormed = true → Does (.vote f) f fun x t =>
    let v := if f.fn = 0 then x.act.toNat * 2 ^ 32 + (maskOpnd x.seen f.a.op &&& x.act).toNat
             else if f.fn = 1 then (if quorum x then 1 else 0) else uniBits x
    if isS f.d then UniformResult x t v else MaskResult x t fun _ => (v.testBit 0, 0))

-- LANES TO LANES
/-- R94 to R96: shfl and bcast read another lane of the issuing path, POISON from a lane that is not on it. -/
def ShuffleAndBroadcast : Prop :=
  (∀ f, (Instr.shfl f).wellFormed = true → Does (.shfl f) f fun x t =>
    Result x t f.ty 0 fun l => (match shflFrom (f.fn.toNat % 4) l (readAs x .n32 f.b l) with
      | some k => supplied x k
      | none => readC x f.ty l, 0)) ∧
  (∀ f, (Instr.bcast f).wellFormed = true → Does (.bcast f) f fun x t =>
    Result x t f.ty 0 fun _ => (supplied x (uniform32 x f.b % 32), 0))

/-- R97, R98: lred reduces each segment by the fixed tree and lscan forms its partial results by the fixed steps; a lane that does
not act gives the identity. -/
def ReductionsByTheFixedTree : Prop :=
  (∀ f, (Instr.lred f).wellFormed = true → Does (.lred f) f fun x t =>
    Result x t f.ty (counts x (redMode f)) fun l =>
      let b := l - l % 2 ^ segLog f
      redOut x b (treeVal (redOp x f.fn.toNat) (redLane x f.fn.toNat) (segLog f) b)) ∧
  (∀ f, (Instr.lscan f).wellFormed = true → Does (.lscan f) f fun x t =>
    Result x t f.ty (counts x (redMode f)) fun l =>
      let op := f.fn.toNat % 8
      let at_ := scanVal (scanOp x op) (redLane x op) (2 ^ segLog f) (segLog f)
      redOut x l (if 8 ≤ f.fn.toNat then (if l % 2 ^ segLog f = 0 then identity f.ty op else (at_ (l - 1)).1) else (at_ l).1, (at_ l).2))

/-- R67 to R70, R100: supd, smrg, sred and sfin on STAT triples; the fourth register of a triple's group is not written. -/
def StatisticsInstructions : Prop :=
  (∀ f, (Instr.supd f).wellFormed = true → Does (.supd f) f fun x t =>
    WideResult x t 3 0 fun l =>
      let r := statUpdate (tripleAt x f.d l) (BitVec.ofNat 32 (readA x l)) (BitVec.ofNat 32 (readB x l))
      (tripleRegs r.1, r.2)) ∧
  (∀ f, (Instr.smrg f).wellFormed = true → Does (.smrg f) f fun x t =>
    WideResult x t 3 0 fun l =>
      let r := statMerge (tripleAt x f.a.op l) (tripleAt x f.b.op l)
      (tripleRegs r.1, r.2)) ∧
  (∀ f, (Instr.sred f).wellFormed = true → Does (.sred f) f fun x t =>
    WideResult x t 3 0 fun l =>
      let r := treeVal (fun _ (a b : Triple × Word) => ((statMerge a.1 b.1).1, a.2 ||| b.2 ||| (statMerge a.1 b.1).2))
        (fun k => (if maskBit x.act k then tripleAt x f.a.op k else emptyTriple, (0 : Word))) (segLog f) (l - l % 2 ^ segLog f)
      (tripleRegs r.1.normal, r.2)) ∧
  (∀ f, (Instr.sfin f).wellFormed = true → Does (.sfin f) f fun x t =>
    WideResult x t 2 0 fun l =>
      let r := statFinal (tripleAt x f.a.op l) (BitVec.ofNat 32 (readB x l))
      (fun i => if i = 0 then r.1.1 else r.1.2, r.2))

-- CONVERSIONS
/-- R101, R102: cvt converts each element of the source registers to an element of the destination registers. -/
def ConversionOfEachElement : Prop :=
  ∀ f, (Instr.cvt f).wellFormed = true → Does (.cvt f) f fun x t =>
    let wd := cvtDstWidth f
    let bits := fun l => (List.range (cvtCount f)).foldl (fun a e => a + (cvtOne x l e).1 % 2 ^ wd * 2 ^ (e * wd)) 0
    let fl := fun l => (List.range (cvtCount f)).foldl (fun a e => a ||| (cvtOne x l e).2) (0 : Word)
    if isV f.d then WideResult x t (cvtRegs (cvtCount f) wd) (counts x (roundingOf f)) fun l =>
        (fun q => BitVec.ofNat 32 (bits l / 2 ^ (32 * q)), fl l)
    else Result x t (if wd = 64 then .n64 else f.ty) (counts x (roundingOf f)) fun l => (bits l, fl l)

/-- R103, R104: mxq quantises the acting lanes as one MX block with one scale, and mxdq gives back scale times element. -/
def MicroscalingInstructions : Prop :=
  (∀ f, (Instr.mxq f).wellFormed = true → Does (.mxq f) f fun x t =>
    let a := fun l => readF32 (BitVec.ofNat 32 (readAs x .f32 f.a l))
    let sc := mxScale (fmtOf f.ty) (((maskLanes x.act).map a).foldl (fun m v => magMax m (mxMag v)) (0, 0))
    Result x t .n32 (counts x (roundingOf f)) fun l =>
      if ((maskLanes x.act).map a).any Fv.isNaN then (0xFF00, if (a l).isSig then flagNV else 0)
      else
        let q := mxQuant (fmtOf f.ty) (roundingOf f) (stoch x (roundingOf f) l 0) sc (a l)
        (q.1 % 256 + 256 * sc, q.2)) ∧
  (∀ f, (Instr.mxdq f).wellFormed = true → Does (.mxdq f) f fun x t =>
    Result x t .n32 0 fun l =>
      let n := readAs x .n32 f.a l
      let v := mxElem (fmtOf f.ty) (n % 2 ^ f.ty.width) (n / 256 % 256)
      if v.isNaN then (0x7FC00000, 0) else roundTo .f32 .rne 0 (exactOf v))

/-- R79, R105: rnd in its raw, uniform and keep forms; it sets no flag. -/
def RandomNumbers : Prop :=
  ∀ f, (Instr.rnd f).wellFormed = true → Does (.rnd f) f fun x t =>
    let v := fun l => (rndValue (BitVec.ofNat 64 (readAs x .n64 f.a l)) (BitVec.ofNat 64 (readAs x .n64 f.b l))).toNat
    if f.fn = 0 then Result x t .n64 0 fun l => (v l, 0)
    else if f.fn = 1 then Result x t .f32 0 fun l => ((roundTo .f32 .rne 0 (.fin false (v l / 2 ^ 40) (-24) false)).1, 0)
    else MaskResult x t fun l => (decide (readC x .n32 l % 2 ^ 24 ≤ v l / 2 ^ 40), 0)

-- SPECIAL FUNCTIONS
/-- R107: sfq hands its request to the queue under the next token number, writes POISON to D and the number to B, and first
retires the token that held the number. -/
def SpecialFunctionRequest : Prop :=
  ∀ f, (Instr.sfq f).wellFormed = true → ∀ s, Clear (.sfq f) f s →
    let x := viewOf (.sfq f) f s
    let n := x.g.sfcnt % 16
    let r := markAll x.i f x.act (retireMask (2 ^ n) x.g)
    awaits (2 ^ n) x.g = false → s.queueUse x.gk + (x.g.tokens.filter (·.num != n)).length < 16 → x.act ≠ 0 →
    ∃ t, exec (.sfq f) s = .next t ∧ Apart x.gk s t ∧
      (∃ tok : Token, (t.group x.gk).tokens = r.tokens ++ [tok] ∧ tok.num = n ∧ tok.fn = f.fn.toNat ∧ tok.dst = f.d ∧
        tok.lanes = x.act ∧ tok.arrived = false) ∧
      (t.group x.gk).sfcnt = x.g.sfcnt + 1 ∧
      (∀ d, f.d = .v d → ∀ l, maskBit x.act l = true → (t.group x.gk).vreg d.toNat l = 0x7FF00BAD#32) ∧
      (∀ d, f.d = .s d → f.b.op ≠ .s d → (t.group x.gk).sreg d.toNat = 0x7FF00BAD#64) ∧
      (∀ b, f.b.op = .s b → (t.group x.gk).sreg b.toNat = BitVec.ofNat 64 n) ∧
      (∀ q l, l < 32 → ¬ (maskBit x.act l = true ∧ inV f.d 1 q) → (t.group x.gk).vreg q l = r.vreg q l) ∧
      (∀ q, ¬ (inS f.d 1 q ∨ inS f.b.op 1 q) → (t.group x.gk).sreg q = r.sreg q) ∧
      (∀ l, ((t.group x.gk).lane l).pc = if maskBit x.path l then x.next else (x.g.lane l).pc)

/-- R108: sfw, once every token it names has its result, retires them in the order of their numbers and passes on. -/
def SpecialFunctionWait : Prop :=
  ∀ f, (Instr.sfw f).wellFormed = true → ∀ s, Clear (.sfw f) f s →
    let x := viewOf (.sfw f) f s
    let names := if f.fn = 2 then 2 ^ 16 - 1
      else let a := if f.a.op = .imm then f.x6.toNat else uniform32 x f.a
           if f.fn = 0 then 2 ^ (a % 16) else a % 2 ^ 16
    awaits names x.g = false →
    ∃ t, exec (.sfw f) s = .next t ∧ Apart x.gk s t ∧
      (∀ q l, l < 32 → (t.group x.gk).vreg q l = (retireMask names x.marked).vreg q l) ∧
      (∀ q, (t.group x.gk).sreg q = (retireMask names x.marked).sreg q) ∧
      (t.group x.gk).tokens = (retireMask names x.marked).tokens ∧
      (∀ l, ((t.group x.gk).lane l) = { (retireMask names x.marked).lane l with
        pc := if maskBit x.path l then x.next else (x.g.lane l).pc })

/-- R107, R108: a retiring token writes its results in the lanes that acted, gathers their flags, leaves the list, and changes
nothing else. -/
def TokenRetires : Prop :=
  ∀ (tok : Token) (g : Group), (∀ l, 32 ≤ l → maskBit tok.lanes l = false) →
    let h := retireToken tok g
    let r := fun l => sfResult tok.fn (mapGet 0 tok.args l)
    (∀ n, tok.dst = .v n → ∀ l, maskBit tok.lanes l = true → h.vreg n.toNat l = (r l).1) ∧
    (∀ q l, l < 32 → ¬ (maskBit tok.lanes l = true ∧ inV tok.dst 1 q) → h.vreg q l = g.vreg q l) ∧
    (∀ q, ¬ inS tok.dst 1 q → h.sreg q = g.sreg q) ∧
    (∀ l, h.lane l = { g.lane l with flags := (g.lane l).flags ||| (if maskBit tok.lanes l then (r l).2 else 0) }) ∧
    h.tokens = g.tokens.filter (fun u => u.num != tok.num) ∧
    { h with v := g.v, s := g.s, lanes := g.lanes, tokens := g.tokens } = g

-- CONTROL
/-- R114, R115, R126: a branch sends each acting lane to its target, and the lanes of the path that do not act to the next instruction; an indirect one whose
targets differ within a bound segment raises LIMB_DIVERGE. -/
def Branches : Prop :=
  (∀ f, (Instr.br f).wellFormed = true → Does (.br f) f fun x t =>
    Turns x t (fun _ => relTo x) (fun l => (x.g.lane l).stack)) ∧
  (∀ f, (Instr.brx f).wellFormed = true → ∀ s, Clear (.brx f) f s → Even (viewOf (.brx f) f s) (regTo (viewOf (.brx f) f s)) →
    ∃ t, exec (.brx f) s = .next t ∧
      Turns (viewOf (.brx f) f s) t (regTo (viewOf (.brx f) f s)) (fun l => ((viewOf (.brx f) f s).g.lane l).stack)) ∧
  (∀ f, (Instr.brx f).wellFormed = true → ∀ s, Clear (.brx f) f s → ¬ Even (viewOf (.brx f) f s) (regTo (viewOf (.brx f) f s)) →
    Traps (.brx f) f s 0x0B (BitVec.ofNat 64 (viewOf (.brx f) f s).g.binding) 0)

/-- R116, R126: call and callx push the address of the next instruction in each acting lane, and ret pops it; a full stack at a call, or an empty one at a ret, in
any acting lane raises CALL_DEPTH before any effect, and targets that differ within a bound segment LIMB_DIVERGE. -/
def CallsAndReturns : Prop :=
  (∀ f, (Instr.call f).wellFormed = true → ∀ s, Clear (.call f) f s →
    let x := viewOf (.call f) f s
    ((∀ l, maskBit x.act l = true → (x.g.lane l).stack.length < 32) →
      ∃ t, exec (.call f) s = .next t ∧ Turns x t (fun _ => relTo x) (fun l => x.next :: (x.g.lane l).stack)) ∧
    (∀ l, maskBit x.act l = true → 32 ≤ (x.g.lane l).stack.length → Traps (.call f) f s 0x18 0 0)) ∧
  (∀ f, (Instr.callx f).wellFormed = true → ∀ s, Clear (.callx f) f s →
    let x := viewOf (.callx f) f s
    ((∀ l, maskBit x.act l = true → (x.g.lane l).stack.length < 32) → Even x (regTo x) →
      ∃ t, exec (.callx f) s = .next t ∧ Turns x t (regTo x) (fun l => x.next :: (x.g.lane l).stack)) ∧
    (∀ l, maskBit x.act l = true → 32 ≤ (x.g.lane l).stack.length → Even x (regTo x) → Traps (.callx f) f s 0x18 0 0) ∧
    (¬ Even x (regTo x) → Traps (.callx f) f s 0x0B (BitVec.ofNat 64 x.g.binding) 0)) ∧
  (∀ f, (Instr.ret f).wellFormed = true → ∀ s, Clear (.ret f) f s →
    let x := viewOf (.ret f) f s
    let top := fun l => (x.g.lane l).stack.head?
    ((∀ l, maskBit x.act l = true → (x.g.lane l).stack ≠ []) → Even x top →
      ∃ t, exec (.ret f) s = .next t ∧
        Turns x t (fun l => (x.g.lane l).stack.headD 0) (fun l => (x.g.lane l).stack.tail)) ∧
    (∀ l, maskBit x.act l = true → (x.g.lane l).stack = [] → Even x top → Traps (.ret f) f s 0x18 0 0) ∧
    (¬ Even x top → Traps (.ret f) f s 0x0B (BitVec.ofNat 64 x.g.binding) 0))

/-- R117: exit ends the acting lanes; they vote no more, their pending special-function results are dropped, and a group with no
live lane is no longer present. No register and no byte of memory changes. -/
def ExitEndsLanes : Prop :=
  ∀ f, (Instr.exit f).wellFormed = true → ∀ s, Clear (.exit f) f s →
    let x := viewOf (.exit f) f s
    ∃ t, exec (.exit f) s = .next t ∧ t.mem = s.mem ∧ t.fns = s.fns ∧ t.launches = s.launches ∧
      (∀ l, maskBit x.act l = true → ((t.group x.gk).lane l).cond = .ended) ∧
      (∀ l, ¬ maskBit x.act l = true → ((t.group x.gk).lane l).cond = .ended → (x.g.lane l).cond = .ended) ∧
      (x.act ≠ 0 → (t.group x.gk).tokens =
        (x.g.tokens.map fun k => { k with lanes := k.lanes &&& ~~~ x.act }).filter fun k => k.lanes != 0) ∧
      (x.act ≠ 0 → (t.group x.gk).live = 0 → (t.group x.gk).present = false) ∧
      (∀ q l, l < 32 → (t.group x.gk).vreg q l = x.marked.vreg q l) ∧ (∀ q, (t.group x.gk).sreg q = x.marked.sreg q)

/-- R120, R121, R126: jset writes the acting lanes' bits of a rejoin mask, and at a join the lanes the mask names park where they are
while the others pass; a mask that differs within a bound segment raises LIMB_DIVERGE. -/
def RejoinMasks : Prop :=
  (∀ f, (Instr.jset f).wellFormed = true → Does (.jset f) f fun x t =>
    Passes x t ∧
    (∀ n, f.d = .j n → ∀ l, l < 32 → maskBit ((t.group x.gk).jreg n.toNat) l =
      if maskBit x.act l then maskBit (maskOpnd x.seen f.a.op) l else maskBit (x.g.jreg n.toNat) l) ∧
    Keeps (fun _ _ => False) (fun _ => False) (fun _ => False) (fun q => ∃ n, f.d = .j n ∧ q = n.toNat) x t) ∧
  (∀ f, (Instr.join f).wellFormed = true → ∀ n, f.a.op = .j n → ∀ s, Clear (.join f) f s →
    let x := viewOf (.join f) f s
    (Even x (fun l => maskBit (x.seen.jreg n.toNat) l) → ∃ t, exec (.join f) s = .next t ∧ Apart x.gk s t ∧ OnlyLanes x t ∧
      LanesTo x t fun l y => if maskBit (x.seen.jreg n.toNat) l then { y with cond := .join n.toNat } else { y with pc := x.next }) ∧
    (¬ Even x (fun l => maskBit (x.seen.jreg n.toNat) l) → Traps (.join f) f s trapLimbDiverge (BitVec.ofNat 64 x.g.binding) 0))

/-- R125: bind and unbind change the binding when the whole group acts, and nothing else; otherwise they raise LIMB_DIVERGE. -/
def Binding : Prop :=
  (∀ f, (Instr.bind f).wellFormed = true → ∀ s, Clear (.bind f) f s →
    let x := viewOf (.bind f) f s
    let n := if f.a.op = .imm then (if f.len = .l64 then f.x6.toNat else mod2 32 (val true 20 f.ext.toNat)) else uniform32 x f.a
    n ∈ [2, 4, 8, 16, 32] →
    (¬ (x.g.live = BitVec.allOnes 32 ∧ x.path = BitVec.allOnes 32 ∧ x.act = BitVec.allOnes 32) →
      Traps (.bind f) f s trapLimbDiverge (BitVec.ofNat 64 x.g.binding) 0) ∧
    (x.g.live = BitVec.allOnes 32 → x.path = BitVec.allOnes 32 → x.act = BitVec.allOnes 32 →
    ∃ t, exec (.bind f) s = .next t ∧ Apart x.gk s t ∧ (t.group x.gk).binding = n ∧ (t.group x.gk).run = x.g.run + 1 ∧
      (∀ l, (t.group x.gk).lane l = { x.g.lane l with pc := if maskBit x.path l then x.next else (x.g.lane l).pc }) ∧
      { t.group x.gk with lanes := x.g.lanes, binding := x.g.binding, run := x.g.run, why := x.g.why, stall := x.g.stall } = x.marked)) ∧
  (∀ f, (Instr.unbind f).wellFormed = true → ∀ s, Clear (.unbind f) f s →
    let x := viewOf (.unbind f) f s
    (¬ (x.g.binding = 1 ∨ (x.act = x.g.live ∧ x.path &&& x.g.live = x.g.live)) →
      Traps (.unbind f) f s trapLimbDiverge (BitVec.ofNat 64 x.g.binding) 0) ∧
    ((x.g.binding = 1 ∨ (x.act = x.g.live ∧ x.path &&& x.g.live = x.g.live)) →
    ∃ t, exec (.unbind f) s = .next t ∧ Apart x.gk s t ∧ (t.group x.gk).binding = 1 ∧ (t.group x.gk).run = x.g.run + 1 ∧
      (∀ l, (t.group x.gk).lane l = { x.g.lane l with pc := if maskBit x.path l then x.next else (x.g.lane l).pc }) ∧
      { t.group x.gk with lanes := x.g.lanes, binding := x.g.binding, run := x.g.run, why := x.g.why, stall := x.g.stall } = x.marked))

-- LIMBS
/-- R128 to R132: each limb instruction writes the exact result of every segment modulo its width, its indicator, and for lmac its
carry word, and passes on; with .t and the indicator of some acting segment 1 it then raises LIMB_OVF, whose detail has a bit for each such segment and whose
resumption is the next instruction. -/
def LimbInstructions : Prop :=
  (∀ p ∈ limbRows, ∀ f, (p.1 f).wellFormed = true → ∀ s, Clear (p.1 f) f s →
    let x := viewOf (p.1 f) f s
    (8 ≤ f.fn.toNat → ∀ b ∈ x.segs, leaves x (p.2 x b) = false) →
    ∃ t, exec (p.1 f) s = .next t ∧ Passes x t ∧ LimbKeeps x t (p.1 f == .lmac f) true ∧
      LimbWritten x (t.group x.gk) (p.1 f == .lmac f) true (p.2 x) (fun b => leaves x (p.2 x b))) ∧
  (∀ p ∈ limbRows, ∀ f, (p.1 f).wellFormed = true → ∀ s, Clear (p.1 f) f s →
    let x := viewOf (p.1 f) f s
    8 ≤ f.fn.toNat → (∃ b ∈ x.segs, leaves x (p.2 x b) = true) →
    ∃ u d, exec (p.1 f) s = .next (u.takeTrap x.gk 0x0C d 0 x.path x.pc x.next) ∧ Passes x u ∧ LimbKeeps x u (p.1 f == .lmac f) true ∧
      LimbWritten x (u.group x.gk) (p.1 f == .lmac f) true (p.2 x) (fun b => leaves x (p.2 x b)) ∧
      ∀ i, i < 64 → (d.getLsbD i = true ↔ i * x.g.binding ∈ x.segs ∧ leaves x (p.2 x (i * x.g.binding)) = true)) ∧
  (∀ f, (Instr.lshr f).wellFormed = true → Does (.lshr f) f fun x t =>
    Passes x t ∧ LimbKeeps x t false true ∧
    LimbWritten x (t.group x.gk) false true (fun b => limbVal x f.a b / (2 ^ limbCount x b : Nat))
      (fun b => decide (mod2 x.limbBits (limbVal x f.a b) % 2 ^ limbCount x b ≠ 0))) ∧
  (∀ f, (Instr.lmov f).wellFormed = true → Does (.lmov f) f fun x t =>
    Passes x t ∧ LimbKeeps x t false false ∧ LimbWritten x (t.group x.gk) false false (fun b => limbVal x f.a b) (fun _ => false)) ∧
  (∀ f, (Instr.lcmp f).wellFormed = true → Does (.lcmp f) f fun x t =>
    MaskResult x t fun l => (x.segs.any fun b => maskBit (segmentOf x.g.binding b) l &&
      holdsInt f.fn.toNat (limbVal x f.a b) (limbVal x f.b b), 0))

-- MEMORY INSTRUCTIONS
/-- R138: the outcome of an access. Where every lane passes, each byte has its place; a trap is that of the first check, in the
order of the rule, that any lane fails, and of the lowest lane that fails it. -/
def AccessChecksInTheirOrder : Prop :=
  ∀ s g acc eas,
    (∀ ls, accessAll s g acc eas = .locs ls → ls.map (fun c => (c.lane, c.ea)) = eas ∧
      ∀ c ∈ ls, (∀ st code, ¬ Fails s g acc c.ea st code) ∧ c.places.length = (elemSpan acc.bits c.ea).2.1 ∧
        ∀ i p, c.places[i]? = some p → placeByte s g acc (swizzle acc.sw ((elemSpan acc.bits c.ea).1 + i)) = .ok p) ∧
    (∀ code arg lane, accessAll s g acc eas = .trap code arg lane → code ≠ trapPageFault ∧
      ∃ ea st, (lane, ea) ∈ eas ∧ Fails s g acc ea st code ∧
        ∀ l a st' code', (l, a) ∈ eas → Fails s g acc a st' code' → st < st' ∨ (st = st' ∧ lane ≤ l))

/-- R28: a swizzle pattern moves bytes within 128 only, never within a word, and no two addresses to one. -/
def SwizzlePermutes : Prop :=
  ∀ k a b, swizzle k a / 128 = a / 128 ∧ swizzle k a % 4 = a % 4 ∧ (swizzle k a = swizzle k b → a = b)

/-- R142, R143: st and sct put their writes at the end of the group's FIFO; nothing else changes, and no byte of memory until they
are applied. -/
def StoresOfTheLanes : Prop :=
  (∀ f, (Instr.st f).wellFormed = true → ∀ s, Clear (.st f) f s →
    let x := viewOf (.st f) f s
    ∀ ls, Finds x (accFor x f.ty.width true false) (accesses x) 2 false ls →
    RoomFor x (ls.length * stagedSize (f.ty.width / 8 + 1)) →
    ∃ t, exec (.st f) s = .next t ∧
      Leaves x t s (x.g.addStores
          (storeEntries x (f.ext.toNat / 2 ^ 62 % 4) (x.scope f.fn.toNat) ls (ls.map fun c => laneBytes f.ty.width c (rawOpnd x f.ty f.d c.lane))))
        (fun l y => x.on l y) ∧ KeepsAll x t) ∧
  (∀ f, (Instr.sct f).wellFormed = true → ∀ s, Clear (.sct f) f s →
    let x := viewOf (.sct f) f s
    ∀ w is ls, Indexed x w is → Finds x (accFor x f.ty.width true false) (elements x is) (if f.fn = 0 then 2 else 3) false ls →
    RoomFor x (ls.length * stagedSize (f.ty.width / 8 + 1)) →
    ∃ t, exec (.sct f) s = .next t ∧
      Leaves x t w (x.g.addStores
          (storeEntries x (f.ext.toNat / 2 ^ 62 % 4) 0 ls (ls.map fun c => laneBytes f.ty.width c (rawOpnd x f.ty f.d c.lane))))
        (fun l y => x.on l (flagsOver x is l y)) ∧ KeepsAll x t)

/-- R142, R220: of the lanes of one store that write a bit the highest-numbered keeps it, and gathering the writes of a word or of
a granule into one, and cutting one that straddles two words, lose none of them (R219, R340). -/
def HighestLaneKeepsABit : Prop :=
  (∀ (ws : List (List ByteWrite)) (i : Nat) (w : List ByteWrite) (p : Place), ws[i]? = some w →
    enabledAt [(resolveLanes ws).getD i []] p = enabledAt [w] p &&& ~~~ enabledAt (ws.drop (i + 1)) p) ∧
  (∀ (ws : List (List ByteWrite)) (b : ByteWrite), b ∈ (gatherLanes ws).flatten ↔ b ∈ ws.flatten) ∧
  (∀ (bits : Nat) (w : List ByteWrite) (b : ByteWrite), b ∈ (wordWrites bits w).flatten ↔ b ∈ w)

-- FENCES, LINES, BARRIERS, TIME
/-- R148, R149: a fence passes once the named accesses are performed at its scope, and a wcnt once the named counts are at most n;
until then they wait and change nothing. -/
def FencesAndWaitCounts : Prop :=
  (∀ f, (Instr.fence f).wellFormed = true → ∀ s, Clear (.fence f) f s →
    let x := viewOf (.fence f) f s
    x.act ≠ 0 →
    (Performed x f.x6.toNat f.fn.toNat → ∃ t, exec (.fence f) s = .next t ∧ Leaves x t s x.g (fun l y => x.on l y) ∧ KeepsAll x t) ∧
    (¬ Performed x f.x6.toNat f.fn.toNat → ∃ t, exec (.fence f) s = .next t ∧ Waits x t s .drain)) ∧
  (∀ f, (Instr.wcnt f).wellFormed = true → ∀ s, Clear (.wcnt f) f s →
    let x := viewOf (.wcnt f) f s
    x.act ≠ 0 →
    ((∀ i, i < 4 → f.fn.toNat.testBit i = true → (s.counts x.gk).getD i 0 ≤ limitOf x) →
      ∃ t, exec (.wcnt f) s = .next t ∧ Leaves x t s x.g (fun l y => x.on l y) ∧ KeepsAll x t) ∧
    (∀ i, i < 4 → f.fn.toNat.testBit i = true → limitOf x < (s.counts x.gk).getD i 0 →
      ∃ t, exec (.wcnt f) s = .next t ∧ Waits x t s .count))

/-- R139, R140, R147, R277: a load waits while a line it reads is empty, while a wider acquire that holds it back is outstanding (which
ones hold back a plain load of device memory is log entry 7), and while its count is 63; a page that no buffer holds starts its
walk. -/
def LoadsWait : Prop :=
  ∀ f, (Instr.ld f).wellFormed = true → ∀ s, Clear (.ld f) f s →
    let x := viewOf (.ld f) f s
    x.act ≠ 0 →
    (∀ ls, accessAll s x.g (accFor x f.ty.width false false) (accesses x) = .locs ls →
      (x.g.stores.any (fun e => touchesLine e (linesOf (allPlaces ls))) = true →
        ∃ t, exec (.ld f) s = .next t ∧ Waits x t s .drain) ∧
      (x.g.stores.any (fun e => touchesLine e (linesOf (allPlaces ls))) = false →
        s.emptyLines (linesOf (allPlaces ls)) ≠ [] →
        ∃ t, exec (.ld f) s = .next t ∧ Waits x t s (.empty (inCw x) (s.emptyLines (linesOf (allPlaces ls))))) ∧
      (x.g.stores.any (fun e => touchesLine e (linesOf (allPlaces ls))) = false →
        s.emptyLines (linesOf (allPlaces ls)) = [] →
        (HeldBack x ls → ∃ t, exec (.ld f) s = .next t ∧ Waits x t s .drain) ∧
        (¬ HeldBack x ls → 63 ≤ (s.counts x.gk).getD 0 0 → ∃ t, exec (.ld f) s = .next t ∧ Waits x t s .count))) ∧
    (∀ pages, accessAll s x.g (accFor x f.ty.width false false) (accesses x) = .miss pages →
      ∃ t, exec (.ld f) s = .next t ∧
        Waits x t (pages.foldl (fun s p => s.joinWalk (s.launchOf (s.group x.gk)).ctxKey p 1 x.gk x.path) s) .walk) ∧
    (∀ code arg lane, accessAll s x.g (accFor x f.ty.width false false) (accesses x) = .trap code arg lane →
      Traps (.ld f) f s code (BitVec.ofNat 64 arg) lane)

/-- R150: fset sends one change for each addressed line down the group's FIFO; ftest writes whether each acting lane's line is
full. -/
def FullEmptyBits : Prop :=
  (∀ f, (Instr.fset f).wellFormed = true → ∀ s, Clear (.fset f) f s →
    let x := viewOf (.fset f) f s
    ∀ ls, x.act ≠ 0 → accessAll s x.g { accFor x 32 true false with kind := 1 } (actingAt x) = .locs ls → x.g.acquiring = false →
    s.countsAtMost x.gk 2 62 = true → x.g.stores.any (fun e => touchesLine e (linesOf (allPlaces ls))) = false →
    ∃ t, exec (.fset f) s = .next t ∧
      Leaves x t s (x.g.addStores ((linesOf (allPlaces ls)).map fun p => lineEntry x (.fset (f.fn == 1) p.1 p.2)))
        (fun l y => x.on l y) ∧ KeepsAll x t) ∧
  (∀ f, (Instr.ftest f).wellFormed = true → ∀ s, Clear (.ftest f) f s →
    let x := viewOf (.ftest f) f s
    ∀ ls, Finds x (accFor x 32 false false) (actingAt x) 1 false ls → x.g.loadsFrom (linesOf (allPlaces ls)) = false →
    ∃ t, exec (.ftest f) s = .next t ∧
      MaskResult x t fun l => (ls.all fun c => c.lane != l || (s.emptyLines (linesOf c.places)).isEmpty, 0))

/-- R153, R207, R210: bar.arrive records the acting lanes, returns the phase and settles the line; bar.sync records them and parks
them at the line; a lane recorded before raises BARRIER_CLOBBER and a 17th open line BARRIER_LIMIT. -/
def BarrierArrivals : Prop :=
  (∀ f, (Instr.barArrive f).wellFormed = true → ∀ s, Clear (.barArrive f) f s →
    let x := viewOf (.barArrive f) f s
    ∀ tm line b, x.act ≠ 0 → AtLine x tm line → Drained x → s.barLine tm (128 * line) = some b →
    let r := recordAt x (inCw x) tm (128 * line) b
    MayArrive x r →
    exec (.barArrive f) s = .next (finish x (.done (((x.put (phaseTo x b)).putRec x.g.team
      (withArrival x r)).settleLine x.g.team (inCw x) tm (128 * line))))) ∧
  (∀ f, (Instr.barSync f).wellFormed = true → ∀ s, Clear (.barSync f) f s →
    let x := viewOf (.barSync f) f s
    ∀ tm line b, x.act ≠ 0 → AtLine x tm line → Drained x → s.barLine tm (128 * line) = some b →
    let r := recordAt x (inCw x) tm (128 * line) b
    (MayArrive x r →
      exec (.barSync f) s = .next (finish x (.jump (((x.put (x.marked.parkAt x.act (inCw x) tm (128 * line) b.phase (deadline x) x.next)).putRec
        x.g.team (withArrival x r)).settleLine x.g.team (inCw x) tm (128 * line)) false))) ∧
    (mapGet 0 r.masks x.g.grp &&& x.act ≠ 0 →
      Traps (.barSync f) f s trapBarrierClobber (BitVec.ofNat 64 (addrOf x x.low / 128 * 128)) 0) ∧
    (mapGet 0 r.masks x.g.grp &&& x.act = 0 → (∀ p ∈ r.masks, p.2 = 0) → 16 ≤ s.openLines x.g.team →
      Traps (.barSync f) f s trapBarrierLimit (BitVec.ofNat 64 (addrOf x x.low / 128 * 128)) 0))

/-- R153: bar.wait parks the acting lanes while the line's phase is sk, with their program counters at the next instruction, and
passes otherwise. -/
def BarrierWaits : Prop :=
  ∀ f, (Instr.barWait f).wellFormed = true → ∀ s, Clear (.barWait f) f s →
    let x := viewOf (.barWait f) f s
    ∀ tm line b, x.act ≠ 0 → AtLine x tm line → Drained x → s.barLine tm (128 * line) = some b →
    ∃ t, exec (.barWait f) s = .next t ∧ KeepsAll x t ∧
      Leaves x t s x.g (fun l y => if maskBit x.act l ∧ b.phase = lowWord x f.d
        then { y with pc := x.next, cond := .barrier (inCw x) tm (128 * line) b.phase (deadline x) } else x.on l y)

/-- R209: a team barrier's phase completes exactly when the arrivals and the groups that ended without arriving reach the
expected count: the line takes the next phase with no arrival, and every lane parked at it for the phase that ends, and no other, votes
again, undemoted. -/
def BarrierPhases : Prop :=
  ∀ (s : State) (tm off : Nat) (b : BarLine), s.barLine tm off = some b → (∀ k ∈ b.arrived, k < 32) → (s.launch (teamLaunch tm)).r.groups ≤ 32 →
    let gone := ((List.range (s.launch (teamLaunch tm)).r.groups).filter fun k =>
      !(s.group (groupKey tm k)).present && !b.arrived.contains k).length
    (¬ (1 ≤ b.arrivals.toNat ∧ b.expected.toNat ≤ b.arrivals.toNat + gone) → s.testLine tm off = s) ∧
    (1 ≤ b.arrivals.toNat → b.expected.toNat ≤ b.arrivals.toNat + gone →
      let t := s.testLine tm off
      t.barLine tm off = some { b with arrivals := 0, phase := b.phase + 1, arrived := [] } ∧
      (∀ k, k < (s.launch (teamLaunch tm)).r.groups → ∀ l p u, l < 32 →
        ((s.group (groupKey tm k)).lane l).cond = .barrier false tm off p u →
        (p = b.phase → (t.group (groupKey tm k)).lane l = { (s.group (groupKey tm k)).lane l with cond := .voting, standing := 0 }) ∧
        (p ≠ b.phase → ((t.group (groupKey tm k)).lane l).cond = .barrier false tm off p u)) ∧
      t.mem = s.mem ∧ (∀ g, (∀ k, k < (s.launch (teamLaunch tm)).r.groups → g ≠ groupKey tm k) → t.group g = s.group g))

/-- R152, R223: bline.init and bline.clr send their change of the line down the group's FIFO; a line with arrivals raises
BARRIER_CLOBBER, and so does bline.init with a count of 0 or on an empty line. -/
def BarrierLines : Prop :=
  ∀ p ∈ [((.blineInit : Form → Instr), true), (.blineClr, false)], ∀ f, (p.1 f).wellFormed = true → ∀ s, Clear (p.1 f) f s →
    let x := viewOf (p.1 f) f s
    ∀ tm line, x.act ≠ 0 → AtLine x tm line → x.g.acquiring = false → s.countsAtMost x.gk 2 62 = true →
    x.g.stores.any (fun e => touchesLine e [(tm, line)]) = false →
    let bad := (∃ b, s.barLine tm (128 * line) = some b ∧ b.arrivals ≠ 0) ∨
      (p.2 = true ∧ (lowWord x f.d = 0 ∨ (s.team tm).isEmpty line = true))
    (bad → Traps (p.1 f) f s trapBarrierClobber (BitVec.ofNat 64 (addrOf x x.low / 128 * 128)) 0) ∧
    (¬ bad → ∃ t, exec (p.1 f) s = .next t ∧
      Leaves x t s (x.g.addStores [lineEntry x (.bline p.2 tm line (lowWord x f.d))]) (fun l y => x.on l y) ∧ KeepsAll x t)

/-- R154, R320: tnow writes the pod-time interval to its register pair and to the group's interval. -/
def PodTimeInterval : Prop :=
  ∀ f, (Instr.tnow f).wellFormed = true → ∀ s, Clear (.tnow f) f s →
    let x := viewOf (.tnow f) f s
    let lo := BitVec.ofNat 64 s.tb.earliest
    let hi := BitVec.ofNat 64 s.tb.latest
    x.act ≠ 0 →
    ∃ t, exec (.tnow f) s = .next t ∧ Leaves x t s { x.g with tlo := lo, thi := hi } (fun l y => x.on l y) ∧
      (∀ n, f.d = .s n → (t.group x.gk).sreg n.toNat = lo ∧ (t.group x.gk).sreg (n.toNat + 1) = hi) ∧
      KeepsBut (fun _ _ => False) (fun q => inS f.d 2 q) x t

/-- R156: stst publishes a version stamped with latest, leaves on the stamped path and holds its group; in FAILED it raises TIME_FAIL,
and with eps beyond EPSLIM TIME_EPS. -/
def StampedStore : Prop :=
  ∀ f, (Instr.stst f).wellFormed = true → ∀ s, Clear (.stst f) f s →
    let x := viewOf (.stst f) f s
    ∀ home, x.act ≠ 0 → StampedAt x true home → x.g.acquiring = false → s.countsAtMost x.gk 2 62 = true →
    (s.tb.state = 3 → Traps (.stst f) f s trapTimeFail 0 0) ∧
    (s.tb.state ≠ 3 → s.tb.epslim < s.tb.eps → Traps (.stst f) f s trapTimeEps (BitVec.ofNat 64 s.tb.eps) 0) ∧
    (s.tb.state ≠ 3 → s.tb.eps ≤ s.tb.epslim → (s.ck.busy = true → s.tb.latest ≤ s.ck.t.toNat) →
      let st : DWord := BitVec.ofNat 64 s.tb.latest
      ∃ t, exec (.stst f) s = .next t ∧ KeepsAll x t ∧
        Leaves x t (withPending s { pendingOf x 4 st.toNat 0 (versionVa x) [] [] with replied := false })
          { x.g.addStores [{ lineEntry x (.fabric s.nextId (versionLetter x home)) with path := .stamped, va := (versionVa x).toNat, ty := f.ty }]
            with tlo := BitVec.ofNat 64 s.tb.earliest, thi := st, hold := some st }
          (fun l y => x.on l y))

/-- R157: rdat leaves its lanes at the instruction and lets its group wait for t + D; a time above 2^63 raises ACCESS, and FAILED
TIME_FAIL. -/
def StampedRead : Prop :=
  ∀ f, (Instr.rdat f).wellFormed = true → ∀ s, Clear (.rdat f) f s →
    let x := viewOf (.rdat f) f s
    ∀ home k, x.act ≠ 0 → f.a.op = .s k → StampedAt x false home → x.g.acquiring = false → s.countsAtMost x.gk 1 62 = true →
    let tm := x.sval (k.toNat + 1)
    (2 ^ 63 < tm.toNat → Traps (.rdat f) f s trapAccess (BitVec.ofNat 64 ((accesses x).headD (0, 0)).2) 0) ∧
    (tm.toNat ≤ 2 ^ 63 → s.tb.state = 3 → Traps (.rdat f) f s trapTimeFail 0 0) ∧
    (tm.toNat ≤ 2 ^ 63 → s.tb.state ≠ 3 →
      let r : RdatWait := { lanes := x.act, path := x.path &&& x.g.live, pc := x.pc, t := tm, line := versionVa x, home := home.map (· * 64),
                            offs := (accesses x).map fun p => (p.1, (laneAddrs x p.2).map (· % 64)), dst := f.d, ty := f.ty,
                            sreg := k.toNat, sent := false, failed := false, seq := x.g.seq + 1 }
      ∃ t, exec (.rdat f) s = .next t ∧ KeepsAll x t ∧
        Leaves x t s { x.g with seq := x.g.seq + 1, rdat := some r } (fun l y => if maskBit x.act l then y else x.on l y))

-- MULTICAST, WAIT AND WAKE
/-- R162, R163: waitv sleeps on its key where the word has the expected value and passes where it does not; wake wakes the first
groups that sleep on the key and returns how many, and an address of 2^57 or more raises ACCESS. Neither writes memory. -/
def WaitAndWake : Prop :=
  (∀ f, (Instr.waitv f).wellFormed = true → ∀ s, Clear (.waitv f) f s →
    let x := viewOf (.waitv f) f s
    ∀ ls n, x.act ≠ 0 → f.d = .s n →
    accessAll s x.g { space := 2, bits := f.ty.width, sw := f.ext.toNat / 2 ^ 56 % 8, write := false, atomic := false, stamped := false, kind := 1 }
      [(x.low, wordAt x)] = .locs ls →
    x.g.acquiring = false → s.countsAtMost x.gk 1 62 = true → x.g.inFlight (allPlaces ls) = false → s.badRead (allPlaces ls) = none →
    let r := s.readPlaces (s.shadow x.g) (allPlaces ls)
    let w := r.1
    ∃ t, exec (.waitv f) s = .next t ∧ KeepsAll x t ∧
      if ofBytes r.2 = (x.sval n.toNat).toNat % 2 ^ f.ty.width ∧ s.wakeRoom (keyOf x) = true then
        Leaves x t { w with order := s.order + 1, sleepers := s.sleepers ++ [{ key := keyOf x, grp := x.gk, lanes := x.act, order := s.order }] }
          x.g (fun l y => if maskBit x.act l then { y with pc := x.next, cond := .waitv (keyOf x) (s.groupCyc x.g + waitFor x) } else x.on l y)
      else Leaves x t w x.g (fun l y => x.on l y)) ∧
  (∀ f, (Instr.wake f).wellFormed = true → ∀ s, Clear (.wake f) f s →
    let x := viewOf (.wake f) f s
    (x.act ≠ 0 → 2 ^ 57 ≤ wordAt x → Traps (.wake f) f s trapAccess (BitVec.ofNat 64 (wordAt x)) x.low) ∧
    ∀ n, x.act ≠ 0 → f.d = .s n → wordAt x < 2 ^ 57 → x.g.acquiring = false → Performed x 15 4 →
    let gs := asleepOn s (keyOf x) ((x.sval n.toNat).toNat % 2 ^ 32)
    ∃ t, exec (.wake f) s = .next t ∧ (t.group x.gk).sreg n.toNat = BitVec.ofNat 64 gs.length ∧
      (∀ k ∈ gs, k ≠ x.gk → Woken (keyOf x) (s.group k) (t.group k)) ∧ (∀ k, k ∉ gs → k ≠ x.gk → t.group k = s.group k) ∧
      { t with groups := s.groups, cur := s.cur, sleepers := s.sleepers } = s ∧
      t.sleepers = s.sleepers.filter (fun p => !(p.key == keyOf x && gs.contains p.grp)) ∧
      KeepsBut (fun _ _ => False) (fun q => q = n.toNat) x t)

/-- R162, R272, R283: the host's WAKEN wakes sleepers on the key of WAKEA and reads their number; lanes whose limit has come leave
their entry. -/
def WakesFromOutside : Prop :=
  (∀ fn val s,
    let key := (16 * fn + (s.fn fn).wakea.toNat / 2 ^ 60 % 16) * 2 ^ 64 + (s.fn fn).wakea.toNat % 2 ^ 57
    let gs := asleepOn s key (val.toNat % 2 ^ 32)
    s.present fn = true →
    ∃ t, exec (.waken fn val) s = .next t ∧ (t.fn fn).waken = BitVec.ofNat 32 gs.length ∧
      { t with fns := s.fns, groups := s.groups, sleepers := s.sleepers } = s ∧
      (∀ k ∈ gs, Woken key (s.group k) (t.group k)) ∧ (∀ k, k ∉ gs → t.group k = s.group k) ∧
      t.sleepers = s.sleepers.filter (fun p => !(p.key == key && gs.contains p.grp))) ∧
  (∀ gk s, (s.teamOf (s.group gk)).stopped = false →
    ∃ t, exec (.waitvTimeout gk) s = .next t ∧ { t with groups := s.groups, sleepers := s.sleepers } = s ∧
      (∀ k, k ≠ gk → t.group k = s.group k) ∧
      (∀ l, l < 32 → (t.group gk).lane l = match ((s.group gk).lane l).cond with
        | .waitv _ c => if c ≤ s.groupCyc (s.group gk) then { (s.group gk).lane l with cond := .voting } else (s.group gk).lane l
        | _ => (s.group gk).lane l) ∧
      ∀ p ∈ t.sleepers, p.grp = gk → p.lanes ≠ 0 ∧ ∀ l, maskBit p.lanes l = true → ∀ k c,
        ((s.group gk).lane l).cond = .waitv k c → s.groupCyc (s.group gk) < c)

-- TENSOR SLOTS
-- COPIES
/-- R168 to R173: copy, copy.mc and copy.gcm enter the copy engine with their words, and mark the lines of their destinations
empty at issue; no byte moves before a unit is filled. -/
def CopiesEnter : Prop :=
  (∀ f, (Instr.copy f).wellFormed = true → ∀ s, Clear (.copy f) f s →
    let x := viewOf (.copy f) f s
    let q := quadOf x f.d
    let dest := baseOf x
    ∀ ss ds, x.act ≠ 0 → QuadOk x dest → q.sel = 0 → Located x (wordAcc q.ssp q.ssw false) (blockWords q.src q.sstr q.len q.rows) ss →
    Located x (wordAcc (f.ext.toNat / 2 ^ 62 % 4) (f.ext.toNat / 2 ^ 56 % 8) true) (blockWords dest q.dstr q.len q.rows) ds →
    x.g.acquiring = false → s.countsAtMost x.gk 4 62 = true → MarksDone x ds → SourceReady x ss → Staged x = false →
    ∃ t, exec (.copy f) s = .next t ∧ CopyEnters x t (unitsOf (q.len / 4) ds ss (stampedValue s)) none) ∧
  (∀ f, (Instr.copyMc f).wellFormed = true → ∀ s, Clear (.copyMc f) f s →
    let x := viewOf (.copyMc f) f s
    let q := quadOf x f.d
    let dest := baseOf x
    let ranks := (List.range 12).filter fun r => q.sel.testBit r
    ∀ ss (dss : List (List Loc)), x.act ≠ 0 → QuadOk x dest → q.sel ≠ 0 → (∀ r ∈ ranks, r < (s.launchOf x.g).size) →
    Located x (wordAcc q.ssp q.ssw false) (blockWords q.src q.sstr q.len q.rows) ss → dss.length = ranks.length →
    (∀ (i r : Nat) (ds : List Loc), ranks[i]? = some r → dss[i]? = some ds →
      Located x (wordAcc (f.ext.toNat / 2 ^ 62 % 4) (f.ext.toNat / 2 ^ 56 % 8) true)
        (blockWords (rankAddr s x.g r (dest % 2 ^ 21)) q.dstr q.len q.rows) ds) →
    x.g.acquiring = false → s.countsAtMost x.gk 4 62 = true → MarksDone x dss.flatten → SourceReady x ss → Staged x = false →
    ∃ t, exec (.copyMc f) s = .next t ∧
      CopyEnters x t ((dss.map fun ds => unitsOf (q.len / 4) ds ss (stampedValue s)).flatten) none) ∧
  (∀ f, (Instr.copyGcm f).wellFormed = true → ∀ s, Clear (.copyGcm f) f s →
    let x := viewOf (.copyGcm f) f s
    let q := quadOf x f.d
    let dest := baseOf x
    ∀ ss ds, x.act ≠ 0 → q.bad = false → q.ssp = 2 → q.rows = 1 → q.len ≤ 2 ^ 20 →
    ((s.ctx (s.launchOf x.g).ctxKey).stream q.sel).isSome = true → q.src % 4 = 0 → dest % 4 = 0 →
    Located x (wordAcc 2 q.ssw false) (blockWords q.src 0 (q.len + 16) 1) ss →
    Located x (wordAcc (f.ext.toNat / 2 ^ 62 % 4) (f.ext.toNat / 2 ^ 56 % 8) true) (blockWords dest 0 (q.len + 16) 1) ds →
    x.g.acquiring = false → s.countsAtMost x.gk 4 62 = true → MarksDone x ds →
    ∃ t, exec (.copyGcm f) s = .next t ∧
      CopyEnters x t (unitsOf (q.len / 4 + 4) ds ds (fun _ => some 0))
        (some { ctx := (s.launchOf x.g).ctxKey, stream := q.sel, ctr := BitVec.ofNat 64 q.w2, src := allPlaces ss, dst := allPlaces ds, text := none }))

/-- R170: the units of a copy hold every byte of the block with the byte it comes from, and nothing else; a unit in a vault holds
bytes of one line. -/
def UnitsOfACopy : Prop :=
  ∀ per ds ss val,
    (∀ w, w ∈ ((unitsOf per ds ss val).map (·.words)).flatten ↔
      ∃ p ∈ List.zip ds ss, ∃ b ∈ List.zip p.1.places p.2.places, w = (b.1, b.2, val b.2)) ∧
    ((∀ d ∈ ds, ∀ p ∈ d.places, ∀ q ∈ d.places, unitKey 0 p = unitKey 0 q) →
      ∀ u ∈ unitsOf per ds ss val, ∀ tm, u.team = some tm → ∀ w ∈ u.words, ∃ o, w.1 = .vault tm o ∧ o / 128 = u.line)

/-- R264: a copy to g of a deterministic launch is staged whole, a record for each row, and moves nothing before its release. -/
def StagedCopy : Prop :=
  ∀ f, (Instr.copy f).wellFormed = true → ∀ s, Clear (.copy f) f s →
    let x := viewOf (.copy f) f s
    let q := quadOf x f.d
    let dest := baseOf x
    ∀ ss ds, x.act ≠ 0 → QuadOk x dest → q.sel = 0 → Located x (wordAcc q.ssp q.ssw false) (blockWords q.src q.sstr q.len q.rows) ss →
    Located x (wordAcc (f.ext.toNat / 2 ^ 62 % 4) (f.ext.toNat / 2 ^ 56 % 8) true) (blockWords dest q.dstr q.len q.rows) ds →
    x.g.acquiring = false → s.countsAtMost x.gk 4 62 = true → MarksDone x (ss ++ ds) → Staged x = true →
    s.writesDue x.gk (x.g.seq + 1) (allPlaces ss) = false → s.unboundBefore x.gk (x.g.seq + 1) = false →
    x.g.stores.any (·.path == .g) = false → s.drainsBefore x.gk (x.g.seq + 1) = false →
    RoomFor x (q.rows * (32 + (q.len + 15) / 16 * 16)) →
    s.badRead (allPlaces ss) = none → (∀ p ∈ allPlaces ss, ∀ fn o, p ≠ .page fn o) →
    let bytes := (allPlaces ss).map (s.byteFor x.g)
    ∃ t recs, exec (.copy f) s = .next t ∧ KeepsAll x t ∧ recs.length = q.rows ∧
      Leaves x t (s.setTeam x.g.team { s.team x.g.team with staging := (s.team x.g.team).staging ++ recs }) x.g (fun l y => x.on l y) ∧
      ∀ i (r : Record), recs[i]? = some r → r.data = (bytes.drop (i * q.len)).take q.len ∧ r.va = swizzle (f.ext.toNat / 2 ^ 56 % 8) ((dest + i * q.dstr) % 2 ^ 64) ∧
        r.kind = 1 ∧ r.grp = x.g.grp ∧ r.seq = x.g.seq + 1 ∧ r.pc = x.pc

-- TILES
/-- R175, R212: a tile instruction that does not act in all lanes raises MATRIX_PARTIAL with its acting lanes and has no effect. -/
def TileInstructionsNeedEveryLane : Prop :=
  ∀ p ∈ [.azero, .aload, .adrain, .aread] ++ mmRows.map (·.1), ∀ f, ∀ s, Clear (p f) f s →
    (viewOf (p f) f s).act ≠ BitVec.allOnes 32 →
    Traps (p f) f s trapMatrixPartial (BitVec.ofNat 64 (viewOf (p f) f s).act.toNat) 0

/-- R175 to R178, R181, R183: azero, aload, adrain and the eight matrix operations enter their team's queue, in the order of their
issue; all but adrain raise their tile's issue count. No tile and no byte of memory changes before the entry is performed. -/
def TileInstructionsEnterTheQueue : Prop :=
  (∀ f, (Instr.azero f).wellFormed = true → ∀ s, Clear (.azero f) f s →
    let x := viewOf (.azero f) f s
    TileReady x → ∃ t, exec (.azero f) s = .next t ∧ Enqueues x t x.g (tileNum f.d) true .azero) ∧
  (∀ f, (Instr.aload f).wellFormed = true → ∀ s, Clear (.aload f) f s →
    let x := viewOf (.aload f) f s
    let sp := f.ext.toNat / 2 ^ 62 % 4
    let sw := f.ext.toNat / 2 ^ 56 % 8
    let row := 64 * (f.ty.width / 8)
    let b := match f.b.op with | .s n => (x.sval n.toNat).toNat | _ => 0
    let stride := if b = 0 then row else b
    ∀ ps, TileReady x → wordAt x % 4 = 0 → stride % 4 = 0 →
    SpansAt x ((List.range 64).map fun i => { space := sp, sw := sw, addr := (wordAt x + i * stride) % 2 ^ 64, len := row, write := false, unit_ := 1 })
      ps ps.flatten →
    ∃ t, exec (.aload f) s = .next t ∧ Enqueues x t x.g (tileNum f.d) true (.aload f.ty (sp == 1) (wordAt x) sw stride)) ∧
  (∀ p ∈ mmRows, ∀ f, (p.1 f).wellFormed = true → ∀ s, Clear (p.1 f) f s →
    let x := viewOf (p.1 f) f s
    let c := (bPair x).2
    let slots := s.ctx (s.launchOf x.g).ctxKey
    ∀ sa sb ps, TileReady x → c < 2 ^ 22 → c / 2 ^ 16 % 4 < 2 → slots.slot (c % 256) = some sa → slots.slot (c / 256 % 256) = some sb →
    Suits sa (shapeOf p.2) [tysAll.idxOf f.ty] → Suits sb (shapeOf p.2) (slotBTypes p.2 (tysAll.idxOf f.ty)) →
    wordAt x % 4 = 0 → (bPair x).1 % 4 = 0 → SpansAt x (mmSpans x p.2 sa sb) ps ps.flatten →
    ∃ t, exec (p.1 f) s = .next t ∧ Enqueues x t x.g (tileNum f.d) true (.mm p.2 f.ty (c.testBit 21)
      { isCw := f.ext.toNat / 2 ^ 62 % 4 == 1, base := wordAt x, sw := f.ext.toNat / 2 ^ 56 % 8, slot := sa }
      { isCw := c / 2 ^ 16 % 4 == 1, base := (bPair x).1, sw := c / 2 ^ 18 % 8, slot := sb })) ∧
  (∀ f, (Instr.adrain f).wellFormed = true → ∀ s, Clear (.adrain f) f s →
    let x := viewOf (.adrain f) f s
    let q := quadOf x f.b.op
    let sp := f.ext.toNat / 2 ^ 62 % 4
    let a := mod2 64 (q.src + val true 40 f.ext.toNat)
    let nb := 64 * f.ty.width / 8
    let stride := if q.w1 = 0 then nb else q.w1
    let rows := (List.range 64).map fun i => (a + i * stride) % 2 ^ 64
    let el := if f.ty.width = 16 then 2 else if f.ty.width = 32 then 4 else 1
    ∀ ps, TileReady x → q.w2 / 2 ^ 8 % 2 ^ 24 = 0 → a % 4 = 0 → stride % 4 = 0 → (f.fn.toNat.testBit 2 = true → q.w3 % 4 = 0) →
    SpansAt x ((rows.map fun r => { space := sp, sw := f.ext.toNat / 2 ^ 56 % 8, addr := r, len := nb, write := true, unit_ := el }) ++
      (if f.fn.toNat.testBit 2 then [{ space := 0, sw := 0, addr := q.w3, len := 256, write := false, unit_ := 1 }] else [])) ps (ps.drop 64).flatten →
    x.g.stores.any (fun e => touchesLine e (linesOf (ps.take 64).flatten)) = false → RoomFor x (64 * stagedSize nb) →
    ∃ t d, exec (.adrain f) s = .next t ∧
      Enqueues x t { x.g with rcnt := if (fmtOf f.ty).isSome ∧ f.x6.toNat % 8 = 4 then x.g.rcnt + 1 else x.g.rcnt } (tileNum f.d) false (.adrain d) ∧
      d.fn = f.fn.toNat ∧ d.ty = f.ty ∧ d.space = sp ∧ d.rows = ps.take 64 ∧ d.addrs = rows.map (swizzle (f.ext.toNat / 2 ^ 56 % 8)) ∧ d.bias = (ps.drop 64).flatten ∧
      d.eps = BitVec.ofNat 32 (q.w2 / 2 ^ 32) ∧ d.scl = val true 8 (q.w2 % 256) ∧ d.count = x.g.rcnt ∧
      d.poisoned = decide (mapGet 0 (s.teamOf x.g).issued (tileNum f.d) ≠ mapGet 0 x.g.acks (tileNum f.d)))

/-- R179, R180, R184: aready waits for the group's ls and cw writes, those of its copies and drains among them; await acknowledges its tiles and waits for the entries that
raised their counts so far; aread copies a row or a column of a tile, or POISON with APEND where the tile has changed since. -/
def TilesReadAndAwaited : Prop :=
  (∀ f, (Instr.aready f).wellFormed = true → ∀ s, Clear (.aready f) f s →
    let x := viewOf (.aready f) f s
    x.act ≠ 0 →
    let due := (∃ e ∈ x.g.stores, e.path = .ls ∨ e.path = .cw) ∨ (∃ c ∈ s.copies, c.grp = x.gk ∧ ∃ u ∈ c.units, u.team ≠ none) ∨
      ∃ q ∈ (s.teamOf x.g).queue, q.grp = x.gk ∧ ∃ d, q.what = .adrain d ∧ d.space ≠ 2
    (¬ due → ∃ t, exec (.aready f) s = .next t ∧ Leaves x t s x.g (fun l y => x.on l y) ∧ KeepsAll x t) ∧
    (due → ∃ t, exec (.aready f) s = .next t ∧ Waits x t s .drain)) ∧
  (∀ f, (Instr.await f).wellFormed = true → ∀ s, Clear (.await f) f s →
    let x := viewOf (.await f) f s
    let tm := s.teamOf x.g
    let tiles := if f.fn = 1 then List.range 16 else [tileNum f.a.op]
    let waits := (tiles.map fun a => (a, mapGet 0 tm.issued a)).filter fun p => tm.queue.any fun q => q.tile == p.1 && q.cnt != 0 && q.cnt ≤ p.2
    x.act ≠ 0 →
    ∃ t, exec (.await f) s = .next t ∧ KeepsAll x t ∧
      Leaves x t s { x.g with acks := tiles.foldl (fun m a => mapSet 0 m a (mapGet 0 tm.issued a)) x.g.acks, await := waits } (fun l y => x.on l y)) ∧
  (∀ f, (Instr.aread f).wellFormed = true → ∀ s, Clear (.aread f) f s →
    let x := viewOf (.aread f) f s
    let tm := s.teamOf x.g
    let a := tileNum f.a.op
    let changed := mapGet 0 tm.issued a ≠ mapGet 0 x.g.acks a
    let r := match f.b.op with | .s n => (x.sval n.toNat).toNat % 64 | _ => 0
    let cell := fun i => if f.fn = 8 then mapGet 0 tm.tiles (4096 * a + 64 * r + i) else mapGet 0 tm.tiles (4096 * a + 64 * i + r)
    x.act = BitVec.allOnes 32 → (∀ q ∈ tm.queue, q.tile = a → q.cnt = 0 ∨ mapGet 0 x.g.acks a < q.cnt) →
    ∃ t, exec (.aread f) s = .next t ∧ KeepsBut (fun q l => inV f.d 2 q ∧ l < 32) (fun _ => False) x t ∧
      (∀ n, f.d = .v n → ∀ l, l < 32 → ∀ h, h < 2 →
        (changed → (t.group x.gk).vreg (n.toNat + h) l = 0x7FF00BAD#32) ∧
        (¬ changed → (t.group x.gk).vreg (n.toNat + h) l = cell (l + 32 * h))) ∧
      Leaves x t s x.g (fun l y => x.on l (if changed ∧ l < 32 then { y with flags := y.flags ||| flagAPEND } else y)))

-- TRAPS AND SYSTEM REGISTERS
/-- R189, R190: trap raises USER with its operand once its path has gone on, brk raises BREAK before any effect, or stops its cluster for the
debugger; tret takes its path back to TRESUME and closes the frame, or raises ILLEGAL_OP. -/
def TrapsByInstruction : Prop :=
  (∀ f, (Instr.trap f).wellFormed = true → ∀ s, Clear (.trap f) f s →
    let x := viewOf (.trap f) f s
    x.act ≠ 0 →
    ∃ u, Leaves x u s x.g (fun l y => x.on l y) ∧ KeepsAll x u ∧
      exec (.trap f) s = .next (u.takeTrap x.gk trapUser (BitVec.ofNat 64 (wideOpnd x)) 0 x.path x.pc x.next)) ∧
  (∀ f, (Instr.brk f).wellFormed = true → ∀ s, Clear (.brk f) f s →
    let x := viewOf (.brk f) f s
    let fn := (s.launchOf x.g).fn
    let ck := s.clusterOf (s.launchOf x.g) x.g.team
    x.act ≠ 0 →
    ((s.fn fn).dbg = false → Traps (.brk f) f s trapBreak 0 0) ∧
    ((s.fn fn).dbg = true → s.faultRoom (s.launchOf x.g).ctxKey = true →
      ∃ t, exec (.brk f) s = .next t ∧
        t.cluster ck = { s.cluster ck with stage := .leaving, halted := some (s.nextFid (s.launchOf x.g).ctxKey, x.g.team) } ∧
        (t.group x.gk).tresume = x.pc ∧ (∀ l, maskBit x.act l = true → ((t.group x.gk).lane l).pc = (x.g.lane l).pc) ∧ KeepsAll x t)) ∧
  (∀ f, (Instr.tret f).wellFormed = true → ∀ s, Clear (.tret f) f s →
    let x := viewOf (.tret f) f s
    (x.g.frame = true → x.path &&& x.g.live &&& ~~~ x.g.tmask = 0 →
      ∃ t, exec (.tret f) s = .next t ∧ KeepsAll x t ∧
        Leaves x t s { x.g with frame := false } (fun l y =>
          if maskBit (x.path &&& x.g.live) l then { y with pc := x.g.tresume } else x.on l y)) ∧
    ((x.g.frame = false ∨ x.path &&& x.g.live &&& ~~~ x.g.tmask ≠ 0) → Traps (.tret f) f s trapIllegal (headWord (.tret f) f) 0))

/-- R191 to R193: mark adds its record to the core's trace ring, over the oldest of 512, which counts as lost where it was not yet
drained; sysr reads each system register; sysw writes TRESUME while the frame is active
and raises ILLEGAL_OP otherwise; flag reads and clears the flag words of the acting lanes. -/
def SystemRegistersAndFlags : Prop :=
  (∀ f, (Instr.mark f).wellFormed = true → ∀ s, Clear (.mark f) f s →
    let x := viewOf (.mark f) f s
    let c := s.groupCore x.g
    let v := if f.a.op = .imm then immZero 32 f else uniform32 x f.a
    x.act ≠ 0 →
    ∃ t, exec (.mark f) s = .next t ∧ KeepsAll x t ∧
      Leaves x t (s.setCore c (recorded (s.core c) (traceHead s x.g 4, s.imageOff x.gk x.pc * 2 ^ 32 + v))) x.g (fun l y => x.on l y)) ∧
  (∀ f, (Instr.sysr f).wellFormed = true → Does (.sysr f) f fun x t =>
    ∀ p ∈ sysRows x.s0 x.seen, f.x6.toNat = p.1 → UniformResult x t p.2) ∧
  (∀ f, (Instr.sysw f).wellFormed = true → ∀ s, Clear (.sysw f) f s →
    let x := viewOf (.sysw f) f s
    x.act ≠ 0 →
    (x.g.frame = true → ∃ t, exec (.sysw f) s = .next t ∧ KeepsAll x t ∧
      Leaves x t s { x.g with tresume := BitVec.ofNat 64 (wideOpnd x) } (fun l y => x.on l y)) ∧
    (x.g.frame = false → Traps (.sysw f) f s trapIllegal (headWord (.sysw f) f) 0)) ∧
  (∀ f, (Instr.flag f).wellFormed = true → ∀ s, Clear (.flag f) f s →
    let x := viewOf (.flag f) f s
    x.act ≠ 0 → x.g.flagsDue = false →
    ∃ t, exec (.flag f) s = .next t ∧
      Leaves x t s x.g (fun l y => x.on l
        (if f.fn ≠ 0 ∧ maskBit x.act l then { y with flags := y.flags &&& ~~~ cleared x l } else y)) ∧
      (f.fn ≠ 1 → (∀ n, f.d = .v n → ∀ l, maskBit x.act l = true → (t.group x.gk).vreg n.toNat l = (x.g.lane l).flags) ∧
        (∀ n, f.d = .s n → (t.group x.gk).sreg n.toNat =
          BitVec.ofNat 64 ((maskLanes x.act).foldl (fun a l => a ||| (x.g.lane l).flags) (0 : Word)).toNat)) ∧
      KeepsBut (fun q l => f.fn ≠ 1 ∧ maskBit x.act l = true ∧ inV f.d 1 q) (fun q => f.fn ≠ 1 ∧ inS f.d 1 q) x t)

-- COLLECTIVES
/-- R298 to R300, R366: the move of each kind of step. A comm step, a recv or wait whose counter is 0, a send with every chunk acknowledged, a
copy and a loop at its last round write their status and go on; a loop before it goes back; an end step ends the script; a send takes
credit, then posts its chunks in order; an rrs whose counter is 0 begins its fragment launch. -/
def ScriptSteps : Prop :=
  ∀ c h s x, Names s c h x → (∀ p ∈ x.held, p.2 ≠ x.step.slot) → x.closing = none →
    (x.step.kind = .comm → ∀ u, s.scriptWrite x.ck false (statusAt x) (bytesOf 8 0) = .ok u →
      ∃ t, exec (.scriptComm c h) s = .next t ∧ StepEnds s t x 0 (x.cur + 1)) ∧
    (x.step.kind = .recv → x.armOf x.step.slot = some 0 → ∀ u, s.scriptWrite x.ck false (statusAt x) (bytesOf 8 0) = .ok u →
      ∃ t, exec (.scriptRecv c h) s = .next t ∧ StepEnds s t x 0 (x.cur + 1)) ∧
    (x.step.kind = .wait → x.armOf x.step.slot = some 0 → ∀ u, s.scriptWrite x.ck false (statusAt x) (bytesOf 8 0) = .ok u →
      ∃ t, exec (.scriptWait c h) s = .next t ∧ StepEnds s t x 0 (x.cur + 1)) ∧
    (x.step.kind = .send →
      (x.sending = none → s.creditNews x = false → ∀ p n, x.peer x.step = some p → s.creditFor x p x.step.tag = some n →
        ∃ t, exec (.scriptSend c h) s = .next t ∧ t.mem = s.mem ∧ ∃ y ∈ t.scripts, y.handle = x.handle ∧ y.cur = x.cur ∧
          ∃ d, y.sending = some d ∧ d.peer = p ∧ d.toStep = n.step ∧ d.toName = n.script ∧ d.next = 0 ∧ d.len = x.step.len ∧ d.addr = x.addrOf x.step) ∧
      (∀ d w bs pkg, x.sending = some d → d.next < chunksOf d.len →
        s.scriptRead x.ck true ((d.addr + 4096 * d.next) % 2 ^ 64) (min 4096 (d.len - 4096 * d.next)) = .ok (w, bs) → s.rankPkg x d.peer = some pkg →
        ∃ t, exec (.scriptSend c h) s = .next t ∧ t.mem = s.mem ∧ StandsAt t x x.cur ∧
          let m : Letter := { to_ := pkg, from_ := s.pkg, msg := .chunk x.group x.rank d.peer d.toStep d.toName (4096 * d.next) bs d.id }
          if pkg = s.pkg then t.net = s.net ++ [m] else t.outbox = s.outbox ++ [m]) ∧
      (∀ d u, x.sending = some d → chunksOf d.len ≤ d.next → chunksOf d.len ≤ d.acked →
        s.scriptWrite x.ck false (statusAt x) (bytesOf 8 0) = .ok u →
        ∃ t, exec (.scriptSend c h) s = .next t ∧ StepEnds s t x 0 (x.cur + 1))) ∧
    (x.step.kind = .copy → ∀ bs v w u, s.scriptRead x.ck true (x.addrOf x.step) x.step.len = .ok (v, bs) → v.scriptWrite x.ck true x.step.addr2 bs = .ok w →
      w.scriptWrite x.ck false (statusAt x) (bytesOf 8 0) = .ok u →
      ∃ t, exec (.scriptCopy c h) s = .next t ∧ t.mem = u.mem ∧ t.groups = s.groups ∧ StandsAt t x (x.cur + 1)) ∧
    (x.step.kind = .loop → ∀ u, s.scriptWrite x.ck false (statusAt x) (bytesOf 8 0) = .ok u →
      ∃ t, exec (.scriptLoop c h) s = .next t ∧
        StepEnds s t x 0 (if mapGet 0 x.ctrs x.step.tag + 1 < x.step.len then (x.steps.findIdx? (·.slot == x.step.k)).getD 0 else x.cur + 1)) ∧
    (x.step.kind = .end_ → ∀ u, s.scriptWrite x.ck false (statusAt x) (bytesOf 8 0) = .ok u →
      ∃ t, exec (.scriptEnd c h) s = .next t ∧ t.mem = u.mem ∧ t.groups = s.groups ∧ (t.ctx x.ck).finals.head? = some (finalOf x (if x.absent then 1 else 0))) ∧
    (x.step.kind = .rrs → x.frag = none → x.armOf x.step.slot = some 0 →
      let b := s.begin_ x.fn x.ctx 3 8 x.step.addr2 (some (x.ck, x.handle))
      ∃ t, exec (.scriptRrs c h) s = .next t ∧ { t with scripts := b.1.scripts } = b.1 ∧
        t.scripts = (b.1.putScript { x with frag := some b.2 }).scripts)

-- EVENTS: MEMORY
/-- R219, R228, R229: a load takes its bytes from the entries of its own path's FIFO when they write every bit of them, from their homes when
none writes a bit, word by word of a vault with the lanes that share the access, and waits while they write a part, while its line is empty,
and while an earlier load or a copy of its group has not read a byte of it; with all its bytes, and no acquire before it, it writes its
destination and leaves the group's loads (log entry 7). -/
def LoadsBind : Prop :=
  ∀ gk k s l,
    let g := s.group gk
    let es := g.stores.filter fun e => e.path == l.path && e.seq < l.seq && overlaps e.op.places l.places
    g.loads[k]? = some l → (s.teamOf g).dead = false → (∀ c ∈ s.copies, c.grp = gk → c.path = l.path → c.seq < l.seq → ∀ p ∈ c.toRead, p ∉ l.places) →
    (s.emptyLines (linesOf l.places) ≠ [] → exec (.loadResultReturn gk k) s = .next s) ∧
    (s.emptyLines (linesOf l.places) = [] →
    (∀ e ∈ g.loads, e.seq < l.seq → e.path = l.path → overlaps e.places l.places = false) →
    (l.lacks = [] →
      (freeOf g l.seq → ∃ t, exec (.loadResultReturn gk k) s = .next t ∧ GroupIs gk s t (bindTo g l l.whole)) ∧
      (¬ freeOf g l.seq → exec (.loadResultReturn gk k) s = .next s)) ∧
    (l.lacks ≠ [] → es = [] → s.badRead l.nextBytes = none → (∀ fn o, l.places.head? ≠ some (.page fn o)) →
      ∃ t, exec (.loadResultReturn gk k) s = .next t ∧
        GroupIs gk s t ((sharing s g gk l).foldl (fun h m => brought s g h m (m.sharing l.nextBytes)) (brought s g g l l.nextBytes))) ∧
    (l.lacks ≠ [] → ∀ srcs : List (Store × Byte), es ≠ [] → freeOf g l.seq → l.acq < 2 → (∀ p ∈ l.places, plainPlace p) →
      l.places.map (fun p => (latestTo es p).bind fun e => (forwarded e p).map fun b => (e, b)) = srcs.map some →
      ∃ t, exec (.loadResultReturn gk k) s = .next t ∧ GroupIs gk s t { bindTo g l (ofBytes (srcs.map (·.2))) with
        stores := g.stores.map fun e => if e ∈ srcs.map (·.1) then { e with fwd := true } else e }) ∧
    (l.lacks ≠ [] → ∀ p ∈ l.places, ∀ e, latestTo es p = some e → forwarded e p = none → exec (.loadResultReturn gk k) s = .next s))

/-- R229, R220, R221, R264, R340: the first entry of a path leaves its FIFO and takes effect at its home: a write changes its enabled bits
and no other byte, a full/empty change its line; in a deterministic launch the g entries of one instruction become staged records and change
no byte. -/
def StoresReachTheirHomes : Prop :=
  ∀ gk p s e, AppliesNow s gk p e →
    let g := s.group gk
    (∀ bs, e.op = .write bs → (∀ b ∈ bs, plainPlace b.place) → stages s gk p = false →
      ∃ t, exec (.storeAppliedAtHome gk (codeOfPath p)) s = .next t ∧ (∀ a, t.memByte a = memAfter s bs a) ∧
        (∀ tm o, (t.team tm).byte o = winAfter s bs tm o) ∧ t.group gk = g.dropStore e ∧ (∀ k, k ≠ gk → t.group k = s.group k) ∧
        t.poisoned = s.poisoned.filter (fun a => !coversGranule bs a) ∧
        { t with mem := s.mem, poisoned := s.poisoned, groups := s.groups, teams := s.teams } = s) ∧
    (stages s gk p = true → e.op.places ≠ [] → s.drainsBefore gk e.seq = false →
      ∃ t, exec (.storeAppliedAtHome gk (codeOfPath p)) s = .next t ∧ t.mem = s.mem ∧
        t.group gk = { g with stores := g.stores.filter fun d => !(d.path == p && d.seq == e.seq) } ∧
        (∀ k, k ≠ gk → t.group k = s.group k) ∧ (∀ k, k ≠ g.team → t.team k = s.team k) ∧
        t.team g.team = { s.team g.team with staging := (s.team g.team).staging ++ (g.stores.filter fun d => d.path == p && d.seq == e.seq).map (recordOf g) }) ∧
    (∀ full tm line, e.op = .fset full tm line → stages s gk p = false → (s.team tm).bline line = none →
      ∃ t, exec (.storeAppliedAtHome gk (codeOfPath p)) s = .next t ∧ t.mem = s.mem ∧
        (∀ k n, (t.team k).isEmpty n = if k = tm ∧ n = line then !full else (s.team k).isEmpty n) ∧
        (∀ k o, (t.team k).byte o = (s.team k).byte o) ∧ t.group gk = g.dropStore e ∧ ∀ k, k ≠ gk → t.group k = s.group k)

/-- R144 to R146, R112: an atomic, and an update at a MSAU, reads its word, writes its new value and no other byte, once; an atomic gives the
old word and the flags to its lane, and a compare-and-swap that failed demotes its segment. -/
def AtomicsAtTheirHomes : Prop :=
  (∀ gk p s e op ty ps operand cmp dst lanes old, AppliesNow s gk p e → stages s gk p = false → e.op = .rmw op ty ps operand cmp dst lanes →
    WordOf s ps old →
    let g := s.group gk
    let r := rmwWord op ty .rne old operand cmp
    let put := fun (h : Group) => match dst with | some d => (h.putDst d old).orFlagsIn lanes r.2 | none => h
    ∃ t, exec (.storeAppliedAtHome gk (codeOfPath p)) s = .next t ∧
      (∀ i a, ps[i]? = some (.mem a) → t.memByte a = byteAt r.1 i) ∧ (∀ a, .mem a ∉ ps → t.memByte a = s.memByte a) ∧
      t.group gk = (if op = .cas then (put (g.dropStore e)).casDone e.seq lanes (old % 2 ^ ty.width == cmp % 2 ^ ty.width) else put (g.dropStore e)) ∧
      (∀ k, k ≠ gk → t.group k = s.group k) ∧ { t with mem := s.mem, groups := s.groups } = s) ∧
  (∀ gk k s e old,
    let g := s.group gk
    g.msreds[k]? = some e → (s.teamOf g).dead = false → s.unboundBefore gk e.seq = false →
    (∀ h ∈ g.msreds.take k, h.seq = e.seq → overlaps h.places e.places = false) → WordOf s e.places old →
    ∃ t, exec (.msauUpdateApply gk k) s = .next t ∧
      (∀ i a, e.places[i]? = some (.mem a) → t.memByte a = byteAt (rmwWord e.op e.ty e.mode old e.operand 0).1 i) ∧
      (∀ a, .mem a ∉ e.places → t.memByte a = s.memByte a) ∧ t.group gk = { g with msreds := g.msreds.eraseIdx k } ∧
      (∀ k, k ≠ gk → t.group k = s.group k) ∧ { t with mem := s.mem, groups := s.groups } = s)

/-- R170, R171, R173: a unit of a copy is read, once for the whole copy, and written once its source is read; the line that it covers is full
again, with the bytes it held where the copy writes none; a copy.gcm message is read, and if it is fresh and its tag matches it gives its
plaintext, any other zeros and TAG_FAIL, and only then are its lines full. -/
def CopiesFill : Prop :=
  (∀ c n s (d : Copy) u, s.copies.find? (fun c' => c'.id == c && c'.gcm.isNone) = some d → d.units[n]? = some u → s.mayFill d u = true →
    let g := s.group d.grp
    let need := u.words.filterMap fun w => match w.2.2 with | none => some w.2.1 | some _ => none
    (need ≠ [] → s.badRead need = none → (∀ p ∈ need, ∀ fn o, p ≠ .page fn o) →
      exec (.copyLineFill c n) s = .next { s with copies := s.copies.map fun k => if k.id = c then
        { k with units := k.units.map fun v => { v with words := v.words.map fun w =>
            (w.1, w.2.1, w.2.2.or (if w.2.1 ∈ need then some (s.byteFor g w.2.1) else none)) } } else k }) ∧
    (need = [] → (∀ w ∈ u.words, plainPlace w.1) → (∀ tm, u.team = some tm → s.doomedStore d tm u.line = false) →
    ∃ t, exec (.copyLineFill c n) s = .next t ∧ t.groups = s.groups ∧ (∀ q ∈ t.copies, q.units ≠ []) ∧
      (∀ tm, u.team = some tm → t.mem = s.mem ∧ (t.team tm).isEmpty u.line = false ∧
        (∀ i, i < 128 → mapGet 0 (t.team tm).win (128 * u.line + i) =
          match u.words.find? (fun w => w.1 == .vault tm (128 * u.line + i)) with | some w => w.2.2.getD 0 | none => mapGet 0 u.held i) ∧
        (∀ o, o / 128 ≠ u.line → (t.team tm).byte o = (s.team tm).byte o) ∧ ∀ k, k ≠ tm → t.team k = s.team k) ∧
      (u.team = none → ∀ a, t.memByte a = memAfter s (u.words.map fun w => { place := w.1, val := w.2.2.getD 0, en := 0xFF }) a))) ∧
  (∀ c s (d : Copy) m (st : Stream), s.copies.find? (·.id == c) = some d → d.gcm = some m → s.laterMessage c m = false →
    (∀ u ∈ d.units, s.markDue d u = false) → s.marksDue d (m.src ++ m.dst) = false → s.writesDue d.grp d.seq m.src = false →
    s.loadsBefore d.grp d.seq = false → (s.teamOf (s.group d.grp)).dead = false →
    (m.text = none → s.badRead m.src = none → (∀ p ∈ m.src, ∀ fn o, p ≠ .page fn o) →
      exec (.gcmMessageProcess c) s = .next { s with copies := s.copies.map fun k => if k.id = c then
        { k with gcm := some { m with text := some (m.src.map (s.byteFor (s.group d.grp))) } } else k }) ∧
    ∀ bytes, m.text = some bytes → (∀ u ∈ d.units, ∀ tm, u.team = some tm → s.doomedStore d tm u.line = false) →
    (s.ctx m.ctx).stream m.stream = some st → (d.units.map fun u => (u.team, u.line)).Nodup →
    let len := bytes.length - 16
    let n := m.ctr.toNat
    let iv := st.salt ++ bytesBE 8 n
    let good := (st.high < n ∨ (n ≤ st.high ∧ st.high < n + 64 ∧ st.win.testBit (st.high - n) = false)) ∧
      gcmTag st.key iv (bytesOf 8 m.stream ++ bytesOf 8 n) (bytes.take len) = bytes.drop len
    ∃ t out, exec (.gcmMessageProcess c) s = .next t ∧ t.mem = s.mem ∧ t.groups = s.groups ∧
      (good → out = gcmCrypt st.key iv (bytes.take len) ++ bytesOf 4 0 ∧ ∃ st', (t.ctx m.ctx).stream m.stream = some st' ∧ st'.high = max st.high n) ∧
      (¬ good → out = List.replicate len 0 ++ bytesOf 4 4 ∧ (t.ctx m.ctx).stream m.stream = some st) ∧
      ∀ u ∈ d.units, ∀ tm, u.team = some tm → (t.team tm).isEmpty u.line = false ∧ ∀ i, i < 128 →
        mapGet 0 (t.team tm).win (128 * u.line + i) =
          match (List.zip m.dst (out ++ bytesOf 4 0 ++ bytesOf 8 n)).find? (fun v => v.1 == .vault tm (128 * u.line + i)) with
          | some v => v.2
          | none => mapGet 0 u.held i)

/-- R72, R175, R178, R181 to R183: the unit performs the first entry of its team's queue: azero clears a tile, aload fills it from its rows, a
matrix operation gives each element its old words, or 0 with OVW, plus its products chunk by chunk, and a drain writes its rows; the flags go to
every lane of the issuing group. -/
def MatrixEntries : Prop :=
  ∀ tk s q qs, Performs s tk q qs →
    (q.what = .azero → ∃ t, exec (.matrixEntryExecute tk) s = .next t ∧ TileDone s t tk q qs ∧
      (∀ i j, i < 64 → j < 64 → (t.team tk).tileWord q.tile i j = 0) ∧ ∀ l, (t.group q.grp).lane l = (s.group q.grp).lane l) ∧
    (∀ ty cw base sw stride, q.what = .aload ty cw base sw stride → ∃ t, exec (.matrixEntryExecute tk) s = .next t ∧ TileDone s t tk q qs ∧
      (∀ i j, i < 64 → j < 64 →
        let r := ofBytes ((s.tileBytes q.grp cw sw (base + i * stride) (64 * (ty.width / 8))).map s.byteAtHome)
        (t.team tk).tileWord q.tile i j = if ty.width = 16 then BitVec.ofNat 32 (r / 2 ^ (16 * j) % 2 ^ 16 * 2 ^ 16)
          else BitVec.ofNat 32 (r / 2 ^ (8 * (ty.width / 8) * j) % 2 ^ (8 * (ty.width / 8)))) ∧
      ∀ l, (t.group q.grp).lane l = (s.group q.grp).lane l) ∧
    (∀ op ty ovw a b, op < 8 → q.what = .mm op ty ovw a b → ∃ t fl, exec (.matrixEntryExecute tk) s = .next t ∧ TileDone s t tk q qs ∧
      (∀ i j h w, i < (shapeOf op).size → j < (shapeOf op).size → (mmWords s tk q op ovw a b i j)[h]? = some w →
        (t.team tk).tileWord q.tile i ((if op = 6 then 2 else 1) * j + h) = w.1) ∧
      (∀ l, l < 32 → (t.group q.grp).lane l = { (s.group q.grp).lane l with flags := ((s.group q.grp).lane l).flags ||| fl }) ∧
      ∀ k, fl.getLsbD k = true ↔ ∃ i j, i < (shapeOf op).size ∧ j < (shapeOf op).size ∧ ∃ w ∈ mmWords s tk q op ovw a b i j, w.2.getLsbD k = true) ∧
    (∀ d, q.what = .adrain d → ¬ (d.space = 2 ∧ (s.launchOf (s.group q.grp)).det = true) → d.rows.length = 64 → d.rows.flatten.Nodup →
      (∀ r ∈ d.rows, r.length = 64 * d.ty.width / 8) → (∀ p ∈ d.rows.flatten, ∃ a, p = .mem a ∧ s.poisoned.contains (granule a) = false) →
      ∃ t, exec (.matrixEntryExecute tk) s = .next t ∧ (t.team tk).queue = qs ∧ (t.team tk).tiles = (s.team tk).tiles ∧
        (∀ i k a, (d.rows.getD i [])[k]? = some (.mem a) → t.memByte a = (drainedBytes s tk q d i).getD k 0) ∧
        (∀ a, .mem a ∉ d.rows.flatten → t.memByte a = s.memByte a) ∧
        (d.fn.testBit 0 = true → ∀ i, i < 64 → ∀ k, k < 3 →
          (t.group q.grp).vreg (d.tregs + 4 * (i / 32) + k) (i % 32) = tripleRegs (drained s tk q d i).2.1 k))

-- EVENTS: WAITS THAT END
-- EVENTS: STAMPED LINES
/-- R155, R156, R282, R322, R323, R326, R327: a version, which travels in pitches 1 and 2 alone, is kept in its order, four at most, or rejected
and not kept; a rejection brings its writer STAMP_LATE before its next issue. -/
def VersionsArrive : Prop :=
  (∀ i s, ¬ InStampedPitch s → exec (.stampedVersionArrival i) s = .next s) ∧
  (∀ i s src line v grp va, InStampedPitch s → Comes s i src (.version line v grp va) →
    ∃ t, exec (.stampedVersionArrival i) s = .next t ∧ VersionAt (taken s i) t line v src grp) ∧
  (∀ i s src fn ctx off v grp va, InStampedPitch s → Comes s i src (.remoteVersion fn ctx off v grp va) →
    (s.remotePlace fn ctx off = none → ∃ t, exec (.stampedVersionArrival i) s = .next t ∧ Posts (taken s i) t [(src, .reject grp va 0)]) ∧
    (∀ a, s.remotePlace fn ctx off = some a →
      ∃ t, exec (.stampedVersionArrival i) s = .next t ∧ VersionAt (taken s i) t (a / 64) v src grp)) ∧
  (∀ i s src grp st, Comes s i src (.stampReply grp false st) →
    let mine := fun (p : Pending) => p.grp == grp && p.kind == 4 && p.group == st.toNat
    ∃ t, exec (.stampRejectArrival i) s = .next t ∧
      TakesNext { taken s i with pendings := s.pendings.filter fun p => !mine p } t grp trapStampLate st ((s.pendings.find? mine).map (·.pc)))

/-- R156, R324, R157, R232, R327: a held group is released once earliest is beyond its stamp, or in FAILED; an rdat reads once earliest is beyond
t + D; one that waited when the module entered FAILED takes TIME_FAIL, even where FAILED has ended since (R323); a read of another module goes
out, and its lanes pass with the reply to it, or with ACCESS where no route is left, before or after it has gone, or it is turned away; a line that proves poisoned there is
HBM_UNCORR (R340). -/
def StampedWaitsEnd : Prop :=
  (∀ gk s st, (s.group gk).hold = some st →
    ((s.tb.state = 3 ∨ st.toNat < s.tb.earliest) → ∃ t, exec (.ststHoldRelease gk) s = .next t ∧ GroupIs gk s t { s.group gk with hold := none }) ∧
    (s.tb.state ≠ 3 → s.tb.earliest ≤ st.toNat → exec (.ststHoldRelease gk) s = .next s)) ∧
  (∀ gk s w,
    let g := s.group gk
    let l := s.launchOf g
    g.rdat = some w → (s.teamOf g).dead = false →
    (w.failed = true →
      exec (.rdatWaitEnd gk) s = .next ((s.setGroup gk { g with rdat := none }).takeTrap gk trapTimeFail 0 0 w.path w.pc w.pc)) ∧
    (w.failed = false → w.sent = false → s.tb.earliest ≤ w.t.toNat + s.tb.dlvb → exec (.rdatWaitEnd gk) s = .next s) ∧
    (w.failed = false → (w.sent = true ∨ w.t.toNat + s.tb.dlvb < s.tb.earliest) →
      (∀ a, w.home = some a → s.badRead [.stamped a] = none → s.versions (a / 64) ≠ [] →
        ∃ t v st, exec (.rdatWaitEnd gk) s = .next t ∧ VersionFor (s.versions (a / 64)) w.t v st ∧ GroupIs gk s t (g.bindRdat w v st)) ∧
      (∀ pkg off, w.home = none → remoteAddr w.line.toNat = some (pkg, off) → pkg ≠ s.pkg → (∀ l ∈ s.net, ¬ repliesTo gk w.seq l.msg) →
        s.unreachable pkg = true →
        ∃ t, exec (.rdatWaitEnd gk) s = .next t ∧ TakesNext (s.setGroup gk (rdatPasses g w)) t gk trapAccess w.line none) ∧
      (∀ pkg off, w.home = none → w.sent = false → remoteAddr w.line.toNat = some (pkg, off) → pkg ≠ s.pkg → (∀ l ∈ s.net, ¬ repliesTo gk w.seq l.msg) →
        s.unreachable pkg = false →
        ∃ t, exec (.rdatWaitEnd gk) s = .next t ∧
          Posts (s.setGroup gk { g with rdat := some { w with sent := true } }) t [(pkg, .remoteRead l.fn l.ctx off w.t gk w.line w.seq)]) ∧
      (∀ off, w.home = none → remoteAddr w.line.toNat = some (s.pkg, off) → s.remotePlace l.fn l.ctx off = none →
        ∃ t, exec (.rdatWaitEnd gk) s = .next t ∧ TakesNext (s.setGroup gk (rdatPasses g w)) t gk trapAccess w.line none)) ∧
    (∀ i src m pkg off, w.failed = false → w.home = none → w.sent = true → remoteAddr w.line.toNat = some (pkg, off) → pkg ≠ s.pkg →
      Comes s i src m → (∀ j l, j < i → s.net[j]? = some l → ¬ repliesTo gk w.seq l.msg) →
      (∀ v st, m = .readReply gk w.seq v st → ∃ t, exec (.rdatWaitEnd gk) s = .next t ∧ GroupIs gk (taken s i) t (g.bindRdat w v st)) ∧
      (m = .readPoison gk w.seq → let u := (taken s i).setGroup gk { g with rdat := none }
        exec (.rdatWaitEnd gk) s = .next (((u.trace gk 3 (0x17 * 2 ^ 56 + u.imageOff gk w.pc)).setDetail gk w.line 0).fatalTrap gk 0x17)))) ∧
  (∀ (s : State) gk, let g := s.group gk
    s.enterFailed.group gk =
      { g with hold := none, rdat := g.rdat.map fun w => { w with failed := w.failed || !w.sent } }) ∧
  (∀ (g : Group) (w : RdatWait) v st, let h := g.bindRdat w v st
    h.rdat = none ∧ h.sreg (w.sreg + 3) = BitVec.ofNat 64 st ∧ h.sreg (w.sreg + 2) = v.stamp ∧
    ∀ l, (h.lane l) = if maskBit w.lanes l then { g.lane l with pc := w.pc + 16 } else g.lane l) ∧
  (∀ i s src grp va seq, Comes s i src (.reject grp va seq) →
    (∀ w, seq ≠ 0 → (s.group grp).rdat = some w → w.seq = seq →
      ∃ t, exec (.remoteAccessReject i) s = .next t ∧ TakesNext ((taken s i).setGroup grp (rdatPasses (s.group grp) w)) t grp trapAccess w.line none) ∧
    (∀ p, seq = 0 → s.pendings.find? (fun p => p.grp == grp && p.va == va && !p.replied && p.kind != 0) = some p →
      ∃ t, exec (.remoteAccessReject i) s = .next t ∧
        TakesNext { taken s i with pendings := s.pendings.filter fun q => q.id != p.id } t grp trapAccess va none))

-- EVENTS: MULTICAST
/-- R159, R291, R292, R293, R307: the crier gives each sequenced store, in the order of arrival, the next number and sends it to every member that is
not stale; a member applies the stores in the order of their numbers, once each, and counts them; a stale one applies none; the crier answers for
a sender whose copy is stale with the old value of the lowest live member, or of another that applied the number where that member has it by
a copy, and a store whose sender has given it up before it had a number has none; one that its sender has rejected all the same counts at its
copy and writes nothing there (log entry 69). -/
def SequencedStores : Prop :=
  (∀ i s src group st id,
    let c := s.crier group
    let first := ∀ j src' st' id', j < i → ¬ Comes s j src' (.mcsq group st' id')
    Comes s i src (.mcsq group st id) →
    (c.hold ≠ none ∨ ¬ first → exec (.crierNumbering i) s = .next s) ∧
    (c.hold = none → first →
      (c.size = 0 ∨ 2 ^ 48 ≤ c.number + 1 → ∃ t, exec (.crierNumbering i) s = .next t ∧ Posts (taken s i) t [(src, .seqFail id)]) ∧
      (c.size ≠ 0 → c.number + 1 < 2 ^ 48 → ∃ t, exec (.crierNumbering i) s = .next t ∧
        Settles { taken s i with pendings := placedAt s src id } t group
          { c with number := c.number + 1
                   sent := c.sent ++ [{ num := c.number + 1, at_ := s.tb.est.toNat, id := id, sender := src, answered := false }] }
          ((c.members.filter fun m => !m.stale).map fun m => (m.pkg, .numbered group (c.number + 1) st id src))))) ∧
  (∀ i s src group n rank old id sender, Comes s i src (.applied group n rank old id sender) →
    let c := s.crier group
    ∃ t, exec (.crierNumbering i) s = .next t ∧
      Settles (taken s i) t group { c with members := c.members.map fun m => if m.rank = rank then { m with acked := max m.acked n } else m
                                           olds := c.olds ++ [(n, rank, old)] } []) ∧
  (∀ (c : Crier) p, (p.answered = true → c.answer p = none) ∧
    ((∃ m ∈ c.members, m.stale = false ∧ m.pkg = p.sender) → c.answer p = none) ∧
    (p.answered = false → (∀ m ∈ c.members, m.stale = false → m.pkg ≠ p.sender) →
      ((∀ m ∈ c.members, m.stale = true) → c.answer p = some (.seqFail p.id)) ∧
      ∀ m ∈ c.members, m.stale = false → (∀ q ∈ c.members, q.stale = false → m.rank ≤ q.rank) →
        c.answer p = (c.olds.find? fun o => o.1 == p.num && (o.2.1 == m.rank || decide (p.num ≤ m.acked))).map fun o => .seqReply p.id p.num o.2.2)) ∧
  (∀ i s src group id, Comes s i src (.seqCancel group id) →
    let isIt := fun (l : Letter) => l.from_ = src ∧ ∃ st, l.msg = .mcsq group st id
    ((∀ l ∈ s.net, ¬ isIt l) → exec (.crierNumbering i) s = .next (taken s i)) ∧
    ((∃ l ∈ s.net, isIt l) → ∃ t u, exec (.crierNumbering i) s = .next t ∧ Posts u t [(src, .seqFail id)] ∧ { u with net := s.net } = s ∧
      u.net.Sublist (taken s i).net ∧ ∀ l, l ∈ u.net ↔ l ∈ (taken s i).net ∧ ¬ isIt l)) ∧
  (∀ i s src group n st id sender m, Comes s i src (.numbered group n st id sender) → s.member group = some m → NoJoin s group →
    (m.stale = true ∨ n ≤ m.count → exec (.memberApply i) s = .next (taken s i)) ∧
    (m.stale = false → m.count + 1 < n → exec (.memberApply i) s = .next s) ∧
    (m.stale = false → n = m.count + 1 →
      let refused : Prop := sender = s.pkg ∧ id ∈ s.refused
      let r := (taken s i).applyCopy m (if refused then .bytes [] else st)
      ∃ t, exec (.memberApply i) s = .next t ∧ CountAt r.1 t group { m with count := n } ∧ t.groups = s.groups ∧
        t.refused = (if refused then s.refused.erase id else s.refused) ∧
        t.pendings = placedAt s sender id ∧
        Posted (taken s i) t ((m.root, .applied group n m.rank r.2 id sender) ::
          (if sender = s.pkg then [(sender, .seqReply id n r.2)] else [])))) ∧
  (∀ i s src group st id grp m, Comes s i src (.mcst group st id grp) → s.member group = some m →
    (∀ j group' st' id', j < i → ¬ Comes s j src (.mcst group' st' id' grp)) →
    (m.stale = true → exec (.memberApply i) s = .next (taken s i)) ∧
    (m.stale = false → ∃ t, exec (.memberApply i) s = .next t ∧ Posts ((taken s i).applyCopy m st).1 t [(src, .mcstAck id m.rank)])) ∧
  (∀ (s : State) m offs cmp new, let r := s.applyCopy m (.cas offs cmp new)
    r.2 = s.copyNat m offs ∧ (s.copyNat m offs ≠ cmp → r.1 = s)) ∧
  (∀ group rank s c, s.crier group = c → (∀ l ∈ s.net, l.msg ≠ .staleMark group rank) →
    ∀ m, c.members.find? (·.rank == rank) = some m → m.stale = false → (∃ p ∈ c.sent, m.acked < p.num ∧ p.at_ + c.rlim ≤ s.tb.est.toNat) →
    let marked := c.members.map fun q => if q.rank = rank then { q with stale := true } else q
    ∃ t ls, exec (.memberStaleMark group rank) s = .next t ∧ Posted s t (ls ++ [(m.pkg, .staleMark group rank)]) ∧ t.mem = s.mem ∧
      (t.crier group).members = marked ∧
      ∀ q ∈ c.members, q.pkg ≠ s.pkg → (q.pkg, .roster group ((marked.filter fun q => !q.stale).map (·.rank))) ∈ ls)

/-- R159 to R161, R293, R296: the number, and the old value of mcsq.cas, reach the sender once its own copy holds the store; the registers of a
sender change with the reply alone; a store that has no number within RLIM is withdrawn, and once the crier has dropped it, or where it has not
left, no route is left or the crier is silent for as long again, its sender takes ACCESS; so does an mldr without a reply within twice RLIM. How a store is withdrawn is the model's
choice (log entry 69). -/
def MulticastReplies : Prop :=
  (∀ i s src id n old p, Comes s i src (.seqReply id n old) → s.pendings.find? (·.id == id) = some p → p.replied = false →
    ((∃ m, s.member p.group = some m ∧ m.stale = false ∧ m.count < n) → exec (.mcsqReply i) s = .next s) ∧
    ((∀ m, s.member p.group = some m → m.stale = true ∨ n ≤ m.count) →
      ∃ t, exec (.mcsqReply i) s = .next t ∧ t.mem = s.mem ∧ t.net = s.net.eraseIdx i ∧
        t.group p.grp = p.dst.foldl (fun g d => g.putDst d old) ((s.group p.grp).setS (p.sreg + 1) (BitVec.ofNat 64 n)) ∧
        (∀ k, k ≠ p.grp → t.group k = s.group k) ∧ ∀ q ∈ t.pendings, q.id = id → q.replied = true ∧ q.placed = true)) ∧
  (∀ id s p, s.pendings.find? (fun p => p.id == id && (p.kind == 1 || p.kind == 2) && !p.replied) = some p →
    let root := ((s.member p.group).map (·.root)).getD s.pkg
    let own := fun (l : Letter) => l.from_ = s.pkg ∧ ∃ g st, l.msg = .mcsq g st id
    ((∃ l ∈ s.net, l.msg = .seqFail id) → ∃ t u, exec (.mcsqReject id) s = .next t ∧ TakesNext u t p.grp trapAccess p.va none ∧
      u = { s with net := u.net, pendings := s.pendings.filter fun q => q.id != id } ∧ ∀ l, l ∈ u.net ↔ l ∈ s.net ∧ l.msg ≠ .seqFail id) ∧
    ((∀ l ∈ s.net, l.msg ≠ .seqFail id) →
      (s.sentOff p = false ∨ p.placed = true ∨ s.tb.est.toNat ≤ p.issued + s.rlimOf p → exec (.mcsqReject id) s = .next s) ∧
      (s.sentOff p = true → p.placed = false → p.issued + s.rlimOf p < s.tb.est.toNat →
        ((∃ l ∈ s.net ++ s.outbox, own l) → ∃ t u, exec (.mcsqReject id) s = .next t ∧
          TakesNext u t p.grp trapAccess p.va none ∧
          u = { s with net := u.net, outbox := u.outbox, pendings := s.pendings.filter fun q => q.id != id } ∧
          (∀ l, l ∈ u.net ↔ l ∈ s.net ∧ ¬ own l) ∧ ∀ l, l ∈ u.outbox ↔ l ∈ s.outbox ∧ ¬ own l) ∧
        ((∀ l ∈ s.net ++ s.outbox, ¬ own l) → s.unreachable root = true ∨ (p.cancel = true ∧ p.issued + 2 * s.rlimOf p < s.tb.est.toNat) →
          ∃ t, exec (.mcsqReject id) s = .next t ∧
          TakesNext { s with refused := s.refused ++ [id], pendings := s.pendings.filter fun q => q.id != id } t p.grp trapAccess p.va none) ∧
        ((∀ l ∈ s.net ++ s.outbox, ¬ own l) → s.unreachable root = false → p.cancel = true → s.tb.est.toNat ≤ p.issued + 2 * s.rlimOf p →
          exec (.mcsqReject id) s = .next s) ∧
        ((∀ l ∈ s.net ++ s.outbox, ¬ own l) → s.unreachable root = false → p.cancel = false → ∃ t, exec (.mcsqReject id) s = .next t ∧
          Posts { s with pendings := s.pendings.map fun q => if q.id = id then { q with cancel := true } else q } t
            [(root, .seqCancel p.group id)])))) ∧
  (∀ id s p, s.pendings.find? (fun p => p.id == id && p.kind ≤ 2) = some p → p.kind ≠ 0 →
    ((∀ l ∈ s.net, l.msg ≠ .seqDone id) → exec (.mcstComplete id) s = .next s) ∧
    ((∃ l ∈ s.net, l.msg = .seqDone id) → ∃ t, exec (.mcstComplete id) s = .next t ∧ { t with net := s.net, pendings := s.pendings } = s ∧
      (∀ l, l ∈ t.net ↔ l ∈ s.net ∧ l.msg ≠ .seqDone id) ∧ ∀ q ∈ t.pendings, q.id = id → q.waits = [] ∧ (q.replied = false ∨ 3 ≤ q.kind))) ∧
  (∀ id s p, s.pendings.find? (fun p => p.id == id && p.kind ≤ 2) = some p → p.kind = 0 → (∀ r ∈ p.waits, ∃ l ∈ s.net, l.msg = .mcstAck id r) →
    ∃ t, exec (.mcstComplete id) s = .next t ∧ { t with net := s.net, pendings := s.pendings } = s ∧
      (∀ l, l ∈ t.net ↔ l ∈ s.net ∧ ∀ r, l.msg ≠ .mcstAck id r) ∧ ∀ q ∈ t.pendings, q.id = id → q.waits = [] ∧ (q.replied = false ∨ 3 ≤ q.kind)) ∧
  (∀ i s src group offs op ty id, Comes s i src (.mldr group offs op ty id) → (s.crier group).size ≠ 0 →
    let c := s.crier group
    ∃ t, exec (.mldrResponseFold i) s = .next t ∧
      Posts { taken s i with folds := s.folds ++ [{ id := id, sender := src, group := group, op := op, ty := ty, waits := c.members.map (·.rank), lanes := ((offs.map (·.1)).eraseDups).length, answers := [], since := s.tb.est.toNat }] } t
        ((c.members.filter fun m => !m.stale).map fun m => (m.pkg, .mldrAsk group offs ty id src))) ∧
  (∀ i s src group rank vals id sender f, Comes s i src (.mldrAnswer group rank vals id sender) →
    s.folds.find? (fun f => f.id == id && f.sender == sender && f.waits.contains rank) = some f → (∃ r ∈ f.waits, r ≠ rank) →
    ∃ t, exec (.mldrResponseFold i) s = .next t ∧ { t with folds := s.folds } = taken s i ∧ ∀ q, q ∈ t.folds ↔
      (q ∈ s.folds ∧ ¬ (q.id = id ∧ q.sender = sender)) ∨
      q = { f with waits := f.waits.filter (· != rank), answers := f.answers ++ [(rank, vals.map fun (v : Nat) => intVal f.ty.signed f.ty.width v)] }) ∧
  (∀ (f : Fold), (f.answers = [] → f.value = List.replicate f.lanes (mldrIdentity f.op f.ty) ∧ f.bitmap = 0) ∧
    (∀ r v, f.answers = [(r, v)] → f.value = v ∧ f.bitmap = 2 ^ r) ∧
    ∀ r v, f.answers ≠ [] → let h := { f with answers := f.answers ++ [(r, v)] }
      h.value = List.zipWith (mldrFold f.op f.ty.width) f.value v ∧ h.bitmap = f.bitmap + 2 ^ r) ∧
  (∀ id s f, s.folds.find? (fun f => f.id == id && f.since + (s.crier f.group).rlim ≤ s.tb.est.toNat) = some f → f.waits ≠ [] →
    ∃ t, exec (.mldrResponseTimeout id) s = .next t ∧
      Posts { s with folds := s.folds.filter fun q => !(q.id == f.id && q.sender == f.sender) } t
        [(f.sender, .mldrReply f.id (f.value.map (mldrResult f.op f.ty)) 1
          (BitVec.ofNat 64 f.bitmap))]) ∧
  (∀ i s src id vals status bitmap p, Comes s i src (.mldrReply id vals status bitmap) → s.pendings.find? (fun p => p.id == id && p.kind == 3) = some p →
    ∃ t, exec (.mldrReply i) s = .next t ∧ t.pendings = s.pendings.filter (fun q => q.id != id) ∧
      GroupIs p.grp { taken s i with pendings := t.pendings } t
        ((((List.zip p.dst vals).foldl (fun g q => g.putDst q.1 q.2) (s.group p.grp)).setS (p.sreg + 1) (BitVec.ofNat 64 status)).setS (p.sreg + 2) bitmap)) ∧
  (∀ id s p, s.pendings.find? (fun p => p.id == id && p.kind == 3) = some p → p.issued + 2 * s.rlimOf p < s.tb.est.toNat →
    ∃ t, exec (.mldrNoReply id) s = .next t ∧ TakesNext { s with pendings := s.pendings.filter fun q => q.id != id } t p.grp trapAccess p.va none)

-- EVENTS: SCRIPTS
/-- R298, R299, R300, R366: a chunk lands at its step's counter, which it counts down, and is acknowledged; at a counter of 0 it is dropped and
brings COLL_OVERRUN, after the script's end too, but not after a reset; credit reaches the rank it is given to and is withdrawn from it; a peer that
is late ends the step PEER_ABSENT; a fragment's status goes to its step; a page fault holds the step, and no other, on a record, which waits while
the ring is full, and any other failed access ends the script FAULTED. -/
def ScriptsBetweenModules : Prop :=
  (∀ i s src group fr to_ step name off bs id x, Comes s i src (.chunk group fr to_ step name off bs id) →
    Names s (name % 1024) (name / 1024) x →
    (x.closing ≠ none → ∃ t, exec (.chunkArrival i) s = .next t ∧ Posts (taken s i) t [(src, .chunkAck id)]) ∧
    (x.closing = none → (∃ p ∈ x.held, p.2 = step) → exec (.chunkArrival i) s = .next s)) ∧
  (∀ i s src group fr to_ step name off bs id x st n, Comes s i src (.chunk group fr to_ step name off bs id) →
    Names s (name % 1024) (name / 1024) x → x.closing = none → (∀ p ∈ x.held, p.2 ≠ step) → x.stepAt step = some st → (st.kind = .wait → bs = []) → (x.armOf step).getD 0 = n →
    (∀ u, 0 < n → (if bs = [] then .ok (taken s i) else (taken s i).scriptWrite x.ck true ((x.addrOf st + off) % 2 ^ 64) bs) = .ok u →
      ∃ t ls, exec (.chunkArrival i) s = .next t ∧ t.mem = u.mem ∧ t.groups = s.groups ∧ ScriptIs t x (fun y => y.armOf step = some (n - 1) ∧ y.cur = x.cur) ∧
        Posted (taken s i) t (ls ++ [(src, .chunkAck id)]) ∧ (n ≠ 1 → ls = [])) ∧
    (n = 0 → ∃ t, exec (.chunkArrival i) s = .next t ∧ t.mem = s.mem ∧ ScriptIs t x (fun y => y.ovr = true ∧ y.cur = x.cur) ∧
      Posted (taken s i) t [(src, .chunkAck id)] ∧ (s.group x.grp ≠ Group.none → (s.group x.grp).live ≠ 0 → t.group x.grp =
        { s.group x.grp with nexts := (s.group x.grp).nexts ++ [{ code := trapCollOverrun, arg := BitVec.ofNat 64 (x.handle * 2 ^ 16 + step), at_ := none }] }))) ∧
  (∀ i s src group fr to_ step name off bs id, Comes s i src (.chunk group fr to_ step name off bs id) →
    s.script (name % 1024) (name / 1024) = none →
    let finals := (s.ctx (name % 1024)).finals
    ∃ t, exec (.chunkArrival i) s = .next t ∧ Posted (taken s i) t [(src, .chunkAck id)] ∧ t.mem = s.mem ∧
      ∀ f, finals.find? (·.handle == name / 1024) = some f →
        (f.word.toNat % 256 = 3 ∨ mapGet 0 f.arms step ≠ 0 → Posts (taken s i) t [(src, .chunkAck id)]) ∧
        (f.word.toNat % 256 ≠ 3 → mapGet 0 f.arms step = 0 →
          (t.ctx (name % 1024)).finals = (finals.map fun q => if q.handle = name / 1024 then { q with word := q.word ||| 0x200 } else q) ∧
          (s.group f.grp ≠ Group.none → (s.group f.grp).live ≠ 0 → t.group f.grp = { s.group f.grp with nexts := (s.group f.grp).nexts ++
            [{ code := trapCollOverrun, arg := BitVec.ofNat 64 (name / 1024 * 2 ^ 16 + step), at_ := none }] }))) ∧
  (∀ i s src c, (Comes s i src (.credit c) → exec (.creditGrant i) s = .next { taken s i with credits := s.credits ++ [c] }) ∧
    (Comes s i src (.uncredit c) → exec (.creditGrant i) s = .next { taken s i with credits := s.credits.erase c })) ∧
  (∀ i s src id, Comes s i src (.chunkAck id) → ∃ t, exec (.chunkAcknowledged i) s = .next t ∧ { t with scripts := s.scripts } = taken s i ∧
    t.scripts.length = s.scripts.length ∧ ∀ (k : Nat) (x : Script), s.scripts[k]? = some x →
      (∀ d, x.sending = some d → d.id = id → t.scripts[k]? = some { x with sending := some { d with acked := d.acked + 1 }, since := s.tb.est.toNat }) ∧
      ((∀ d, x.sending = some d → d.id ≠ id) → t.scripts[k]? = some x)) ∧
  (∀ c h s x u, Names s c h x → PeerLate s x → s.scriptWrite x.ck false (statusAt x) (bytesOf 8 1) = .ok u →
    ∃ t, exec (.scriptPeerAbsent c h) s = .next t ∧ StepEnds s t x 1 (x.cur + 1) ∧ ScriptIs t x fun y => y.absent = true ∧ y.cur = x.cur + 1) ∧
  (∀ c h s x p, Names s c h x → x.closing = none → s.launches.find? (fun p => p.2.script == some (c, h) && !p.2.active) = some p →
    (p.2.extra % 256 = 0 → ∃ t, exec (.fragmentComplete c h) s = .next t ∧ t.launch p.1 = Launch.none ∧ t.mem = s.mem ∧
      ScriptIs t x fun y => y = { x with frag := some 0, since := s.tb.est.toNat }) ∧
    (p.2.extra % 256 ≠ 0 → ∃ t, exec (.fragmentComplete c h) s = .next t ∧ t.launch p.1 = Launch.none ∧ (t.ctx x.ck).finals.head? = some (finalOf x (p.2.extra % 256)))) ∧
  (∀ c h s x, Names s c h x → s.faultRoom c = false → (∃ p ∈ x.held, p.1 = 0) → exec (.scriptAccessFault c h) s = .next s) ∧
  (∀ c h s x, Names s c h x → s.faultRoom c = true ∨ (∀ p ∈ x.held, p.1 ≠ 0) →
    let z := x.resumed 0 s.tb.est.toNat
    let u := s.putScript z
    (∀ slot va level kind, u.scriptFail z = some (slot, .fault va level kind) →
      (s.faultRoom c = true → ∃ t, exec (.scriptAccessFault c h) s = .next t ∧ Recorded u t c (faultBytes u c va kind level x.core x.team 0) ∧
        t.groups = s.groups ∧ ScriptIs t x fun y => y = { z with held := z.held ++ [(s.nextFid c, slot)] }) ∧
      (s.faultRoom c = false → ∃ t, exec (.scriptAccessFault c h) s = .next t ∧ { t with scripts := s.scripts } = s ∧
        ScriptIs t x fun y => y = { z with held := z.held ++ [(0, slot)] })) ∧
    (∀ slot, x.closing = none → u.scriptFail z = some (slot, .bad) → ∃ t, exec (.scriptAccessFault c h) s = .next t ∧
      ((t.ctx x.ck).finals.head? = some (finalOf x 8) ∨ ∃ y w ws, t.script c h = some y ∧ y.closing = some (8, w :: ws)))) ∧
  (∀ c h s, s.script c h = none → exec (.scriptPeerAbsent c h) s = .next s ∧ exec (.scriptAccessFault c h) s = .next s)

-- EVENTS: TRANSLATION AND REGISTERS
/-- R277, R278, R335: a walk that ends gives every core that waits its translation, or one record on which every group that joined it is
suspended; a walker held by a full ring writes its record once there is room; RESUME lets the suspended lanes vote again at the same instruction
and the script steps that the record holds go on, with FAIL they take ACCESS, which is fatal. -/
def WalksAndFaults : Prop :=
  (∀ i s w, s.walks[i]? = some w → w.held = none → w.joined ≠ [] →
    (∀ tr, s.walkPage w.ctx w.page = .ok tr → ∃ t, exec (.pageWalkComplete i) s = .next t ∧ t.mem = s.mem ∧ t.walks = s.walks.eraseIdx i ∧
      (∀ k ∈ w.groups, t.lookup (s.groupCore (s.group k)) w.ctx w.page = some tr ∧ t.group k = { s.group k with why := .none }) ∧
      ∀ k, k ∉ w.groups → t.group k = s.group k) ∧
    (∀ level, s.walkPage w.ctx w.page = .error level → (s.faultRoom w.ctx = true → (w.joined.map (·.1)).Nodup →
        ∃ t, exec (.pageWalkComplete i) s = .next t ∧ WalkFaults s t i w level) ∧
      (s.faultRoom w.ctx = false → exec (.pageWalkComplete i) s = .next { s with walks := s.walks.set i { w with held := some level } }))) ∧
  (∀ i s w level, s.walks[i]? = some w → w.held = some level → (w.joined.map (·.1)).Nodup → w.joined ≠ [] → s.faultRoom w.ctx = true →
    ∃ t, exec (.faultRingSpaceFree i) s = .next t ∧ WalkFaults s t i w level) ∧
  (∀ fn fid s, s.present fn = true → s.openCtxs fn fid ≠ [] →
    (∃ t, exec (.resumeReplay fn fid) s = .next t ∧ t.mem = s.mem ∧ (∀ ck, ck / 16 = fn → ∀ q ∈ (t.ctx ck).open_, q.1 ≠ fid) ∧
      (∀ x ∈ t.scripts, x.fn = fn → ∀ p ∈ x.held, p.1 ≠ fid) ∧
      (∀ k, k ∈ s.suspendedGroups fn fid → ∀ l, l < 32 → (t.group k).lane l = offRecord ((s.group k).lane l) fid) ∧
      ∀ k, k ∉ s.suspendedGroups fn fid → t.group k = s.group k) ∧
    (∃ t, exec (.resumeFail fn fid) s = .next t ∧ ∀ k ∈ s.suspendedGroups fn fid, (t.team (s.group k).team).stopped = true ∧
      (t.launch (teamLaunch (s.group k).team)).fatal.isSome = true)) ∧
  (∀ fn fid s, s.openCtxs fn fid = [] → exec (.resumeReplay fn fid) s = .next s ∧ exec (.resumeFail fn fid) s = .next s)

/-- R272, R275, R279: INVAL drops the named translations from every buffer, and INVST gains 1 once every access the context had issued is performed
at module scope, its waiting rdat and its staged stores among them; a write of CTXEN asks for a change, and a context whose launches have completed takes it: enabled with an empty slot table and no
streams, or disabled. -/
def InvalidationAndContexts : Prop :=
  (∀ fn (val : DWord) s, s.present fn = true →
    let ck := 16 * fn + val.toNat % 16
    let vp := val.toNat / 2 ^ 16 % 2 ^ 48
    let page := if vp = 2 ^ 48 - 1 then none else some vp
    let drops := fun (e : TlbEntry) => e.ctx = ck ∧ (page = none ∨ page = some e.page)
    ∃ t, exec (.inval fn val) s = .next t ∧ t.mem = s.mem ∧ t.groups = s.groups ∧
      (∀ c e, e ∈ (t.core c).tlb ↔ e ∈ (s.core c).tlb ∧ ¬ drops e) ∧ (∀ b e, e ∈ (t.bay b).tlb ↔ e ∈ (s.bay b).tlb ∧ ¬ drops e) ∧
      (t.fn fn).invst = (s.fn fn).invst ∧ ∃ v, (t.fn fn).invals = (s.fn fn).invals ++ [v] ∧ v.ctx = ck ∧ v.page = page ∧
        ∀ p, p ∈ v.seqs ↔ ∃ q ∈ s.groups, (s.launchOf q.2).ctxKey = ck ∧ p = (q.1, q.2.seq)) ∧
  (∀ fn s v vs, (s.fn fn).invals = v :: vs →
    let done := ∀ p ∈ v.seqs, let g := s.group p.1
      s.dueBefore p.1 (p.2 + 1) 4 = false ∧ (∀ w, g.rdat = some w → p.2 < w.seq) ∧ ∀ r ∈ (s.teamOf g).staging, r.grp = g.grp → p.2 < r.seq
    (done → exec (.invalComplete fn) s = .next (s.setFn fn { s.fn fn with invals := vs, invst := (s.fn fn).invst + 1 })) ∧
    (¬ done → exec (.invalComplete fn) s = .next s)) ∧
  (∀ fn (val : DWord) s, s.present fn = true → exec (.ctxenWrite fn val) s = .next (s.setFn fn { s.fn fn with enWant := val.setWidth 16 })) ∧
  (∀ fn s, ∃ t, exec (.contextEnableChange fn) s = .next t ∧ t.mem = s.mem ∧ t.groups = s.groups ∧ ∀ c, c < 16 →
    let busy := ∃ p ∈ s.launches, p.2.fn = fn ∧ p.2.ctx = c ∧ p.2.active = true
    let old := (s.fn fn).ctxen.getLsbD c
    let want := (s.fn fn).enWant.getLsbD c
    (busy ∨ old = want → (t.fn fn).ctxen.getLsbD c = old ∧ t.ctx (16 * fn + c) = s.ctx (16 * fn + c)) ∧
    (¬ busy → old = true → want = false → (t.fn fn).ctxen.getLsbD c = false ∧
      t.ctx (16 * fn + c) = { s.ctx (16 * fn + c) with enabled := false, streams := [] }) ∧
    (∀ root fqb fqs, ¬ busy → old = false → want = true → s.descriptor fn c = some (root, fqb, fqs) → (t.fn fn).ctxen.getLsbD c = true ∧
      t.ctx (16 * fn + c) = { Ctx.none with enabled := true, root := root, fqb := fqb, fqs := fqs, rwbase := (s.ctx (16 * fn + c)).rwbase
                                            rwlen := (s.ctx (16 * fn + c)).rwlen }) ∧
    (¬ busy → old = false → want = true → s.descriptor fn c = none → (t.fn fn).ctxen.getLsbD c = false ∧ (t.fn fn).enWant.getLsbD c = false))

-- EVENTS: LAUNCHES
/-- R254 to R257: TAIL is kept unless it would overflow its ring; a gate counts down, and from 1 it submits its record to its queue; the completion
block takes its status, count, time and digest, and no other byte changes where the gates are 0. -/
def QueuesGatesCompletion : Prop :=
  (∀ fn q (v : DWord) s, s.present fn = true →
    let x := (s.fn fn).queue q
    let tail := v.toNat % 2 ^ 32
    (s.health.pstate ≠ 2 → (tail + 2 ^ 32 - x.head) % 2 ^ 32 ≤ 2 ^ x.size →
      exec (.qtailWrite fn q v) s = .next (s.setFn fn ((s.fn fn).setQueue q { x with tail := tail }))) ∧
    (s.health.pstate = 2 ∨ 2 ^ x.size < (tail + 2 ^ 32 - x.head) % 2 ^ 32 → exec (.qtailWrite fn q v) s = .next s)) ∧
  (∀ fn (v : DWord) s n link, s.present fn = true →
    let ck := 16 * fn + (s.fn fn).queueCtx 0
    v ≠ 0 → v.toNat % 16 = 0 → s.vaNat ck v.toNat 8 = some n → s.vaNat ck (v.toNat + 8) 8 = some link →
    (n = 0 → exec (.gateDecrement fn v) s = .next s) ∧
    (∀ u, s.setVaNat ck v.toNat 8 (n - 1) = some u →
      (1 < n → exec (.gateDecrement fn v) s = .next u) ∧
      (∀ d w, n = 1 → u.vaBytes ck (link / 64 * 64) 64 = some d → s.health.pstate ≠ 2 →
        let x := (s.fn fn).queue (link % 8)
        (x.tail + 2 ^ 32 - x.head) % 2 ^ 32 < 2 ^ x.size →
        u.setVaBytes (16 * fn + (s.fn fn).queueCtx (link % 8)) (x.base.toNat + 64 * (x.tail % 2 ^ x.size)) d = some w →
        (x.tail + 1) % 2 ^ 32 = x.tail + 1 → x.head ≤ x.tail → x.size < 32 →
        exec (.gateDecrement fn v) s = .next (w.setFn fn ((s.fn fn).setQueue (link % 8) { x with tail := x.tail + 1 }))))) ∧
  (∀ (s : State) fn ctx done status reln (dg : List Byte) a,
    done % 64 = 0 → s.vaAddr (16 * fn + ctx) done true = some a → dg.length = 32 → s.memNat (a + 16) 8 = 0 → s.memNat (a + 24) 8 = 0 →
    (∀ u : State, u.ctxs = s.ctxs → u.fns = s.fns → (∀ b, b < a ∨ a + 64 ≤ b → u.memByte b = s.memByte b) →
      u.walkPage (16 * fn + ctx) (done / 2 ^ 16) = s.walkPage (16 * fn + ctx) (done / 2 ^ 16)) →
    let t := s.writeCompletion fn ctx done status reln dg
    t.memNat a 4 = status % 2 ^ 32 ∧ t.memNat (a + 4) 4 = reln % 2 ^ 32 ∧ t.memNat (a + 8) 8 = s.tb.latest % 2 ^ 64 ∧ t.memBytes (a + 32) 32 = dg ∧
    (∀ b, b < a ∨ a + 64 ≤ b ∨ (a + 16 ≤ b ∧ b < a + 32) → t.memByte b = s.memByte b) ∧ { t with mem := s.mem } = s)

/-- R199 to R201, R215, R258, R259, R263: a command processor takes the next record of the highest ready queue, the functions of its pair in turn, which begins its launch or is
rejected with its reason; a die that has room takes a cluster index, each once, and its teams start on their cores with zeroed windows and registers; a
resumed cluster keeps its registers, windows and tiles. -/
def LaunchesBeginAndArePlaced : Prop :=
  (∀ pair s fn q, s.nextQueue pair = some (fn, q) →
    let x := (s.fn fn).queue q
    (fn, q) ∈ s.readyQueues pair ∧ (∀ r ∈ s.readyQueues pair, ((s.fn r.1).queue r.2).pri ≤ x.pri) ∧
    ∃ t, exec (.queueService pair) s = .next t ∧ Begins s t fn ((s.fn fn).queueCtx q) x.pri q (x.base.toNat + 64 * (x.head % 2 ^ x.size)) ∧
      ((t.fn fn).queue q).head = (x.head + 1) % 2 ^ 32 ∧ ((t.fn fn).queue q).last = s.nextLaunch ∧ (t.fn fn).turn = q ∧ t.groups = s.groups ∧
      mapGet 0 t.rotate pair = (fn + 1) % 64 ∧ (∀ p, p ≠ pair → mapGet 0 t.rotate p = mapGet 0 s.rotate p) ∧
      ∀ r ∈ s.readyQueues pair, ((s.fn r.1).queue r.2).pri = x.pri → r.1 ≠ fn →
        (fn + 64 - mapGet 0 s.rotate pair) % 64 ≤ (r.1 + 64 - mapGet 0 s.rotate pair) % 64) ∧
  (∀ die (rs : List (Nat × Nat × Nat)) i rs', takeIndex die rs = some (i, rs') → (rs.map (·.1)).Nodup →
    rs.Pairwise (fun a b => ∀ j, ¬ (a.2.1 ≤ j ∧ j < a.2.2 ∧ b.2.1 ≤ j ∧ j < b.2.2)) →
    (∃ r ∈ rs, r.2.1 ≤ i ∧ i < r.2.2) ∧ ∀ j, (∃ r ∈ rs', r.2.1 ≤ j ∧ j < r.2.2) ↔ j ≠ i ∧ ∃ r ∈ rs, r.2.1 ≤ j ∧ j < r.2.2) ∧
  (∀ die s lk cores i rs,
    let l := s.launch lk
    s.nextPlacement die = some (lk, none, cores) → takeIndex die l.ranges = some (i, rs) → l.r.groups ≤ 32 → (i + 1) * l.size ≤ 2 ^ 32 →
    ∃ t, exec (.clusterPlacement die) s = .next t ∧ (t.launch lk).ranges = rs ∧
      t.cluster (clusterKey lk i) = { Cluster.none with launch := lk, index := i, stage := .running, cores := cores } ∧
      ∀ r c, r < l.size → cores[r]? = some c →
        let tk := teamKey lk (i * l.size + r)
        ((t.team tk).core = c ∧ (t.team tk).present = true ∧ (t.team tk).stopped = false ∧ (t.team tk).win = [] ∧ (t.team tk).empty = [] ∧
          (t.team tk).tiles = [] ∧ (t.team tk).staging = []) ∧
        ∀ n, n < l.r.groups → Fresh l tk n (t.group (groupKey tk n))) ∧
  (∀ die s lk ck cores, s.nextPlacement die = some (lk, some ck, cores) →
    ∃ t, exec (.clusterResume die) s = .next t ∧ t.cluster ck = { s.cluster ck with stage := .running, cores := cores, staged := false } ∧
      (∀ k, (t.team k).win = (s.team k).win ∧ (t.team k).empty = (s.team k).empty ∧ (t.team k).tiles = (s.team k).tiles ∧
        (t.team k).staging = (s.team k).staging) ∧
      ∀ k, (t.group k).v = (s.group k).v ∧ (t.group k).s = (s.group k).s ∧ (t.group k).m = (s.group k).m ∧ (t.group k).j = (s.group k).j ∧
        ∀ l, ((t.group k).lane l).pc = ((s.group k).lane l).pc ∧ ((t.group k).lane l).stack = ((s.group k).lane l).stack ∧
          ((t.group k).lane l).flags = ((s.group k).lane l).flags)

-- EVENTS: CLOCKS AND TIME
/-- R312 to R314: a write of CLKFREQ arms a change for a %cyc value that is a multiple of 4,096 and at least 65,536 ahead, and is refused otherwise; each
region changes at its own cycle; at most 8 of any 64 cycles are stretched; the loss of the reference cancels an armed change and sends every region to
code 4. -/
def ClockRegions : Prop :=
  (∀ (v : DWord) s n, (s.fn 0).tdi ≠ .run → edgeMost s n →
    let at_ := s.clock.count.toNat
    let code := v.toNat % 16
    let ok := at_ % 4096 = 0 ∧ n + 65536 ≤ at_ ∧ code ≤ 4 ∧ (s.tb.refLost = true → code = 4)
    (ok → exec (.clkfreqWrite v) s = .next { s with clock := { s.clock with pend := true, next := code, at_ := at_, made := [], refused := false } }) ∧
    (¬ ok → exec (.clkfreqWrite v) s = .next { s with clock := { s.clock with refused := true } })) ∧
  (∀ bay s,
    let c := s.clock
    let cyc := (s.bay bay).cyc
    (bay ∈ c.forced → cyc % 4096 = 0 → exec (.clockFreqChange bay) s =
      .next (Changed s bay 4 { c with forced := c.forced.filter (· != bay), cur := if ∀ k ∈ c.forced, k = bay then 4 else c.cur })) ∧
    (bay ∉ c.forced ∨ cyc % 4096 ≠ 0 →
      (c.pend = false ∨ cyc < c.at_ ∨ bay ∈ c.made → exec (.clockFreqChange bay) s = .next s) ∧
      (c.pend = true → c.at_ ≤ cyc → bay ∉ c.made →
        ((∀ k, k < 64 → k ≠ bay → k ∈ c.made) → exec (.clockFreqChange bay) s =
          .next (Changed s bay c.next { c with pend := false, cur := c.next, made := [] })) ∧
        ((∃ k, k < 64 ∧ k ≠ bay ∧ k ∉ c.made) → exec (.clockFreqChange bay) s = .next (Changed s bay c.next { c with made := bay :: c.made }))))) ∧
  (∀ bay s,
    let b := s.bay bay
    let recent := b.stretch.filter fun c => b.cyc < c + 64
    (recent.length < 8 → exec (.cycleStretch bay) s = .next (s.setBay bay { b with stretch := recent ++ [b.cyc] })) ∧
    (8 ≤ recent.length → exec (.cycleStretch bay) s = .next s)) ∧
  (∀ s, ∃ t, exec .refLoss s = .next t ∧ t.tb = { s.tb with refLost := true } ∧ 
    t.clock = { s.clock with pend := false, made := [], forced := List.range 64 } ∧ Logged s t 7) ∧
  (∀ s, exec .refRestored s = .next { s with tb := { s.tb with refLost := false } }) ∧
  (∀ s, s.tb.refLost = true → ∃ t, exec .fallbackOscFail s = .next t ∧ t.clock = { s.clock with stopped := true } ∧ t.tb.state = 3 ∧
    Logged s.enterFailed t 7)

/-- R224, R282, R315 to R317, R345: est advances by one a tick and stands still with no oscillator; a tick that is a multiple of 250 starts a frame, in
pitches 1 and 2 the stamped traffic goes, in pitch 4 the scrub reads, and finds an armed word within 10 s (which words it reads in a frame is the
model's choice, log entry 68), and in pitch 5 the trace rings are drained; eps beyond EPSFAIL enters FAILED and two periods with no exchange enter
HOLDOVER, each with its interrupt; reacquire acts in FAILED alone; an exchange asks a parent, whose stamps give the child an interval that meets its
own and may begin the next frame. -/
def TheTimebase : Prop :=
  (∀ s, (s.clock.stopped = true → exec .timebaseTick s = .next s) ∧
    (s.clock.stopped = false → s.tb.est.toNat + 1 < 2 ^ 64 →
      let tb := { s.tb with est := s.tb.est + 1 }
      let k := tb.est.toNat % 250
      let u := { s with tb := pitchOver tb, outbox := s.outbox.filter fun l => match l.msg with | .timeAsk .. | .timeReply .. => false | _ => true }
      (k = 0 → exec .timebaseTick s = .next { s with tb := tb, agenda := s.agenda ++ [.event .frameStart] }) ∧
      (0 < k → k < 10 → exec .timebaseTick s = .next { s with tb := tb }) ∧
      (10 ≤ k → k ≠ 29 → k ≠ 40 → k ≠ 50 → exec .timebaseTick s = .next u) ∧
      (k = 29 → exec .timebaseTick s = .next { u with agenda := s.agenda ++ [.stamped] }) ∧
      (k = 40 → (s.armedTeam = none → exec .timebaseTick s = .next u) ∧ ∀ tk, s.armedTeam = some tk →
        let d := u.draw
        let found := d.2.findsAlone tk (4 * s.inject.off)
        exec .timebaseTick s = .next (if d.1.getLsbD 0 = true ∨ tb.est.toNat / 250 % 10000000 = 0 then found else d.2)) ∧
      (k = 50 → ∃ t, exec .timebaseTick s = .next t ∧ t.tb = pitchOver tb ∧ t.groups = s.groups ∧ t.teams = s.teams ∧ t.launches = s.launches ∧
        ∀ c, (t.core c).ring = [] ∧ (t.core c).all = (s.core c).all))) ∧
  (∀ s, (s.tb.state = 1 ∨ s.tb.state = 2 → s.tb.epsfail < s.tb.eps → ∃ t, exec .epsFail s = .next t ∧
      t.tb = failed s.tb ∧ Logged s.enterFailed t 7) ∧
    (s.tb.eps ≤ s.tb.epsfail → exec .epsFail s = .next s)) ∧
  (∀ s, s.tb.state = 1 →
    (2 * (250 * 2 ^ s.tb.pxlog) ≤ (s.tb.est - s.tb.lastOk).toNat → ∃ t, exec .holdoverEntry s = .next t ∧ t.tb = { s.tb with state := 2 } ∧ Logged s t 7) ∧
    ((s.tb.est - s.tb.lastOk).toNat < 2 * (250 * 2 ^ s.tb.pxlog) → exec .holdoverEntry s = .next s)) ∧
  (∀ s, (s.fn 0).tdi ≠ .run →
    (s.tb.state = 3 → exec .tbcmdReacquire s = .next { s with tb := { s.tb with reacq := true } }) ∧
    (s.tb.state ≠ 3 → exec .tbcmdReacquire s = .next s) ∧
    ∃ t, exec .tbcmdForceFailed s = .next t ∧ t.tb = failed s.tb ∧ Logged s.enterFailed t 7) ∧
  (∀ s, s.tb.pod = true → s.tb.ref = false → (s.tb.state = 3 → s.tb.reacq = true) →
    (∃ t, exec .timebaseExchange s = .next t ∧ Asks s t s.tb.par0 true) ∧
    (s.tb.retry = true → ∃ t, exec .par1Exchange s = .next t ∧
      Asks { s with tb := { s.tb with retry := false } } t s.tb.par1 false) ∧ (s.tb.retry = false → exec .par1Exchange s = .next s)) ∧
  (∀ s, (s.tb.pod = false → exec .timebaseExchange s = .next s) ∧
    ∀ e, (s.tb.ref = false → exec (.timeInputEdge e) s = .next s) ∧
      (s.tb.pod = false → s.tb.ref = true → exec (.timeInputEdge e) s = .next { s with tb := { s.tb with edge := true, tinLost := false } })) ∧
  (∀ i s src t1 t2, Comes s i src (.timeAsk t1 t2) → ∃ t, exec (.exchangeAtParent i) s = .next t ∧
    Posts (taken s i) t [(src, .timeReply t1 t2 s.tb.est (BitVec.ofNat 64 s.tb.epsRead) 0)]) ∧
  (∀ i s src (t1 t2 t3 eps t4 : DWord), Comes s i src (.timeReply t1 t2 t3 eps t4) →
    let its := fun (a : Asked) => a.t1 == t1 && (s.port a.port).peerPkg == src
    ((∀ a ∈ s.tb.asked, its a = false) → exec (.exchangeReply i) s = .next (taken s i)) ∧ ∀ a, s.tb.asked.find? its = some a →
    (eps.toNat = 2 ^ 64 - 1 → exec (.exchangeReply i) s =
      .next { taken s i with tb := { s.tb with asked := s.tb.asked.erase a, retry := s.tb.retry || a.first } }) ∧
    (eps.toNat ≠ 2 ^ 64 - 1 → ∃ t, exec (.exchangeReply i) s = .next t ∧
      Meets { s.tb with asked := s.tb.asked.erase a } t.tb
        ((t4.toNat : Int) + (((t2.toNat : Int) - t1.toNat) + ((t3.toNat : Int) - t4.toNat)) / 2) ((eps.toNat : Int) + 2) ∧
      FailsInto s t ∧ FramesBegin s t ∧ t.net = s.net.eraseIdx i)) ∧
  (∀ (e : DWord) s, s.tb.pod = true → s.tb.ref = true → ∃ t, exec (.timeInputEdge e) s = .next t ∧
    Meets { s.tb with edge := true, tinLost := false } t.tb e.toNat s.tb.refeps ∧ FailsInto s t ∧ FramesBegin s t)

/-- R282, R317, R318: what TBCFG and TBLIM were given takes effect at the next frame, a TBLIM out of its ranges never; the frame starts the scheduled
exchange where it is due, and in this one frame the extra one with PAR1 where the last frame's exchange failed. -/
def TheFrame : Prop :=
  (∀ (v : DWord) s, (s.fn 0).tdi ≠ .run → exec (.tbcfgWrite v) s = .next { s with tb := { s.tb with newCfg := some v } }) ∧
  (∀ (v : DWord) s, (s.fn 0).tdi ≠ .run →
    let d := v.toNat / 2 ^ 16 % 2 ^ 16
    let ok := 256 ≤ d ∧ v.toNat % 2 ^ 16 ≠ 0 ∧ (d = s.tb.dlvb ∨ s.stampedMapped = false)
    (ok → exec (.tblimWrite v) s = .next { s with tb := { s.tb with newLim := some v } }) ∧ (¬ ok → exec (.tblimWrite v) s = .next s)) ∧
  (∀ s, ∃ t, exec .frameStart s = .next t ∧ { t with tb := s.tb, agenda := s.agenda, groups := s.groups } = s ∧ FailsInto s t ∧
    t.tb.asked = [] ∧ t.tb.edge = false ∧ t.tb.tinLost = (t.tb.ref && !s.tb.edge) ∧
    (s.tb.newCfg = none → s.tb.newLim = none → t.tb = { pitchOver s.tb with tinLost := s.tb.ref && !s.tb.edge, edge := false, retry := (pitchOver s.tb).retry && s.tb.exchanges }) ∧
    (∀ v, s.tb.newCfg = some v → t.tb.pod = v.toNat.testBit 49 ∧ t.tb.ref = v.toNat.testBit 48 ∧ t.tb.newCfg = none ∧
      t.tb.drift = v.toNat / 2 ^ 16 % 2 ^ 16 ∧ t.tb.driftfb = v.toNat % 2 ^ 16 ∧
      ((v.toNat.testBit 49 = s.tb.pod ∧ v.toNat.testBit 48 = s.tb.ref) → t.tb.state = s.tb.state) ∧
      ((v.toNat.testBit 49 ≠ s.tb.pod ∨ v.toNat.testBit 48 ≠ s.tb.ref) → t.tb.state = if v.toNat.testBit 49 then 3 else 0)) ∧
    (∀ v, s.tb.newLim = some v → t.tb.epsfail = v.toNat / 2 ^ 40 % 2 ^ 24 ∧ t.tb.refeps = v.toNat / 2 ^ 32 % 2 ^ 8 ∧
      t.tb.dlvb = v.toNat / 2 ^ 16 % 2 ^ 16 ∧ t.tb.epslim = v.toNat % 2 ^ 16 ∧ t.tb.newLim = none) ∧
    let exchanges := t.tb.pod = true ∧ t.tb.ref = false ∧ (t.tb.state = 3 → t.tb.reacq = true)
    (exchanges → t.agenda = s.agenda ++ (if t.tb.retry then [.event .par1Exchange] else []) ++
      if t.tb.est.toNat / 250 * 250 % (250 * 2 ^ t.tb.pxlog) = 0 then [.event .timebaseExchange] else []) ∧
    (¬ exchanges → t.agenda = s.agenda))

-- EVENTS: PORTS AND LINKS
/-- R286 to R288: a port accepts the flit that follows the last it accepted, acknowledges it, and answers any other, or a failed CRC, with a NAK; a NAK,
a message or the bit of a flit, sends again every flit after the one it names; every flit on a link has 256 bytes, its sequence number, its TYPE, the number
of the last that the port has accepted and its CRC; more than 16 replays of a window bring one corrected-error interrupt, and more than 256, or 8 of one
flit, retraining, with the unacknowledged messages sent by the other ports under the sequence numbers they had, so that none is delivered twice;
retraining of 10 ms ends with the port down. -/
def PortsDeliverInOrder : Prop :=
  (∀ port flit s, (s.port port).state = 2 →
    let p := s.port port
    let w := fun (o : Nat) => ofBytes ((flit.raw.drop o).take 2)
    let seq := w 0 % 4096
    let ack := w 2 % 4096
    let good := flit.raw.length = 256 ∧ ofBytes ((flit.raw.drop 252).take 4) = crc32 (flit.raw.take 252) ∧ w 0 / 4096 < 7 ∧ seq = (p.lastIn + 1) % 4096
    let p1 := { p with buffer := unacked p ack, lastIn := seq }
    let q := s.setPort port (if p.owed = none ∧ w 0 / 4096 = 0 then p1 else idleAfter p1 false)
    (good → ∃ u, ((w 2).testBit 12 = false → u = q) ∧ ((w 2).testBit 12 = true → exec (.nakReceive port ack) q = .next u) ∧
      (flit.body = [] → exec (.flitReceive port flit) s = .next u) ∧
      ∀ l, flit.body = [l] →
        let mine := l.again.filter fun a => a.1 == s.pkg
        let behind := fun (k num : Nat) => (((u.port k).lastIn : Int) - num) % 4096
        let m := { l with again := l.again.filter fun a => a.1 != s.pkg }
        let v := mine.foldl (fun s a => s.setPort a.2.1 { s.port a.2.1 with lastIn := a.2.2 }) u
        ((∃ a ∈ mine, behind a.2.1 a.2.2 < 2048) → exec (.flitReceive port flit) s = .next u) ∧
        ((∀ a ∈ mine, 2048 ≤ behind a.2.1 a.2.2) →
          (l.to_ ≠ s.pkg → exec (.flitReceive port flit) s = .next { v with outbox := v.outbox ++ [m] }) ∧
          (l.to_ = s.pkg → keptWhole s.pkg l.msg → exec (.flitReceive port flit) s = .next { v with net := v.net ++ [m] }) ∧
          (∀ g n st id, l.to_ = s.pkg → l.msg = .numbered g n st id s.pkg →
            exec (.flitReceive port flit) s = .next { v with net := v.net ++ [m], pendings := placedAt s s.pkg id }) ∧
          (∀ g st, l.to_ = s.pkg → l.msg = .stampReply g true st → exec (.flitReceive port flit) s =
            .next { v with pendings := s.pendings.filter fun p => !(p.grp == g && p.kind == 4 && p.group == st.toNat) }) ∧
          (∀ t1 t2, l.to_ = s.pkg → l.msg = .timeAsk t1 t2 → exec (.flitReceive port flit) s =
            .next { v with net := v.net ++ [{ m with msg := .timeAsk t1 s.tb.est }] }))) ∧
    (¬ good → exec (.flitReceive port flit) s = .next (s.setPort port (idleAfter p true)))) ∧
  (∀ port seq s, ∃ t, exec (.nakReceive port seq) s = .next t ∧ SendsAgain s t port { s.port port with buffer := unacked (s.port port) seq }) ∧
  (∀ f : FlitSent, f.typ < 16 → let b := f.bytes
    b.length = 256 ∧ ofBytes (b.take 2) = f.seq % 4096 + 4096 * f.typ ∧ ofBytes ((b.drop 2).take 2) = f.ack % 4096 + (if f.nak then 4096 else 0) ∧
    ofBytes ((b.drop 252).take 4) = crc32 (b.take 252)) ∧
  (∀ port s, (s.port port).state = 2 →
    let p := s.port port
    let raises := 16 < p.window ∧ p.raised = false
    let retrains := p.window = 257 ∨ ∃ f ∈ p.buffer, 8 ≤ f.tries
    ∃ t u, exec (.replayThreshold port) s = .next t ∧ (raises → Logged s u 0 ∧ u.port port = { p with cei := true, raised := true }) ∧
      (¬ raises → u = s) ∧ (¬ retrains → t = u) ∧
      (retrains → (t.port port).state = 3 ∧ (t.port port).buffer = (p.buffer.map fun f => { f with tries := 0 }) ∧
        (t.port port).since = s.tb.est.toNat ∧ Logged u t 1 ∧
        t.outbox = (p.buffer.filterMap fun f => if f.last then f.part.map fun q => { q.1 with again := (p.peerPkg, p.peer, f.seq) :: q.1.again } else none) ++
          s.outbox.map fun l => if s.portTo (s.via l) = some port then { l with parts := 0 } else l)) ∧
  (∀ port s, (s.port port).state = 1 ∨ (s.port port).state = 3 → ∃ t, exec (.portRetrainComplete port) s = .next t ∧
    ((s.port port).buffer = [] → t = s.setPort port { s.port port with state := 2 }) ∧
    ((s.port port).buffer ≠ [] → SendsAgain s t port { s.port port with state := 2 })) ∧
  (∀ port s, (s.port port).state = 3 →
    ((s.port port).since + 2500000 ≤ s.tb.est.toNat → ∃ t, exec (.portRetrainTimeout port) s = .next t ∧
      t.port port = { s.port port with state := 0, buffer := [] } ∧ Logged s t 1) ∧
    (s.tb.est.toNat < (s.port port).since + 2500000 → exec (.portRetrainTimeout port) s = .next s))

/-- R8, R341: a beat is replayed up to eight times, and its link is then retired: the launches with a team on its dies stop with LINK_UNCORR and the pair
leaves every partition. Links 0 to 31 are the rows of the pair edges, 32 to 35 the bench links, 36 to 43 the stack links (log entry 70). -/
def DovetailLinksRetire : Prop :=
  (∀ link s,
    let n := mapGet 0 s.links link
    (44 ≤ link → ∀ ok, exec (.dovetailParityReplay link ok) s = .next s) ∧
    (link < 44 → n < 8 → exec (.dovetailParityReplay link true) s = .next { s with links := mapSet 0 s.links link 0 }) ∧
    (link < 44 → n < 7 → exec (.dovetailParityReplay link false) s = .next { s with links := mapSet 0 s.links link (n + 1) }) ∧
    (link < 44 → n = 7 → exec (.dovetailParityReplay link false) s =
      .next { s with links := mapSet 0 s.links link 8, agenda := s.agenda ++ [.event (.dovetailLinkRetire link)] })) ∧
  (∀ link s, mapGet 0 s.links link = 8 →
    let pair := if link < 32 then link / 16 else if link < 36 then (link - 32) / 2 else (link - 36) / 4
    let uses := fun lk => ∃ p ∈ s.clusters, p.2.launch = lk ∧ p.2.onCores = true ∧ ∃ c ∈ p.2.cores, dieOf c / 2 = pair
    ∃ t, exec (.dovetailLinkRetire link) s = .next t ∧ t.groups = s.groups ∧ t.err.st = s.err.st ||| 4 ∧
      (∀ p ∈ s.launches, (s.launch p.1) = p.2 → p.2.active = true → uses p.1 → Killed s t p.1 0x1D) ∧
      (∀ lk, ¬ uses lk → t.launch lk = s.launch lk ∧ ∀ k, teamLaunch k = lk → t.team k = s.team k) ∧
      ∀ f, f ∈ mapKeys s.fns → (mapKeys s.fns).Nodup → (t.fn f).part.testBit pair = false ∧ ∀ b, b ≠ pair → (t.fn f).part.testBit b = (s.fn f).part.testBit b)

-- EVENTS: STEWARDS
/-- R224, R225, R339, R342 to R344, R347 to R349: an image is asked of the bay of its team, one message at a time, for the next slot and count of its
function; it is built, from the sections of the team or from what a steward hands to the security block, and written to its slot, and reported in the
order of the counts; then the ring counts it, the log holds its envelope and the launch waits for one less. An uncorrectable word stops its team; 256
words corrected in one hour, or 256 beats of a stack, are logged; the messages of a bay have their own sequence, and one waits while an earlier stands; the fields of those reports are the model's choice (log entry 73). -/
def StewardsWriteImages : Prop :=
  (∀ bay q s, (s.bay bay).inbox = none → (s.bay bay).job = none →
    let b := s.bay bay
    let fn := (s.launch q.launch).fn
    let f := s.fn fn
    let slot := f.dumph.toNat + (s.imagesAhead fn).length
    ∃ t, exec (.imageReq bay q) s = .next t ∧ t.images = s.images.erase q ∧ t.fn fn = { f with images := f.images + 1 } ∧
      t.bay bay = { b with
        inbox := some (mail 1 bay b.seq (bytesOf 2 q.core ++ bytesOf 4 q.team ++ bytesOf 1 q.code ++ bytesOf 1 q.code2 ++
          bytesOf 8 (f.dumpb.toNat + slot % max f.dumpSlots 1 * f.dumpSize) ++ bytesOf 2 s.pkg ++ bytesOf 2 0 ++ bytesOf 8 f.images))
        seq := b.seq + 1, job := some { q with slot := slot, num := f.images }, done := none }) ∧
  (∀ bay q s, (s.bay bay).job = some q → (s.bay bay).done = none →
    (∀ (addr : DWord),
      let read := (List.range (ofBytes (((s.bay bay).outbox.drop 8).take 4))).map fun i => addr.toNat + i
      let byte := fun (u : State) (a : Nat) => match u.stewardPlace bay a with
        | some (.vault tk off) => if off / 4 ∈ (u.team tk).bad then 0 else u.stewardByte bay a
        | _ => u.stewardByte bay a
      ∀ u, (s.badRead (read.filterMap (s.stewardPlace bay)) = none ∧ u = s) ∨
          (∃ tk off, s.badRead (read.filterMap (s.stewardPlace bay)) = some (.vault tk off) ∧ u = s.findsAlone tk off) →
        ∃ t, exec (.sseal bay addr) s = .next t ∧ ImageWritten u t bay q [read.map (byte u)]) ∧
    ImageWritten s (s.sealBody bay s.imageSections) bay q (s.imageSections (teamKey q.launch q.team))) ∧
  (∀ bay addr s, (s.bay bay).job = none ∨ (s.bay bay).done ≠ none → exec (.sseal bay addr) s = .next s) ∧
  (∀ bay lk size flags q env s, (s.bay bay).job = some q → (s.bay bay).done = some (true, env) → q.launch = lk →
    (∃ r ∈ s.imagesAhead (s.launch lk).fn, r.num < q.num) → exec (.imageDone bay lk size flags) s = .next s) ∧
  (∀ bay lk size flags q w env s, (s.bay bay).job = some q → (s.bay bay).done = some (w, env) → q.launch = lk →
    (w = true → ∀ r ∈ s.imagesAhead (s.launch lk).fn, q.num ≤ r.num) →
    ∃ t, exec (.imageDone bay lk size flags) s = .next t ∧
      t.bay bay = mailed { s.bay bay with job := none, done := none, inbox := none } 2 bay (bytesOf 4 size ++ bytesOf 4 flags) ∧
      t.fn (s.launch lk).fn = (if w then { s.fn (s.launch lk).fn with dumph := (s.fn (s.launch lk).fn).dumph + 1 } else s.fn (s.launch lk).fn) ∧
      t.launch lk = { s.launch lk with pending := (s.launch lk).pending - 1 } ∧ t.err.st = s.err.st ||| 2 ^ 8 ∧ (s.err.lb = 0 → t.mem = s.mem)) ∧
  (∀ bay r s, r.kind = 6 → ∃ u, Logged s u 6 ∧ exec (.err bay r) s = .next (u.wordError bay r.detail.toNat) ∧
    u.bay bay = mailed (s.bay bay) 3 bay (bytesOf 4 6 ++ bytesOf 4 r.unit_ ++ bytesOf 8 r.detail.toNat) ∧
    let v := r.detail.toNat / 2 ^ 32
    ∀ tk, r.detail.toNat / 16 % 4 = 0 → u.vaultHolder (bayCore bay (r.detail.toNat % 16)) v = some tk →
      let t := u.team tk
      exec (.err bay r) s =
        .next (((u.traceTeam tk 0x07).setTeam tk { t with bad := t.bad ++ if t.base ≤ v then [(v - t.base) / 4] else [] }).wordFails tk 0x07 0)) ∧
  (∀ bay r s, r.kind = 9 →
    let k := bayCore bay (r.detail.toNat % 16)
    let i := r.detail.toNat / 2 ^ 32
    ∃ t, exec (.err bay r) s = .next t ∧ { t with cores := s.cores } = s ∧ (i < (s.core k).ring.length →
      (t.core k).ring = (s.core k).ring.eraseIdx i ∧ (t.core k).head = (s.core k).head - 1 ∧ (t.core k).lost = min ((s.core k).lost + 1) (2 ^ 32 - 1))) ∧
  (∀ bay r s, r.kind = 10 →
    let recent := (s.bay bay).ces.filter fun t => s.tb.est.toNat < t + 3600 * 250000000
    (recent.length < 255 → exec (.err bay r) s = .next (s.setBay bay { s.bay bay with ces := recent ++ [s.tb.est.toNat] })) ∧
    (255 ≤ recent.length → ∃ t, exec (.err bay r) s = .next t ∧ Logged s t 5 ∧ (t.bay bay).ces = [])) ∧
  (∀ bay r s, r.kind = 11 →
    let n := mapGet 0 s.err.hbm r.unit_ + 1
    (n < 256 → exec (.err bay r) s = .next { s with err := { s.err with hbm := mapSet 0 s.err.hbm r.unit_ n } }) ∧
    (256 ≤ n → ∃ t, exec (.err bay r) s = .next t ∧ Logged s t 3 ∧ mapGet 0 t.err.hbm r.unit_ = 0 ∧
      t.bay bay = mailed (s.bay bay) 3 bay (bytesOf 4 3 ++ bytesOf 4 r.unit_ ++ bytesOf 8 256))) ∧
  (∀ bay r s, r.kind = 12 → exec (.err bay r) s = .next { s with err := { s.err with hbm := mapSet 0 s.err.hbm r.unit_ 0 } }) ∧
  (∀ bay r s, r.kind < 9 → r.kind ≠ 6 → ∃ t, exec (.err bay r) s = .next t ∧ Logged s t r.kind ∧
    t.bay bay = mailed (s.bay bay) 3 bay (bytesOf 4 r.kind ++ bytesOf 4 r.unit_ ++ bytesOf 8 r.detail.toNat) ∧
    (r.kind = 4 → granule r.detail.toNat ∈ t.poisoned) ∧ (r.kind ≠ 4 → t.poisoned = s.poisoned)) ∧
  (∀ bay test cores s, (s.bay bay).inbox = none → exec (.diagReq bay test cores) s =
    .next (s.setBay bay { s.bay bay with inbox := some (mail 4 bay (s.bay bay).seq (bytesOf 4 test ++ bytesOf 4 cores.toNat)), seq := (s.bay bay).seq + 1 })) ∧
  (∀ bay (r : DWord) s, exec (.diagDone bay r) s =
    .next (s.setBay bay (mailed { s.bay bay with inbox := none } 5 bay (bytesOf 8 r.toNat))))

/-- R11, R348: a doorbell write raises or consumes a message; SSTOP stops the teams of the cores it names and holds the cores, and SGO releases them; a
steward writes a team's window only while the team is stopped or has ended. -/
def StewardsStopCores : Prop :=
  (∀ (s : State) core v b tk, s.windowAt core v = some tk →
    let t := s.team tk
    let off := v - t.base
    (t.stopped = false → s.teamEnded tk = false → s.setVaultByte core v b = s) ∧
    (t.stopped = true ∨ s.teamEnded tk = true → t.bline (off / 128) = none → s.setVaultByte core v b = s.setTeam tk (t.setByte off b))) ∧
  (∀ bay (v : BitVec 2) s, exec (.smbx bay v) s =
    .next (s.setBay bay { s.bay bay with ready := (s.bay bay).ready || v.getLsbD 0, inbox := if v.getLsbD 1 then none else (s.bay bay).inbox })) ∧
  (∀ bay cores s, ∃ t, exec (.sstop bay cores) s = .next t ∧ t.groups = s.groups ∧ t.mem = s.mem ∧ t.launches = s.launches ∧
    (∀ c, Named bay cores c → (t.core c).held = true ∧ ∀ tk ∈ s.resident [] c, (t.team tk).stopped = true) ∧
    (∀ c, ¬ Named bay cores c → (t.core c).held = (s.core c).held) ∧
    ∀ tk, (∀ c, Named bay cores c → tk ∉ s.resident [] c) → t.team tk = s.team tk) ∧
  (∀ bay cores s, ∃ t, exec (.sgo bay cores) s = .next t ∧ t.groups = s.groups ∧ t.mem = s.mem ∧
    (∀ c, Named bay cores c → (t.core c).held = false) ∧
    (∀ c tk, Named bay cores c → (s.core c).held = true → tk ∈ s.resident [] c → (s.launch (teamLaunch tk)).active = true →
      (s.launch (teamLaunch tk)).fatal = none → (s.team tk).dead = false → t.team tk = { s.team tk with stopped := false }) ∧
    ∀ tk, (∀ c, Named bay cores c → (s.core c).held = true → tk ∉ s.resident [] c) → t.team tk = s.team tk)

-- EVENTS: SELF-TEST, FIRMWARE, CHECKPOINTS, POWER
/-- R356 to R358: a self-test goes through its steps, each of which adds the units that it finds failed; with none the module runs, and otherwise it is in its
safe state, with the units and the step that first found one. The ROM runs the active bank's image, or the other's where that one does not verify, is below the
fuse or has not reached step 6 in three boots in a row; the image that it runs raises the fuse. STAGE takes a new image into the inactive bank, which verification
finds staged, badly signed or below the minimum SVN, and a reset makes a staged image the active one. -/
def SelfTestAndFirmware : Prop :=
  (∀ units s,
    let b := if s.health.diag = 1 ∧ s.health.test = none then s else s.afterReset
    exec (.powerUpSelfTest units) s = .next { b with health := { b.health with test := some (1, units) } }) ∧
  (∀ (s : State) k units, s.health.test = some (k, units) → 1 ≤ k → k ≤ 6 →
    let f := s.fw
    let runs := fun bank => signedImage (f.image bank) && decide (f.fuse ≤ imageSvn (f.image bank))
    let stepOf := fun u => if u < 8 then 6 else if u < 40 then 5 else if u < 58 then 4 else if u = 59 then 2 else 3
    let failed := fun u => u < 61 ∧ units.getLsbD u = true ∧ stepOf u = k ∨ k = 1 ∧ u = 58 ∧ runs f.active = false ∧ runs (1 - f.active) = false
    let bank := if runs f.active = true ∧ (f.boots < 3 ∨ runs (1 - f.active) = false) then f.active else 1 - f.active
    let t := s.selfTestStep
    (∀ u, u < 64 → (t.health.diagu.getLsbD u = true ↔ s.health.diagu.getLsbD u = true ∨ failed u)) ∧
    t.health.nfail = ((List.range 61).filter fun u => t.health.diagu.getLsbD u).length ∧
    ((s.health.first = 0 ∧ ∃ u, failed u) → t.health.first = k) ∧ (¬ (s.health.first = 0 ∧ ∃ u, failed u) → t.health.first = s.health.first) ∧
    (k < 6 → OnlyHealth s t ∧ t.health.test = some (k + 1, units) ∧ t.health.pstate = s.health.pstate ∧ t.health.diag = s.health.diag) ∧
    (k = 6 → t.health.test = none ∧ (t.health.nfail = 0 → t.health.pstate = 1 ∧ t.health.diag = 0 ∧ (∀ p, p < 12 → (t.port p).state = 1) ∧
        t.groups = s.groups ∧ t.mem = s.mem) ∧
      (t.health.nfail ≠ 0 → OnlyHealth s t ∧ t.health.pstate = 2 ∧ t.health.diag = 2)) ∧
    t.fw = (if k = 1 ∧ (runs f.active = true ∨ runs (1 - f.active) = true) then
        { f with active := bank, fuse := max f.fuse (imageSvn (f.image bank)), boots := if bank = f.active then f.boots + 1 else 1 }
      else if k = 6 ∧ s.health.first = 0 then { f with boots := 0 } else f)) ∧
  (∀ v s, (s.fn 0).tdi ≠ .run → v.getLsbD 0 = true → s.fw.st ≠ 1 →
    let a := 2 ^ 53 + s.fw.base.toNat % 2 ^ 52
    let n := ofBytes ((s.memBytes a 64).drop 12 |>.take 8)
    ∃ t, exec (.fwStage v) s = .next t ∧ { t with fw := s.fw } = s ∧ { t.fw with st := s.fw.st, banks := s.fw.banks } = s.fw ∧ t.fw.st = 1 ∧
      t.fw.image (1 - s.fw.active) = s.memBytes a (64 + n + 64) ∧ t.fw.image s.fw.active = s.fw.image s.fw.active) ∧
  (∀ v s, (s.fn 0).tdi ≠ .run → s.fw.st = 1 ∨ v.getLsbD 0 = false → exec (.fwStage v) s = .next s) ∧
  (∀ s, s.fw.st = 1 →
    let d := s.fw.image (1 - s.fw.active)
    exec .fwVerifyComplete s = .next { s with fw := { s.fw with st := if signedImage d = false then 3 else if imageSvn d < s.fw.fuse then 4 else 2 } }) ∧
  (∀ s, s.fw.st ≠ 1 → exec .fwVerifyComplete s = .next s) ∧
  (∀ s : State, s.afterReset.fw.st = 0 ∧ s.afterReset.fw.banks = s.fw.banks ∧ s.afterReset.fw.fuse = s.fw.fuse ∧
    s.afterReset.fw.active = if s.fw.st = 2 then 1 - s.fw.active else s.fw.active)

/-- R360 to R363: a write of CKT arms a checkpoint; past T, with no group held for a stamp up to T, the clusters leave, and past T + D, with all saved, the
module's state and ranges go to the buddy's other slot and the clusters resume; the buddy writes them at its base and acknowledges; the acknowledgement makes that
slot the last complete one, and without it FAIL is set and the last one stands. In a recovery the spare, once its timebase is LOCKED, restores the failed module's
checkpoint under its %pkg, and another module of the job its own; where the digest does not match the launches end with ACCESS, and the older slot is tried. -/
def CheckpointsAndRecovery : Prop :=
  (∀ v s, (s.fn 0).tdi ≠ .run →
    (s.ck.busy = false → s.ck.en = true → exec (.cktWrite v) s = .next { s with ck := { s.ck with t := v, busy := true, stage := 1 } }) ∧
    (s.ck.busy = true ∨ s.ck.en = false → exec (.cktWrite v) s = .next s)) ∧
  (∀ s,
    let ended := { s.ck with stage := 0, busy := false, fail := true, next := none }
    let holds := ∃ p ∈ s.groups, ∃ st, p.2.hold = some st ∧ st.toNat ≤ s.ck.t.toNat
    let ready := (∀ p ∈ s.clusters, p.2.onCores = true → s.clusterOver p.1 = true) ∧ s.ck.t.toNat + s.tb.dlvb < s.tb.earliest
    (s.ck.stage = 1 → s.tb.earliest ≤ s.ck.t.toNat ∨ holds → exec .checkpointStart s = .next s) ∧
    (s.ck.stage = 1 → s.ck.t.toNat < s.tb.earliest → ¬ holds → ∃ t, exec .checkpointStart s = .next t ∧ t.ck = { s.ck with stage := 2 } ∧ t.mem = s.mem ∧
      t.groups = s.groups ∧ ∀ p ∈ s.clusters, (s.cluster p.1).stage = .running → (t.cluster p.1).stage = .leaving) ∧
    (s.ck.stage = 2 → ¬ ready → exec .checkpointStart s = .next s) ∧
    (s.ck.stage = 2 → ready → s.ckBytes = none → exec .checkpointStart s = .next { s with ck := ended }) ∧
    ∀ bs, s.ck.stage = 2 → ready → s.ckBytes = some bs →
      (384 * 2 ^ 30 < bs.length ∨ s.unreachable s.ck.buddy = true → exec .checkpointStart s = .next { s with ck := ended }) ∧
      (bs.length ≤ 384 * 2 ^ 30 → s.unreachable s.ck.buddy = false → s.ck.buddy ≠ s.pkg → ∃ t, exec .checkpointStart s = .next t ∧
        Posts { s with ck := { s.ck with
          stage := 3, next := some { groups := s.groups, teams := s.teams, clusters := s.clusters, launches := s.launches } } } t
          [(s.ck.buddy, .ckWrite s.ck.base.toNat (1 - s.ck.slot) bs)])) ∧
  (∀ src base slot bs (s : State), src ≠ s.pkg →
    let t := s.deliver { to_ := s.pkg, from_ := src, msg := .ckWrite base slot bs }
    (s.health.pstate = 2 ∨ 3 * 2 ^ 39 < base + 768 * 2 ^ 30 → Posts s t [(src, .ckAck false)]) ∧
    (s.health.pstate ≠ 2 → base + 768 * 2 ^ 30 ≤ 3 * 2 ^ 39 →
      Posts ({ s with ck := { s.ck with kept := some base } }.setMemBytes (2 ^ 52 + base + slot * (384 * 2 ^ 30)) bs) t [(src, .ckAck true)])) ∧
  (∀ s ack, s.ck.stage = 3 →
    let n := s.net.filter fun l => l.msg != .ckAck ack
    (ack = true → exec (.checkpointComplete ack) s =
      .next { s with
        net := n, ck := { s.ck with
          stage := 0, busy := false, slot := 1 - s.ck.slot, last := s.ck.t, next := none, snaps := mapSet none s.ck.snaps (1 - s.ck.slot) s.ck.next } }) ∧
    (ack = false → exec (.checkpointComplete ack) s =
      .next { s with net := n, ck := { s.ck with stage := 0, busy := false, fail := true, next := none } })) ∧
  ∀ failed (r : Restore) s,
    let body := r.bytes.take (r.bytes.length - 32)
    let good := 32 ≤ r.bytes.length ∧ r.bytes.drop (r.bytes.length - 32) = sha256 body
    let filled := fun (t : State) => ∀ a, a / 64 ∉ mapKeys s.lines → t.memByte a =
      (((r.places.zip (body.drop (body.length - r.places.length))).filter fun p => p.1 = a).getLast?.map (·.2)).getD (s.memByte a)
    let lost := fun (u t : State) => ∀ p ∈ u.launches, u.launch p.1 = p.2 → p.2.active = true → (t.launch p.1).fatal = some (p.2.fatal.getD 0x05)
    let chosen := (r.spare = s.pkg ∧ failed ≠ s.pkg ∧ s.health.pstate = 1) ∨ (s.ck.spare = true ∧ failed = s.pkg)
    let slot := if r.older then 1 - s.ck.slot else s.ck.slot
    (chosen →
      let s1 := { s with pkg := failed % 4096, ck := { s.ck with spare := true } }
      let u := match savedTeams r.bytes with | some k => s1.restoreTeams k | none => s1
      (s.tb.state ≠ 1 → exec (.moduleFailureTakeover failed r) s = .next s1) ∧
      (s.tb.state = 1 → ∃ t, exec (.moduleFailureTakeover failed r) s = .next t ∧ t.pkg = failed % 4096 ∧
        (good → filled t ∧ t.ck.spare = false ∧ HoldsSaved t { groups := u.groups, teams := u.teams, clusters := u.clusters, launches := u.launches }) ∧
        (¬ good → t.mem = s.mem ∧ t.ck.spare = true ∧ lost u t))) ∧
    (¬ chosen → failed = s.pkg ∨ r.spare = s.pkg → exec (.moduleFailureTakeover failed r) s = .next s) ∧
    (¬ chosen → failed ≠ s.pkg → r.spare ≠ s.pkg →
      (∀ k, good → mapGet none s.ck.snaps slot = some k → ∃ t, exec (.moduleFailureTakeover failed r) s = .next t ∧ t.pkg = s.pkg ∧ filled t ∧
        HoldsSaved t k ∧ ∀ g m, t.member g = some m → m.stale = true) ∧
      (¬ good ∨ mapGet none s.ck.snaps slot = none → ∃ t, exec (.moduleFailureTakeover failed r) s = .next t ∧ mapGet none t.ck.snaps slot = none ∧
        lost s t ∧ ∀ g m, t.member g = some m → m.stale = true))

/-- R364: above 3.6 kW matrix issue is paced, and above it still the frequency code rises; at 5 % below the settings return; at 105 °C code 4 is scheduled, and at 115 °C
the module loses its power with no completion block. -/
def PowerAndTemperature : Prop :=
  (∀ w s, 3600 < w → s.health.pacing = false → ∃ t, exec (.powerLimitExceeded w) s = .next t ∧
    t.health = { s.health with watts := w, pacing := true, before := s.clock.cur } ∧ t.clock = s.clock ∧ Logged s t 7) ∧
  (∀ w s n, 3600 < w → s.health.pacing = true → edgeMost s n → s.tb.refLost = false → ∃ t, exec (.powerLimitExceeded w) s = .next t ∧
    t.health = { s.health with watts := w } ∧ Logged s t 7 ∧ t.clock.pend = true ∧ t.clock.next = min (s.clock.cur + 1) 4 ∧
    t.clock.count = BitVec.ofNat 64 t.clock.at_ ∧ t.clock.at_ % 4096 = 0 ∧ n + 65536 ≤ t.clock.at_) ∧
  (∀ w s, w ≤ 3600 → exec (.powerLimitExceeded w) s = .next { s with health := { s.health with watts := w } }) ∧
  (∀ w s, s.health.pacing = true → w ≤ 3420 → ∃ t, exec (.powerLimitCleared w) s = .next t ∧ t.health = { s.health with watts := w, pacing := false } ∧
    t.groups = s.groups ∧ (s.clock.cur = s.health.before → t.clock = s.clock)) ∧
  (∀ w s, s.health.pacing = false ∨ 3420 < w → exec (.powerLimitCleared w) s = .next { s with health := { s.health with watts := w } }) ∧
  (∀ j s n, 105 ≤ j → edgeMost s n → ∃ t, exec (.thermalThrottle j) s = .next t ∧ t.health = { s.health with tj := j } ∧ Logged s t 7 ∧
    t.clock.pend = true ∧ t.clock.next = 4 ∧ t.clock.count = BitVec.ofNat 64 t.clock.at_ ∧ t.clock.at_ % 4096 = 0 ∧ n + 65536 ≤ t.clock.at_) ∧
  (∀ j s, j < 105 → exec (.thermalThrottle j) s = .next { s with health := { s.health with tj := j } }) ∧
  (∀ j s, 115 ≤ j → ∃ t, exec (.thermalTrip j) s = .next t ∧ { t with health := s.health } = s ∧ t.health.powered = false ∧ step t = .fault .noPower) ∧
  (∀ j s, j < 115 → exec (.thermalTrip j) s = .next { s with health := { s.health with tj := j } })

-- EVENTS: SECURE SESSIONS

end Sys2Proof.Claims

open Sys2Proof Sys2Proof.Machine Sys2Proof.Claims

/-- R37 to R39, R49: thirteen words written from the strips of the head and of the extensions decode to the instructions they stand for. -/
def Obligations.WordsDecode : Prop :=
  decodeTableWord 64 0x80040180010 =
    some (.addInt { blank with d := .v 3, a := { unused with op := .v 1 }, b := { unused with op := .v 2 } }) ∧
  decodeTableWord 96 0x30500084078200219 =
    some (.fma { blank with len := .l96, d := .v 4, dc := true, ds := 3, a := { unused with op := .v 1, neg := true }, b := { unused with op := .v 2 }, c := { unused with op := .v 3 }, ty := .f32, x6 := 1 }) ∧
  decodeTableWord 64 0x3840046081400 =
    some (.cmp { blank with fn := 2, d := .m 1, a := { unused with op := .v 1 }, b := { unused with op := .special .lane } }) ∧
  decodeTableWord 64 0x140000080082480 =
    some (.cvt { blank with fn := 4, d := .v 1, a := { unused with op := .v 2 }, ty := .bf16 }) ∧
  decodeTableWord 96 0xFFFFC0000000000000048501 =
    some (.br { blank with len := .l96, g := 1, gn := true, ext := 0xFFFFC }) ∧
  decodeTableWord 64 0x40080040180D90 =
    some (.ladd { blank with fn := 1, d := .v 3, a := { unused with op := .v 1 }, b := { unused with op := .v 2 }, ty := .n32 }) ∧
  decodeTableWord 128 0x908000FFFFFFFFF800400C2080080602 =
    some (.ld { blank with len := .l128, d := .v 1, a := { unused with op := .s 2 }, b := { unused with op := .v 3 }, ty := .n32, ext := 0x908000FFFFFFFFF8 }) ∧
  decodeTableWord 128 0x10000000000000000003802047000662 =
    some (.barSync { blank with len := .l128, d := .zero, a := { unused with op := .s 1 }, b := { unused with op := .zero }, ext := 0x1000000000000000 }) ∧
  decodeTableWord 128 0x90000000000000000043802100080682 =
    some (.rdat { blank with len := .l128, d := .v 1, a := { unused with op := .s 4 }, b := { unused with op := .zero }, ty := .n32, ext := 0x9000000000000000 }) ∧
  decodeTableWord 64 0x4180F00 =
    some (.tddrop { blank with fn := 1, d := .s 3 }) ∧
  decodeTableWord 128 0x100000000000000003C000208420070A =
    some (.copy { blank with len := .l128, d := .s 4, a := { unused with op := .s 2 }, ty := .b32, ext := 0x1000000000000000 }) ∧
  decodeTableWord 128 0x8000000000000000142102086880742 =
    some (.mmbf { blank with len := .l128, d := .a 1, a := { unused with op := .s 2 }, b := { unused with op := .s 4 }, ty := .bf16, ext := 0x800000000000000 }) ∧
  decodeTableWord 64 0xCC00000040807A0 =
    some (.sysr { blank with d := .s 1, ty := .n64, x6 := 3 })

/-- R34 to R50: decoding the bytes of any well-formed instruction gives that instruction, with every operand, and whatever the decoder accepts from
16 bytes is well formed and has those bytes as its encoding. -/
def Obligations.EncodingsRoundTrip : Prop :=
  (∀ i bs, i.wellFormed = true → encode i = some bs → decode bs = .ok i) ∧
  ∀ (bs : List Byte) i, bs.length = 16 → decode bs = .ok i → i.wellFormed = true ∧ ∃ f, formOf i = some f ∧ encode i = some (bs.take f.len.bytes)

/-- R34 to R36: fetch checks a word in one order: alignment, the image, the length code, the fetch block, the decode checks; the path takes the trap of
the first check that fails, before any effect. Where the spec leaves a point open, its clauses follow the model's own choices of log entry 49. -/
def Obligations.FetchChecksInOrder : Prop :=
  (∀ (s : State) core ck pc,
    let head := fun (tr : Tr) => s.memNat (tr.addr + pc % 2 ^ 16) 8
    (pc % 4 ≠ 0 → s.fetch core ck pc = .bad .misaligned 0) ∧
    (pc % 4 = 0 → s.inImage ck pc 1 = false → s.fetch core ck pc = .bad .outside 0) ∧
    ∀ tr, pc % 4 = 0 → s.inImage ck pc 1 = true → s.lookup core ck (pc / 2 ^ 16) = some tr → tr.x = true → tr.bf = false → tr.stmp = false →
      tr.basic = false → s.inSlots tr.addr = false → granule (tr.addr + pc % 2 ^ 16) ∉ s.poisoned →
      (head tr % 4 = 3 → s.fetch core ck pc = .bad .badLen (BitVec.ofNat 64 (head tr % 256))) ∧
      ∀ len : Len, head tr % 4 = len.code →
        (32 < pc % 32 + len.bytes → s.fetch core ck pc = .bad .crosses 0) ∧
        (pc % 32 + len.bytes ≤ 32 → s.inImage ck pc len.bytes = false → s.fetch core ck pc = .bad .outside 0) ∧
        (pc % 32 + len.bytes ≤ 32 → s.inImage ck pc len.bytes = true →
          (∀ i, decode (s.memBytes (tr.addr + pc % 2 ^ 16) len.bytes) = .ok i → s.fetch core ck pc = .instr i) ∧
          ∀ e, decode (s.memBytes (tr.addr + pc % 2 ^ 16) len.bytes) = .error e → s.fetch core ck pc = .bad .illegal (BitVec.ofNat 64 (head tr)))) ∧
  (∀ (w : DWord) (s : State),
    let pc := s.cur.pc
    let fails := fun (why : BadWord) (code : Nat) (arg : DWord) =>
      exec (.unassignedOpcode why w) s = .next ((s.takeTrap s.cur.grp code arg 0 s.cur.path pc pc).cut s.cur.grp)
    fails .misaligned 0x02 pc ∧ fails .crosses 0x02 pc ∧ fails .outside 0x05 pc ∧ fails .badLen 0x01 w ∧ fails .illegal 0x01 w)

/-- R29: a nop is the word of OP 0 whose other fields but LEN and E are zero, and any other word of OP 0 is ILLEGAL_OP; it changes nothing but that its path goes on,
and with E it ends the run. -/
def Obligations.NopHasNoEffect : Prop :=
  (∀ (len : Len) (w : Nat), w < 2 ^ (8 * len.bytes) → w % 4 = len.code → w / 8 % 256 = 0 →
    decodeNat w = if w = len.code then .ok (.nop { blank with len := len })
      else if w = len.code + 4 then .ok (.nop { blank with len := len, e := true }) else .error .illegal) ∧
  (∀ (w : DWord) (s : State), exec (.unassignedOpcode .illegal w) s = .next ((s.takeTrap s.cur.grp 0x01 w 0 s.cur.path s.cur.pc s.cur.pc).cut s.cur.grp)) ∧
  (∀ f, (Instr.nop f).wellFormed = true → Does (.nop f) f fun x t => Passes x t ∧ (t.group x.gk).v = x.g.v ∧ (t.group x.gk).s = x.g.s ∧
    (t.group x.gk).m = x.g.m ∧ (t.group x.gk).j = x.g.j ∧ (∀ l, ((t.group x.gk).lane l).flags = (x.g.lane l).flags) ∧
    (t.group x.gk).rcnt = x.g.rcnt ∧ (f.e = true → t.cur.edge = true))

/-- R35, R48, R202: where a core's next port is port 0 of an issue slot, and the bytes at the path's program counter are those of a well-formed
instruction in its fetch block, whose operands are not due and whose engine is free, a step is exec of that instruction on the path; after it the
port is settled and the cycle goes on. -/
def Obligations.StepRunsDecoded : Prop :=
  ∀ (s : State) core ms k h i f tr, s.health.powered = true → s.agenda = .issue core :: ms →
    let r := { s with agenda := ms }
    r.candidate core = some (k, 0) → r.holder core k = some h →
    let g := r.group h.grp
    let p := g.first
    let pc := p.pc.toNat
    let u := (r.updHolder core k fun h => { h with tried0 := true, done0 := false, tried1 := false, second := 0, old := g, seq0 := g.seq }).focus
      h.grp p.lanes p.pc 0 g
    let ck := (u.launchOf g).ctxKey
    u.mayIssue h.grp = true → g.nexts = [] → pc % 4 = 0 → pc % 32 + f.len.bytes ≤ 32 → u.inImage ck pc f.len.bytes = true →
    u.lookup core ck (pc / 2 ^ 16) = some tr → tr.x = true → tr.bf = false → tr.stmp = false → tr.basic = false →
    u.inSlots tr.addr = false → granule (tr.addr + pc % 2 ^ 16) ∉ u.poisoned → formOf i = some f →
    decode (u.memBytes (tr.addr + pc % 2 ^ 16) f.len.bytes) = .ok i → u.interlocked h.grp p.lanes p.pc none i = false →
    (u.core core).full (engineOf i) = false →
    step s = thenDo (exec i u) fun t => (u.settle core k 0 (engineOf i) (some (viewOf i f u)) t).afterPort core

/-- R365: every step leaves device memory in its one canonical form: addresses rise, and no listed byte equals what an unlisted one reads as. Where the spec leaves a point open, its clauses follow the model's own choices of log entry 1. -/
def Obligations.StepsKeepMemoryCanonical : Prop := ∀ s t : State, step s = .next t → s.Inv → t.Inv

/-- R272, R273, R278, R313, R318, R342, R347, R357, R358, R360, R364: the module right after reset: device memory in canonical form, no group, team or launch, and
the registers at the values their tables give, those of function 0 from the start and those of every other function once it enumerates. Where the spec leaves a point open, its clauses follow the model's own choices of log entries 1, 2. -/
def Obligations.ResetValues : Prop :=
  let s := State.reset
  s.Inv ∧ s.groups = [] ∧ s.teams = [] ∧ s.launches = [] ∧ s.pkg = 0 ∧
  (∀ fn, fn < 64 →
    let u : State := if fn = 0 then s else { s with health := { s.health with pstate := 1 } }
    u.readBasic fn 0x000 = (if fn = 0 then 0 else 64 + fn) ∧
    (∀ off ∈ [0x008, 0x010, 0x018, 0x028, 0x030, 0x040, 0x050, 0x060, 0x078, 0x080, 0x088, 0x0C8], u.readBasic fn off = 0) ∧
    (∀ q, q < 8 → u.readBasic fn (0x108 + 0x20 * q) = 4 ∧ u.readBasic fn (0x110 + 0x20 * q) = 0 ∧ u.readBasic fn (0x118 + 0x20 * q) = 0) ∧
    u.readExpert fn 0x000 = 0 ∧ u.readExpert fn 0x008 = 1000 ∧ u.readExpert fn 0x010 = 0) ∧
  s.readBasic 0 0x0C0 = 1 ∧ s.readExpert 0 0x500 = 6 * 2 ^ 44 + 15 * 2 ^ 40 + 15 * 2 ^ 36 + 64 * 2 ^ 16 + 4096 ∧
  s.readExpert 0 0x508 = 0x400000 * 2 ^ 40 + 2 ^ 32 + 512 * 2 ^ 16 + 32 ∧ s.readExpert 0 0x708 = 0x1FF ∧
  ∀ off ∈ [0x510, 0x520, 0x530, 0x700, 0x710, 0x718, 0x800, 0x808, 0x810, 0x818, 0x820, 0x828, 0x840, 0x850, 0x880, 0x888], s.readExpert 0 off = 0

/-- R36, R53: no instruction and no event of the module stops it: each answers a next state from every state, be it a trap or a wait. -/
def Obligations.NothingStopsTheModule : Prop := ∀ i s, ∃ t, exec i s = .next t

/-- Integer, byte, select, address and extend instructions write their results: the parts IntegerInstructionsOnNumbers, ByteInstructionsWriteTheirResult, SelectAddressExtendAndNop, whose docstrings cite their rules. -/
def Obligations.IntegerInstructionsWriteTheirResult : Prop := IntegerInstructionsOnNumbers ∧ ByteInstructionsWriteTheirResult ∧ SelectAddressExtendAndNop

/-- f32 instructions round once and set their flags; ldexp and class: the parts FloatingInstructionsOfF32, LdexpAndClass, whose docstrings cite their rules. Where the spec leaves a point open, its clauses follow the model's own choices of log entries 20, 26, 53, 78. -/
def Obligations.FloatingInstructionsRoundOnce : Prop := FloatingInstructionsOfF32 ∧ LdexpAndClass

/-- Packed instructions act on each element; pdot sums its products: the parts PackedInstructionsOnElements, PackedDotProduct, whose docstrings cite their rules. Where the spec leaves a point open, its clauses follow the model's own choices of log entries 25, 26, 64. -/
def Obligations.PackedInstructionsByElement : Prop := PackedInstructionsOnElements ∧ PackedDotProduct

/-- cmp writes a mask; mask instructions, counts and votes: the parts CompareWritesAMask, MaskInstructions, whose docstrings cite their rules. -/
def Obligations.ComparesAndMaskInstructions : Prop := CompareWritesAMask ∧ MaskInstructions

/-- shfl and bcast move values; lred and lscan combine by the fixed tree: the parts ShuffleAndBroadcast, ReductionsByTheFixedTree, whose docstrings cite their rules. Where the spec leaves a point open, its clauses follow the model's own choices of log entry 26. -/
def Obligations.LanesToLanes : Prop := ShuffleAndBroadcast ∧ ReductionsByTheFixedTree

/-- supd, smrg, sred, sfin and rnd write what their formulas give: the parts StatisticsInstructions, RandomNumbers, whose docstrings cite their rules. Where the spec leaves a point open, its clauses follow the model's own choices of log entry 26. -/
def Obligations.StatisticsAndRandomNumbers : Prop := StatisticsInstructions ∧ RandomNumbers

/-- cvt converts each element; mxq and mxdq quantise and expand a block: the parts ConversionOfEachElement, MicroscalingInstructions, whose docstrings cite their rules. Where the spec leaves a point open, its clauses follow the model's own choices of log entries 25, 26, 64, 78. -/
def Obligations.ConversionByElement : Prop := ConversionOfEachElement ∧ MicroscalingInstructions

/-- sfq takes a token, its result arrives once, sfw waits and retires: the parts SpecialFunctionRequest, SpecialFunctionWait, TokenRetires, whose docstrings cite their rules. Where the spec leaves a point open, its clauses follow the model's own choices of log entry 53. -/
def Obligations.SpecialFunctionTokens : Prop := SpecialFunctionRequest ∧ SpecialFunctionWait ∧ TokenRetires

/-- Branches, calls and returns move the acting lanes, or raise CALL_DEPTH or LIMB_DIVERGE: the parts Branches, CallsAndReturns, whose docstrings cite their rules. -/
def Obligations.BranchesAndCalls : Prop := Branches ∧ CallsAndReturns

/-- exit ends lanes; jset and join park and pass them: the parts ExitEndsLanes, RejoinMasks, whose docstrings cite their rules. Where the spec leaves a point open, its clauses follow the model's own choices of log entry 19. -/
def Obligations.ExitAndRejoin : Prop := ExitEndsLanes ∧ RejoinMasks

/-- R107, R108, R117, R120, R121: sfq, sfw, exit, jset and join complete. Where the instruction passes the shared checks (for sfq and sfw, with the
results of the tokens it names at hand and room in the queue; for join, with a rejoin mask that is the same over each bound segment) exec answers a
next state: sfq has taken its number and stands as a token, sfw has retired the tokens it names, exit has ended its acting lanes, jset has written
their bits of the rejoin mask, and join has parked those the mask names; every lane that goes on stands at the next instruction. -/
def Obligations.SfqSfwExitJsetJoinComplete : Prop :=
  (∀ f s, (Instr.sfq f).wellFormed = true → Clear (.sfq f) f s →
    let x := viewOf (.sfq f) f s
    let n := x.g.sfcnt % 16
    awaits (2 ^ n) x.g = false → s.queueUse x.gk + (x.g.tokens.filter (·.num != n)).length < 16 →
    ∃ t, exec (.sfq f) s = .next t ∧ (t.group x.gk).sfcnt = x.g.sfcnt + (if x.act = 0 then 0 else 1) ∧
      (x.act ≠ 0 → ∃ k ∈ (t.group x.gk).tokens, k.num = n ∧ k.fn = f.fn.toNat ∧ k.dst = f.d ∧ k.lanes = x.act ∧ k.arrived = false) ∧
      ∀ l, ((t.group x.gk).lane l).pc = if maskBit x.path l then x.next else (x.g.lane l).pc) ∧
  (∀ f s, (Instr.sfw f).wellFormed = true → Clear (.sfw f) f s →
    let x := viewOf (.sfw f) f s
    awaits (sfwNames x) x.g = false →
    ∃ t, exec (.sfw f) s = .next t ∧ (t.group x.gk).tokens = (retireMask (sfwNames x) x.marked).tokens ∧
      ∀ l, ((t.group x.gk).lane l).pc = if maskBit x.path l then x.next else (x.g.lane l).pc) ∧
  (∀ f s, (Instr.exit f).wellFormed = true → Clear (.exit f) f s →
    let x := viewOf (.exit f) f s
    ∃ t, exec (.exit f) s = .next t ∧ ∀ l, maskBit x.act l = true → ((t.group x.gk).lane l).cond = .ended) ∧
  (∀ f s n, (Instr.jset f).wellFormed = true → Clear (.jset f) f s → f.d = .j n →
    let x := viewOf (.jset f) f s
    ∃ t, exec (.jset f) s = .next t ∧ (∀ l, l < 32 → maskBit ((t.group x.gk).jreg n.toNat) l =
        if maskBit x.act l then maskBit (maskOpnd x.seen f.a.op) l else maskBit (x.g.jreg n.toNat) l) ∧
      ∀ l, ((t.group x.gk).lane l).pc = if maskBit x.path l then x.next else (x.g.lane l).pc) ∧
  (∀ f s n, (Instr.join f).wellFormed = true → Clear (.join f) f s → f.a.op = .j n →
    let x := viewOf (.join f) f s
    Even x (fun l => maskBit (x.seen.jreg n.toNat) l) →
    ∃ t, exec (.join f) s = .next t ∧
      (∀ l, maskBit x.act l = true → maskBit (x.seen.jreg n.toNat) l = true →
        (t.group x.gk).lane l = { x.g.lane l with cond := .join n.toNat }) ∧
      ∀ l, maskBit x.path l = true → ¬ (maskBit x.act l = true ∧ maskBit (x.seen.jreg n.toNat) l = true) →
        (t.group x.gk).lane l = { x.g.lane l with pc := x.next })

/-- R118: sleep puts the acting lanes to sleep until %cyc + n, and always ends the run. -/
def Obligations.SleepingLanes : Prop :=
  ∀ f, (Instr.sleep f).wellFormed = true → Does (.sleep f) f fun x t =>
    let n := min (uniform32 x f.a) 1048575
    Apart x.gk x.s0 t ∧ OnlyLanes x t ∧ t.cur.edge = true ∧
    LanesTo x t fun _ y => { y with pc := x.next, cond := if n = 0 then y.cond else .asleep (x.s0.groupCyc x.g + n) }

/-- R119: yield ends the run and gives its acting lanes one place behind every demotion of the group (R112); with no acting lane it still ends the run. -/
def Obligations.YieldEndsTheRun : Prop :=
  ∀ f, (Instr.yield f).wellFormed = true → Does (.yield f) f fun x t =>
    Apart x.gk x.s0 t ∧ t.cur.edge = true ∧ (t.group x.gk).places = (if x.act = 0 then x.g.places else x.g.places + 1) ∧
    (∀ l, ((t.group x.gk).lane l).standing =
      if maskBit (x.g.segmentsOf x.act) l ∧ x.act ≠ 0 then x.g.places + 1 else (x.g.lane l).standing) ∧
    (∀ l, ((t.group x.gk).lane l).pc = if maskBit x.act l ∨ maskBit x.path l then x.next else (x.g.lane l).pc) ∧
    (∀ l, ((t.group x.gk).lane l).cond = (x.g.lane l).cond ∧ ((t.group x.gk).lane l).stack = (x.g.lane l).stack) ∧
    { t.group x.gk with lanes := x.g.lanes, places := x.g.places, run := x.g.run, why := x.g.why, stall := x.g.stall } = x.marked

/-- bind and unbind; limb instructions give the exact result of each segment, and LIMB_OVF after it: the parts Binding, LimbInstructions, whose docstrings cite their rules. Where the spec leaves a point open, its clauses follow the model's own choices of log entries 54, 63, 77. -/
def Obligations.BindingAndLimbs : Prop := Binding ∧ LimbInstructions

/-- R47: an instruction of the list, which names every encoded one but nop, sleep, yield, sfw, tret, bind, unbind, azero, aload, adrain,
aread and the eight matrix operations, passes on where it acts in no lane, and does nothing else. Where the spec leaves a point open, its clauses follow the model's own choices of log entries 54, 76. -/
def Obligations.NoActingLaneNoEffect : Prop :=
  ∀ p ∈ actingRows, ∀ f, ∀ s, Clear (p f) f s → (viewOf (p f) f s).act = 0 →
    ∃ t, exec (p f) s = .next t ∧ Passes (viewOf (p f) f s) t ∧ KeepsAll (viewOf (p f) f s) t ∧
      ∀ l, (t.group (viewOf (p f) f s).gk).lane l = (viewOf (p f) f s).on l ((viewOf (p f) f s).g.lane l)

/-- A memory access meets its checks in order; a swizzle permutes a window: the parts AccessChecksInTheirOrder, SwizzlePermutes, whose docstrings cite their rules. Where the spec leaves a point open, its clauses follow the model's own choices of log entry 8. -/
def Obligations.AccessChecksAndSwizzle : Prop := AccessChecksInTheirOrder ∧ SwizzlePermutes

/-- R141, R143: ld and gld add their loads to the group; a .poll load demotes its lanes and any other ends their demotion; an index
of all ones gives POISON and one beyond the table gives 0 with IDXR. The scope of an ordering modifier is log entry 7's. Nothing else
changes, and no byte of memory. Where the spec leaves a point open, its clauses follow the model's own choices of log entries 7, 8, 11, 28, 80. -/
def Obligations.LoadsAndGathers : Prop :=
  (∀ f, (Instr.ld f).wellFormed = true → ∀ s, Clear (.ld f) f s →
    let x := viewOf (.ld f) f s
    ∀ ls, Finds x (accFor x f.ty.width false false) (accesses x) 1 true ls →
    ∃ t, exec (.ld f) s = .next t ∧
      Leaves x t s { x.g with seq := x.g.seq + 1, loads := x.g.loads ++ loadsOf x (x.scope (f.fn.toNat % 8)) ls,
                              places := if 8 ≤ f.fn.toNat then x.g.places + 1 else x.g.places }
        (fun l y => x.on l (stands x (if 8 ≤ f.fn.toNat then x.g.places + 1 else 0) l y)) ∧ KeepsAll x t) ∧
  (∀ f, (Instr.gld f).wellFormed = true → ∀ s, Clear (.gld f) f s →
    let x := viewOf (.gld f) f s
    ∀ w is ls, Indexed x w is → Finds x (accFor x f.ty.width false false) (elements x is) 1 true ls →
    ∃ t, exec (.gld f) s = .next t ∧
      Leaves x t w { x.g with seq := x.g.seq + 1, loads := x.g.loads ++ loadsOf x 0 ls }
        (fun l y => x.on l (stands x 0 l (flagsOver x is l y))) ∧
      (∀ n, f.d = .v n → ∀ p ∈ is, p.1 < 32 →
        (p.2 = 0xFFFFFFFF → (t.group x.gk).vreg n.toNat p.1 = 0x7FF00BAD#32) ∧
        (p.2 ≠ 0xFFFFFFFF → (tableOf x).2 ≤ p.2 → (t.group x.gk).vreg n.toNat p.1 = 0)) ∧
      KeepsBut (fun q l => maskBit x.act l = true ∧ inV f.d (if f.ty.width = 64 then 2 else 1) q) (fun _ => False) x t)

/-- st and sct enter stores of the lanes' bytes; the highest lane keeps a bit: the parts StoresOfTheLanes, HighestLaneKeepsABit, whose docstrings cite their rules. Where the spec leaves a point open, its clauses follow the model's own choices of log entries 7, 8, 28, 29. -/
def Obligations.StoresAndScatters : Prop := StoresOfTheLanes ∧ HighestLaneKeepsABit

/-- R144 to R146: atom, red and cas put an update for each located lane at the end of the FIFO, msred sends its updates to the MSAU
outside it; none writes memory until it is applied. Outside deterministic launches. Where the spec leaves a point open, its clauses follow the model's own choices of log entries 7, 8. -/
def Obligations.AtomicsAndReductions : Prop :=
  (∀ f, (Instr.atom f).wellFormed = true → ∀ s, Clear (.atom f) f s →
    let x := viewOf (.atom f) f s
    ∀ ls, Staged x = false → Finds x (accFor x f.ty.width true true) (accesses x) 3 true ls →
    ∃ t, exec (.atom f) s = .next t ∧
      Leaves x t s (x.g.addStores (ls.map fun c =>
          rmwEntry x (arScope x) 2 (atomOp (f.fn.toNat % 8)) c (rawOpnd x f.ty f.d c.lane) 0 0 (some (dstOf f.d f.ty c.lane)) ))
        (fun l y => x.on l y) ∧ KeepsAll x t) ∧
  (∀ f, (Instr.red f).wellFormed = true → ∀ s, Clear (.red f) f s →
    let x := viewOf (.red f) f s
    ∀ ls, Finds x (accFor x f.ty.width true true) (accesses x) 2 false ls → RoomFor x (ls.length * stagedSize (f.ty.width / 8)) →
    ∃ t, exec (.red f) s = .next t ∧
      Leaves x t s (x.g.addStores (ls.map fun c =>
          rmwEntry x (arScope x) 3 (atomOp (f.fn.toNat % 8)) c (rawOpnd x f.ty f.d c.lane) 0 0 none ))
        (fun l y => x.on l y) ∧ KeepsAll x t) ∧
  (∀ f, (Instr.cas f).wellFormed = true → ∀ s, Clear (.cas f) f s →
    let x := viewOf (.cas f) f s
    ∀ ls, Staged x = false → Finds x (accFor x f.ty.width true true) (accesses x) 3 true ls →
    ∃ t, exec (.cas f) s = .next t ∧
      Leaves x t s { x.g.addStores (ls.map fun c => rmwEntry x (arScope x) 2 .cas c (casOperands x c.lane).2
                       (casOperands x c.lane).1 0 (some (dstOf f.d f.ty c.lane))) with casRecs := x.g.casRecs ++ [(x.g.seq + 1, 0, 0)] }
        (fun l y => x.on l y) ∧ KeepsAll x t) ∧
  (∀ f, (Instr.msred f).wellFormed = true → ∀ s, Clear (.msred f) f s →
    let x := viewOf (.msred f) f s
    ∀ ls, (x.s0.launchOf x.g).det = false → x.act ≠ 0 → x.g.acquiring = false → x.s0.countsAtMost x.gk 2 62 = true →
    accessAll s x.g (accFor x (if f.fn = 3 then 128 else f.ty.width) true true) (accesses x) = .locs ls →
    ∃ t, exec (.msred f) s = .next t ∧
      Leaves x t s { x.g with seq := x.g.seq + 1, msreds := x.g.msreds ++ ls.map (updateOf x) }
        (fun l y => x.on l y) ∧ KeepsAll x t)

/-- R267: an integer atom to g of a deterministic launch stages its operations and returns its reserved values at once; past the
group's share it raises RESERVE. Where the spec leaves a point open, its clauses follow the model's own choices of log entry 16. -/
def Obligations.ReservedValues : Prop :=
  ∀ f, (Instr.atom f).wellFormed = true → ∀ s, Clear (.atom f) f s →
    let x := viewOf (.atom f) f s
    let l := s.launchOf x.g
    let share := (groupShare (l.share (teamIndex x.g.team)).1 l.r.groups x.g.grp).1
    ∀ ls, Staged x = true → f.ty ≠ .f32 → Finds x (accFor x f.ty.width true true) (accesses x) 3 true ls →
    (x.g.used + ls.length ≤ share → RoomFor x (ls.length * stagedSize (f.ty.width / 8)) → l.chk = false →
      ∃ t, exec (.atom f) s = .next t ∧
        Leaves x t s { x.g.addStores (ls.mapIdx fun i c => rmwEntry x (arScope x) 2 (atomOp (f.fn.toNat % 8)) c
                         (rawOpnd x f.ty f.d c.lane) 0 (reservation l x.g (x.g.used + i)) none) with used := x.g.used + ls.length }
          (fun l y => x.on l y) ∧
        (∀ n, f.d = .v n → f.ty.width = 32 → ∀ i c, ls[i]? = some c →
          ((t.group x.gk).vreg n.toNat c.lane).toNat = (reservation l x.g (x.g.used + i)).toNat % 2 ^ 32) ∧
        KeepsBut (fun q l => maskBit x.act l = true ∧ inV f.d (if f.ty.width = 64 then 2 else 1) q) (fun q => inS f.d 1 q) x t) ∧
    (share < x.g.used + ls.length →
      exec (.atom f) s = .next ((s.takeTrap x.gk trapReserve (BitVec.ofNat 64 share) 0 x.path x.pc x.pc).cut x.gk))

/-- fence, wcnt, fset and ftest; a load waits on an empty line: the parts FencesAndWaitCounts, LoadsWait, FullEmptyBits, whose docstrings cite their rules. Where the spec leaves a point open, its clauses follow the model's own choices of log entries 7, 32. -/
def Obligations.FencesAndWaits : Prop := FencesAndWaitCounts ∧ LoadsWait ∧ FullEmptyBits

/-- bar.sync, bar.arrive and bar.wait: the parts BarrierArrivals, BarrierWaits, whose docstrings cite their rules. Where the spec leaves a point open, its clauses follow the model's own choices of log entries 19, 65. -/
def Obligations.BarrierInstructions : Prop := BarrierArrivals ∧ BarrierWaits

/-- A complete barrier passes to its next phase; bline makes and clears a line: the parts BarrierPhases, BarrierLines, whose docstrings cite their rules. Where the spec leaves a point open, its clauses follow the model's own choices of log entries 19, 65. -/
def Obligations.BarrierPhasesAndLines : Prop := BarrierPhases ∧ BarrierLines

/-- tnow, stst and rdat: the parts PodTimeInterval, StampedStore, StampedRead, whose docstrings cite their rules. Where the spec leaves a point open, its clauses follow the model's own choices of log entries 17, 33, 39. -/
def Obligations.PodTimeInstructions : Prop := PodTimeInterval ∧ StampedStore ∧ StampedRead

/-- R158 to R161: mcst, mcsq and mcsq.cas go down the fabric FIFO and leave a record that waits for its acknowledgements; mldr's
request goes to the switch at once. No register changes before the reply. Where the spec leaves a point open, its clauses follow the model's own choices of log entries 30, 34, 67. -/
def Obligations.MulticastInstructions : Prop :=
  (∀ f, (Instr.mcst f).wellFormed = true → ∀ s, Clear (.mcst f) f s →
    let x := viewOf (.mcst f) f s
    ∀ group m, x.act ≠ 0 → PodAt x group m → x.g.acquiring = false → s.countsAtMost x.gk 2 62 = true →
    ∃ t, exec (.mcst f) s = .next t ∧ KeepsAll x t ∧
      Leaves x t (withPending s (pendingOf x 0 group 0 (firstVa x) [] m.live))
        (x.g.addStores [fabricEntry x (.mcst group (.bytes (podBytes x (accesses x))) s.nextId x.gk)]) (fun l y => x.on l y)) ∧
  (∀ f, (Instr.mcsq f).wellFormed = true → ∀ s, Clear (.mcsq f) f s →
    let x := viewOf (.mcsq f) f s
    ∀ group m, x.act ≠ 0 → PodAt x group m → x.g.acquiring = false → s.countsAtMost x.gk 2 62 = true →
    ∃ t, exec (.mcsq f) s = .next t ∧ KeepsAll x t ∧
      Leaves x t (withPending s (pendingOf x 1 group (sNum f.a.op) (firstVa x) [] m.live))
        (x.g.addStores [fabricEntry x (.mcsq group (.bytes (podBytes x (accesses x))) s.nextId)]) (fun l y => x.on l y)) ∧
  (∀ f, (Instr.mcsqCas f).wellFormed = true → ∀ s, Clear (.mcsqCas f) f s →
    let x := viewOf (.mcsqCas f) f s
    let word := fun r => (x.sval (sNum f.d + r)).toNat % 2 ^ f.ty.width
    ∀ group m, x.act ≠ 0 → PodAt x group m → m.stale = false → x.g.acquiring = false → s.countsAtMost x.gk 3 62 = true →
    ∃ t, exec (.mcsqCas f) s = .next t ∧ KeepsAll x t ∧
      Leaves x t (withPending s (pendingOf x 2 group (sNum f.a.op) (firstVa x) [dstOf f.d f.ty x.low] m.live))
        (x.g.addStores [fabricEntry x (.mcsq group (.cas ((laneAddrs x ((accesses x).headD (0, 0)).2).map (· % 2 ^ 40)) (word 0) (word 1)) s.nextId)])
        (fun l y => x.on l y)) ∧
  (∀ f, (Instr.mldr f).wellFormed = true → ∀ s, Clear (.mldr f) f s →
    let x := viewOf (.mldr f) f s
    ∀ group m, x.act ≠ 0 → PodAt x group m → m.size ≤ 64 → x.g.acquiring = false → s.countsAtMost x.gk 1 62 = true →
    ∃ t, exec (.mldr f) s = .next t ∧ KeepsAll x t ∧
      Leaves x t ((withPending s (pendingOf x 3 group (sNum f.a.op) (firstVa x) ((accesses x).map fun p => dstOf f.d f.ty p.1) [])).post m.root
          (.mldr group (((accesses x).map fun p => (laneAddrs x p.2).map fun b => (p.1, b % 2 ^ 40)).flatten) f.fn.toNat f.ty s.nextId))
        (x.g.addStores []) (fun l y => x.on l y))

/-- waitv and wake, a host's wake and the end of a wait: the parts WaitAndWake, WakesFromOutside, whose docstrings cite their rules. Where the spec leaves a point open, its clauses follow the model's own choices of log entry 31. -/
def Obligations.WaitingAndWaking : Prop := WaitAndWake ∧ WakesFromOutside

/-- R165 to R167, R272: tdload fills an empty slot of the context from a valid record and tddrop empties a full one; the host's
two commands do the same and report in SLOTST. A slot out of range raises ACCESS, a bad record SEAL_BAD, a full slot
SLOT_OCCUPIED, an empty one SLOT_EMPTY. Where the spec leaves a point open, its clauses follow the model's own choices of log entry 39. -/
def Obligations.TensorSlots : Prop :=
  (∀ f, (Instr.tdload f).wellFormed = true → ∀ s, Clear (.tdload f) f s →
    let x := viewOf (.tdload f) f s
    let ck := (s.launchOf x.g).ctxKey
    let n := (dValue x).toNat
    ∀ ls, Finds x { accFor x 512 false false with sw := 0 } [(x.low, baseOf x)] 4 true ls →
    x.g.inFlight (allPlaces ls) = false → s.badRead (allPlaces ls) = none →
    let r := s.readPlaces (s.shadow x.g) (allPlaces ls)
    let bytes := r.2
    let w := r.1
    (255 < n → Traps (.tdload f) f s trapAccess (BitVec.ofNat 64 (baseOf x)) 0) ∧
    (n ≤ 255 → slotRecord bytes = none → Traps (.tdload f) f s trapSealBad (dValue x) 0) ∧
    (∀ sl, n ≤ 255 → slotRecord bytes = some sl →
      ((s.ctx ck).slot n ≠ none → Traps (.tdload f) f s trapSlotOccupied (dValue x) 0) ∧
      ((s.ctx ck).slot n = none → ∃ t, exec (.tdload f) s = .next t ∧ KeepsAll x t ∧
        Leaves x t (w.setCtx ck ((s.ctx ck).setSlot n (some sl))) x.g (fun l y => x.on l y)))) ∧
  (∀ f, (Instr.tddrop f).wellFormed = true → ∀ s, Clear (.tddrop f) f s →
    let x := viewOf (.tddrop f) f s
    let ck := (s.launchOf x.g).ctxKey
    let n := (dValue x).toNat
    x.act ≠ 0 →
    (255 < n → Traps (.tddrop f) f s trapAccess (dValue x) 0) ∧
    (n ≤ 255 → (s.ctx ck).slot n = none → Traps (.tddrop f) f s trapSlotEmpty (dValue x) 0) ∧
    (n ≤ 255 → (s.ctx ck).slot n ≠ none → ∃ t, exec (.tddrop f) s = .next t ∧ KeepsAll x t ∧
      Leaves x t (s.setCtx ck ((s.ctx ck).setSlot n none)) x.g (fun l y => x.on l y))) ∧
  (∀ fn (val : DWord) s,
    let ck := 16 * fn + val.toNat / 2 ^ 8 % 16
    let n := val.toNat % 2 ^ 8
    let a := (s.fn fn).slotrec.toNat
    s.present fn = true →
    (∀ bs r, a % 64 = 0 → a ∉ s.poisoned → s.devBytes a 64 = some bs → slotRecord bs = some r → (s.ctx ck).slot n = none →
      exec (.slotcmdLoad fn val) s = .next ((s.setCtx ck ((s.ctx ck).setSlot n (some r))).setFn fn { s.fn fn with slotst := 0 })) ∧
    ((s.ctx ck).slot n ≠ none →
      exec (.slotcmdDrop fn val) s = .next ((s.setCtx ck ((s.ctx ck).setSlot n none)).setFn fn { s.fn fn with slotst := 0 })))

/-- Copies enter the engine unit by unit, or are staged: the parts CopiesEnter, UnitsOfACopy, StagedCopy, whose docstrings cite their rules. Where the spec leaves a point open, its clauses follow the model's own choices of log entries 29, 37, 38, 39, 65. -/
def Obligations.CopyEngine : Prop := CopiesEnter ∧ UnitsOfACopy ∧ StagedCopy

/-- Tile and matrix instructions enter the queue, are awaited and read: the parts TileInstructionsNeedEveryLane, TileInstructionsEnterTheQueue, TilesReadAndAwaited, whose docstrings cite their rules. Where the spec leaves a point open, its clauses follow the model's own choices of log entries 39, 41, 76. -/
def Obligations.TileInstructions : Prop := TileInstructionsNeedEveryLane ∧ TileInstructionsEnterTheQueue ∧ TilesReadAndAwaited

/-- R188, R332: a recoverable trap of a group whose kernel has a handler and whose frame is closed opens the frame: TCODE, TRESUME, TMASK,
TARG and TLANE take their values, the live lanes of the path go to the handler, and nothing else changes but the trace ring. Any other trap
is fatal: the team stops, the launch keeps its first code, and no register, lane or byte changes but TARG and TLANE, which tell the trap's
detail. Where the spec leaves a point open, its clauses follow the model's own choices of log entries 42, 81. -/
def Obligations.TakingATrap : Prop :=
  ∀ (s : State) gk code arg tl path at_ resume,
    let g := s.group gk
    let t := s.takeTrap gk code arg tl path at_ resume
    (∀ h, s.handler g = some h → code ∉ fatalCodes → g.frame = false →
      ApartRing gk s t ∧
      { t.group gk with lanes := g.lanes } =
        { g with frame := true, tcode := code, tresume := resume, tmask := path &&& g.live, targ := arg, tlane := tl } ∧
      ∀ l, (t.group gk).lane l = if maskBit (path &&& g.live) l then { g.lane l with pc := h } else g.lane l) ∧
    ((s.handler g = none ∨ code ∈ fatalCodes ∨ g.frame = true) →
      t.group gk = { g with targ := arg, tlane := tl } ∧ (∀ k, k ≠ gk → t.group k = s.group k) ∧ t.mem = s.mem ∧ (t.team g.team).stopped = true ∧
      (t.launch (teamLaunch g.team)).fatal = some ((s.launch (teamLaunch g.team)).fatal.getD code) ∧
      (((s.team g.team).stopped = false ∨ (s.launch (teamLaunch g.team)).fatal = none) → (s.launch (teamLaunch g.team)).images < 8 →
        t.images = s.images ++ [{ core := (s.team g.team).core, team := teamIndex g.team, code := code,
                                  code2 := if g.frame then g.tcode else 0, launch := teamLaunch g.team }]))

/-- R36, R42, R126, R334: an instruction whose registers lie outside the launch's allocation raises ILLEGAL_OP with its head word, and one
whose guard or path splits a segment of a bound group LIMB_DIVERGE with the binding, before any effect. -/
def Obligations.SharedChecksComeFirst : Prop :=
  ∀ p ∈ actingRows ++ [.nop, .sleep, .yield, .sfw, .bind, .unbind, .tret, .azero, .aload, .adrain, .aread] ++ mmRows.map (·.1), ∀ f s,
    let x := viewOf (p f) f s
    (allocOk (p f) f (s.launchOf x.g).r.vregs = false → Traps (p f) f s 0x01 (headWord (p f) f) 0) ∧
    (allocOk (p f) f (s.launchOf x.g).r.vregs = true → x.g.binding ≠ 1 →
      (∃ b, b < 32 / x.g.binding ∧
        let seg := segmentOf x.g.binding (b * x.g.binding) &&& x.g.live
        seg &&& x.path ≠ 0 ∧ (seg &&& x.path ≠ seg ∨ (seg &&& guardMask x.seen f ≠ 0 ∧ seg &&& guardMask x.seen f ≠ seg))) →
      Traps (p f) f s 0x0B (BitVec.ofNat 64 x.g.binding) 0)

/-- trap, tret, brk, mark, sysr, sysw and flag: the parts TrapsByInstruction, SystemRegistersAndFlags, whose docstrings cite their rules. Where the spec leaves a point open, its clauses follow the model's own choices of log entries 10, 52, 72, 77, 81. -/
def Obligations.SystemInstructions : Prop := TrapsByInstruction ∧ SystemRegistersAndFlags

/-- R185 to R187: cstart starts a script and returns its handle, the next of its context; carm sets a step's counter, changes nothing at a
counter that is 0 already, and ends the script CANCELLED otherwise, at once or once its status words are written; cstat returns the word of a running or an ended script, and ACCESS for
any other handle. Where the spec leaves a point open, its clauses follow the model's own choices of log entries 13, 39. -/
def Obligations.CollectiveInstructions : Prop :=
  (∀ f, (Instr.cstart f).wellFormed = true → ∀ s, Clear (.cstart f) f s →
    let x := viewOf (.cstart f) f s
    let l := s.launchOf x.g
    let a := uniform64 x f.a
    let b := uniform64 x f.b
    let size := b / 2 ^ 16 % 2 ^ 16
    ∀ ls ws steps m n, x.act ≠ 0 → f.d = .s n → accessAll s x.g slotAcc [(x.low, a)] = .locs ls → 0 < size → b % 2 ^ 16 < size →
    b / 2 ^ 32 % 2 ^ 32 = 0 → x.g.acquiring = false → Performed x 15 4 → s.scripts.length < 64 → l.det = false →
    readSlots s x a 256 0 false = .slots ws → readSteps 257 0 [] ws = some steps →
    s.memberOf l.ctxKey (steps.headD SStep.none).k = some m → size ≤ m.size →
    ∃ t, exec (.cstart f) s = .next t ∧ t.mem = s.mem ∧ t.scripts.length = s.scripts.length + 1 ∧
      (t.ctx l.ctxKey).handles = (s.ctx l.ctxKey).handles + 1 ∧
      (t.group x.gk).sreg n.toNat = BitVec.ofNat 64 ((s.ctx l.ctxKey).handles + 1) ∧ (∀ k, k ≠ x.gk → t.group k = s.group k) ∧
      KeepsBut (fun _ _ => False) (fun q => q = n.toNat) x t ∧ ∀ l, (t.group x.gk).lane l = x.on l (x.g.lane l)) ∧
  (∀ f, (Instr.carm f).wellFormed = true → ∀ s, Clear (.carm f) f s →
    let x := viewOf (.carm f) f s
    let ck := (s.launchOf x.g).ctxKey
    let h := uniform64 x f.a
    let b := uniform64 x f.b
    let slot := if f.b.op = .imm then f.ext.toNat else b % 2 ^ 16
    let n := if f.b.op = .imm then uniform64 x f.c % 2 ^ 32 else b / 2 ^ 16 % 2 ^ 32
    ∀ sc, x.act ≠ 0 → (f.b.op ≠ .imm → b / 2 ^ 48 = 0) → Names s ck h sc → slot ≤ (sc.steps.getLastD SStep.none).slot → sc.closing = none →
    ∃ t, exec (.carm f) s = .next t ∧ KeepsAll x t ∧ (∀ l, (t.group x.gk).lane l = x.on l (x.g.lane l)) ∧
      (∀ k, k ≠ x.gk → t.group k = s.group k) ∧
      (n ≠ 0 → t.mem = s.mem ∧ t.script ck h = some
        { sc with arms := (sc.arms.filter (·.1 != slot)) ++ [(slot, n)], fresh := if sc.step.slot = slot then sc.fresh else slot :: sc.fresh }) ∧
      (n = 0 → (sc.armOf slot).getD 0 = 0 → t.scripts = s.scripts ∧ t.mem = s.mem) ∧
      (n = 0 → (sc.armOf slot).getD 0 ≠ 0 → (t.ctx ck).finals.head? = some (finalOf sc 3) ∨
        ∃ y w ws, t.script ck h = some y ∧ y.closing = some (3, w :: ws))) ∧
  (∀ f, (Instr.cstat f).wellFormed = true → ∀ s, Clear (.cstat f) f s →
    let x := viewOf (.cstat f) f s
    let ck := (s.launchOf x.g).ctxKey
    let h := uniform64 x f.a
    x.act ≠ 0 →
    (∀ sc, Names s ck h sc → ∃ t, exec (.cstat f) s = .next t ∧
      UniformResult x t (sc.step.slot * 2 ^ 16 + (if sc.ovr then 2 ^ 9 else 0))) ∧
    (s.script ck h = none → ∀ q, (s.ctx ck).finals.find? (fun p => p.handle == h) = some q →
      ∃ t, exec (.cstat f) s = .next t ∧ UniformResult x t q.word.toNat) ∧
    (s.script ck h = none → (∀ p ∈ (s.ctx ck).finals, p.handle ≠ h) → Traps (.cstat f) f s trapAccess (BitVec.ofNat 64 h) 0))

/-- Collective scripts: each step, its chunks, credits and ends: the parts ScriptSteps, ScriptsBetweenModules, whose docstrings cite their rules. Where the spec leaves a point open, its clauses follow the model's own choices of log entry 13. -/
def Obligations.ScriptsRun : Prop := ScriptSteps ∧ ScriptsBetweenModules

/-- Loads bind, stores and updates reach their homes: the parts LoadsBind, StoresReachTheirHomes, AtomicsAtTheirHomes, whose docstrings cite their rules. Where the spec leaves a point open, its clauses follow the model's own choices of log entries 7, 11, 29, 57, 65, 75. -/
def Obligations.AccessesReachTheirHomes : Prop := LoadsBind ∧ StoresReachTheirHomes ∧ AtomicsAtTheirHomes

/-- Copied units land, and the matrix unit performs its queue: the parts CopiesFill, MatrixEntries, whose docstrings cite their rules. Where the spec leaves a point open, its clauses follow the model's own choices of log entries 27, 37, 41, 65, 79. -/
def Obligations.CopiesAndMatrixEntries : Prop := CopiesFill ∧ MatrixEntries

/-- R107, R118, R121, R139, R208, R211: what time and the bay's hardware bring a group: a special-function result arrives and changes no
register; a sleeping lane votes at its cycle; the lanes parked at a join leave it when no lane can hold it open; a stall on an empty line, an
issued access that has found its line empty (log entry 65) and a wait at a barrier that last too long trap. Where the spec leaves a point open, its clauses follow the model's own choices of log entries 19, 65. -/
def Obligations.WaitsThatEnd : Prop :=
  (∀ gk num s, ∃ t, exec (.sfResultArrival gk num) s = .next t ∧
    GroupIs gk s t { s.group gk with tokens := (s.group gk).tokens.map fun k => if k.num = num then { k with arrived := true } else k }) ∧
  (∀ gk s, (s.teamOf (s.group gk)).stopped = false → ∃ t ls, exec (.sleepExpiry gk) s = .next t ∧ GroupIs gk s t { s.group gk with lanes := ls } ∧
    ∀ l, l < 32 → (t.group gk).lane l = match ((s.group gk).lane l).cond with
      | .asleep c => if c ≤ s.groupCyc (s.group gk) then { (s.group gk).lane l with cond := .voting } else (s.group gk).lane l
      | _ => (s.group gk).lane l) ∧
  (∀ gk s, (s.teamOf (s.group gk)).stopped = false →
    let g := s.group gk
    ∃ t ls js, exec (.joinRelease gk) s = .next t ∧ GroupIs gk s t { g with lanes := ls, j := js } ∧
      (∀ l, (∀ j, (g.lane l).cond ≠ .join j) → (t.group gk).lane l = g.lane l) ∧
      ∀ k l, maskBit (g.parkedAt k) l = true →
        let op := g.jreg k.2 &&& g.live &&& ~~~ g.parkedAt k
        (op ≠ 0 → op &&& ~~~ g.parked ≠ 0 → (t.group gk).lane l = g.lane l) ∧
        (op = 0 ∨ op &&& ~~~ g.parked = 0 → (t.group gk).jreg k.2 = 0 ∧ (t.group gk).lane l =
          { g.lane l with pc := k.1 + 8, standing := 0, cond := .voting
                          flags := if op = 0 then (g.lane l).flags else (g.lane l).flags ||| flagJLOST })) ∧
  (∀ gk s c cw lines low,
    let g := s.group gk
    let as := (s.emptyLines lines).map fun x => s.lineAddr g (cw || x.1 != g.team) x.1 (128 * x.2)
    g.stall = some c → g.why = .empty cw lines → (s.teamOf g).stopped = false → c < s.groupCyc g →
    low ∈ as → (∀ a ∈ as, low ≤ a) →
    exec (.watchdog gk) s = .next ((s.setGroup gk { g with stall := none, why := .none }).takeTrap gk trapWatchdog (BitVec.ofNat 64 low) 0
      g.first.lanes g.first.pc g.first.pc)) ∧
  (∀ gk s c h low,
    let g := s.group gk
    let as := h.lines.map fun x => s.lineAddr g (h.path == .cw || x.1 != g.team) x.1 (128 * x.2)
    g.stall = none → g.held = some c → s.heldAccess g = some h → h.lanes &&& g.voting ≠ 0 → (s.teamOf g).stopped = false → c < s.groupCyc g →
    low ∈ as → (∀ a ∈ as, low ≤ a) →
    exec (.watchdog gk) s = .next ((s.setGroup gk { g with held := none, loads := g.loads.filter (·.seq != h.seq), stores := g.stores.filter fun e => !(e.seq == h.seq && isRmwLoad e) }).takeTrap
      gk trapWatchdog (BitVec.ofNat 64 low) 0 (h.lanes &&& g.voting) h.pc h.pc)) ∧
  (∀ gk l s cw tm off p u,
    let g := s.group gk
    (g.lane l).cond = .barrier cw tm off p u → (s.teamOf g).stopped = false → u ≤ s.groupCyc g →
    ∃ m, (∀ k, maskBit m k = true ↔ k < 32 ∧ ParkedAt g cw tm off k) ∧
      exec (.barrierTimeout gk l) s = .next ((s.setGroup gk (g.updLanes m fun y => { y with cond := .voting })).takeTrap gk trapBarrierTimeout
        (BitVec.ofNat 64 (s.lineAddr g cw tm off)) 0 m ((g.lane l).pc - 16) (g.lane l).pc)) ∧
  (∀ i s lt tm off rank ph b, s.net[i]? = some lt → lt.msg = .barArrive tm off rank ph → s.barLine tm off = some b →
    exec (.clusterBarrierArrival i) s = .next (({ s with net := s.net.eraseIdx i }.setTeam tm ((s.team tm).setBline (off / 128)
      (some { b with arrivals := b.arrivals + 1, arrived := b.arrived ++ [32 + rank] }))).testLine tm off)) ∧
  (∀ i s lt tm off tk ph, s.net[i]? = some lt → lt.msg = .barRelease tm off tk ph →
    ((s.team tk).stopped = true → (s.team tk).dead = false → (s.launch (teamLaunch tk)).fatal = none → exec (.clusterBarrierRelease i) s = .next s) ∧
    ((s.team tk).stopped = false → (s.launch (teamLaunch tk)).r.groups ≤ 32 →
    ∃ t, exec (.clusterBarrierRelease i) s = .next t ∧ t.net = s.net.eraseIdx i ∧ t.mem = s.mem ∧ t.teams = s.teams ∧
      (∀ k, k < (s.launch (teamLaunch tk)).r.groups → ∀ l p u, l < 32 → ((s.group (groupKey tk k)).lane l).cond = .barrier true tm off p u → p + 1 = ph →
        (t.group (groupKey tk k)).lane l = { (s.group (groupKey tk k)).lane l with cond := .voting, standing := 0 }) ∧
      ∀ g, (∀ k, k < (s.launch (teamLaunch tk)).r.groups → g ≠ groupKey tk k) → t.group g = s.group g)) ∧
  (∀ core s k gk, s.freeIssueSlot core = some k → s.grantee core = some gk →
    ∃ t h, exec (.issueSlotGrant core) s = .next t ∧ (t.core core).holders = mapInsert (s.core core).holders k (some h) ∧ h.grp = gk ∧
      h.began = s.cyc core + 1 ∧ { t with cores := s.cores } = s ∧ ∀ c, c ≠ core → t.core c = s.core c)

/-- Versions reach the home of a line, and stamped waits end: the parts VersionsArrive, StampedWaitsEnd, whose docstrings cite their rules. Where the spec leaves a point open, its clauses follow the model's own choices of log entries 7, 14, 17, 33. -/
def Obligations.StampedVersions : Prop := VersionsArrive ∧ StampedWaitsEnd

/-- A crier sequences stores, members apply them and answer: the parts SequencedStores, MulticastReplies, whose docstrings cite their rules. Where the spec leaves a point open, its clauses follow the model's own choices of log entries 34, 35, 55, 56, 67, 69, 75. -/
def Obligations.MulticastBetweenModules : Prop := SequencedStores ∧ MulticastReplies

/-- R290, R291, R294, R295: MCGCMD reports an invalid descriptor, a list that does not name the module and a group of another context; otherwise
the join goes to the crier, whose answer makes the member; leaving drops it, and a resync gives a stale copy its members' bytes and order. Where the spec leaves a point open, its clauses follow the model's own choices of log entries 35, 55, 67, 82. -/
def Obligations.JoiningAGroup : Prop :=
  (∀ fn (val : DWord) s, s.present fn = true → (s.fn fn).tdi ≠ .run →
    let r := readMember s fn (val.toNat / 2 ^ 16 % 2 ^ 4)
    (r = none → exec (.mcgJoin fn val) s = .next (s.setFn fn { s.fn fn with mcgst := 2 })) ∧
    ∀ group m, r = some (group, m) →
      (m.list.getD m.rank 0 ≠ s.pkg → exec (.mcgJoin fn val) s = .next (s.setFn fn { s.fn fn with mcgst := 3 })) ∧
      (m.list.getD m.rank 0 = s.pkg →
        (∀ o, s.member group = some o ∨ (∃ p ∈ s.fns, (group, o) ∈ p.2.joining) → o.fn ≠ m.fn ∨ o.ctx ≠ m.ctx →
          exec (.mcgJoin fn val) s = .next (s.setFn fn { s.fn fn with mcgst := 4 })) ∧
        ((∀ o, s.member group = some o ∨ (∃ p ∈ s.fns, (group, o) ∈ p.2.joining) → o.fn = m.fn ∧ o.ctx = m.ctx) →
          ∃ t, exec (.mcgJoin fn val) s = .next t ∧ Posts (s.setFn fn { s.fn fn with mcgst := 1, mcgLast := group, joining := (s.fn fn).joining.filter (·.1 != group) ++ [(group, m)] }) t
            [(m.root, .join group m.rank m.size m.list m.wlen m.rlim m.root)]))) ∧
  (∀ fn (val : DWord) s, s.present fn = true → (s.fn fn).tdi ≠ .run →
    let group := val.toNat % 2 ^ 10
    ∀ m, s.memberOf (16 * fn + val.toNat / 2 ^ 16 % 2 ^ 4) group = some m →
    (∃ t, exec (.mcgLeave fn val) s = .next t ∧ Posts ((s.setMember group none).setFn fn { s.fn fn with mcgst := 0 }) t [(m.root, .leave group m.rank)]) ∧
    (m.stale = true → ∃ t, exec (.mcgResync fn val) s = .next t ∧
      Posts (s.setFn fn { s.fn fn with mcgst := 1, mcgLast := group }) t [(m.root, .resyncStart group m.rank)]) ∧
    (m.stale = false → exec (.mcgResync fn val) s = .next (s.setFn fn { s.fn fn with mcgst := 0 }))) ∧
  (∀ i s src group n fn m, Comes s i src (.joinReply group 0 n) → (s.joiner group) = some m → m.fn = fn →
    let live := if m.root = s.pkg then ((s.crier group).members.filter fun q => !q.stale).map (·.rank) else m.live
    ∃ t, exec (.mcgResyncComplete i) s = .next t ∧ CountAt s t group { m with count := n, stale := false, live := live } ∧ JoinEnds s t fn group 0 ∧
      Posted (taken s i) t [(m.root, .resyncDone group m.rank)]) ∧
  (∀ i s src group n bytes m, Comes s i src (.resyncCopy group n bytes) → s.member group = some m → NoJoin s group →
    (m.stale = false → exec (.mcgResyncComplete i) s = .next (taken s i)) ∧
    (m.stale = true → ∃ t, exec (.mcgResyncComplete i) s = .next t ∧ JoinEnds s t m.fn group 0 ∧ Posted (taken s i) t [(m.root, .resyncDone group m.rank)] ∧
      CountAt (s.setCopy m ((List.range m.wlen).map fun o => (o, ((bytes.find? (·.1 == o)).map (·.2)).getD 0, (0xFF : Byte)))) t group
        { m with count := n, stale := false }))

/-- Walks and page faults, invalidation, contexts and TDISP: the parts WalksAndFaults, InvalidationAndContexts, whose docstrings cite their rules. Where the spec leaves a point open, its clauses follow the model's own choices of log entries 15, 39, 61, 82. -/
def Obligations.TranslationAndContexts : Prop := WalksAndFaults ∧ InvalidationAndContexts

/-- R256, R271 to R273, R280, R284, R313, R318, R327, R347, R350, R358, R356, R360: a plain register of a function that enumerates reads back the
bits of it that are kept, but a queue's in the safe state, whose writes are discarded; one that does not reads as 0 and takes no write (log entry
82); a read of EARLY keeps the latest of the same tnow for LATE; a function's page is written by that function alone, an expert page by function
0 too, whose PART is; a write of VINJB arms the injection; a write to the expert page of a function in RUN moves its TDI to ERROR, disables its
contexts and ends its launches. Where the spec leaves a point open, its clauses follow the model's own choices of log entries 18, 36, 82. -/
def Obligations.RegistersReadBack : Prop :=
  (∀ p ∈ basicRows, ∀ fn (v : DWord) s, s.present fn = true → (0x100 ≤ p.1 → s.health.pstate ≠ 2) → ∃ t, exec (.registerWrite fn ⟨false, fn⟩ p.1 v) s = .next t ∧ t.readBasic fn p.1 = v.toNat &&& p.2 ∧
    (∀ k, k ≠ fn → t.fn k = s.fn k) ∧ { t with fns := s.fns } = s) ∧
  (∀ q, q < 8 → ∀ fn (v : DWord) s, s.health.pstate = 2 → exec (.registerWrite fn ⟨false, fn⟩ (0x100 + 0x20 * q) v) s = .next s) ∧
  (∀ fn page off (v : DWord) s, s.present fn = false →
    exec (.registerWrite fn page off v) s = .next s ∧ s.readBasic fn off = 0 ∧ s.readExpert fn off = 0) ∧
  (∀ p ∈ expertRows, ∀ w fn (v : DWord) s, s.present fn = true → (s.fn fn).tdi ≠ .run → w = fn ∨ w = 0 → ∃ t, exec (.registerWrite fn ⟨true, w⟩ p.1 v) s = .next t ∧
    t.readExpert fn p.1 = v.toNat &&& p.2 ∧ { t with fns := s.fns, ctxs := s.ctxs } = s) ∧
  (∀ fn (v : DWord) s, s.present fn = true → (s.fn fn).tdi ≠ .run →
    (∃ t, exec (.registerWrite fn ⟨true, 0⟩ 0x000 v) s = .next t ∧ t.readExpert fn 0x000 = v.toNat % 4 ∧ { t with fns := s.fns, owner := s.owner } = s) ∧
    (fn ≠ 0 → exec (.registerWrite fn ⟨true, fn⟩ 0x000 v) s = .next s)) ∧
  (∀ w fn expert off (v : DWord) s, w ≠ fn → expert = false ∨ w ≠ 0 → exec (.registerWrite fn ⟨expert, w⟩ off v) s = .next s) ∧
  (∀ p ∈ zeroRows, ∀ (v : DWord) s, (s.fn 0).tdi ≠ .run → ∃ t, exec (.registerWrite 0 ⟨true, 0⟩ p.1 v) s = .next t ∧
    t.readExpert 0 p.1 = v.toNat &&& p.2 ∧ t.fns = s.fns ∧ t.groups = s.groups ∧ t.mem = s.mem) ∧
  (∀ fn (v : DWord) s, s.present fn = true → (s.fn fn).tdi ≠ .run → ∃ t, exec (.registerWrite fn ⟨true, fn⟩ 0x008 v) s = .next t ∧
    (t.fn fn).tslice = if v.toNat % 2 ^ 16 = 0 then 1000 else v.toNat % 2 ^ 16) ∧
  (∀ fn late s, s.present fn = true → ∃ t, exec (.tbnowRead fn late) s = .next t ∧ { t with fns := s.fns } = s ∧
    (t.fn fn).late = (if late then (s.fn fn).late else BitVec.ofNat 64 s.tb.latest) ∧ (s.readPage fn 0x068 8).2 = s.tb.earliest % 2 ^ 64) ∧
  (∀ (v : DWord) s, (s.fn 0).tdi ≠ .run → exec (.vinjbArm v) s =
    .next { s with inject := { s.inject with arm := s.inject.arm || v.toNat.testBit 63, fn := v.toNat / 2 ^ 4 % 2 ^ 6, ctx := v.toNat % 2 ^ 4 } }) ∧
  (∀ w fn off (v : DWord) s, s.present fn = true → (s.fn fn).tdi = .run → w = fn ∨ w = 0 → ∃ t, exec (.registerWrite fn ⟨true, w⟩ off v) s = .next t ∧ (t.fn fn).tdi = .error ∧ (t.fn fn).ctxen = 0 ∧
    (∀ c, c < 16 → (t.ctx (16 * fn + c)).enabled = false) ∧
    ∀ p ∈ s.launches, (s.launch p.1).fn = fn → (s.launch p.1).active = true → p.2 = s.launch p.1 → (t.launch p.1).fatal.isSome = true) ∧
  (∀ fn req s, ∃ t, exec (.tdispRequest fn req) s = .next t ∧ { t with fns := s.fns } = s ∧ (∀ k, k ≠ fn → t.fn k = s.fn k) ∧
    (t.fn fn).tdi = match req, (s.fn fn).tdi with
      | .lock, .unlocked => .locked
      | .start, .locked => .run
      | .stop, _ => .unlocked
      | _, d => d)

/-- Queues and gates start launches, which are parsed and placed: the parts QueuesGatesCompletion, LaunchesBeginAndArePlaced, whose docstrings cite their rules. Where the spec leaves a point open, its clauses follow the model's own choices of log entries 21, 43, 44, 82. -/
def Obligations.QueuesAndLaunches : Prop := QueuesGatesCompletion ∧ LaunchesBeginAndArePlaced

/-- R261, R262, R266, R274: a cluster in the way of a higher launch leaves, and is saved once its teams have drained, its waits as remaining time; a
slice that is over passes to the next function and its clusters leave; a team whose groups all wait on staging without the token leaves until the
token comes. Where the spec leaves a point open, its clauses follow the model's own choices of log entry 44. -/
def Obligations.ClustersLeave : Prop :=
  (∀ ck s, (s.cluster ck).stage = .running → ck ∈ s.victims → exec (.preemption ck) s = .next (s.setCluster ck { s.cluster ck with stage := .leaving })) ∧
  (∀ ck s,
    let c := s.cluster ck
    let teams := clusterTeams (s.launch c.launch) c.launch c.index
    c.stage = .leaving → (s.launch c.launch).fatal = none → s.forRelaunch ck = false → s.drained teams = true →
    (s.launch c.launch).r.groups ≤ 32 → (c.index + 1) * (s.launch c.launch).size ≤ 2 ^ 32 →
    ∃ t, exec (.preemption ck) s = .next t ∧ t.cluster ck = { c with stage := .saved, cores := [], since := s.order } ∧ t.mem = s.mem ∧
      (∀ k, (t.team k).win = (s.team k).win ∧ (t.team k).tiles = (s.team k).tiles ∧ (t.team k).staging = (s.team k).staging) ∧
      ∀ tk ∈ teams, (t.team tk).stopped = true ∧ ∀ k ∈ s.presentGroups tk, (t.group k).v = (s.group k).v ∧ (t.group k).s = (s.group k).s ∧
        (t.group k).hold = (s.group k).hold ∧ (t.group k).tokens = (s.group k).tokens ∧
        ∀ l u, l < 32 → ((s.group k).lane l).cond = .asleep u → (t.group k).lane l = { (s.group k).lane l with cond := .asleep (u - s.cyc (s.team tk).core) }) ∧
  (∀ pair (s : State), 2 ≤ (s.sharers pair).length →
    250 * ((s.sliceOf pair).2 + (s.fn (s.sliceOf pair).1).tslice) ≤ s.tb.est.toNat → s.sliceOver pair = true) ∧
  (∀ pair s, s.sliceOver pair = true →
    ∃ t f, exec (.timeSliceExpiry pair) s = .next t ∧ mapGet (0, 0) t.owner pair = (f, (s.tb.est.toNat + 249) / 250) ∧ f ∈ s.sharers pair ∧ f ≠ (s.sliceOf pair).1 ∧
      (∀ ck ∈ s.clustersOn (s.sliceOf pair).1 pair, (s.cluster ck).stage = .running → (t.cluster ck).stage = .leaving) ∧
      { t with owner := s.owner, clusters := s.clusters } = s) ∧
  (∀ tk s,
    let ck := s.clusterOf (s.launch (teamLaunch tk)) tk
    (s.cluster ck).stage = .running → s.presentGroups tk ≠ [] → s.holdsToken tk = false → (∀ k ∈ s.presentGroups tk, (s.group k).why = .staging) →
    exec (.stagingOverflowPreempt tk) s = .next (s.setCluster ck { s.cluster ck with stage := .leaving, staged := true }))

/-- R225, R254, R255, R264, R265, R267 to R269, R298, R337: the holder of the token releases its records in their order, and the token passes to
the next team when it has ended and released all; a launch completes OK when every cluster has ended, and FAULTED with its first code once it has
drained and its images are written; checking mode runs it a second time, where the first team that differs stops at its end and makes it DIVERGENT;
each tells in DIGEST what a DET launch has released, a DIVERGENT one that of its first run (log entry 83), and a fragment's launch its status to its
step; a fatal trap makes the other clusters leave and discards what is staged; an idempotent launch's cluster is relaunched whole. Where the spec leaves a point open, its clauses follow the model's own choices of log entries 42, 44, 83. -/
def Obligations.LaunchesEnd : Prop :=
  (∀ lk s,
    let l := s.launch lk
    let tk := teamKey lk l.token
    let passes := fun (u : State) => u.setLaunch lk { u.launch lk with token := l.token + 1 }
    let differs := l.differ = none ∧ l.second = true ∧ mapGet [] l.digests l.token ≠ s.teamDigest tk
    l.det = true → l.active = true → l.fatal = none → l.token < l.r.teams → s.teamDone tk = true →
    (¬ differs → exec (.releaseTokenPass lk) s = .next (passes s)) ∧
    (differs → exec (.releaseTokenPass lk) s =
      .next (passes (((s.setLaunch lk { l with differ := some l.token }).stopTeam tk).askImage tk trapCheckFail 0)))) ∧
  (∀ lk s r rs bs,
    let l := s.launch lk
    let tm := s.team (teamKey lk l.token)
    l.active = true → l.fatal = none → l.second = false → tm.staging = r :: rs → r.row = true → r.op = .write bs → (∀ b ∈ bs, ∃ a, b.place = .mem a) →
    let t := s.releaseNext lk
    (∀ a, t.memByte a = memAfter s bs a) ∧ t.groups = s.groups ∧ t.team (teamKey lk l.token) =
      { tm with staging := rs, released := tm.released + 1, logs := mapSet [] tm.logs r.grp (mapGet [] tm.logs r.grp ++ recordBytes r) }) ∧
  (∀ lk s,
    let l := s.launch lk
    (s.stopOver lk = true → ∃ t, exec (.launchCompletion lk) s = .next t ∧
      Completes s t lk (8 + 256 * l.fatal.getD 0) (l.relaunch % 2 ^ 24 + min l.extra 255 * 2 ^ 24)
        (if l.det then s.launchDigest lk else List.replicate 32 0)) ∧
    (s.runOver lk = true → l.pending = 0 → l.chk = false → ∃ t, exec (.launchCompletion lk) s = .next t ∧
      Completes s t lk 0 (l.relaunch % 2 ^ 24 + min l.extra 255 * 2 ^ 24) (if l.det then s.launchDigest lk else List.replicate 32 0)) ∧
    (s.runOver lk = true → l.pending = 0 → l.chk = true → l.second = true → l.differ = none → ∃ t, exec (.launchCompletion lk) s = .next t ∧
      Completes s t lk 0 (l.relaunch % 2 ^ 24 + min l.extra 255 * 2 ^ 24) (s.launchDigest lk)) ∧
    (s.runOver lk = true → l.pending = 0 → l.chk = true → l.second = true → l.differ.isSome = true → ∃ t, exec (.launchCompletion lk) s = .next t ∧
      Completes s t lk 5 (l.relaunch % 2 ^ 24 + min l.extra 255 * 2 ^ 24)
      (sha256 ((List.range l.r.teams).foldr (fun i a => bytesOf 8 i ++ mapGet [] l.digests i ++ a) [])))) ∧
  (∀ lk s,
    let l := s.launch lk
    l.chk = true → l.second = false → s.runOver lk = true → l.pending = 0 →
    ∃ t, exec (.checkSecondRun lk) s = .next t ∧ (t.launch lk).second = true ∧ (t.launch lk).token = 0 ∧ t.mem = s.mem ∧
      (∀ i, i < l.r.teams → mapGet [] (t.launch lk).digests i = s.teamDigest (teamKey lk i)) ∧ (∀ p ∈ t.clusters, p.2.launch ≠ lk)) ∧
  (∀ lk s, (s.launch lk).active = true → (s.launch lk).fatal.isSome = true →
    ∃ t, exec (.fatalTrapStop lk) s = .next t ∧ t.mem = s.mem ∧ t.groups = s.groups ∧
      (∀ p ∈ s.clusters, p.2.launch = lk → (s.cluster p.1).stage = .running → (t.cluster p.1).stage = .leaving) ∧
      (∀ k, teamLaunch k = lk → (t.team k).staging = []) ∧ ∀ k, teamLaunch k ≠ lk → t.team k = s.team k) ∧
  (∀ ck s,
    let c := s.cluster ck
    let l := s.launch c.launch
    ck = clusterKey c.launch c.index → c.stage = .leaving → s.forRelaunch ck = true → l.active = true → l.fatal = none → l.pending = 0 →
    l.r.groups ≤ 32 → (c.index + 1) * l.size ≤ 2 ^ 32 →
    ∃ t, exec (.clusterRelaunch ck) s = .next t ∧ t.mem = s.mem ∧ (t.launch c.launch).relaunch = l.relaunch + 1 ∧
      (t.launch c.launch).token = (if c.index * l.size ≤ l.token ∧ l.token < (c.index + 1) * l.size then c.index * l.size else l.token) ∧
      (t.cluster ck).stage = .saved ∧ (t.cluster ck).since = s.order ∧
      ∀ r, r < l.size → let tk := teamKey c.launch (c.index * l.size + r)
        (t.team tk).win = [] ∧ (t.team tk).staging = [] ∧ (t.team tk).dead = false ∧ ∀ n, n < l.r.groups → Fresh l tk n (t.group (groupKey tk n)))

/-- Clock regions change frequency; power and temperature limits: the parts ClockRegions, PowerAndTemperature, whose docstrings cite their rules. Where the spec leaves a point open, its clauses follow the model's own choices of log entries 46, 61. -/
def Obligations.ClocksAndPower : Prop := ClockRegions ∧ PowerAndTemperature

/-- The timebase, its exchanges and the frame: the parts TheTimebase, TheFrame, whose docstrings cite their rules. Where the spec leaves a point open, its clauses follow the model's own choices of log entries 14, 46, 61, 68. -/
def Obligations.TimebaseAndFrame : Prop := TheTimebase ∧ TheFrame

/-- Pod ports deliver in order; dovetail links retire: the parts PortsDeliverInOrder, DovetailLinksRetire, whose docstrings cite their rules. Where the spec leaves a point open, its clauses follow the model's own choices of log entries 45, 66, 70. -/
def Obligations.PortsAndLinks : Prop := PortsDeliverInOrder ∧ DovetailLinksRetire

/-- R12: the bench steward assigns the module's index in its pod, 0 to 4,095; %pkg reads as it, and as 0 on a module that no pod has configured. -/
def Obligations.PodIndexIsRead : Prop :=
  (∀ n s, n < 4096 → exec (.podConfigure n) s = .next { s with pkg := n }) ∧
  (∀ f, (Instr.mov f).wellFormed = true → f.a = { unused with op := .special .pkg } → f.ty = .n32 → Does (.mov f) f fun x t =>
    x.s0.pkg < 4096 → Result x t .n32 0 fun _ => (x.s0.pkg, 0)) ∧
  State.reset.pkg = 0

/-- Stewards write core images and stop cores: the parts StewardsWriteImages, StewardsStopCores, whose docstrings cite their rules. Where the spec leaves a point open, its clauses follow the model's own choices of log entries 22, 59, 71, 73, 74. -/
def Obligations.Stewards : Prop := StewardsWriteImages ∧ StewardsStopCores

/-- Self-test, firmware, checkpoints and recovery: the parts SelfTestAndFirmware, CheckpointsAndRecovery, whose docstrings cite their rules. Where the spec leaves a point open, its clauses follow the model's own choices of log entries 12, 23, 45, 48, 61, 74, 82. -/
def Obligations.SelfTestAndCheckpoints : Prop := SelfTestAndFirmware ∧ CheckpointsAndRecovery

/-- R285, R343, R359: the security block answers the requests of a session in their order; its certificates and measurements are those of the running firmware;
only in a secure session are streams and the dump key set; streams are locked in RUN (R284), a stream begins with H = 0 and counter 0 accepted, and a context holds
up to 64 of them. Where the spec leaves a point open, its clauses follow the model's own choices of log entries 12, 48, 74. -/
def Obligations.SecureSessions : Prop :=
  ∀ fn s,
    let d := s.fw.image s.fw.active
    let signed := d.take (64 + ofBytes ((d.drop 12).take 8))
    let key := fun slot => if slot = 0 then 2 ^ 8 + ofBytesBE (sha256 signed) else imageKey
    let chain := fun slot => Config.certificate slot (key slot)
    (∃ t, exec (.getVersion fn) s = .next t ∧ Responds s t fn .versioned [0x12, 0x13]) ∧
    ((s.fn fn).spdm = .versioned → ∃ t bs, exec (.getCapabilities fn) s = .next t ∧ Responds s t fn .capable bs) ∧
    ((s.fn fn).spdm = .capable → ∃ t bs, exec (.negotiateAlgorithms fn) s = .next t ∧ Responds s t fn .negotiated bs) ∧
    (Agreed s fn → ∃ t, exec (.getDigests fn) s = .next t ∧
      Responds s t fn (s.fn fn).spdm (sha256 (chain 0) ++ sha256 (chain 1))) ∧
    (∀ slot, slot < 2 → Agreed s fn → ∃ t, exec (.getCertificate fn slot) s = .next t ∧ Responds s t fn (s.fn fn).spdm (chain slot)) ∧
    (∀ slot nonce, slot < 2 → Agreed s fn → ∃ t, exec (.challenge fn slot nonce) s = .next t ∧
      Responds s t fn (s.fn fn).spdm (signWith (key slot) (sha256 (chain slot ++ nonce)))) ∧
    (Agreed s fn →
      (∃ t, exec (.getMeasurements fn 1) s = .next t ∧ Responds s t fn (s.fn fn).spdm Config.romDigest) ∧
      (∃ t, exec (.getMeasurements fn 2) s = .next t ∧ Responds s t fn (s.fn fn).spdm (sha256 signed)) ∧
      (∃ t, exec (.getMeasurements fn 3) s = .next t ∧ Responds s t fn (s.fn fn).spdm (sha256 (Config.stewardPart d))) ∧
      (∃ t, exec (.getMeasurements fn 4) s = .next t ∧
        Responds s t fn (s.fn fn).spdm (bytesOf 4 (imageSvn d) ++ bytesOf 4 s.fw.fuse)) ∧
      ∃ t, exec (.getMeasurements fn 5) s = .next t ∧
        Responds s t fn (s.fn fn).spdm (bytesOf 8 (s.fn fn).part ++ bytesOf 8 (s.fn fn).tslice ++ bytesOf 8 (tdiCode (s.fn fn).tdi))) ∧
    (∀ share, (s.fn fn).spdm = .negotiated → ∃ t bs, exec (.keyExchange fn share) s = .next t ∧ Responds { s with frees := s.frees + 1 } t fn .keyed bs) ∧
    (∀ mac, (s.fn fn).spdm = .keyed → ∃ t, exec (.finish fn mac) s = .next t ∧ Responds s t fn .secure []) ∧
    ((s.fn fn).spdm = .secure → ∃ t, exec (.endSession fn) s = .next t ∧ Responds s t fn .negotiated []) ∧
    (∀ c num key salt,
      let rest := (s.ctx (ctxKey fn c)).streams.filter (·.num != num)
      ((s.fn fn).spdm = .secure → (s.fn fn).tdi ≠ .run → (s.ctx (ctxKey fn c)).enabled = true → num < 4096 → rest.length < 64 →
        exec (.streamConfig fn c num key salt) s = .next (s.setCtx (ctxKey fn c) { s.ctx (ctxKey fn c) with
          streams := rest ++ [{ num := num, key := key, salt := salt, high := 0, win := 1 }] })) ∧
      ((s.fn fn).spdm ≠ .secure ∨ (s.fn fn).tdi = .run ∨ 4096 ≤ num → exec (.streamConfig fn c num key salt) s = .next s)) ∧
    (∀ key, ((s.fn fn).spdm = .secure → exec (.dumpKeySet fn key) s = .next (s.updFn fn fun f => { f with dumpKey := some key })) ∧
      ((s.fn fn).spdm ≠ .secure → exec (.dumpKeySet fn key) s = .next s))
end

