-- ==== Sys2Proof/Laws/Map.lean ====
section
/-! SUPPORT. The laws of sparse maps: what is read after a write, and that a write keeps the canonical form. -/

namespace Sys2Proof.Machine

theorem mapGet_mapErase {α : Type} (d : α) (m : List (Nat × α)) (i k : Nat) :
    mapGet d (mapErase m i) k = if k = i then d else mapGet d m k := by
  induction m with
  | nil => simp [mapErase, mapGet]
  | cons p m ih =>
    obtain ⟨j, x⟩ := p
    by_cases hi : i = j
    · subst hi
      by_cases hk : k = i <;> simp_all [mapErase, mapGet]
    · by_cases hk : k = j
      · subst hk
        simp [mapErase, mapGet, hi, Ne.symm hi]
      · simp [mapErase, mapGet, hi, hk, ih]

theorem mapGet_mapInsert {α : Type} (d : α) (m : List (Nat × α)) (i : Nat) (y : α) (k : Nat) :
    mapGet d (mapInsert m i y) k = if k = i then y else mapGet d m k := by
  induction m with
  | nil => simp [mapInsert, mapGet]
  | cons p m ih =>
    obtain ⟨j, x⟩ := p
    by_cases hlt : i < j
    · simp [mapInsert, mapGet, hlt]
    · by_cases hi : i = j
      · subst hi
        by_cases hk : k = i <;> simp [mapInsert, mapGet, hk]
      · by_cases hk : k = j
        · subst hk
          simp [mapInsert, mapGet, hlt, hi, Ne.symm hi]
        · simp [mapInsert, mapGet, hlt, hi, hk, ih]

/-- A read after a write gives the value written at its key and what was there before elsewhere. -/
theorem mapGet_mapSet {α : Type} [DecidableEq α] (d : α) (m : List (Nat × α)) (i : Nat) (y : α) (k : Nat) :
    mapGet d (mapSet d m i y) k = if k = i then y else mapGet d m k := by
  unfold mapSet
  split
  · next h => rw [mapGet_mapErase]; subst h; rfl
  · exact mapGet_mapInsert d m i y k

@[simp] theorem mapGet_mapSet_self {α : Type} [DecidableEq α] (d : α) (m : List (Nat × α)) (i : Nat) (y : α) :
    mapGet d (mapSet d m i y) i = y := by simp [mapGet_mapSet]

theorem mapGet_mapSet_ne {α : Type} [DecidableEq α] (d : α) (m : List (Nat × α)) {i k : Nat} (y : α) (h : k ≠ i) :
    mapGet d (mapSet d m i y) k = mapGet d m k := by simp [mapGet_mapSet, h]

/-- A write repeated changes nothing. -/
theorem mapErase_idem {α : Type} (m : List (Nat × α)) (i : Nat) : mapErase (mapErase m i) i = mapErase m i := by
  induction m with
  | nil => rfl
  | cons p m ih =>
    obtain ⟨k, x⟩ := p
    by_cases h : i = k
    · simp [mapErase, h] at ih ⊢; exact ih
    · simp [mapErase, h, ih]

theorem mapInsert_idem {α : Type} (m : List (Nat × α)) (i : Nat) (y : α) : mapInsert (mapInsert m i y) i y = mapInsert m i y := by
  induction m with
  | nil => simp [mapInsert]
  | cons p m ih =>
    obtain ⟨k, x⟩ := p
    by_cases h1 : i < k
    · simp [mapInsert, h1]
    · by_cases h2 : i = k
      · subst h2; simp [mapInsert]
      · simp [mapInsert, h1, h2, ih]

theorem mapSet_idem {α : Type} [DecidableEq α] (d : α) (m : List (Nat × α)) (i : Nat) (y : α) :
    mapSet d (mapSet d m i y) i y = mapSet d m i y := by
  unfold mapSet
  split
  · exact mapErase_idem m i
  · exact mapInsert_idem m i y

-- THE CANONICAL FORM
/-- A lower bound of the keys may be weakened. -/
theorem mapWfFrom_mono {α : Type} [DecidableEq α] (d : α) {a b : Nat} (hab : a ≤ b) (m : List (Nat × α))
    (h : mapWfFrom d (some b) m = true) : mapWfFrom d (some a) m = true := by
  cases m with
  | nil => rfl
  | cons p m =>
    obtain ⟨k, x⟩ := p
    simp only [mapWfFrom, Bool.and_eq_true, decide_eq_true_eq] at h ⊢
    exact ⟨⟨by omega, h.1.2⟩, h.2⟩

theorem mapErase_wfFrom {α : Type} [DecidableEq α] (d : α) (m : List (Nat × α)) (i : Nat) :
    ∀ lo, mapWfFrom d lo m = true → mapWfFrom d lo (mapErase m i) = true := by
  induction m with
  | nil => intro lo h; exact h
  | cons p m ih =>
    obtain ⟨k, x⟩ := p
    intro lo h
    simp only [mapWfFrom, Bool.and_eq_true] at h
    simp only [mapErase]
    split
    · have ht := ih (some k) h.2
      cases lo with
      | none =>
        cases hm : mapErase m i with
        | nil => rfl
        | cons q n => rw [hm] at ht; simp only [mapWfFrom, Bool.and_eq_true] at ht ⊢; exact ⟨⟨trivial, ht.1.2⟩, ht.2⟩
      | some l => exact mapWfFrom_mono d (Nat.le_of_lt (by simpa using h.1.1)) _ ht
    · simp only [mapWfFrom, Bool.and_eq_true]
      exact ⟨h.1, ih _ h.2⟩

theorem mapInsert_wfFrom {α : Type} [DecidableEq α] (d : α) (m : List (Nat × α)) (i : Nat) (y : α) (hy : y ≠ d) :
    ∀ lo, (∀ l, lo = some l → l < i) → mapWfFrom d lo m = true → mapWfFrom d lo (mapInsert m i y) = true := by
  induction m with
  | nil =>
    intro lo hlo _
    cases lo with
    | none => simp [mapInsert, mapWfFrom, hy]
    | some l => simp [mapInsert, mapWfFrom, hy, hlo l rfl]
  | cons p m ih =>
    obtain ⟨k, x⟩ := p
    intro lo hlo h
    simp only [mapWfFrom, Bool.and_eq_true] at h
    simp only [mapInsert]
    split
    · next hik =>
      simp only [mapWfFrom, Bool.and_eq_true]
      refine ⟨⟨?_, by simpa using hy⟩, ⟨by simpa using hik, h.1.2⟩, h.2⟩
      cases lo with
      | none => rfl
      | some l => simp [hlo l rfl]
    · split
      · next hik =>
        subst hik
        simp only [mapWfFrom, Bool.and_eq_true]
        refine ⟨⟨?_, by simpa using hy⟩, h.2⟩
        cases lo with
        | none => rfl
        | some l => simp [hlo l rfl]
      · next h1 h2 =>
        simp only [mapWfFrom, Bool.and_eq_true]
        exact ⟨h.1, ih (some k) (by intro l hl; cases hl; omega) h.2⟩

/-- A write keeps the canonical form. -/
theorem mapSet_wf {α : Type} [DecidableEq α] (d : α) (m : List (Nat × α)) (i : Nat) (y : α) (h : mapWf d m = true) :
    mapWf d (mapSet d m i y) = true := by
  unfold mapSet
  split
  · exact mapErase_wfFrom d m i none h
  · next hy => exact mapInsert_wfFrom d m i y hy none (by intro l hl; cases hl) h

end Sys2Proof.Machine
end

