-- ==== Sys2Proof/Laws/Mem.lean ====
section
/-! SUPPORT. Device memory: a read after a write, the frame of a write, and that every write of bytes keeps the canonical form (R365). -/

namespace Sys2Proof.Machine

@[simp] theorem State.setMemByte_mem (s : State) (a : Nat) (b : Byte) : (s.setMemByte a b).mem = mapSet memDefault s.mem a b := rfl

theorem State.memByte_setMemByte (s : State) (a b : Nat) (v : Byte) : (s.setMemByte a v).memByte b = if b = a then v else s.memByte b := by
  unfold State.memByte
  rw [State.setMemByte_mem, mapGet_mapSet]

theorem State.setMemByte_wf (s : State) (a : Nat) (b : Byte) (h : Memory.wf s.mem = true) : Memory.wf (s.setMemByte a b).mem = true :=
  mapSet_wf memDefault s.mem a b h

theorem State.setMemByte_rest (s : State) (a : Nat) (b : Byte) : { s.setMemByte a b with mem := s.mem } = s := rfl

/-- A write of bytes lands on them, the first at the address, and leaves every other byte. -/
theorem State.memByte_setMemBytes (bs : List Byte) : ∀ (s : State) (a b : Nat),
    (s.setMemBytes a bs).memByte b = if a ≤ b ∧ b < a + bs.length then bs.getD (b - a) 0 else s.memByte b := by
  induction bs with
  | nil => intro s a b; simp only [State.setMemBytes, List.length_nil]; rw [if_neg (by omega)]
  | cons v vs ih =>
    intro s a b
    simp only [State.setMemBytes, List.length_cons]
    rw [ih, State.memByte_setMemByte]
    by_cases h : b = a
    · subst h; rw [if_neg (by omega), if_pos rfl, if_pos (by omega), Nat.sub_self]; rfl
    · by_cases h2 : a + 1 ≤ b ∧ b < a + 1 + vs.length
      · rw [if_pos h2, if_pos (by omega), show b - a = (b - (a + 1)) + 1 by omega]; rfl
      · rw [if_neg h2, if_neg h, if_neg (by omega)]

theorem State.setMemBytes_wf (bs : List Byte) : ∀ (s : State) (a : Nat), Memory.wf s.mem = true → Memory.wf (s.setMemBytes a bs).mem = true := by
  induction bs with
  | nil => intro s a h; exact h
  | cons v vs ih => intro s a h; exact ih _ _ (s.setMemByte_wf a v h)

theorem State.setMemBytes_rest (bs : List Byte) : ∀ (s : State) (a : Nat), { s.setMemBytes a bs with mem := s.mem } = s := by
  induction bs with
  | nil => intro s a; rfl
  | cons v vs ih => intro s a; exact congrArg (fun t : State => { t with mem := s.mem }) (ih (s.setMemByte a v) (a + 1))

theorem State.setMemNat_wf (s : State) (a n x : Nat) (h : Memory.wf s.mem = true) : Memory.wf (s.setMemNat a n x).mem = true :=
  State.setMemBytes_wf _ s a h

@[simp] theorem State.draw_mem (s : State) : s.draw.2.mem = s.mem := rfl

theorem State.logErr_wf (s : State) (k u : Nat) (d : DWord) (e : List Byte) (h : Memory.wf s.mem = true) : Memory.wf (s.logErr k u d e).mem = true := by
  unfold State.logErr
  dsimp only
  split
  · exact h
  · exact State.setMemBytes_wf _ s _ h

theorem State.logOpen_wf (s : State) (k u : Nat) (h : Memory.wf s.mem = true) : Memory.wf (s.logOpen k u).mem = true :=
  State.logErr_wf _ _ _ _ _ h

/-- The memory of the reset state is in the canonical form. -/
theorem reset_mem_wf : Memory.wf State.reset.mem = true := rfl

end Sys2Proof.Machine
end

