-- ==== Sys2Proof/Laws/State.lean ====
section
/-! SUPPORT. What each update of the state and of a group leaves: one lemma for each field, and one for each table. -/

namespace Sys2Proof.Machine

-- setGroup
@[simp] theorem State.setGroup_mem (s : State) (k : Nat) (g : Group) : (s.setGroup k g).mem = s.mem := rfl
@[simp] theorem State.setGroup_poisoned (s : State) (k : Nat) (g : Group) : (s.setGroup k g).poisoned = s.poisoned := rfl
@[simp] theorem State.setGroup_lines (s : State) (k : Nat) (g : Group) : (s.setGroup k g).lines = s.lines := rfl
@[simp] theorem State.setGroup_teams (s : State) (k : Nat) (g : Group) : (s.setGroup k g).teams = s.teams := rfl
@[simp] theorem State.setGroup_clusters (s : State) (k : Nat) (g : Group) : (s.setGroup k g).clusters = s.clusters := rfl
@[simp] theorem State.setGroup_launches (s : State) (k : Nat) (g : Group) : (s.setGroup k g).launches = s.launches := rfl
@[simp] theorem State.setGroup_nextLaunch (s : State) (k : Nat) (g : Group) : (s.setGroup k g).nextLaunch = s.nextLaunch := rfl
@[simp] theorem State.setGroup_cores (s : State) (k : Nat) (g : Group) : (s.setGroup k g).cores = s.cores := rfl
@[simp] theorem State.setGroup_bays (s : State) (k : Nat) (g : Group) : (s.setGroup k g).bays = s.bays := rfl
@[simp] theorem State.setGroup_copies (s : State) (k : Nat) (g : Group) : (s.setGroup k g).copies = s.copies := rfl
@[simp] theorem State.setGroup_nextCopy (s : State) (k : Nat) (g : Group) : (s.setGroup k g).nextCopy = s.nextCopy := rfl
@[simp] theorem State.setGroup_walks (s : State) (k : Nat) (g : Group) : (s.setGroup k g).walks = s.walks := rfl
@[simp] theorem State.setGroup_ctxs (s : State) (k : Nat) (g : Group) : (s.setGroup k g).ctxs = s.ctxs := rfl
@[simp] theorem State.setGroup_fns (s : State) (k : Nat) (g : Group) : (s.setGroup k g).fns = s.fns := rfl
@[simp] theorem State.setGroup_sleepers (s : State) (k : Nat) (g : Group) : (s.setGroup k g).sleepers = s.sleepers := rfl
@[simp] theorem State.setGroup_order (s : State) (k : Nat) (g : Group) : (s.setGroup k g).order = s.order := rfl
@[simp] theorem State.setGroup_members (s : State) (k : Nat) (g : Group) : (s.setGroup k g).members = s.members := rfl
@[simp] theorem State.setGroup_criers (s : State) (k : Nat) (g : Group) : (s.setGroup k g).criers = s.criers := rfl
@[simp] theorem State.setGroup_net (s : State) (k : Nat) (g : Group) : (s.setGroup k g).net = s.net := rfl
@[simp] theorem State.setGroup_outbox (s : State) (k : Nat) (g : Group) : (s.setGroup k g).outbox = s.outbox := rfl
@[simp] theorem State.setGroup_pendings (s : State) (k : Nat) (g : Group) : (s.setGroup k g).pendings = s.pendings := rfl
@[simp] theorem State.setGroup_folds (s : State) (k : Nat) (g : Group) : (s.setGroup k g).folds = s.folds := rfl
@[simp] theorem State.setGroup_nextId (s : State) (k : Nat) (g : Group) : (s.setGroup k g).nextId = s.nextId := rfl
@[simp] theorem State.setGroup_refused (s : State) (k : Nat) (g : Group) : (s.setGroup k g).refused = s.refused := rfl
@[simp] theorem State.setGroup_scripts (s : State) (k : Nat) (g : Group) : (s.setGroup k g).scripts = s.scripts := rfl
@[simp] theorem State.setGroup_credits (s : State) (k : Nat) (g : Group) : (s.setGroup k g).credits = s.credits := rfl
@[simp] theorem State.setGroup_tb (s : State) (k : Nat) (g : Group) : (s.setGroup k g).tb = s.tb := rfl
@[simp] theorem State.setGroup_clock (s : State) (k : Nat) (g : Group) : (s.setGroup k g).clock = s.clock := rfl
@[simp] theorem State.setGroup_ports (s : State) (k : Nat) (g : Group) : (s.setGroup k g).ports = s.ports := rfl
@[simp] theorem State.setGroup_links (s : State) (k : Nat) (g : Group) : (s.setGroup k g).links = s.links := rfl
@[simp] theorem State.setGroup_err (s : State) (k : Nat) (g : Group) : (s.setGroup k g).err = s.err := rfl
@[simp] theorem State.setGroup_inject (s : State) (k : Nat) (g : Group) : (s.setGroup k g).inject = s.inject := rfl
@[simp] theorem State.setGroup_fw (s : State) (k : Nat) (g : Group) : (s.setGroup k g).fw = s.fw := rfl
@[simp] theorem State.setGroup_ck (s : State) (k : Nat) (g : Group) : (s.setGroup k g).ck = s.ck := rfl
@[simp] theorem State.setGroup_health (s : State) (k : Nat) (g : Group) : (s.setGroup k g).health = s.health := rfl
@[simp] theorem State.setGroup_pkg (s : State) (k : Nat) (g : Group) : (s.setGroup k g).pkg = s.pkg := rfl
@[simp] theorem State.setGroup_rotate (s : State) (k : Nat) (g : Group) : (s.setGroup k g).rotate = s.rotate := rfl
@[simp] theorem State.setGroup_owner (s : State) (k : Nat) (g : Group) : (s.setGroup k g).owner = s.owner := rfl
@[simp] theorem State.setGroup_agenda (s : State) (k : Nat) (g : Group) : (s.setGroup k g).agenda = s.agenda := rfl
@[simp] theorem State.setGroup_picks (s : State) (k : Nat) (g : Group) : (s.setGroup k g).picks = s.picks := rfl
@[simp] theorem State.setGroup_frees (s : State) (k : Nat) (g : Group) : (s.setGroup k g).frees = s.frees := rfl
@[simp] theorem State.setGroup_images (s : State) (k : Nat) (g : Group) : (s.setGroup k g).images = s.images := rfl
@[simp] theorem State.setGroup_cur (s : State) (k : Nat) (g : Group) : (s.setGroup k g).cur = s.cur := rfl
theorem State.setGroup_at_group (s : State) (k i : Nat) (g : Group) : (s.setGroup k g).group i = if i = k then g else s.group i := mapGet_mapSet _ _ _ _ _
@[simp] theorem State.setGroup_at_group_self (s : State) (k : Nat) (g : Group) : (s.setGroup k g).group k = g := mapGet_mapSet_self _ _ _ _
@[simp] theorem State.setGroup_at_team (s : State) (k i : Nat) (g : Group) : (s.setGroup k g).team i = s.team i := rfl
@[simp] theorem State.setGroup_at_cluster (s : State) (k i : Nat) (g : Group) : (s.setGroup k g).cluster i = s.cluster i := rfl
@[simp] theorem State.setGroup_at_launch (s : State) (k i : Nat) (g : Group) : (s.setGroup k g).launch i = s.launch i := rfl
@[simp] theorem State.setGroup_at_core (s : State) (k i : Nat) (g : Group) : (s.setGroup k g).core i = s.core i := rfl
@[simp] theorem State.setGroup_at_bay (s : State) (k i : Nat) (g : Group) : (s.setGroup k g).bay i = s.bay i := rfl
@[simp] theorem State.setGroup_at_ctx (s : State) (k i : Nat) (g : Group) : (s.setGroup k g).ctx i = s.ctx i := rfl
@[simp] theorem State.setGroup_at_fn (s : State) (k i : Nat) (g : Group) : (s.setGroup k g).fn i = s.fn i := rfl
@[simp] theorem State.setGroup_at_port (s : State) (k i : Nat) (g : Group) : (s.setGroup k g).port i = s.port i := rfl
@[simp] theorem State.setGroup_at_crier (s : State) (k i : Nat) (g : Group) : (s.setGroup k g).crier i = s.crier i := rfl
@[simp] theorem State.setGroup_at_member (s : State) (k i : Nat) (g : Group) : (s.setGroup k g).member i = s.member i := rfl
@[simp] theorem State.setGroup_at_memByte (s : State) (k i : Nat) (g : Group) : (s.setGroup k g).memByte i = s.memByte i := rfl

-- setTeam
@[simp] theorem State.setTeam_mem (s : State) (k : Nat) (t : Team) : (s.setTeam k t).mem = s.mem := rfl
@[simp] theorem State.setTeam_poisoned (s : State) (k : Nat) (t : Team) : (s.setTeam k t).poisoned = s.poisoned := rfl
@[simp] theorem State.setTeam_lines (s : State) (k : Nat) (t : Team) : (s.setTeam k t).lines = s.lines := rfl
@[simp] theorem State.setTeam_groups (s : State) (k : Nat) (t : Team) : (s.setTeam k t).groups = s.groups := rfl
@[simp] theorem State.setTeam_clusters (s : State) (k : Nat) (t : Team) : (s.setTeam k t).clusters = s.clusters := rfl
@[simp] theorem State.setTeam_launches (s : State) (k : Nat) (t : Team) : (s.setTeam k t).launches = s.launches := rfl
@[simp] theorem State.setTeam_nextLaunch (s : State) (k : Nat) (t : Team) : (s.setTeam k t).nextLaunch = s.nextLaunch := rfl
@[simp] theorem State.setTeam_cores (s : State) (k : Nat) (t : Team) : (s.setTeam k t).cores = s.cores := rfl
@[simp] theorem State.setTeam_bays (s : State) (k : Nat) (t : Team) : (s.setTeam k t).bays = s.bays := rfl
@[simp] theorem State.setTeam_copies (s : State) (k : Nat) (t : Team) : (s.setTeam k t).copies = s.copies := rfl
@[simp] theorem State.setTeam_nextCopy (s : State) (k : Nat) (t : Team) : (s.setTeam k t).nextCopy = s.nextCopy := rfl
@[simp] theorem State.setTeam_walks (s : State) (k : Nat) (t : Team) : (s.setTeam k t).walks = s.walks := rfl
@[simp] theorem State.setTeam_ctxs (s : State) (k : Nat) (t : Team) : (s.setTeam k t).ctxs = s.ctxs := rfl
@[simp] theorem State.setTeam_fns (s : State) (k : Nat) (t : Team) : (s.setTeam k t).fns = s.fns := rfl
@[simp] theorem State.setTeam_sleepers (s : State) (k : Nat) (t : Team) : (s.setTeam k t).sleepers = s.sleepers := rfl
@[simp] theorem State.setTeam_order (s : State) (k : Nat) (t : Team) : (s.setTeam k t).order = s.order := rfl
@[simp] theorem State.setTeam_members (s : State) (k : Nat) (t : Team) : (s.setTeam k t).members = s.members := rfl
@[simp] theorem State.setTeam_criers (s : State) (k : Nat) (t : Team) : (s.setTeam k t).criers = s.criers := rfl
@[simp] theorem State.setTeam_net (s : State) (k : Nat) (t : Team) : (s.setTeam k t).net = s.net := rfl
@[simp] theorem State.setTeam_outbox (s : State) (k : Nat) (t : Team) : (s.setTeam k t).outbox = s.outbox := rfl
@[simp] theorem State.setTeam_pendings (s : State) (k : Nat) (t : Team) : (s.setTeam k t).pendings = s.pendings := rfl
@[simp] theorem State.setTeam_folds (s : State) (k : Nat) (t : Team) : (s.setTeam k t).folds = s.folds := rfl
@[simp] theorem State.setTeam_nextId (s : State) (k : Nat) (t : Team) : (s.setTeam k t).nextId = s.nextId := rfl
@[simp] theorem State.setTeam_refused (s : State) (k : Nat) (t : Team) : (s.setTeam k t).refused = s.refused := rfl
@[simp] theorem State.setTeam_scripts (s : State) (k : Nat) (t : Team) : (s.setTeam k t).scripts = s.scripts := rfl
@[simp] theorem State.setTeam_credits (s : State) (k : Nat) (t : Team) : (s.setTeam k t).credits = s.credits := rfl
@[simp] theorem State.setTeam_tb (s : State) (k : Nat) (t : Team) : (s.setTeam k t).tb = s.tb := rfl
@[simp] theorem State.setTeam_clock (s : State) (k : Nat) (t : Team) : (s.setTeam k t).clock = s.clock := rfl
@[simp] theorem State.setTeam_ports (s : State) (k : Nat) (t : Team) : (s.setTeam k t).ports = s.ports := rfl
@[simp] theorem State.setTeam_links (s : State) (k : Nat) (t : Team) : (s.setTeam k t).links = s.links := rfl
@[simp] theorem State.setTeam_err (s : State) (k : Nat) (t : Team) : (s.setTeam k t).err = s.err := rfl
@[simp] theorem State.setTeam_inject (s : State) (k : Nat) (t : Team) : (s.setTeam k t).inject = s.inject := rfl
@[simp] theorem State.setTeam_fw (s : State) (k : Nat) (t : Team) : (s.setTeam k t).fw = s.fw := rfl
@[simp] theorem State.setTeam_ck (s : State) (k : Nat) (t : Team) : (s.setTeam k t).ck = s.ck := rfl
@[simp] theorem State.setTeam_health (s : State) (k : Nat) (t : Team) : (s.setTeam k t).health = s.health := rfl
@[simp] theorem State.setTeam_pkg (s : State) (k : Nat) (t : Team) : (s.setTeam k t).pkg = s.pkg := rfl
@[simp] theorem State.setTeam_rotate (s : State) (k : Nat) (t : Team) : (s.setTeam k t).rotate = s.rotate := rfl
@[simp] theorem State.setTeam_owner (s : State) (k : Nat) (t : Team) : (s.setTeam k t).owner = s.owner := rfl
@[simp] theorem State.setTeam_agenda (s : State) (k : Nat) (t : Team) : (s.setTeam k t).agenda = s.agenda := rfl
@[simp] theorem State.setTeam_picks (s : State) (k : Nat) (t : Team) : (s.setTeam k t).picks = s.picks := rfl
@[simp] theorem State.setTeam_frees (s : State) (k : Nat) (t : Team) : (s.setTeam k t).frees = s.frees := rfl
@[simp] theorem State.setTeam_images (s : State) (k : Nat) (t : Team) : (s.setTeam k t).images = s.images := rfl
@[simp] theorem State.setTeam_cur (s : State) (k : Nat) (t : Team) : (s.setTeam k t).cur = s.cur := rfl
@[simp] theorem State.setTeam_at_group (s : State) (k i : Nat) (t : Team) : (s.setTeam k t).group i = s.group i := rfl
theorem State.setTeam_at_team (s : State) (k i : Nat) (t : Team) : (s.setTeam k t).team i = if i = k then t else s.team i := mapGet_mapSet _ _ _ _ _
@[simp] theorem State.setTeam_at_team_self (s : State) (k : Nat) (t : Team) : (s.setTeam k t).team k = t := mapGet_mapSet_self _ _ _ _
@[simp] theorem State.setTeam_at_cluster (s : State) (k i : Nat) (t : Team) : (s.setTeam k t).cluster i = s.cluster i := rfl
@[simp] theorem State.setTeam_at_launch (s : State) (k i : Nat) (t : Team) : (s.setTeam k t).launch i = s.launch i := rfl
@[simp] theorem State.setTeam_at_core (s : State) (k i : Nat) (t : Team) : (s.setTeam k t).core i = s.core i := rfl
@[simp] theorem State.setTeam_at_bay (s : State) (k i : Nat) (t : Team) : (s.setTeam k t).bay i = s.bay i := rfl
@[simp] theorem State.setTeam_at_ctx (s : State) (k i : Nat) (t : Team) : (s.setTeam k t).ctx i = s.ctx i := rfl
@[simp] theorem State.setTeam_at_fn (s : State) (k i : Nat) (t : Team) : (s.setTeam k t).fn i = s.fn i := rfl
@[simp] theorem State.setTeam_at_port (s : State) (k i : Nat) (t : Team) : (s.setTeam k t).port i = s.port i := rfl
@[simp] theorem State.setTeam_at_crier (s : State) (k i : Nat) (t : Team) : (s.setTeam k t).crier i = s.crier i := rfl
@[simp] theorem State.setTeam_at_member (s : State) (k i : Nat) (t : Team) : (s.setTeam k t).member i = s.member i := rfl
@[simp] theorem State.setTeam_at_memByte (s : State) (k i : Nat) (t : Team) : (s.setTeam k t).memByte i = s.memByte i := rfl

-- setCluster
@[simp] theorem State.setCluster_mem (s : State) (k : Nat) (c : Cluster) : (s.setCluster k c).mem = s.mem := rfl
@[simp] theorem State.setCluster_poisoned (s : State) (k : Nat) (c : Cluster) : (s.setCluster k c).poisoned = s.poisoned := rfl
@[simp] theorem State.setCluster_lines (s : State) (k : Nat) (c : Cluster) : (s.setCluster k c).lines = s.lines := rfl
@[simp] theorem State.setCluster_groups (s : State) (k : Nat) (c : Cluster) : (s.setCluster k c).groups = s.groups := rfl
@[simp] theorem State.setCluster_teams (s : State) (k : Nat) (c : Cluster) : (s.setCluster k c).teams = s.teams := rfl
@[simp] theorem State.setCluster_launches (s : State) (k : Nat) (c : Cluster) : (s.setCluster k c).launches = s.launches := rfl
@[simp] theorem State.setCluster_nextLaunch (s : State) (k : Nat) (c : Cluster) : (s.setCluster k c).nextLaunch = s.nextLaunch := rfl
@[simp] theorem State.setCluster_cores (s : State) (k : Nat) (c : Cluster) : (s.setCluster k c).cores = s.cores := rfl
@[simp] theorem State.setCluster_bays (s : State) (k : Nat) (c : Cluster) : (s.setCluster k c).bays = s.bays := rfl
@[simp] theorem State.setCluster_copies (s : State) (k : Nat) (c : Cluster) : (s.setCluster k c).copies = s.copies := rfl
@[simp] theorem State.setCluster_nextCopy (s : State) (k : Nat) (c : Cluster) : (s.setCluster k c).nextCopy = s.nextCopy := rfl
@[simp] theorem State.setCluster_walks (s : State) (k : Nat) (c : Cluster) : (s.setCluster k c).walks = s.walks := rfl
@[simp] theorem State.setCluster_ctxs (s : State) (k : Nat) (c : Cluster) : (s.setCluster k c).ctxs = s.ctxs := rfl
@[simp] theorem State.setCluster_fns (s : State) (k : Nat) (c : Cluster) : (s.setCluster k c).fns = s.fns := rfl
@[simp] theorem State.setCluster_sleepers (s : State) (k : Nat) (c : Cluster) : (s.setCluster k c).sleepers = s.sleepers := rfl
@[simp] theorem State.setCluster_order (s : State) (k : Nat) (c : Cluster) : (s.setCluster k c).order = s.order := rfl
@[simp] theorem State.setCluster_members (s : State) (k : Nat) (c : Cluster) : (s.setCluster k c).members = s.members := rfl
@[simp] theorem State.setCluster_criers (s : State) (k : Nat) (c : Cluster) : (s.setCluster k c).criers = s.criers := rfl
@[simp] theorem State.setCluster_net (s : State) (k : Nat) (c : Cluster) : (s.setCluster k c).net = s.net := rfl
@[simp] theorem State.setCluster_outbox (s : State) (k : Nat) (c : Cluster) : (s.setCluster k c).outbox = s.outbox := rfl
@[simp] theorem State.setCluster_pendings (s : State) (k : Nat) (c : Cluster) : (s.setCluster k c).pendings = s.pendings := rfl
@[simp] theorem State.setCluster_folds (s : State) (k : Nat) (c : Cluster) : (s.setCluster k c).folds = s.folds := rfl
@[simp] theorem State.setCluster_nextId (s : State) (k : Nat) (c : Cluster) : (s.setCluster k c).nextId = s.nextId := rfl
@[simp] theorem State.setCluster_refused (s : State) (k : Nat) (c : Cluster) : (s.setCluster k c).refused = s.refused := rfl
@[simp] theorem State.setCluster_scripts (s : State) (k : Nat) (c : Cluster) : (s.setCluster k c).scripts = s.scripts := rfl
@[simp] theorem State.setCluster_credits (s : State) (k : Nat) (c : Cluster) : (s.setCluster k c).credits = s.credits := rfl
@[simp] theorem State.setCluster_tb (s : State) (k : Nat) (c : Cluster) : (s.setCluster k c).tb = s.tb := rfl
@[simp] theorem State.setCluster_clock (s : State) (k : Nat) (c : Cluster) : (s.setCluster k c).clock = s.clock := rfl
@[simp] theorem State.setCluster_ports (s : State) (k : Nat) (c : Cluster) : (s.setCluster k c).ports = s.ports := rfl
@[simp] theorem State.setCluster_links (s : State) (k : Nat) (c : Cluster) : (s.setCluster k c).links = s.links := rfl
@[simp] theorem State.setCluster_err (s : State) (k : Nat) (c : Cluster) : (s.setCluster k c).err = s.err := rfl
@[simp] theorem State.setCluster_inject (s : State) (k : Nat) (c : Cluster) : (s.setCluster k c).inject = s.inject := rfl
@[simp] theorem State.setCluster_fw (s : State) (k : Nat) (c : Cluster) : (s.setCluster k c).fw = s.fw := rfl
@[simp] theorem State.setCluster_ck (s : State) (k : Nat) (c : Cluster) : (s.setCluster k c).ck = s.ck := rfl
@[simp] theorem State.setCluster_health (s : State) (k : Nat) (c : Cluster) : (s.setCluster k c).health = s.health := rfl
@[simp] theorem State.setCluster_pkg (s : State) (k : Nat) (c : Cluster) : (s.setCluster k c).pkg = s.pkg := rfl
@[simp] theorem State.setCluster_rotate (s : State) (k : Nat) (c : Cluster) : (s.setCluster k c).rotate = s.rotate := rfl
@[simp] theorem State.setCluster_owner (s : State) (k : Nat) (c : Cluster) : (s.setCluster k c).owner = s.owner := rfl
@[simp] theorem State.setCluster_agenda (s : State) (k : Nat) (c : Cluster) : (s.setCluster k c).agenda = s.agenda := rfl
@[simp] theorem State.setCluster_picks (s : State) (k : Nat) (c : Cluster) : (s.setCluster k c).picks = s.picks := rfl
@[simp] theorem State.setCluster_frees (s : State) (k : Nat) (c : Cluster) : (s.setCluster k c).frees = s.frees := rfl
@[simp] theorem State.setCluster_images (s : State) (k : Nat) (c : Cluster) : (s.setCluster k c).images = s.images := rfl
@[simp] theorem State.setCluster_cur (s : State) (k : Nat) (c : Cluster) : (s.setCluster k c).cur = s.cur := rfl
@[simp] theorem State.setCluster_at_group (s : State) (k i : Nat) (c : Cluster) : (s.setCluster k c).group i = s.group i := rfl
@[simp] theorem State.setCluster_at_team (s : State) (k i : Nat) (c : Cluster) : (s.setCluster k c).team i = s.team i := rfl
theorem State.setCluster_at_cluster (s : State) (k i : Nat) (c : Cluster) : (s.setCluster k c).cluster i = if i = k then c else s.cluster i := mapGet_mapSet _ _ _ _ _
@[simp] theorem State.setCluster_at_cluster_self (s : State) (k : Nat) (c : Cluster) : (s.setCluster k c).cluster k = c := mapGet_mapSet_self _ _ _ _
@[simp] theorem State.setCluster_at_launch (s : State) (k i : Nat) (c : Cluster) : (s.setCluster k c).launch i = s.launch i := rfl
@[simp] theorem State.setCluster_at_core (s : State) (k i : Nat) (c : Cluster) : (s.setCluster k c).core i = s.core i := rfl
@[simp] theorem State.setCluster_at_bay (s : State) (k i : Nat) (c : Cluster) : (s.setCluster k c).bay i = s.bay i := rfl
@[simp] theorem State.setCluster_at_ctx (s : State) (k i : Nat) (c : Cluster) : (s.setCluster k c).ctx i = s.ctx i := rfl
@[simp] theorem State.setCluster_at_fn (s : State) (k i : Nat) (c : Cluster) : (s.setCluster k c).fn i = s.fn i := rfl
@[simp] theorem State.setCluster_at_port (s : State) (k i : Nat) (c : Cluster) : (s.setCluster k c).port i = s.port i := rfl
@[simp] theorem State.setCluster_at_crier (s : State) (k i : Nat) (c : Cluster) : (s.setCluster k c).crier i = s.crier i := rfl
@[simp] theorem State.setCluster_at_member (s : State) (k i : Nat) (c : Cluster) : (s.setCluster k c).member i = s.member i := rfl
@[simp] theorem State.setCluster_at_memByte (s : State) (k i : Nat) (c : Cluster) : (s.setCluster k c).memByte i = s.memByte i := rfl

-- setLaunch
@[simp] theorem State.setLaunch_mem (s : State) (k : Nat) (l : Launch) : (s.setLaunch k l).mem = s.mem := rfl
@[simp] theorem State.setLaunch_poisoned (s : State) (k : Nat) (l : Launch) : (s.setLaunch k l).poisoned = s.poisoned := rfl
@[simp] theorem State.setLaunch_lines (s : State) (k : Nat) (l : Launch) : (s.setLaunch k l).lines = s.lines := rfl
@[simp] theorem State.setLaunch_groups (s : State) (k : Nat) (l : Launch) : (s.setLaunch k l).groups = s.groups := rfl
@[simp] theorem State.setLaunch_teams (s : State) (k : Nat) (l : Launch) : (s.setLaunch k l).teams = s.teams := rfl
@[simp] theorem State.setLaunch_clusters (s : State) (k : Nat) (l : Launch) : (s.setLaunch k l).clusters = s.clusters := rfl
@[simp] theorem State.setLaunch_nextLaunch (s : State) (k : Nat) (l : Launch) : (s.setLaunch k l).nextLaunch = s.nextLaunch := rfl
@[simp] theorem State.setLaunch_cores (s : State) (k : Nat) (l : Launch) : (s.setLaunch k l).cores = s.cores := rfl
@[simp] theorem State.setLaunch_bays (s : State) (k : Nat) (l : Launch) : (s.setLaunch k l).bays = s.bays := rfl
@[simp] theorem State.setLaunch_copies (s : State) (k : Nat) (l : Launch) : (s.setLaunch k l).copies = s.copies := rfl
@[simp] theorem State.setLaunch_nextCopy (s : State) (k : Nat) (l : Launch) : (s.setLaunch k l).nextCopy = s.nextCopy := rfl
@[simp] theorem State.setLaunch_walks (s : State) (k : Nat) (l : Launch) : (s.setLaunch k l).walks = s.walks := rfl
@[simp] theorem State.setLaunch_ctxs (s : State) (k : Nat) (l : Launch) : (s.setLaunch k l).ctxs = s.ctxs := rfl
@[simp] theorem State.setLaunch_fns (s : State) (k : Nat) (l : Launch) : (s.setLaunch k l).fns = s.fns := rfl
@[simp] theorem State.setLaunch_sleepers (s : State) (k : Nat) (l : Launch) : (s.setLaunch k l).sleepers = s.sleepers := rfl
@[simp] theorem State.setLaunch_order (s : State) (k : Nat) (l : Launch) : (s.setLaunch k l).order = s.order := rfl
@[simp] theorem State.setLaunch_members (s : State) (k : Nat) (l : Launch) : (s.setLaunch k l).members = s.members := rfl
@[simp] theorem State.setLaunch_criers (s : State) (k : Nat) (l : Launch) : (s.setLaunch k l).criers = s.criers := rfl
@[simp] theorem State.setLaunch_net (s : State) (k : Nat) (l : Launch) : (s.setLaunch k l).net = s.net := rfl
@[simp] theorem State.setLaunch_outbox (s : State) (k : Nat) (l : Launch) : (s.setLaunch k l).outbox = s.outbox := rfl
@[simp] theorem State.setLaunch_pendings (s : State) (k : Nat) (l : Launch) : (s.setLaunch k l).pendings = s.pendings := rfl
@[simp] theorem State.setLaunch_folds (s : State) (k : Nat) (l : Launch) : (s.setLaunch k l).folds = s.folds := rfl
@[simp] theorem State.setLaunch_nextId (s : State) (k : Nat) (l : Launch) : (s.setLaunch k l).nextId = s.nextId := rfl
@[simp] theorem State.setLaunch_refused (s : State) (k : Nat) (l : Launch) : (s.setLaunch k l).refused = s.refused := rfl
@[simp] theorem State.setLaunch_scripts (s : State) (k : Nat) (l : Launch) : (s.setLaunch k l).scripts = s.scripts := rfl
@[simp] theorem State.setLaunch_credits (s : State) (k : Nat) (l : Launch) : (s.setLaunch k l).credits = s.credits := rfl
@[simp] theorem State.setLaunch_tb (s : State) (k : Nat) (l : Launch) : (s.setLaunch k l).tb = s.tb := rfl
@[simp] theorem State.setLaunch_clock (s : State) (k : Nat) (l : Launch) : (s.setLaunch k l).clock = s.clock := rfl
@[simp] theorem State.setLaunch_ports (s : State) (k : Nat) (l : Launch) : (s.setLaunch k l).ports = s.ports := rfl
@[simp] theorem State.setLaunch_links (s : State) (k : Nat) (l : Launch) : (s.setLaunch k l).links = s.links := rfl
@[simp] theorem State.setLaunch_err (s : State) (k : Nat) (l : Launch) : (s.setLaunch k l).err = s.err := rfl
@[simp] theorem State.setLaunch_inject (s : State) (k : Nat) (l : Launch) : (s.setLaunch k l).inject = s.inject := rfl
@[simp] theorem State.setLaunch_fw (s : State) (k : Nat) (l : Launch) : (s.setLaunch k l).fw = s.fw := rfl
@[simp] theorem State.setLaunch_ck (s : State) (k : Nat) (l : Launch) : (s.setLaunch k l).ck = s.ck := rfl
@[simp] theorem State.setLaunch_health (s : State) (k : Nat) (l : Launch) : (s.setLaunch k l).health = s.health := rfl
@[simp] theorem State.setLaunch_pkg (s : State) (k : Nat) (l : Launch) : (s.setLaunch k l).pkg = s.pkg := rfl
@[simp] theorem State.setLaunch_rotate (s : State) (k : Nat) (l : Launch) : (s.setLaunch k l).rotate = s.rotate := rfl
@[simp] theorem State.setLaunch_owner (s : State) (k : Nat) (l : Launch) : (s.setLaunch k l).owner = s.owner := rfl
@[simp] theorem State.setLaunch_agenda (s : State) (k : Nat) (l : Launch) : (s.setLaunch k l).agenda = s.agenda := rfl
@[simp] theorem State.setLaunch_picks (s : State) (k : Nat) (l : Launch) : (s.setLaunch k l).picks = s.picks := rfl
@[simp] theorem State.setLaunch_frees (s : State) (k : Nat) (l : Launch) : (s.setLaunch k l).frees = s.frees := rfl
@[simp] theorem State.setLaunch_images (s : State) (k : Nat) (l : Launch) : (s.setLaunch k l).images = s.images := rfl
@[simp] theorem State.setLaunch_cur (s : State) (k : Nat) (l : Launch) : (s.setLaunch k l).cur = s.cur := rfl
@[simp] theorem State.setLaunch_at_group (s : State) (k i : Nat) (l : Launch) : (s.setLaunch k l).group i = s.group i := rfl
@[simp] theorem State.setLaunch_at_team (s : State) (k i : Nat) (l : Launch) : (s.setLaunch k l).team i = s.team i := rfl
@[simp] theorem State.setLaunch_at_cluster (s : State) (k i : Nat) (l : Launch) : (s.setLaunch k l).cluster i = s.cluster i := rfl
theorem State.setLaunch_at_launch (s : State) (k i : Nat) (l : Launch) : (s.setLaunch k l).launch i = if i = k then l else s.launch i := mapGet_mapSet _ _ _ _ _
@[simp] theorem State.setLaunch_at_launch_self (s : State) (k : Nat) (l : Launch) : (s.setLaunch k l).launch k = l := mapGet_mapSet_self _ _ _ _
@[simp] theorem State.setLaunch_at_core (s : State) (k i : Nat) (l : Launch) : (s.setLaunch k l).core i = s.core i := rfl
@[simp] theorem State.setLaunch_at_bay (s : State) (k i : Nat) (l : Launch) : (s.setLaunch k l).bay i = s.bay i := rfl
@[simp] theorem State.setLaunch_at_ctx (s : State) (k i : Nat) (l : Launch) : (s.setLaunch k l).ctx i = s.ctx i := rfl
@[simp] theorem State.setLaunch_at_fn (s : State) (k i : Nat) (l : Launch) : (s.setLaunch k l).fn i = s.fn i := rfl
@[simp] theorem State.setLaunch_at_port (s : State) (k i : Nat) (l : Launch) : (s.setLaunch k l).port i = s.port i := rfl
@[simp] theorem State.setLaunch_at_crier (s : State) (k i : Nat) (l : Launch) : (s.setLaunch k l).crier i = s.crier i := rfl
@[simp] theorem State.setLaunch_at_member (s : State) (k i : Nat) (l : Launch) : (s.setLaunch k l).member i = s.member i := rfl
@[simp] theorem State.setLaunch_at_memByte (s : State) (k i : Nat) (l : Launch) : (s.setLaunch k l).memByte i = s.memByte i := rfl

-- setCore
@[simp] theorem State.setCore_mem (s : State) (k : Nat) (c : Core) : (s.setCore k c).mem = s.mem := rfl
@[simp] theorem State.setCore_poisoned (s : State) (k : Nat) (c : Core) : (s.setCore k c).poisoned = s.poisoned := rfl
@[simp] theorem State.setCore_lines (s : State) (k : Nat) (c : Core) : (s.setCore k c).lines = s.lines := rfl
@[simp] theorem State.setCore_groups (s : State) (k : Nat) (c : Core) : (s.setCore k c).groups = s.groups := rfl
@[simp] theorem State.setCore_teams (s : State) (k : Nat) (c : Core) : (s.setCore k c).teams = s.teams := rfl
@[simp] theorem State.setCore_clusters (s : State) (k : Nat) (c : Core) : (s.setCore k c).clusters = s.clusters := rfl
@[simp] theorem State.setCore_launches (s : State) (k : Nat) (c : Core) : (s.setCore k c).launches = s.launches := rfl
@[simp] theorem State.setCore_nextLaunch (s : State) (k : Nat) (c : Core) : (s.setCore k c).nextLaunch = s.nextLaunch := rfl
@[simp] theorem State.setCore_bays (s : State) (k : Nat) (c : Core) : (s.setCore k c).bays = s.bays := rfl
@[simp] theorem State.setCore_copies (s : State) (k : Nat) (c : Core) : (s.setCore k c).copies = s.copies := rfl
@[simp] theorem State.setCore_nextCopy (s : State) (k : Nat) (c : Core) : (s.setCore k c).nextCopy = s.nextCopy := rfl
@[simp] theorem State.setCore_walks (s : State) (k : Nat) (c : Core) : (s.setCore k c).walks = s.walks := rfl
@[simp] theorem State.setCore_ctxs (s : State) (k : Nat) (c : Core) : (s.setCore k c).ctxs = s.ctxs := rfl
@[simp] theorem State.setCore_fns (s : State) (k : Nat) (c : Core) : (s.setCore k c).fns = s.fns := rfl
@[simp] theorem State.setCore_sleepers (s : State) (k : Nat) (c : Core) : (s.setCore k c).sleepers = s.sleepers := rfl
@[simp] theorem State.setCore_order (s : State) (k : Nat) (c : Core) : (s.setCore k c).order = s.order := rfl
@[simp] theorem State.setCore_members (s : State) (k : Nat) (c : Core) : (s.setCore k c).members = s.members := rfl
@[simp] theorem State.setCore_criers (s : State) (k : Nat) (c : Core) : (s.setCore k c).criers = s.criers := rfl
@[simp] theorem State.setCore_net (s : State) (k : Nat) (c : Core) : (s.setCore k c).net = s.net := rfl
@[simp] theorem State.setCore_outbox (s : State) (k : Nat) (c : Core) : (s.setCore k c).outbox = s.outbox := rfl
@[simp] theorem State.setCore_pendings (s : State) (k : Nat) (c : Core) : (s.setCore k c).pendings = s.pendings := rfl
@[simp] theorem State.setCore_folds (s : State) (k : Nat) (c : Core) : (s.setCore k c).folds = s.folds := rfl
@[simp] theorem State.setCore_nextId (s : State) (k : Nat) (c : Core) : (s.setCore k c).nextId = s.nextId := rfl
@[simp] theorem State.setCore_refused (s : State) (k : Nat) (c : Core) : (s.setCore k c).refused = s.refused := rfl
@[simp] theorem State.setCore_scripts (s : State) (k : Nat) (c : Core) : (s.setCore k c).scripts = s.scripts := rfl
@[simp] theorem State.setCore_credits (s : State) (k : Nat) (c : Core) : (s.setCore k c).credits = s.credits := rfl
@[simp] theorem State.setCore_tb (s : State) (k : Nat) (c : Core) : (s.setCore k c).tb = s.tb := rfl
@[simp] theorem State.setCore_clock (s : State) (k : Nat) (c : Core) : (s.setCore k c).clock = s.clock := rfl
@[simp] theorem State.setCore_ports (s : State) (k : Nat) (c : Core) : (s.setCore k c).ports = s.ports := rfl
@[simp] theorem State.setCore_links (s : State) (k : Nat) (c : Core) : (s.setCore k c).links = s.links := rfl
@[simp] theorem State.setCore_err (s : State) (k : Nat) (c : Core) : (s.setCore k c).err = s.err := rfl
@[simp] theorem State.setCore_inject (s : State) (k : Nat) (c : Core) : (s.setCore k c).inject = s.inject := rfl
@[simp] theorem State.setCore_fw (s : State) (k : Nat) (c : Core) : (s.setCore k c).fw = s.fw := rfl
@[simp] theorem State.setCore_ck (s : State) (k : Nat) (c : Core) : (s.setCore k c).ck = s.ck := rfl
@[simp] theorem State.setCore_health (s : State) (k : Nat) (c : Core) : (s.setCore k c).health = s.health := rfl
@[simp] theorem State.setCore_pkg (s : State) (k : Nat) (c : Core) : (s.setCore k c).pkg = s.pkg := rfl
@[simp] theorem State.setCore_rotate (s : State) (k : Nat) (c : Core) : (s.setCore k c).rotate = s.rotate := rfl
@[simp] theorem State.setCore_owner (s : State) (k : Nat) (c : Core) : (s.setCore k c).owner = s.owner := rfl
@[simp] theorem State.setCore_agenda (s : State) (k : Nat) (c : Core) : (s.setCore k c).agenda = s.agenda := rfl
@[simp] theorem State.setCore_picks (s : State) (k : Nat) (c : Core) : (s.setCore k c).picks = s.picks := rfl
@[simp] theorem State.setCore_frees (s : State) (k : Nat) (c : Core) : (s.setCore k c).frees = s.frees := rfl
@[simp] theorem State.setCore_images (s : State) (k : Nat) (c : Core) : (s.setCore k c).images = s.images := rfl
@[simp] theorem State.setCore_cur (s : State) (k : Nat) (c : Core) : (s.setCore k c).cur = s.cur := rfl
@[simp] theorem State.setCore_at_group (s : State) (k i : Nat) (c : Core) : (s.setCore k c).group i = s.group i := rfl
@[simp] theorem State.setCore_at_team (s : State) (k i : Nat) (c : Core) : (s.setCore k c).team i = s.team i := rfl
@[simp] theorem State.setCore_at_cluster (s : State) (k i : Nat) (c : Core) : (s.setCore k c).cluster i = s.cluster i := rfl
@[simp] theorem State.setCore_at_launch (s : State) (k i : Nat) (c : Core) : (s.setCore k c).launch i = s.launch i := rfl
theorem State.setCore_at_core (s : State) (k i : Nat) (c : Core) : (s.setCore k c).core i = if i = k then c else s.core i := mapGet_mapSet _ _ _ _ _
@[simp] theorem State.setCore_at_core_self (s : State) (k : Nat) (c : Core) : (s.setCore k c).core k = c := mapGet_mapSet_self _ _ _ _
@[simp] theorem State.setCore_at_bay (s : State) (k i : Nat) (c : Core) : (s.setCore k c).bay i = s.bay i := rfl
@[simp] theorem State.setCore_at_ctx (s : State) (k i : Nat) (c : Core) : (s.setCore k c).ctx i = s.ctx i := rfl
@[simp] theorem State.setCore_at_fn (s : State) (k i : Nat) (c : Core) : (s.setCore k c).fn i = s.fn i := rfl
@[simp] theorem State.setCore_at_port (s : State) (k i : Nat) (c : Core) : (s.setCore k c).port i = s.port i := rfl
@[simp] theorem State.setCore_at_crier (s : State) (k i : Nat) (c : Core) : (s.setCore k c).crier i = s.crier i := rfl
@[simp] theorem State.setCore_at_member (s : State) (k i : Nat) (c : Core) : (s.setCore k c).member i = s.member i := rfl
@[simp] theorem State.setCore_at_memByte (s : State) (k i : Nat) (c : Core) : (s.setCore k c).memByte i = s.memByte i := rfl

-- setBay
@[simp] theorem State.setBay_mem (s : State) (k : Nat) (b : Bay) : (s.setBay k b).mem = s.mem := rfl
@[simp] theorem State.setBay_poisoned (s : State) (k : Nat) (b : Bay) : (s.setBay k b).poisoned = s.poisoned := rfl
@[simp] theorem State.setBay_lines (s : State) (k : Nat) (b : Bay) : (s.setBay k b).lines = s.lines := rfl
@[simp] theorem State.setBay_groups (s : State) (k : Nat) (b : Bay) : (s.setBay k b).groups = s.groups := rfl
@[simp] theorem State.setBay_teams (s : State) (k : Nat) (b : Bay) : (s.setBay k b).teams = s.teams := rfl
@[simp] theorem State.setBay_clusters (s : State) (k : Nat) (b : Bay) : (s.setBay k b).clusters = s.clusters := rfl
@[simp] theorem State.setBay_launches (s : State) (k : Nat) (b : Bay) : (s.setBay k b).launches = s.launches := rfl
@[simp] theorem State.setBay_nextLaunch (s : State) (k : Nat) (b : Bay) : (s.setBay k b).nextLaunch = s.nextLaunch := rfl
@[simp] theorem State.setBay_cores (s : State) (k : Nat) (b : Bay) : (s.setBay k b).cores = s.cores := rfl
@[simp] theorem State.setBay_copies (s : State) (k : Nat) (b : Bay) : (s.setBay k b).copies = s.copies := rfl
@[simp] theorem State.setBay_nextCopy (s : State) (k : Nat) (b : Bay) : (s.setBay k b).nextCopy = s.nextCopy := rfl
@[simp] theorem State.setBay_walks (s : State) (k : Nat) (b : Bay) : (s.setBay k b).walks = s.walks := rfl
@[simp] theorem State.setBay_ctxs (s : State) (k : Nat) (b : Bay) : (s.setBay k b).ctxs = s.ctxs := rfl
@[simp] theorem State.setBay_fns (s : State) (k : Nat) (b : Bay) : (s.setBay k b).fns = s.fns := rfl
@[simp] theorem State.setBay_sleepers (s : State) (k : Nat) (b : Bay) : (s.setBay k b).sleepers = s.sleepers := rfl
@[simp] theorem State.setBay_order (s : State) (k : Nat) (b : Bay) : (s.setBay k b).order = s.order := rfl
@[simp] theorem State.setBay_members (s : State) (k : Nat) (b : Bay) : (s.setBay k b).members = s.members := rfl
@[simp] theorem State.setBay_criers (s : State) (k : Nat) (b : Bay) : (s.setBay k b).criers = s.criers := rfl
@[simp] theorem State.setBay_net (s : State) (k : Nat) (b : Bay) : (s.setBay k b).net = s.net := rfl
@[simp] theorem State.setBay_outbox (s : State) (k : Nat) (b : Bay) : (s.setBay k b).outbox = s.outbox := rfl
@[simp] theorem State.setBay_pendings (s : State) (k : Nat) (b : Bay) : (s.setBay k b).pendings = s.pendings := rfl
@[simp] theorem State.setBay_folds (s : State) (k : Nat) (b : Bay) : (s.setBay k b).folds = s.folds := rfl
@[simp] theorem State.setBay_nextId (s : State) (k : Nat) (b : Bay) : (s.setBay k b).nextId = s.nextId := rfl
@[simp] theorem State.setBay_refused (s : State) (k : Nat) (b : Bay) : (s.setBay k b).refused = s.refused := rfl
@[simp] theorem State.setBay_scripts (s : State) (k : Nat) (b : Bay) : (s.setBay k b).scripts = s.scripts := rfl
@[simp] theorem State.setBay_credits (s : State) (k : Nat) (b : Bay) : (s.setBay k b).credits = s.credits := rfl
@[simp] theorem State.setBay_tb (s : State) (k : Nat) (b : Bay) : (s.setBay k b).tb = s.tb := rfl
@[simp] theorem State.setBay_clock (s : State) (k : Nat) (b : Bay) : (s.setBay k b).clock = s.clock := rfl
@[simp] theorem State.setBay_ports (s : State) (k : Nat) (b : Bay) : (s.setBay k b).ports = s.ports := rfl
@[simp] theorem State.setBay_links (s : State) (k : Nat) (b : Bay) : (s.setBay k b).links = s.links := rfl
@[simp] theorem State.setBay_err (s : State) (k : Nat) (b : Bay) : (s.setBay k b).err = s.err := rfl
@[simp] theorem State.setBay_inject (s : State) (k : Nat) (b : Bay) : (s.setBay k b).inject = s.inject := rfl
@[simp] theorem State.setBay_fw (s : State) (k : Nat) (b : Bay) : (s.setBay k b).fw = s.fw := rfl
@[simp] theorem State.setBay_ck (s : State) (k : Nat) (b : Bay) : (s.setBay k b).ck = s.ck := rfl
@[simp] theorem State.setBay_health (s : State) (k : Nat) (b : Bay) : (s.setBay k b).health = s.health := rfl
@[simp] theorem State.setBay_pkg (s : State) (k : Nat) (b : Bay) : (s.setBay k b).pkg = s.pkg := rfl
@[simp] theorem State.setBay_rotate (s : State) (k : Nat) (b : Bay) : (s.setBay k b).rotate = s.rotate := rfl
@[simp] theorem State.setBay_owner (s : State) (k : Nat) (b : Bay) : (s.setBay k b).owner = s.owner := rfl
@[simp] theorem State.setBay_agenda (s : State) (k : Nat) (b : Bay) : (s.setBay k b).agenda = s.agenda := rfl
@[simp] theorem State.setBay_picks (s : State) (k : Nat) (b : Bay) : (s.setBay k b).picks = s.picks := rfl
@[simp] theorem State.setBay_frees (s : State) (k : Nat) (b : Bay) : (s.setBay k b).frees = s.frees := rfl
@[simp] theorem State.setBay_images (s : State) (k : Nat) (b : Bay) : (s.setBay k b).images = s.images := rfl
@[simp] theorem State.setBay_cur (s : State) (k : Nat) (b : Bay) : (s.setBay k b).cur = s.cur := rfl
@[simp] theorem State.setBay_at_group (s : State) (k i : Nat) (b : Bay) : (s.setBay k b).group i = s.group i := rfl
@[simp] theorem State.setBay_at_team (s : State) (k i : Nat) (b : Bay) : (s.setBay k b).team i = s.team i := rfl
@[simp] theorem State.setBay_at_cluster (s : State) (k i : Nat) (b : Bay) : (s.setBay k b).cluster i = s.cluster i := rfl
@[simp] theorem State.setBay_at_launch (s : State) (k i : Nat) (b : Bay) : (s.setBay k b).launch i = s.launch i := rfl
@[simp] theorem State.setBay_at_core (s : State) (k i : Nat) (b : Bay) : (s.setBay k b).core i = s.core i := rfl
theorem State.setBay_at_bay (s : State) (k i : Nat) (b : Bay) : (s.setBay k b).bay i = if i = k then b else s.bay i := mapGet_mapSet _ _ _ _ _
@[simp] theorem State.setBay_at_bay_self (s : State) (k : Nat) (b : Bay) : (s.setBay k b).bay k = b := mapGet_mapSet_self _ _ _ _
@[simp] theorem State.setBay_at_ctx (s : State) (k i : Nat) (b : Bay) : (s.setBay k b).ctx i = s.ctx i := rfl
@[simp] theorem State.setBay_at_fn (s : State) (k i : Nat) (b : Bay) : (s.setBay k b).fn i = s.fn i := rfl
@[simp] theorem State.setBay_at_port (s : State) (k i : Nat) (b : Bay) : (s.setBay k b).port i = s.port i := rfl
@[simp] theorem State.setBay_at_crier (s : State) (k i : Nat) (b : Bay) : (s.setBay k b).crier i = s.crier i := rfl
@[simp] theorem State.setBay_at_member (s : State) (k i : Nat) (b : Bay) : (s.setBay k b).member i = s.member i := rfl
@[simp] theorem State.setBay_at_memByte (s : State) (k i : Nat) (b : Bay) : (s.setBay k b).memByte i = s.memByte i := rfl

-- setCtx
@[simp] theorem State.setCtx_mem (s : State) (k : Nat) (c : Ctx) : (s.setCtx k c).mem = s.mem := rfl
@[simp] theorem State.setCtx_poisoned (s : State) (k : Nat) (c : Ctx) : (s.setCtx k c).poisoned = s.poisoned := rfl
@[simp] theorem State.setCtx_lines (s : State) (k : Nat) (c : Ctx) : (s.setCtx k c).lines = s.lines := rfl
@[simp] theorem State.setCtx_groups (s : State) (k : Nat) (c : Ctx) : (s.setCtx k c).groups = s.groups := rfl
@[simp] theorem State.setCtx_teams (s : State) (k : Nat) (c : Ctx) : (s.setCtx k c).teams = s.teams := rfl
@[simp] theorem State.setCtx_clusters (s : State) (k : Nat) (c : Ctx) : (s.setCtx k c).clusters = s.clusters := rfl
@[simp] theorem State.setCtx_launches (s : State) (k : Nat) (c : Ctx) : (s.setCtx k c).launches = s.launches := rfl
@[simp] theorem State.setCtx_nextLaunch (s : State) (k : Nat) (c : Ctx) : (s.setCtx k c).nextLaunch = s.nextLaunch := rfl
@[simp] theorem State.setCtx_cores (s : State) (k : Nat) (c : Ctx) : (s.setCtx k c).cores = s.cores := rfl
@[simp] theorem State.setCtx_bays (s : State) (k : Nat) (c : Ctx) : (s.setCtx k c).bays = s.bays := rfl
@[simp] theorem State.setCtx_copies (s : State) (k : Nat) (c : Ctx) : (s.setCtx k c).copies = s.copies := rfl
@[simp] theorem State.setCtx_nextCopy (s : State) (k : Nat) (c : Ctx) : (s.setCtx k c).nextCopy = s.nextCopy := rfl
@[simp] theorem State.setCtx_walks (s : State) (k : Nat) (c : Ctx) : (s.setCtx k c).walks = s.walks := rfl
@[simp] theorem State.setCtx_fns (s : State) (k : Nat) (c : Ctx) : (s.setCtx k c).fns = s.fns := rfl
@[simp] theorem State.setCtx_sleepers (s : State) (k : Nat) (c : Ctx) : (s.setCtx k c).sleepers = s.sleepers := rfl
@[simp] theorem State.setCtx_order (s : State) (k : Nat) (c : Ctx) : (s.setCtx k c).order = s.order := rfl
@[simp] theorem State.setCtx_members (s : State) (k : Nat) (c : Ctx) : (s.setCtx k c).members = s.members := rfl
@[simp] theorem State.setCtx_criers (s : State) (k : Nat) (c : Ctx) : (s.setCtx k c).criers = s.criers := rfl
@[simp] theorem State.setCtx_net (s : State) (k : Nat) (c : Ctx) : (s.setCtx k c).net = s.net := rfl
@[simp] theorem State.setCtx_outbox (s : State) (k : Nat) (c : Ctx) : (s.setCtx k c).outbox = s.outbox := rfl
@[simp] theorem State.setCtx_pendings (s : State) (k : Nat) (c : Ctx) : (s.setCtx k c).pendings = s.pendings := rfl
@[simp] theorem State.setCtx_folds (s : State) (k : Nat) (c : Ctx) : (s.setCtx k c).folds = s.folds := rfl
@[simp] theorem State.setCtx_nextId (s : State) (k : Nat) (c : Ctx) : (s.setCtx k c).nextId = s.nextId := rfl
@[simp] theorem State.setCtx_refused (s : State) (k : Nat) (c : Ctx) : (s.setCtx k c).refused = s.refused := rfl
@[simp] theorem State.setCtx_scripts (s : State) (k : Nat) (c : Ctx) : (s.setCtx k c).scripts = s.scripts := rfl
@[simp] theorem State.setCtx_credits (s : State) (k : Nat) (c : Ctx) : (s.setCtx k c).credits = s.credits := rfl
@[simp] theorem State.setCtx_tb (s : State) (k : Nat) (c : Ctx) : (s.setCtx k c).tb = s.tb := rfl
@[simp] theorem State.setCtx_clock (s : State) (k : Nat) (c : Ctx) : (s.setCtx k c).clock = s.clock := rfl
@[simp] theorem State.setCtx_ports (s : State) (k : Nat) (c : Ctx) : (s.setCtx k c).ports = s.ports := rfl
@[simp] theorem State.setCtx_links (s : State) (k : Nat) (c : Ctx) : (s.setCtx k c).links = s.links := rfl
@[simp] theorem State.setCtx_err (s : State) (k : Nat) (c : Ctx) : (s.setCtx k c).err = s.err := rfl
@[simp] theorem State.setCtx_inject (s : State) (k : Nat) (c : Ctx) : (s.setCtx k c).inject = s.inject := rfl
@[simp] theorem State.setCtx_fw (s : State) (k : Nat) (c : Ctx) : (s.setCtx k c).fw = s.fw := rfl
@[simp] theorem State.setCtx_ck (s : State) (k : Nat) (c : Ctx) : (s.setCtx k c).ck = s.ck := rfl
@[simp] theorem State.setCtx_health (s : State) (k : Nat) (c : Ctx) : (s.setCtx k c).health = s.health := rfl
@[simp] theorem State.setCtx_pkg (s : State) (k : Nat) (c : Ctx) : (s.setCtx k c).pkg = s.pkg := rfl
@[simp] theorem State.setCtx_rotate (s : State) (k : Nat) (c : Ctx) : (s.setCtx k c).rotate = s.rotate := rfl
@[simp] theorem State.setCtx_owner (s : State) (k : Nat) (c : Ctx) : (s.setCtx k c).owner = s.owner := rfl
@[simp] theorem State.setCtx_agenda (s : State) (k : Nat) (c : Ctx) : (s.setCtx k c).agenda = s.agenda := rfl
@[simp] theorem State.setCtx_picks (s : State) (k : Nat) (c : Ctx) : (s.setCtx k c).picks = s.picks := rfl
@[simp] theorem State.setCtx_frees (s : State) (k : Nat) (c : Ctx) : (s.setCtx k c).frees = s.frees := rfl
@[simp] theorem State.setCtx_images (s : State) (k : Nat) (c : Ctx) : (s.setCtx k c).images = s.images := rfl
@[simp] theorem State.setCtx_cur (s : State) (k : Nat) (c : Ctx) : (s.setCtx k c).cur = s.cur := rfl
@[simp] theorem State.setCtx_at_group (s : State) (k i : Nat) (c : Ctx) : (s.setCtx k c).group i = s.group i := rfl
@[simp] theorem State.setCtx_at_team (s : State) (k i : Nat) (c : Ctx) : (s.setCtx k c).team i = s.team i := rfl
@[simp] theorem State.setCtx_at_cluster (s : State) (k i : Nat) (c : Ctx) : (s.setCtx k c).cluster i = s.cluster i := rfl
@[simp] theorem State.setCtx_at_launch (s : State) (k i : Nat) (c : Ctx) : (s.setCtx k c).launch i = s.launch i := rfl
@[simp] theorem State.setCtx_at_core (s : State) (k i : Nat) (c : Ctx) : (s.setCtx k c).core i = s.core i := rfl
@[simp] theorem State.setCtx_at_bay (s : State) (k i : Nat) (c : Ctx) : (s.setCtx k c).bay i = s.bay i := rfl
theorem State.setCtx_at_ctx (s : State) (k i : Nat) (c : Ctx) : (s.setCtx k c).ctx i = if i = k then c else s.ctx i := mapGet_mapSet _ _ _ _ _
@[simp] theorem State.setCtx_at_ctx_self (s : State) (k : Nat) (c : Ctx) : (s.setCtx k c).ctx k = c := mapGet_mapSet_self _ _ _ _
@[simp] theorem State.setCtx_at_fn (s : State) (k i : Nat) (c : Ctx) : (s.setCtx k c).fn i = s.fn i := rfl
@[simp] theorem State.setCtx_at_port (s : State) (k i : Nat) (c : Ctx) : (s.setCtx k c).port i = s.port i := rfl
@[simp] theorem State.setCtx_at_crier (s : State) (k i : Nat) (c : Ctx) : (s.setCtx k c).crier i = s.crier i := rfl
@[simp] theorem State.setCtx_at_member (s : State) (k i : Nat) (c : Ctx) : (s.setCtx k c).member i = s.member i := rfl
@[simp] theorem State.setCtx_at_memByte (s : State) (k i : Nat) (c : Ctx) : (s.setCtx k c).memByte i = s.memByte i := rfl

-- setFn
@[simp] theorem State.setFn_mem (s : State) (k : Nat) (x : Fn) : (s.setFn k x).mem = s.mem := rfl
@[simp] theorem State.setFn_poisoned (s : State) (k : Nat) (x : Fn) : (s.setFn k x).poisoned = s.poisoned := rfl
@[simp] theorem State.setFn_lines (s : State) (k : Nat) (x : Fn) : (s.setFn k x).lines = s.lines := rfl
@[simp] theorem State.setFn_groups (s : State) (k : Nat) (x : Fn) : (s.setFn k x).groups = s.groups := rfl
@[simp] theorem State.setFn_teams (s : State) (k : Nat) (x : Fn) : (s.setFn k x).teams = s.teams := rfl
@[simp] theorem State.setFn_clusters (s : State) (k : Nat) (x : Fn) : (s.setFn k x).clusters = s.clusters := rfl
@[simp] theorem State.setFn_launches (s : State) (k : Nat) (x : Fn) : (s.setFn k x).launches = s.launches := rfl
@[simp] theorem State.setFn_nextLaunch (s : State) (k : Nat) (x : Fn) : (s.setFn k x).nextLaunch = s.nextLaunch := rfl
@[simp] theorem State.setFn_cores (s : State) (k : Nat) (x : Fn) : (s.setFn k x).cores = s.cores := rfl
@[simp] theorem State.setFn_bays (s : State) (k : Nat) (x : Fn) : (s.setFn k x).bays = s.bays := rfl
@[simp] theorem State.setFn_copies (s : State) (k : Nat) (x : Fn) : (s.setFn k x).copies = s.copies := rfl
@[simp] theorem State.setFn_nextCopy (s : State) (k : Nat) (x : Fn) : (s.setFn k x).nextCopy = s.nextCopy := rfl
@[simp] theorem State.setFn_walks (s : State) (k : Nat) (x : Fn) : (s.setFn k x).walks = s.walks := rfl
@[simp] theorem State.setFn_ctxs (s : State) (k : Nat) (x : Fn) : (s.setFn k x).ctxs = s.ctxs := rfl
@[simp] theorem State.setFn_sleepers (s : State) (k : Nat) (x : Fn) : (s.setFn k x).sleepers = s.sleepers := rfl
@[simp] theorem State.setFn_order (s : State) (k : Nat) (x : Fn) : (s.setFn k x).order = s.order := rfl
@[simp] theorem State.setFn_members (s : State) (k : Nat) (x : Fn) : (s.setFn k x).members = s.members := rfl
@[simp] theorem State.setFn_criers (s : State) (k : Nat) (x : Fn) : (s.setFn k x).criers = s.criers := rfl
@[simp] theorem State.setFn_net (s : State) (k : Nat) (x : Fn) : (s.setFn k x).net = s.net := rfl
@[simp] theorem State.setFn_outbox (s : State) (k : Nat) (x : Fn) : (s.setFn k x).outbox = s.outbox := rfl
@[simp] theorem State.setFn_pendings (s : State) (k : Nat) (x : Fn) : (s.setFn k x).pendings = s.pendings := rfl
@[simp] theorem State.setFn_folds (s : State) (k : Nat) (x : Fn) : (s.setFn k x).folds = s.folds := rfl
@[simp] theorem State.setFn_nextId (s : State) (k : Nat) (x : Fn) : (s.setFn k x).nextId = s.nextId := rfl
@[simp] theorem State.setFn_refused (s : State) (k : Nat) (x : Fn) : (s.setFn k x).refused = s.refused := rfl
@[simp] theorem State.setFn_scripts (s : State) (k : Nat) (x : Fn) : (s.setFn k x).scripts = s.scripts := rfl
@[simp] theorem State.setFn_credits (s : State) (k : Nat) (x : Fn) : (s.setFn k x).credits = s.credits := rfl
@[simp] theorem State.setFn_tb (s : State) (k : Nat) (x : Fn) : (s.setFn k x).tb = s.tb := rfl
@[simp] theorem State.setFn_clock (s : State) (k : Nat) (x : Fn) : (s.setFn k x).clock = s.clock := rfl
@[simp] theorem State.setFn_ports (s : State) (k : Nat) (x : Fn) : (s.setFn k x).ports = s.ports := rfl
@[simp] theorem State.setFn_links (s : State) (k : Nat) (x : Fn) : (s.setFn k x).links = s.links := rfl
@[simp] theorem State.setFn_err (s : State) (k : Nat) (x : Fn) : (s.setFn k x).err = s.err := rfl
@[simp] theorem State.setFn_inject (s : State) (k : Nat) (x : Fn) : (s.setFn k x).inject = s.inject := rfl
@[simp] theorem State.setFn_fw (s : State) (k : Nat) (x : Fn) : (s.setFn k x).fw = s.fw := rfl
@[simp] theorem State.setFn_ck (s : State) (k : Nat) (x : Fn) : (s.setFn k x).ck = s.ck := rfl
@[simp] theorem State.setFn_health (s : State) (k : Nat) (x : Fn) : (s.setFn k x).health = s.health := rfl
@[simp] theorem State.setFn_pkg (s : State) (k : Nat) (x : Fn) : (s.setFn k x).pkg = s.pkg := rfl
@[simp] theorem State.setFn_rotate (s : State) (k : Nat) (x : Fn) : (s.setFn k x).rotate = s.rotate := rfl
@[simp] theorem State.setFn_owner (s : State) (k : Nat) (x : Fn) : (s.setFn k x).owner = s.owner := rfl
@[simp] theorem State.setFn_agenda (s : State) (k : Nat) (x : Fn) : (s.setFn k x).agenda = s.agenda := rfl
@[simp] theorem State.setFn_picks (s : State) (k : Nat) (x : Fn) : (s.setFn k x).picks = s.picks := rfl
@[simp] theorem State.setFn_frees (s : State) (k : Nat) (x : Fn) : (s.setFn k x).frees = s.frees := rfl
@[simp] theorem State.setFn_images (s : State) (k : Nat) (x : Fn) : (s.setFn k x).images = s.images := rfl
@[simp] theorem State.setFn_cur (s : State) (k : Nat) (x : Fn) : (s.setFn k x).cur = s.cur := rfl
@[simp] theorem State.setFn_at_group (s : State) (k i : Nat) (x : Fn) : (s.setFn k x).group i = s.group i := rfl
@[simp] theorem State.setFn_at_team (s : State) (k i : Nat) (x : Fn) : (s.setFn k x).team i = s.team i := rfl
@[simp] theorem State.setFn_at_cluster (s : State) (k i : Nat) (x : Fn) : (s.setFn k x).cluster i = s.cluster i := rfl
@[simp] theorem State.setFn_at_launch (s : State) (k i : Nat) (x : Fn) : (s.setFn k x).launch i = s.launch i := rfl
@[simp] theorem State.setFn_at_core (s : State) (k i : Nat) (x : Fn) : (s.setFn k x).core i = s.core i := rfl
@[simp] theorem State.setFn_at_bay (s : State) (k i : Nat) (x : Fn) : (s.setFn k x).bay i = s.bay i := rfl
@[simp] theorem State.setFn_at_ctx (s : State) (k i : Nat) (x : Fn) : (s.setFn k x).ctx i = s.ctx i := rfl
theorem State.setFn_at_fn (s : State) (k i : Nat) (x : Fn) : (s.setFn k x).fn i = if i = k then x else s.fn i := mapGet_mapSet _ _ _ _ _
@[simp] theorem State.setFn_at_fn_self (s : State) (k : Nat) (x : Fn) : (s.setFn k x).fn k = x := mapGet_mapSet_self _ _ _ _
@[simp] theorem State.setFn_at_port (s : State) (k i : Nat) (x : Fn) : (s.setFn k x).port i = s.port i := rfl
@[simp] theorem State.setFn_at_crier (s : State) (k i : Nat) (x : Fn) : (s.setFn k x).crier i = s.crier i := rfl
@[simp] theorem State.setFn_at_member (s : State) (k i : Nat) (x : Fn) : (s.setFn k x).member i = s.member i := rfl
@[simp] theorem State.setFn_at_memByte (s : State) (k i : Nat) (x : Fn) : (s.setFn k x).memByte i = s.memByte i := rfl

-- setPort
@[simp] theorem State.setPort_mem (s : State) (k : Nat) (x : Port) : (s.setPort k x).mem = s.mem := rfl
@[simp] theorem State.setPort_poisoned (s : State) (k : Nat) (x : Port) : (s.setPort k x).poisoned = s.poisoned := rfl
@[simp] theorem State.setPort_lines (s : State) (k : Nat) (x : Port) : (s.setPort k x).lines = s.lines := rfl
@[simp] theorem State.setPort_groups (s : State) (k : Nat) (x : Port) : (s.setPort k x).groups = s.groups := rfl
@[simp] theorem State.setPort_teams (s : State) (k : Nat) (x : Port) : (s.setPort k x).teams = s.teams := rfl
@[simp] theorem State.setPort_clusters (s : State) (k : Nat) (x : Port) : (s.setPort k x).clusters = s.clusters := rfl
@[simp] theorem State.setPort_launches (s : State) (k : Nat) (x : Port) : (s.setPort k x).launches = s.launches := rfl
@[simp] theorem State.setPort_nextLaunch (s : State) (k : Nat) (x : Port) : (s.setPort k x).nextLaunch = s.nextLaunch := rfl
@[simp] theorem State.setPort_cores (s : State) (k : Nat) (x : Port) : (s.setPort k x).cores = s.cores := rfl
@[simp] theorem State.setPort_bays (s : State) (k : Nat) (x : Port) : (s.setPort k x).bays = s.bays := rfl
@[simp] theorem State.setPort_copies (s : State) (k : Nat) (x : Port) : (s.setPort k x).copies = s.copies := rfl
@[simp] theorem State.setPort_nextCopy (s : State) (k : Nat) (x : Port) : (s.setPort k x).nextCopy = s.nextCopy := rfl
@[simp] theorem State.setPort_walks (s : State) (k : Nat) (x : Port) : (s.setPort k x).walks = s.walks := rfl
@[simp] theorem State.setPort_ctxs (s : State) (k : Nat) (x : Port) : (s.setPort k x).ctxs = s.ctxs := rfl
@[simp] theorem State.setPort_fns (s : State) (k : Nat) (x : Port) : (s.setPort k x).fns = s.fns := rfl
@[simp] theorem State.setPort_sleepers (s : State) (k : Nat) (x : Port) : (s.setPort k x).sleepers = s.sleepers := rfl
@[simp] theorem State.setPort_order (s : State) (k : Nat) (x : Port) : (s.setPort k x).order = s.order := rfl
@[simp] theorem State.setPort_members (s : State) (k : Nat) (x : Port) : (s.setPort k x).members = s.members := rfl
@[simp] theorem State.setPort_criers (s : State) (k : Nat) (x : Port) : (s.setPort k x).criers = s.criers := rfl
@[simp] theorem State.setPort_net (s : State) (k : Nat) (x : Port) : (s.setPort k x).net = s.net := rfl
@[simp] theorem State.setPort_outbox (s : State) (k : Nat) (x : Port) : (s.setPort k x).outbox = s.outbox := rfl
@[simp] theorem State.setPort_pendings (s : State) (k : Nat) (x : Port) : (s.setPort k x).pendings = s.pendings := rfl
@[simp] theorem State.setPort_folds (s : State) (k : Nat) (x : Port) : (s.setPort k x).folds = s.folds := rfl
@[simp] theorem State.setPort_nextId (s : State) (k : Nat) (x : Port) : (s.setPort k x).nextId = s.nextId := rfl
@[simp] theorem State.setPort_refused (s : State) (k : Nat) (x : Port) : (s.setPort k x).refused = s.refused := rfl
@[simp] theorem State.setPort_scripts (s : State) (k : Nat) (x : Port) : (s.setPort k x).scripts = s.scripts := rfl
@[simp] theorem State.setPort_credits (s : State) (k : Nat) (x : Port) : (s.setPort k x).credits = s.credits := rfl
@[simp] theorem State.setPort_tb (s : State) (k : Nat) (x : Port) : (s.setPort k x).tb = s.tb := rfl
@[simp] theorem State.setPort_clock (s : State) (k : Nat) (x : Port) : (s.setPort k x).clock = s.clock := rfl
@[simp] theorem State.setPort_links (s : State) (k : Nat) (x : Port) : (s.setPort k x).links = s.links := rfl
@[simp] theorem State.setPort_err (s : State) (k : Nat) (x : Port) : (s.setPort k x).err = s.err := rfl
@[simp] theorem State.setPort_inject (s : State) (k : Nat) (x : Port) : (s.setPort k x).inject = s.inject := rfl
@[simp] theorem State.setPort_fw (s : State) (k : Nat) (x : Port) : (s.setPort k x).fw = s.fw := rfl
@[simp] theorem State.setPort_ck (s : State) (k : Nat) (x : Port) : (s.setPort k x).ck = s.ck := rfl
@[simp] theorem State.setPort_health (s : State) (k : Nat) (x : Port) : (s.setPort k x).health = s.health := rfl
@[simp] theorem State.setPort_pkg (s : State) (k : Nat) (x : Port) : (s.setPort k x).pkg = s.pkg := rfl
@[simp] theorem State.setPort_rotate (s : State) (k : Nat) (x : Port) : (s.setPort k x).rotate = s.rotate := rfl
@[simp] theorem State.setPort_owner (s : State) (k : Nat) (x : Port) : (s.setPort k x).owner = s.owner := rfl
@[simp] theorem State.setPort_agenda (s : State) (k : Nat) (x : Port) : (s.setPort k x).agenda = s.agenda := rfl
@[simp] theorem State.setPort_picks (s : State) (k : Nat) (x : Port) : (s.setPort k x).picks = s.picks := rfl
@[simp] theorem State.setPort_frees (s : State) (k : Nat) (x : Port) : (s.setPort k x).frees = s.frees := rfl
@[simp] theorem State.setPort_images (s : State) (k : Nat) (x : Port) : (s.setPort k x).images = s.images := rfl
@[simp] theorem State.setPort_cur (s : State) (k : Nat) (x : Port) : (s.setPort k x).cur = s.cur := rfl
@[simp] theorem State.setPort_at_group (s : State) (k i : Nat) (x : Port) : (s.setPort k x).group i = s.group i := rfl
@[simp] theorem State.setPort_at_team (s : State) (k i : Nat) (x : Port) : (s.setPort k x).team i = s.team i := rfl
@[simp] theorem State.setPort_at_cluster (s : State) (k i : Nat) (x : Port) : (s.setPort k x).cluster i = s.cluster i := rfl
@[simp] theorem State.setPort_at_launch (s : State) (k i : Nat) (x : Port) : (s.setPort k x).launch i = s.launch i := rfl
@[simp] theorem State.setPort_at_core (s : State) (k i : Nat) (x : Port) : (s.setPort k x).core i = s.core i := rfl
@[simp] theorem State.setPort_at_bay (s : State) (k i : Nat) (x : Port) : (s.setPort k x).bay i = s.bay i := rfl
@[simp] theorem State.setPort_at_ctx (s : State) (k i : Nat) (x : Port) : (s.setPort k x).ctx i = s.ctx i := rfl
@[simp] theorem State.setPort_at_fn (s : State) (k i : Nat) (x : Port) : (s.setPort k x).fn i = s.fn i := rfl
theorem State.setPort_at_port (s : State) (k i : Nat) (x : Port) : (s.setPort k x).port i = if i = k then x else s.port i := mapGet_mapSet _ _ _ _ _
@[simp] theorem State.setPort_at_port_self (s : State) (k : Nat) (x : Port) : (s.setPort k x).port k = x := mapGet_mapSet_self _ _ _ _
@[simp] theorem State.setPort_at_crier (s : State) (k i : Nat) (x : Port) : (s.setPort k x).crier i = s.crier i := rfl
@[simp] theorem State.setPort_at_member (s : State) (k i : Nat) (x : Port) : (s.setPort k x).member i = s.member i := rfl
@[simp] theorem State.setPort_at_memByte (s : State) (k i : Nat) (x : Port) : (s.setPort k x).memByte i = s.memByte i := rfl

-- setCrier
@[simp] theorem State.setCrier_mem (s : State) (k : Nat) (x : Crier) : (s.setCrier k x).mem = s.mem := rfl
@[simp] theorem State.setCrier_poisoned (s : State) (k : Nat) (x : Crier) : (s.setCrier k x).poisoned = s.poisoned := rfl
@[simp] theorem State.setCrier_lines (s : State) (k : Nat) (x : Crier) : (s.setCrier k x).lines = s.lines := rfl
@[simp] theorem State.setCrier_groups (s : State) (k : Nat) (x : Crier) : (s.setCrier k x).groups = s.groups := rfl
@[simp] theorem State.setCrier_teams (s : State) (k : Nat) (x : Crier) : (s.setCrier k x).teams = s.teams := rfl
@[simp] theorem State.setCrier_clusters (s : State) (k : Nat) (x : Crier) : (s.setCrier k x).clusters = s.clusters := rfl
@[simp] theorem State.setCrier_launches (s : State) (k : Nat) (x : Crier) : (s.setCrier k x).launches = s.launches := rfl
@[simp] theorem State.setCrier_nextLaunch (s : State) (k : Nat) (x : Crier) : (s.setCrier k x).nextLaunch = s.nextLaunch := rfl
@[simp] theorem State.setCrier_cores (s : State) (k : Nat) (x : Crier) : (s.setCrier k x).cores = s.cores := rfl
@[simp] theorem State.setCrier_bays (s : State) (k : Nat) (x : Crier) : (s.setCrier k x).bays = s.bays := rfl
@[simp] theorem State.setCrier_copies (s : State) (k : Nat) (x : Crier) : (s.setCrier k x).copies = s.copies := rfl
@[simp] theorem State.setCrier_nextCopy (s : State) (k : Nat) (x : Crier) : (s.setCrier k x).nextCopy = s.nextCopy := rfl
@[simp] theorem State.setCrier_walks (s : State) (k : Nat) (x : Crier) : (s.setCrier k x).walks = s.walks := rfl
@[simp] theorem State.setCrier_ctxs (s : State) (k : Nat) (x : Crier) : (s.setCrier k x).ctxs = s.ctxs := rfl
@[simp] theorem State.setCrier_fns (s : State) (k : Nat) (x : Crier) : (s.setCrier k x).fns = s.fns := rfl
@[simp] theorem State.setCrier_sleepers (s : State) (k : Nat) (x : Crier) : (s.setCrier k x).sleepers = s.sleepers := rfl
@[simp] theorem State.setCrier_order (s : State) (k : Nat) (x : Crier) : (s.setCrier k x).order = s.order := rfl
@[simp] theorem State.setCrier_members (s : State) (k : Nat) (x : Crier) : (s.setCrier k x).members = s.members := rfl
@[simp] theorem State.setCrier_net (s : State) (k : Nat) (x : Crier) : (s.setCrier k x).net = s.net := rfl
@[simp] theorem State.setCrier_outbox (s : State) (k : Nat) (x : Crier) : (s.setCrier k x).outbox = s.outbox := rfl
@[simp] theorem State.setCrier_pendings (s : State) (k : Nat) (x : Crier) : (s.setCrier k x).pendings = s.pendings := rfl
@[simp] theorem State.setCrier_folds (s : State) (k : Nat) (x : Crier) : (s.setCrier k x).folds = s.folds := rfl
@[simp] theorem State.setCrier_nextId (s : State) (k : Nat) (x : Crier) : (s.setCrier k x).nextId = s.nextId := rfl
@[simp] theorem State.setCrier_refused (s : State) (k : Nat) (x : Crier) : (s.setCrier k x).refused = s.refused := rfl
@[simp] theorem State.setCrier_scripts (s : State) (k : Nat) (x : Crier) : (s.setCrier k x).scripts = s.scripts := rfl
@[simp] theorem State.setCrier_credits (s : State) (k : Nat) (x : Crier) : (s.setCrier k x).credits = s.credits := rfl
@[simp] theorem State.setCrier_tb (s : State) (k : Nat) (x : Crier) : (s.setCrier k x).tb = s.tb := rfl
@[simp] theorem State.setCrier_clock (s : State) (k : Nat) (x : Crier) : (s.setCrier k x).clock = s.clock := rfl
@[simp] theorem State.setCrier_ports (s : State) (k : Nat) (x : Crier) : (s.setCrier k x).ports = s.ports := rfl
@[simp] theorem State.setCrier_links (s : State) (k : Nat) (x : Crier) : (s.setCrier k x).links = s.links := rfl
@[simp] theorem State.setCrier_err (s : State) (k : Nat) (x : Crier) : (s.setCrier k x).err = s.err := rfl
@[simp] theorem State.setCrier_inject (s : State) (k : Nat) (x : Crier) : (s.setCrier k x).inject = s.inject := rfl
@[simp] theorem State.setCrier_fw (s : State) (k : Nat) (x : Crier) : (s.setCrier k x).fw = s.fw := rfl
@[simp] theorem State.setCrier_ck (s : State) (k : Nat) (x : Crier) : (s.setCrier k x).ck = s.ck := rfl
@[simp] theorem State.setCrier_health (s : State) (k : Nat) (x : Crier) : (s.setCrier k x).health = s.health := rfl
@[simp] theorem State.setCrier_pkg (s : State) (k : Nat) (x : Crier) : (s.setCrier k x).pkg = s.pkg := rfl
@[simp] theorem State.setCrier_rotate (s : State) (k : Nat) (x : Crier) : (s.setCrier k x).rotate = s.rotate := rfl
@[simp] theorem State.setCrier_owner (s : State) (k : Nat) (x : Crier) : (s.setCrier k x).owner = s.owner := rfl
@[simp] theorem State.setCrier_agenda (s : State) (k : Nat) (x : Crier) : (s.setCrier k x).agenda = s.agenda := rfl
@[simp] theorem State.setCrier_picks (s : State) (k : Nat) (x : Crier) : (s.setCrier k x).picks = s.picks := rfl
@[simp] theorem State.setCrier_frees (s : State) (k : Nat) (x : Crier) : (s.setCrier k x).frees = s.frees := rfl
@[simp] theorem State.setCrier_images (s : State) (k : Nat) (x : Crier) : (s.setCrier k x).images = s.images := rfl
@[simp] theorem State.setCrier_cur (s : State) (k : Nat) (x : Crier) : (s.setCrier k x).cur = s.cur := rfl
@[simp] theorem State.setCrier_at_group (s : State) (k i : Nat) (x : Crier) : (s.setCrier k x).group i = s.group i := rfl
@[simp] theorem State.setCrier_at_team (s : State) (k i : Nat) (x : Crier) : (s.setCrier k x).team i = s.team i := rfl
@[simp] theorem State.setCrier_at_cluster (s : State) (k i : Nat) (x : Crier) : (s.setCrier k x).cluster i = s.cluster i := rfl
@[simp] theorem State.setCrier_at_launch (s : State) (k i : Nat) (x : Crier) : (s.setCrier k x).launch i = s.launch i := rfl
@[simp] theorem State.setCrier_at_core (s : State) (k i : Nat) (x : Crier) : (s.setCrier k x).core i = s.core i := rfl
@[simp] theorem State.setCrier_at_bay (s : State) (k i : Nat) (x : Crier) : (s.setCrier k x).bay i = s.bay i := rfl
@[simp] theorem State.setCrier_at_ctx (s : State) (k i : Nat) (x : Crier) : (s.setCrier k x).ctx i = s.ctx i := rfl
@[simp] theorem State.setCrier_at_fn (s : State) (k i : Nat) (x : Crier) : (s.setCrier k x).fn i = s.fn i := rfl
@[simp] theorem State.setCrier_at_port (s : State) (k i : Nat) (x : Crier) : (s.setCrier k x).port i = s.port i := rfl
theorem State.setCrier_at_crier (s : State) (k i : Nat) (x : Crier) : (s.setCrier k x).crier i = if i = k then x else s.crier i := mapGet_mapSet _ _ _ _ _
@[simp] theorem State.setCrier_at_crier_self (s : State) (k : Nat) (x : Crier) : (s.setCrier k x).crier k = x := mapGet_mapSet_self _ _ _ _
@[simp] theorem State.setCrier_at_member (s : State) (k i : Nat) (x : Crier) : (s.setCrier k x).member i = s.member i := rfl
@[simp] theorem State.setCrier_at_memByte (s : State) (k i : Nat) (x : Crier) : (s.setCrier k x).memByte i = s.memByte i := rfl

-- setMember
@[simp] theorem State.setMember_mem (s : State) (k : Nat) (x : Option Member) : (s.setMember k x).mem = s.mem := rfl
@[simp] theorem State.setMember_poisoned (s : State) (k : Nat) (x : Option Member) : (s.setMember k x).poisoned = s.poisoned := rfl
@[simp] theorem State.setMember_lines (s : State) (k : Nat) (x : Option Member) : (s.setMember k x).lines = s.lines := rfl
@[simp] theorem State.setMember_groups (s : State) (k : Nat) (x : Option Member) : (s.setMember k x).groups = s.groups := rfl
@[simp] theorem State.setMember_teams (s : State) (k : Nat) (x : Option Member) : (s.setMember k x).teams = s.teams := rfl
@[simp] theorem State.setMember_clusters (s : State) (k : Nat) (x : Option Member) : (s.setMember k x).clusters = s.clusters := rfl
@[simp] theorem State.setMember_launches (s : State) (k : Nat) (x : Option Member) : (s.setMember k x).launches = s.launches := rfl
@[simp] theorem State.setMember_nextLaunch (s : State) (k : Nat) (x : Option Member) : (s.setMember k x).nextLaunch = s.nextLaunch := rfl
@[simp] theorem State.setMember_cores (s : State) (k : Nat) (x : Option Member) : (s.setMember k x).cores = s.cores := rfl
@[simp] theorem State.setMember_bays (s : State) (k : Nat) (x : Option Member) : (s.setMember k x).bays = s.bays := rfl
@[simp] theorem State.setMember_copies (s : State) (k : Nat) (x : Option Member) : (s.setMember k x).copies = s.copies := rfl
@[simp] theorem State.setMember_nextCopy (s : State) (k : Nat) (x : Option Member) : (s.setMember k x).nextCopy = s.nextCopy := rfl
@[simp] theorem State.setMember_walks (s : State) (k : Nat) (x : Option Member) : (s.setMember k x).walks = s.walks := rfl
@[simp] theorem State.setMember_ctxs (s : State) (k : Nat) (x : Option Member) : (s.setMember k x).ctxs = s.ctxs := rfl
@[simp] theorem State.setMember_fns (s : State) (k : Nat) (x : Option Member) : (s.setMember k x).fns = s.fns := rfl
@[simp] theorem State.setMember_sleepers (s : State) (k : Nat) (x : Option Member) : (s.setMember k x).sleepers = s.sleepers := rfl
@[simp] theorem State.setMember_order (s : State) (k : Nat) (x : Option Member) : (s.setMember k x).order = s.order := rfl
@[simp] theorem State.setMember_criers (s : State) (k : Nat) (x : Option Member) : (s.setMember k x).criers = s.criers := rfl
@[simp] theorem State.setMember_net (s : State) (k : Nat) (x : Option Member) : (s.setMember k x).net = s.net := rfl
@[simp] theorem State.setMember_outbox (s : State) (k : Nat) (x : Option Member) : (s.setMember k x).outbox = s.outbox := rfl
@[simp] theorem State.setMember_pendings (s : State) (k : Nat) (x : Option Member) : (s.setMember k x).pendings = s.pendings := rfl
@[simp] theorem State.setMember_folds (s : State) (k : Nat) (x : Option Member) : (s.setMember k x).folds = s.folds := rfl
@[simp] theorem State.setMember_nextId (s : State) (k : Nat) (x : Option Member) : (s.setMember k x).nextId = s.nextId := rfl
@[simp] theorem State.setMember_refused (s : State) (k : Nat) (x : Option Member) : (s.setMember k x).refused = s.refused := rfl
@[simp] theorem State.setMember_scripts (s : State) (k : Nat) (x : Option Member) : (s.setMember k x).scripts = s.scripts := rfl
@[simp] theorem State.setMember_credits (s : State) (k : Nat) (x : Option Member) : (s.setMember k x).credits = s.credits := rfl
@[simp] theorem State.setMember_tb (s : State) (k : Nat) (x : Option Member) : (s.setMember k x).tb = s.tb := rfl
@[simp] theorem State.setMember_clock (s : State) (k : Nat) (x : Option Member) : (s.setMember k x).clock = s.clock := rfl
@[simp] theorem State.setMember_ports (s : State) (k : Nat) (x : Option Member) : (s.setMember k x).ports = s.ports := rfl
@[simp] theorem State.setMember_links (s : State) (k : Nat) (x : Option Member) : (s.setMember k x).links = s.links := rfl
@[simp] theorem State.setMember_err (s : State) (k : Nat) (x : Option Member) : (s.setMember k x).err = s.err := rfl
@[simp] theorem State.setMember_inject (s : State) (k : Nat) (x : Option Member) : (s.setMember k x).inject = s.inject := rfl
@[simp] theorem State.setMember_fw (s : State) (k : Nat) (x : Option Member) : (s.setMember k x).fw = s.fw := rfl
@[simp] theorem State.setMember_ck (s : State) (k : Nat) (x : Option Member) : (s.setMember k x).ck = s.ck := rfl
@[simp] theorem State.setMember_health (s : State) (k : Nat) (x : Option Member) : (s.setMember k x).health = s.health := rfl
@[simp] theorem State.setMember_pkg (s : State) (k : Nat) (x : Option Member) : (s.setMember k x).pkg = s.pkg := rfl
@[simp] theorem State.setMember_rotate (s : State) (k : Nat) (x : Option Member) : (s.setMember k x).rotate = s.rotate := rfl
@[simp] theorem State.setMember_owner (s : State) (k : Nat) (x : Option Member) : (s.setMember k x).owner = s.owner := rfl
@[simp] theorem State.setMember_agenda (s : State) (k : Nat) (x : Option Member) : (s.setMember k x).agenda = s.agenda := rfl
@[simp] theorem State.setMember_picks (s : State) (k : Nat) (x : Option Member) : (s.setMember k x).picks = s.picks := rfl
@[simp] theorem State.setMember_frees (s : State) (k : Nat) (x : Option Member) : (s.setMember k x).frees = s.frees := rfl
@[simp] theorem State.setMember_images (s : State) (k : Nat) (x : Option Member) : (s.setMember k x).images = s.images := rfl
@[simp] theorem State.setMember_cur (s : State) (k : Nat) (x : Option Member) : (s.setMember k x).cur = s.cur := rfl
@[simp] theorem State.setMember_at_group (s : State) (k i : Nat) (x : Option Member) : (s.setMember k x).group i = s.group i := rfl
@[simp] theorem State.setMember_at_team (s : State) (k i : Nat) (x : Option Member) : (s.setMember k x).team i = s.team i := rfl
@[simp] theorem State.setMember_at_cluster (s : State) (k i : Nat) (x : Option Member) : (s.setMember k x).cluster i = s.cluster i := rfl
@[simp] theorem State.setMember_at_launch (s : State) (k i : Nat) (x : Option Member) : (s.setMember k x).launch i = s.launch i := rfl
@[simp] theorem State.setMember_at_core (s : State) (k i : Nat) (x : Option Member) : (s.setMember k x).core i = s.core i := rfl
@[simp] theorem State.setMember_at_bay (s : State) (k i : Nat) (x : Option Member) : (s.setMember k x).bay i = s.bay i := rfl
@[simp] theorem State.setMember_at_ctx (s : State) (k i : Nat) (x : Option Member) : (s.setMember k x).ctx i = s.ctx i := rfl
@[simp] theorem State.setMember_at_fn (s : State) (k i : Nat) (x : Option Member) : (s.setMember k x).fn i = s.fn i := rfl
@[simp] theorem State.setMember_at_port (s : State) (k i : Nat) (x : Option Member) : (s.setMember k x).port i = s.port i := rfl
@[simp] theorem State.setMember_at_crier (s : State) (k i : Nat) (x : Option Member) : (s.setMember k x).crier i = s.crier i := rfl
theorem State.setMember_at_member (s : State) (k i : Nat) (x : Option Member) : (s.setMember k x).member i = if i = k then x else s.member i := mapGet_mapSet _ _ _ _ _
@[simp] theorem State.setMember_at_member_self (s : State) (k : Nat) (x : Option Member) : (s.setMember k x).member k = x := mapGet_mapSet_self _ _ _ _
@[simp] theorem State.setMember_at_memByte (s : State) (k i : Nat) (x : Option Member) : (s.setMember k x).memByte i = s.memByte i := rfl

-- setMemByte
@[simp] theorem State.setMemByte_poisoned (s : State) (a : Nat) (b : Byte) : (s.setMemByte a b).poisoned = s.poisoned := rfl
@[simp] theorem State.setMemByte_lines (s : State) (a : Nat) (b : Byte) : (s.setMemByte a b).lines = s.lines := rfl
@[simp] theorem State.setMemByte_groups (s : State) (a : Nat) (b : Byte) : (s.setMemByte a b).groups = s.groups := rfl
@[simp] theorem State.setMemByte_teams (s : State) (a : Nat) (b : Byte) : (s.setMemByte a b).teams = s.teams := rfl
@[simp] theorem State.setMemByte_clusters (s : State) (a : Nat) (b : Byte) : (s.setMemByte a b).clusters = s.clusters := rfl
@[simp] theorem State.setMemByte_launches (s : State) (a : Nat) (b : Byte) : (s.setMemByte a b).launches = s.launches := rfl
@[simp] theorem State.setMemByte_nextLaunch (s : State) (a : Nat) (b : Byte) : (s.setMemByte a b).nextLaunch = s.nextLaunch := rfl
@[simp] theorem State.setMemByte_cores (s : State) (a : Nat) (b : Byte) : (s.setMemByte a b).cores = s.cores := rfl
@[simp] theorem State.setMemByte_bays (s : State) (a : Nat) (b : Byte) : (s.setMemByte a b).bays = s.bays := rfl
@[simp] theorem State.setMemByte_copies (s : State) (a : Nat) (b : Byte) : (s.setMemByte a b).copies = s.copies := rfl
@[simp] theorem State.setMemByte_nextCopy (s : State) (a : Nat) (b : Byte) : (s.setMemByte a b).nextCopy = s.nextCopy := rfl
@[simp] theorem State.setMemByte_walks (s : State) (a : Nat) (b : Byte) : (s.setMemByte a b).walks = s.walks := rfl
@[simp] theorem State.setMemByte_ctxs (s : State) (a : Nat) (b : Byte) : (s.setMemByte a b).ctxs = s.ctxs := rfl
@[simp] theorem State.setMemByte_fns (s : State) (a : Nat) (b : Byte) : (s.setMemByte a b).fns = s.fns := rfl
@[simp] theorem State.setMemByte_sleepers (s : State) (a : Nat) (b : Byte) : (s.setMemByte a b).sleepers = s.sleepers := rfl
@[simp] theorem State.setMemByte_order (s : State) (a : Nat) (b : Byte) : (s.setMemByte a b).order = s.order := rfl
@[simp] theorem State.setMemByte_members (s : State) (a : Nat) (b : Byte) : (s.setMemByte a b).members = s.members := rfl
@[simp] theorem State.setMemByte_criers (s : State) (a : Nat) (b : Byte) : (s.setMemByte a b).criers = s.criers := rfl
@[simp] theorem State.setMemByte_net (s : State) (a : Nat) (b : Byte) : (s.setMemByte a b).net = s.net := rfl
@[simp] theorem State.setMemByte_outbox (s : State) (a : Nat) (b : Byte) : (s.setMemByte a b).outbox = s.outbox := rfl
@[simp] theorem State.setMemByte_pendings (s : State) (a : Nat) (b : Byte) : (s.setMemByte a b).pendings = s.pendings := rfl
@[simp] theorem State.setMemByte_folds (s : State) (a : Nat) (b : Byte) : (s.setMemByte a b).folds = s.folds := rfl
@[simp] theorem State.setMemByte_nextId (s : State) (a : Nat) (b : Byte) : (s.setMemByte a b).nextId = s.nextId := rfl
@[simp] theorem State.setMemByte_refused (s : State) (a : Nat) (b : Byte) : (s.setMemByte a b).refused = s.refused := rfl
@[simp] theorem State.setMemByte_scripts (s : State) (a : Nat) (b : Byte) : (s.setMemByte a b).scripts = s.scripts := rfl
@[simp] theorem State.setMemByte_credits (s : State) (a : Nat) (b : Byte) : (s.setMemByte a b).credits = s.credits := rfl
@[simp] theorem State.setMemByte_tb (s : State) (a : Nat) (b : Byte) : (s.setMemByte a b).tb = s.tb := rfl
@[simp] theorem State.setMemByte_clock (s : State) (a : Nat) (b : Byte) : (s.setMemByte a b).clock = s.clock := rfl
@[simp] theorem State.setMemByte_ports (s : State) (a : Nat) (b : Byte) : (s.setMemByte a b).ports = s.ports := rfl
@[simp] theorem State.setMemByte_links (s : State) (a : Nat) (b : Byte) : (s.setMemByte a b).links = s.links := rfl
@[simp] theorem State.setMemByte_err (s : State) (a : Nat) (b : Byte) : (s.setMemByte a b).err = s.err := rfl
@[simp] theorem State.setMemByte_inject (s : State) (a : Nat) (b : Byte) : (s.setMemByte a b).inject = s.inject := rfl
@[simp] theorem State.setMemByte_fw (s : State) (a : Nat) (b : Byte) : (s.setMemByte a b).fw = s.fw := rfl
@[simp] theorem State.setMemByte_ck (s : State) (a : Nat) (b : Byte) : (s.setMemByte a b).ck = s.ck := rfl
@[simp] theorem State.setMemByte_health (s : State) (a : Nat) (b : Byte) : (s.setMemByte a b).health = s.health := rfl
@[simp] theorem State.setMemByte_pkg (s : State) (a : Nat) (b : Byte) : (s.setMemByte a b).pkg = s.pkg := rfl
@[simp] theorem State.setMemByte_rotate (s : State) (a : Nat) (b : Byte) : (s.setMemByte a b).rotate = s.rotate := rfl
@[simp] theorem State.setMemByte_owner (s : State) (a : Nat) (b : Byte) : (s.setMemByte a b).owner = s.owner := rfl
@[simp] theorem State.setMemByte_agenda (s : State) (a : Nat) (b : Byte) : (s.setMemByte a b).agenda = s.agenda := rfl
@[simp] theorem State.setMemByte_picks (s : State) (a : Nat) (b : Byte) : (s.setMemByte a b).picks = s.picks := rfl
@[simp] theorem State.setMemByte_frees (s : State) (a : Nat) (b : Byte) : (s.setMemByte a b).frees = s.frees := rfl
@[simp] theorem State.setMemByte_images (s : State) (a : Nat) (b : Byte) : (s.setMemByte a b).images = s.images := rfl
@[simp] theorem State.setMemByte_cur (s : State) (a : Nat) (b : Byte) : (s.setMemByte a b).cur = s.cur := rfl
@[simp] theorem State.setMemByte_at_group (s : State) (a i : Nat) (b : Byte) : (s.setMemByte a b).group i = s.group i := rfl
@[simp] theorem State.setMemByte_at_team (s : State) (a i : Nat) (b : Byte) : (s.setMemByte a b).team i = s.team i := rfl
@[simp] theorem State.setMemByte_at_cluster (s : State) (a i : Nat) (b : Byte) : (s.setMemByte a b).cluster i = s.cluster i := rfl
@[simp] theorem State.setMemByte_at_launch (s : State) (a i : Nat) (b : Byte) : (s.setMemByte a b).launch i = s.launch i := rfl
@[simp] theorem State.setMemByte_at_core (s : State) (a i : Nat) (b : Byte) : (s.setMemByte a b).core i = s.core i := rfl
@[simp] theorem State.setMemByte_at_bay (s : State) (a i : Nat) (b : Byte) : (s.setMemByte a b).bay i = s.bay i := rfl
@[simp] theorem State.setMemByte_at_ctx (s : State) (a i : Nat) (b : Byte) : (s.setMemByte a b).ctx i = s.ctx i := rfl
@[simp] theorem State.setMemByte_at_fn (s : State) (a i : Nat) (b : Byte) : (s.setMemByte a b).fn i = s.fn i := rfl
@[simp] theorem State.setMemByte_at_port (s : State) (a i : Nat) (b : Byte) : (s.setMemByte a b).port i = s.port i := rfl
@[simp] theorem State.setMemByte_at_crier (s : State) (a i : Nat) (b : Byte) : (s.setMemByte a b).crier i = s.crier i := rfl
@[simp] theorem State.setMemByte_at_member (s : State) (a i : Nat) (b : Byte) : (s.setMemByte a b).member i = s.member i := rfl
theorem State.setMemByte_at_memByte (s : State) (a i : Nat) (b : Byte) : (s.setMemByte a b).memByte i = if i = a then b else s.memByte i := mapGet_mapSet _ _ _ _ _
@[simp] theorem State.setMemByte_at_memByte_self (s : State) (a : Nat) (b : Byte) : (s.setMemByte a b).memByte a = b := mapGet_mapSet_self _ _ _ _

-- setLane
@[simp] theorem Group.setLane_team (g : Group) (l : Nat) (x : Lane) : (g.setLane l x).team = g.team := rfl
@[simp] theorem Group.setLane_grp (g : Group) (l : Nat) (x : Lane) : (g.setLane l x).grp = g.grp := rfl
@[simp] theorem Group.setLane_slot (g : Group) (l : Nat) (x : Lane) : (g.setLane l x).slot = g.slot := rfl
@[simp] theorem Group.setLane_present (g : Group) (l : Nat) (x : Lane) : (g.setLane l x).present = g.present := rfl
@[simp] theorem Group.setLane_v (g : Group) (l : Nat) (x : Lane) : (g.setLane l x).v = g.v := rfl
@[simp] theorem Group.setLane_s (g : Group) (l : Nat) (x : Lane) : (g.setLane l x).s = g.s := rfl
@[simp] theorem Group.setLane_m (g : Group) (l : Nat) (x : Lane) : (g.setLane l x).m = g.m := rfl
@[simp] theorem Group.setLane_j (g : Group) (l : Nat) (x : Lane) : (g.setLane l x).j = g.j := rfl
@[simp] theorem Group.setLane_binding (g : Group) (l : Nat) (x : Lane) : (g.setLane l x).binding = g.binding := rfl
@[simp] theorem Group.setLane_places (g : Group) (l : Nat) (x : Lane) : (g.setLane l x).places = g.places := rfl
@[simp] theorem Group.setLane_frame (g : Group) (l : Nat) (x : Lane) : (g.setLane l x).frame = g.frame := rfl
@[simp] theorem Group.setLane_tcode (g : Group) (l : Nat) (x : Lane) : (g.setLane l x).tcode = g.tcode := rfl
@[simp] theorem Group.setLane_tresume (g : Group) (l : Nat) (x : Lane) : (g.setLane l x).tresume = g.tresume := rfl
@[simp] theorem Group.setLane_tmask (g : Group) (l : Nat) (x : Lane) : (g.setLane l x).tmask = g.tmask := rfl
@[simp] theorem Group.setLane_targ (g : Group) (l : Nat) (x : Lane) : (g.setLane l x).targ = g.targ := rfl
@[simp] theorem Group.setLane_tlane (g : Group) (l : Nat) (x : Lane) : (g.setLane l x).tlane = g.tlane := rfl
@[simp] theorem Group.setLane_rcnt (g : Group) (l : Nat) (x : Lane) : (g.setLane l x).rcnt = g.rcnt := rfl
@[simp] theorem Group.setLane_sfcnt (g : Group) (l : Nat) (x : Lane) : (g.setLane l x).sfcnt = g.sfcnt := rfl
@[simp] theorem Group.setLane_tokens (g : Group) (l : Nat) (x : Lane) : (g.setLane l x).tokens = g.tokens := rfl
@[simp] theorem Group.setLane_tlo (g : Group) (l : Nat) (x : Lane) : (g.setLane l x).tlo = g.tlo := rfl
@[simp] theorem Group.setLane_thi (g : Group) (l : Nat) (x : Lane) : (g.setLane l x).thi = g.thi := rfl
@[simp] theorem Group.setLane_run (g : Group) (l : Nat) (x : Lane) : (g.setLane l x).run = g.run := rfl
@[simp] theorem Group.setLane_seq (g : Group) (l : Nat) (x : Lane) : (g.setLane l x).seq = g.seq := rfl
@[simp] theorem Group.setLane_loads (g : Group) (l : Nat) (x : Lane) : (g.setLane l x).loads = g.loads := rfl
@[simp] theorem Group.setLane_stores (g : Group) (l : Nat) (x : Lane) : (g.setLane l x).stores = g.stores := rfl
@[simp] theorem Group.setLane_msreds (g : Group) (l : Nat) (x : Lane) : (g.setLane l x).msreds = g.msreds := rfl
@[simp] theorem Group.setLane_casRecs (g : Group) (l : Nat) (x : Lane) : (g.setLane l x).casRecs = g.casRecs := rfl
@[simp] theorem Group.setLane_await (g : Group) (l : Nat) (x : Lane) : (g.setLane l x).await = g.await := rfl
@[simp] theorem Group.setLane_rdat (g : Group) (l : Nat) (x : Lane) : (g.setLane l x).rdat = g.rdat := rfl
@[simp] theorem Group.setLane_hold (g : Group) (l : Nat) (x : Lane) : (g.setLane l x).hold = g.hold := rfl
@[simp] theorem Group.setLane_nexts (g : Group) (l : Nat) (x : Lane) : (g.setLane l x).nexts = g.nexts := rfl
@[simp] theorem Group.setLane_acks (g : Group) (l : Nat) (x : Lane) : (g.setLane l x).acks = g.acks := rfl
@[simp] theorem Group.setLane_used (g : Group) (l : Nat) (x : Lane) : (g.setLane l x).used = g.used := rfl
@[simp] theorem Group.setLane_stall (g : Group) (l : Nat) (x : Lane) : (g.setLane l x).stall = g.stall := rfl
@[simp] theorem Group.setLane_held (g : Group) (l : Nat) (x : Lane) : (g.setLane l x).held = g.held := rfl
@[simp] theorem Group.setLane_why (g : Group) (l : Nat) (x : Lane) : (g.setLane l x).why = g.why := rfl
@[simp] theorem Group.setLane_ready (g : Group) (l : Nat) (x : Lane) : (g.setLane l x).ready = g.ready := rfl

-- setV
@[simp] theorem Group.setV_team (g : Group) (r l : Nat) (x : Word) : (g.setV r l x).team = g.team := rfl
@[simp] theorem Group.setV_grp (g : Group) (r l : Nat) (x : Word) : (g.setV r l x).grp = g.grp := rfl
@[simp] theorem Group.setV_slot (g : Group) (r l : Nat) (x : Word) : (g.setV r l x).slot = g.slot := rfl
@[simp] theorem Group.setV_present (g : Group) (r l : Nat) (x : Word) : (g.setV r l x).present = g.present := rfl
@[simp] theorem Group.setV_lanes (g : Group) (r l : Nat) (x : Word) : (g.setV r l x).lanes = g.lanes := rfl
@[simp] theorem Group.setV_s (g : Group) (r l : Nat) (x : Word) : (g.setV r l x).s = g.s := rfl
@[simp] theorem Group.setV_m (g : Group) (r l : Nat) (x : Word) : (g.setV r l x).m = g.m := rfl
@[simp] theorem Group.setV_j (g : Group) (r l : Nat) (x : Word) : (g.setV r l x).j = g.j := rfl
@[simp] theorem Group.setV_binding (g : Group) (r l : Nat) (x : Word) : (g.setV r l x).binding = g.binding := rfl
@[simp] theorem Group.setV_places (g : Group) (r l : Nat) (x : Word) : (g.setV r l x).places = g.places := rfl
@[simp] theorem Group.setV_frame (g : Group) (r l : Nat) (x : Word) : (g.setV r l x).frame = g.frame := rfl
@[simp] theorem Group.setV_tcode (g : Group) (r l : Nat) (x : Word) : (g.setV r l x).tcode = g.tcode := rfl
@[simp] theorem Group.setV_tresume (g : Group) (r l : Nat) (x : Word) : (g.setV r l x).tresume = g.tresume := rfl
@[simp] theorem Group.setV_tmask (g : Group) (r l : Nat) (x : Word) : (g.setV r l x).tmask = g.tmask := rfl
@[simp] theorem Group.setV_targ (g : Group) (r l : Nat) (x : Word) : (g.setV r l x).targ = g.targ := rfl
@[simp] theorem Group.setV_tlane (g : Group) (r l : Nat) (x : Word) : (g.setV r l x).tlane = g.tlane := rfl
@[simp] theorem Group.setV_rcnt (g : Group) (r l : Nat) (x : Word) : (g.setV r l x).rcnt = g.rcnt := rfl
@[simp] theorem Group.setV_sfcnt (g : Group) (r l : Nat) (x : Word) : (g.setV r l x).sfcnt = g.sfcnt := rfl
@[simp] theorem Group.setV_tokens (g : Group) (r l : Nat) (x : Word) : (g.setV r l x).tokens = g.tokens := rfl
@[simp] theorem Group.setV_tlo (g : Group) (r l : Nat) (x : Word) : (g.setV r l x).tlo = g.tlo := rfl
@[simp] theorem Group.setV_thi (g : Group) (r l : Nat) (x : Word) : (g.setV r l x).thi = g.thi := rfl
@[simp] theorem Group.setV_run (g : Group) (r l : Nat) (x : Word) : (g.setV r l x).run = g.run := rfl
@[simp] theorem Group.setV_seq (g : Group) (r l : Nat) (x : Word) : (g.setV r l x).seq = g.seq := rfl
@[simp] theorem Group.setV_loads (g : Group) (r l : Nat) (x : Word) : (g.setV r l x).loads = g.loads := rfl
@[simp] theorem Group.setV_stores (g : Group) (r l : Nat) (x : Word) : (g.setV r l x).stores = g.stores := rfl
@[simp] theorem Group.setV_msreds (g : Group) (r l : Nat) (x : Word) : (g.setV r l x).msreds = g.msreds := rfl
@[simp] theorem Group.setV_casRecs (g : Group) (r l : Nat) (x : Word) : (g.setV r l x).casRecs = g.casRecs := rfl
@[simp] theorem Group.setV_await (g : Group) (r l : Nat) (x : Word) : (g.setV r l x).await = g.await := rfl
@[simp] theorem Group.setV_rdat (g : Group) (r l : Nat) (x : Word) : (g.setV r l x).rdat = g.rdat := rfl
@[simp] theorem Group.setV_hold (g : Group) (r l : Nat) (x : Word) : (g.setV r l x).hold = g.hold := rfl
@[simp] theorem Group.setV_nexts (g : Group) (r l : Nat) (x : Word) : (g.setV r l x).nexts = g.nexts := rfl
@[simp] theorem Group.setV_acks (g : Group) (r l : Nat) (x : Word) : (g.setV r l x).acks = g.acks := rfl
@[simp] theorem Group.setV_used (g : Group) (r l : Nat) (x : Word) : (g.setV r l x).used = g.used := rfl
@[simp] theorem Group.setV_stall (g : Group) (r l : Nat) (x : Word) : (g.setV r l x).stall = g.stall := rfl
@[simp] theorem Group.setV_held (g : Group) (r l : Nat) (x : Word) : (g.setV r l x).held = g.held := rfl
@[simp] theorem Group.setV_why (g : Group) (r l : Nat) (x : Word) : (g.setV r l x).why = g.why := rfl
@[simp] theorem Group.setV_ready (g : Group) (r l : Nat) (x : Word) : (g.setV r l x).ready = g.ready := rfl

-- setS
@[simp] theorem Group.setS_team (g : Group) (r : Nat) (x : DWord) : (g.setS r x).team = g.team := rfl
@[simp] theorem Group.setS_grp (g : Group) (r : Nat) (x : DWord) : (g.setS r x).grp = g.grp := rfl
@[simp] theorem Group.setS_slot (g : Group) (r : Nat) (x : DWord) : (g.setS r x).slot = g.slot := rfl
@[simp] theorem Group.setS_present (g : Group) (r : Nat) (x : DWord) : (g.setS r x).present = g.present := rfl
@[simp] theorem Group.setS_lanes (g : Group) (r : Nat) (x : DWord) : (g.setS r x).lanes = g.lanes := rfl
@[simp] theorem Group.setS_v (g : Group) (r : Nat) (x : DWord) : (g.setS r x).v = g.v := rfl
@[simp] theorem Group.setS_m (g : Group) (r : Nat) (x : DWord) : (g.setS r x).m = g.m := rfl
@[simp] theorem Group.setS_j (g : Group) (r : Nat) (x : DWord) : (g.setS r x).j = g.j := rfl
@[simp] theorem Group.setS_binding (g : Group) (r : Nat) (x : DWord) : (g.setS r x).binding = g.binding := rfl
@[simp] theorem Group.setS_places (g : Group) (r : Nat) (x : DWord) : (g.setS r x).places = g.places := rfl
@[simp] theorem Group.setS_frame (g : Group) (r : Nat) (x : DWord) : (g.setS r x).frame = g.frame := rfl
@[simp] theorem Group.setS_tcode (g : Group) (r : Nat) (x : DWord) : (g.setS r x).tcode = g.tcode := rfl
@[simp] theorem Group.setS_tresume (g : Group) (r : Nat) (x : DWord) : (g.setS r x).tresume = g.tresume := rfl
@[simp] theorem Group.setS_tmask (g : Group) (r : Nat) (x : DWord) : (g.setS r x).tmask = g.tmask := rfl
@[simp] theorem Group.setS_targ (g : Group) (r : Nat) (x : DWord) : (g.setS r x).targ = g.targ := rfl
@[simp] theorem Group.setS_tlane (g : Group) (r : Nat) (x : DWord) : (g.setS r x).tlane = g.tlane := rfl
@[simp] theorem Group.setS_rcnt (g : Group) (r : Nat) (x : DWord) : (g.setS r x).rcnt = g.rcnt := rfl
@[simp] theorem Group.setS_sfcnt (g : Group) (r : Nat) (x : DWord) : (g.setS r x).sfcnt = g.sfcnt := rfl
@[simp] theorem Group.setS_tokens (g : Group) (r : Nat) (x : DWord) : (g.setS r x).tokens = g.tokens := rfl
@[simp] theorem Group.setS_tlo (g : Group) (r : Nat) (x : DWord) : (g.setS r x).tlo = g.tlo := rfl
@[simp] theorem Group.setS_thi (g : Group) (r : Nat) (x : DWord) : (g.setS r x).thi = g.thi := rfl
@[simp] theorem Group.setS_run (g : Group) (r : Nat) (x : DWord) : (g.setS r x).run = g.run := rfl
@[simp] theorem Group.setS_seq (g : Group) (r : Nat) (x : DWord) : (g.setS r x).seq = g.seq := rfl
@[simp] theorem Group.setS_loads (g : Group) (r : Nat) (x : DWord) : (g.setS r x).loads = g.loads := rfl
@[simp] theorem Group.setS_stores (g : Group) (r : Nat) (x : DWord) : (g.setS r x).stores = g.stores := rfl
@[simp] theorem Group.setS_msreds (g : Group) (r : Nat) (x : DWord) : (g.setS r x).msreds = g.msreds := rfl
@[simp] theorem Group.setS_casRecs (g : Group) (r : Nat) (x : DWord) : (g.setS r x).casRecs = g.casRecs := rfl
@[simp] theorem Group.setS_await (g : Group) (r : Nat) (x : DWord) : (g.setS r x).await = g.await := rfl
@[simp] theorem Group.setS_rdat (g : Group) (r : Nat) (x : DWord) : (g.setS r x).rdat = g.rdat := rfl
@[simp] theorem Group.setS_hold (g : Group) (r : Nat) (x : DWord) : (g.setS r x).hold = g.hold := rfl
@[simp] theorem Group.setS_nexts (g : Group) (r : Nat) (x : DWord) : (g.setS r x).nexts = g.nexts := rfl
@[simp] theorem Group.setS_acks (g : Group) (r : Nat) (x : DWord) : (g.setS r x).acks = g.acks := rfl
@[simp] theorem Group.setS_used (g : Group) (r : Nat) (x : DWord) : (g.setS r x).used = g.used := rfl
@[simp] theorem Group.setS_stall (g : Group) (r : Nat) (x : DWord) : (g.setS r x).stall = g.stall := rfl
@[simp] theorem Group.setS_held (g : Group) (r : Nat) (x : DWord) : (g.setS r x).held = g.held := rfl
@[simp] theorem Group.setS_why (g : Group) (r : Nat) (x : DWord) : (g.setS r x).why = g.why := rfl
@[simp] theorem Group.setS_ready (g : Group) (r : Nat) (x : DWord) : (g.setS r x).ready = g.ready := rfl

-- setJ
@[simp] theorem Group.setJ_team (g : Group) (r : Nat) (x : Mask) : (g.setJ r x).team = g.team := rfl
@[simp] theorem Group.setJ_grp (g : Group) (r : Nat) (x : Mask) : (g.setJ r x).grp = g.grp := rfl
@[simp] theorem Group.setJ_slot (g : Group) (r : Nat) (x : Mask) : (g.setJ r x).slot = g.slot := rfl
@[simp] theorem Group.setJ_present (g : Group) (r : Nat) (x : Mask) : (g.setJ r x).present = g.present := rfl
@[simp] theorem Group.setJ_lanes (g : Group) (r : Nat) (x : Mask) : (g.setJ r x).lanes = g.lanes := rfl
@[simp] theorem Group.setJ_v (g : Group) (r : Nat) (x : Mask) : (g.setJ r x).v = g.v := rfl
@[simp] theorem Group.setJ_s (g : Group) (r : Nat) (x : Mask) : (g.setJ r x).s = g.s := rfl
@[simp] theorem Group.setJ_m (g : Group) (r : Nat) (x : Mask) : (g.setJ r x).m = g.m := rfl
@[simp] theorem Group.setJ_binding (g : Group) (r : Nat) (x : Mask) : (g.setJ r x).binding = g.binding := rfl
@[simp] theorem Group.setJ_places (g : Group) (r : Nat) (x : Mask) : (g.setJ r x).places = g.places := rfl
@[simp] theorem Group.setJ_frame (g : Group) (r : Nat) (x : Mask) : (g.setJ r x).frame = g.frame := rfl
@[simp] theorem Group.setJ_tcode (g : Group) (r : Nat) (x : Mask) : (g.setJ r x).tcode = g.tcode := rfl
@[simp] theorem Group.setJ_tresume (g : Group) (r : Nat) (x : Mask) : (g.setJ r x).tresume = g.tresume := rfl
@[simp] theorem Group.setJ_tmask (g : Group) (r : Nat) (x : Mask) : (g.setJ r x).tmask = g.tmask := rfl
@[simp] theorem Group.setJ_targ (g : Group) (r : Nat) (x : Mask) : (g.setJ r x).targ = g.targ := rfl
@[simp] theorem Group.setJ_tlane (g : Group) (r : Nat) (x : Mask) : (g.setJ r x).tlane = g.tlane := rfl
@[simp] theorem Group.setJ_rcnt (g : Group) (r : Nat) (x : Mask) : (g.setJ r x).rcnt = g.rcnt := rfl
@[simp] theorem Group.setJ_sfcnt (g : Group) (r : Nat) (x : Mask) : (g.setJ r x).sfcnt = g.sfcnt := rfl
@[simp] theorem Group.setJ_tokens (g : Group) (r : Nat) (x : Mask) : (g.setJ r x).tokens = g.tokens := rfl
@[simp] theorem Group.setJ_tlo (g : Group) (r : Nat) (x : Mask) : (g.setJ r x).tlo = g.tlo := rfl
@[simp] theorem Group.setJ_thi (g : Group) (r : Nat) (x : Mask) : (g.setJ r x).thi = g.thi := rfl
@[simp] theorem Group.setJ_run (g : Group) (r : Nat) (x : Mask) : (g.setJ r x).run = g.run := rfl
@[simp] theorem Group.setJ_seq (g : Group) (r : Nat) (x : Mask) : (g.setJ r x).seq = g.seq := rfl
@[simp] theorem Group.setJ_loads (g : Group) (r : Nat) (x : Mask) : (g.setJ r x).loads = g.loads := rfl
@[simp] theorem Group.setJ_stores (g : Group) (r : Nat) (x : Mask) : (g.setJ r x).stores = g.stores := rfl
@[simp] theorem Group.setJ_msreds (g : Group) (r : Nat) (x : Mask) : (g.setJ r x).msreds = g.msreds := rfl
@[simp] theorem Group.setJ_casRecs (g : Group) (r : Nat) (x : Mask) : (g.setJ r x).casRecs = g.casRecs := rfl
@[simp] theorem Group.setJ_await (g : Group) (r : Nat) (x : Mask) : (g.setJ r x).await = g.await := rfl
@[simp] theorem Group.setJ_rdat (g : Group) (r : Nat) (x : Mask) : (g.setJ r x).rdat = g.rdat := rfl
@[simp] theorem Group.setJ_hold (g : Group) (r : Nat) (x : Mask) : (g.setJ r x).hold = g.hold := rfl
@[simp] theorem Group.setJ_nexts (g : Group) (r : Nat) (x : Mask) : (g.setJ r x).nexts = g.nexts := rfl
@[simp] theorem Group.setJ_acks (g : Group) (r : Nat) (x : Mask) : (g.setJ r x).acks = g.acks := rfl
@[simp] theorem Group.setJ_used (g : Group) (r : Nat) (x : Mask) : (g.setJ r x).used = g.used := rfl
@[simp] theorem Group.setJ_stall (g : Group) (r : Nat) (x : Mask) : (g.setJ r x).stall = g.stall := rfl
@[simp] theorem Group.setJ_held (g : Group) (r : Nat) (x : Mask) : (g.setJ r x).held = g.held := rfl
@[simp] theorem Group.setJ_why (g : Group) (r : Nat) (x : Mask) : (g.setJ r x).why = g.why := rfl
@[simp] theorem Group.setJ_ready (g : Group) (r : Nat) (x : Mask) : (g.setJ r x).ready = g.ready := rfl

-- setM
@[simp] theorem Group.setM_team (g : Group) (r : Nat) (x : Mask) : (g.setM r x).team = g.team := by unfold Group.setM; split <;> rfl
@[simp] theorem Group.setM_grp (g : Group) (r : Nat) (x : Mask) : (g.setM r x).grp = g.grp := by unfold Group.setM; split <;> rfl
@[simp] theorem Group.setM_slot (g : Group) (r : Nat) (x : Mask) : (g.setM r x).slot = g.slot := by unfold Group.setM; split <;> rfl
@[simp] theorem Group.setM_present (g : Group) (r : Nat) (x : Mask) : (g.setM r x).present = g.present := by unfold Group.setM; split <;> rfl
@[simp] theorem Group.setM_lanes (g : Group) (r : Nat) (x : Mask) : (g.setM r x).lanes = g.lanes := by unfold Group.setM; split <;> rfl
@[simp] theorem Group.setM_v (g : Group) (r : Nat) (x : Mask) : (g.setM r x).v = g.v := by unfold Group.setM; split <;> rfl
@[simp] theorem Group.setM_s (g : Group) (r : Nat) (x : Mask) : (g.setM r x).s = g.s := by unfold Group.setM; split <;> rfl
@[simp] theorem Group.setM_j (g : Group) (r : Nat) (x : Mask) : (g.setM r x).j = g.j := by unfold Group.setM; split <;> rfl
@[simp] theorem Group.setM_binding (g : Group) (r : Nat) (x : Mask) : (g.setM r x).binding = g.binding := by unfold Group.setM; split <;> rfl
@[simp] theorem Group.setM_places (g : Group) (r : Nat) (x : Mask) : (g.setM r x).places = g.places := by unfold Group.setM; split <;> rfl
@[simp] theorem Group.setM_frame (g : Group) (r : Nat) (x : Mask) : (g.setM r x).frame = g.frame := by unfold Group.setM; split <;> rfl
@[simp] theorem Group.setM_tcode (g : Group) (r : Nat) (x : Mask) : (g.setM r x).tcode = g.tcode := by unfold Group.setM; split <;> rfl
@[simp] theorem Group.setM_tresume (g : Group) (r : Nat) (x : Mask) : (g.setM r x).tresume = g.tresume := by unfold Group.setM; split <;> rfl
@[simp] theorem Group.setM_tmask (g : Group) (r : Nat) (x : Mask) : (g.setM r x).tmask = g.tmask := by unfold Group.setM; split <;> rfl
@[simp] theorem Group.setM_targ (g : Group) (r : Nat) (x : Mask) : (g.setM r x).targ = g.targ := by unfold Group.setM; split <;> rfl
@[simp] theorem Group.setM_tlane (g : Group) (r : Nat) (x : Mask) : (g.setM r x).tlane = g.tlane := by unfold Group.setM; split <;> rfl
@[simp] theorem Group.setM_rcnt (g : Group) (r : Nat) (x : Mask) : (g.setM r x).rcnt = g.rcnt := by unfold Group.setM; split <;> rfl
@[simp] theorem Group.setM_sfcnt (g : Group) (r : Nat) (x : Mask) : (g.setM r x).sfcnt = g.sfcnt := by unfold Group.setM; split <;> rfl
@[simp] theorem Group.setM_tokens (g : Group) (r : Nat) (x : Mask) : (g.setM r x).tokens = g.tokens := by unfold Group.setM; split <;> rfl
@[simp] theorem Group.setM_tlo (g : Group) (r : Nat) (x : Mask) : (g.setM r x).tlo = g.tlo := by unfold Group.setM; split <;> rfl
@[simp] theorem Group.setM_thi (g : Group) (r : Nat) (x : Mask) : (g.setM r x).thi = g.thi := by unfold Group.setM; split <;> rfl
@[simp] theorem Group.setM_run (g : Group) (r : Nat) (x : Mask) : (g.setM r x).run = g.run := by unfold Group.setM; split <;> rfl
@[simp] theorem Group.setM_seq (g : Group) (r : Nat) (x : Mask) : (g.setM r x).seq = g.seq := by unfold Group.setM; split <;> rfl
@[simp] theorem Group.setM_loads (g : Group) (r : Nat) (x : Mask) : (g.setM r x).loads = g.loads := by unfold Group.setM; split <;> rfl
@[simp] theorem Group.setM_stores (g : Group) (r : Nat) (x : Mask) : (g.setM r x).stores = g.stores := by unfold Group.setM; split <;> rfl
@[simp] theorem Group.setM_msreds (g : Group) (r : Nat) (x : Mask) : (g.setM r x).msreds = g.msreds := by unfold Group.setM; split <;> rfl
@[simp] theorem Group.setM_casRecs (g : Group) (r : Nat) (x : Mask) : (g.setM r x).casRecs = g.casRecs := by unfold Group.setM; split <;> rfl
@[simp] theorem Group.setM_await (g : Group) (r : Nat) (x : Mask) : (g.setM r x).await = g.await := by unfold Group.setM; split <;> rfl
@[simp] theorem Group.setM_rdat (g : Group) (r : Nat) (x : Mask) : (g.setM r x).rdat = g.rdat := by unfold Group.setM; split <;> rfl
@[simp] theorem Group.setM_hold (g : Group) (r : Nat) (x : Mask) : (g.setM r x).hold = g.hold := by unfold Group.setM; split <;> rfl
@[simp] theorem Group.setM_nexts (g : Group) (r : Nat) (x : Mask) : (g.setM r x).nexts = g.nexts := by unfold Group.setM; split <;> rfl
@[simp] theorem Group.setM_acks (g : Group) (r : Nat) (x : Mask) : (g.setM r x).acks = g.acks := by unfold Group.setM; split <;> rfl
@[simp] theorem Group.setM_used (g : Group) (r : Nat) (x : Mask) : (g.setM r x).used = g.used := by unfold Group.setM; split <;> rfl
@[simp] theorem Group.setM_stall (g : Group) (r : Nat) (x : Mask) : (g.setM r x).stall = g.stall := by unfold Group.setM; split <;> rfl
@[simp] theorem Group.setM_held (g : Group) (r : Nat) (x : Mask) : (g.setM r x).held = g.held := by unfold Group.setM; split <;> rfl
@[simp] theorem Group.setM_why (g : Group) (r : Nat) (x : Mask) : (g.setM r x).why = g.why := by unfold Group.setM; split <;> rfl
@[simp] theorem Group.setM_ready (g : Group) (r : Nat) (x : Mask) : (g.setM r x).ready = g.ready := by unfold Group.setM; split <;> rfl

-- what a register reads after a write
theorem Group.setV_vreg (g : Group) (r l : Nat) (x : Word) (i k : Nat) : (g.setV r l x).vreg i k = if 32 * i + k = 32 * r + l then x else g.vreg i k :=
  mapGet_mapSet _ _ _ _ _
theorem Group.setS_sreg (g : Group) (r : Nat) (x : DWord) (i : Nat) : (g.setS r x).sreg i = if i = r then x else g.sreg i :=
  mapGet_mapSet _ _ _ _ _
theorem Group.setJ_jreg (g : Group) (r : Nat) (x : Mask) (i : Nat) : (g.setJ r x).jreg i = if i = r then x else g.jreg i :=
  mapGet_mapSet _ _ _ _ _
theorem Group.setLane_lane (g : Group) (l : Nat) (x : Lane) (i : Nat) : (g.setLane l x).lane i = if i = l then x else g.lane i :=
  mapGet_mapSet _ _ _ _ _
/-- A mask register takes a write, and m0 discards it (R41). -/
theorem Group.setM_m (g : Group) (r : Nat) (x : Mask) (i : Nat) :
    mapGet 0 (g.setM r x).m i = if i = r ∧ r ≠ 0 then x else mapGet 0 g.m i := by
  unfold Group.setM
  by_cases hr : r = 0
  · simp [hr]
  · simp [hr, mapGet_mapSet]

end Sys2Proof.Machine
end

