-- ==== Sys2Proof/Laws/Ops.lean ====
section
/-! SUPPORT. What the shared operations do: lanes of a mask, updates of lanes, the frame in which every encoded instruction runs, and taking a trap. -/

namespace Sys2Proof.Machine

-- LANES OF A MASK
theorem maskBit_ge (m : Mask) (l : Nat) (h : 32 ≤ l) : maskBit m l = false := by
  unfold maskBit; exact BitVec.getLsbD_of_ge m l h

theorem mem_maskLanes (m : Mask) (l : Nat) : l ∈ maskLanes m ↔ maskBit m l = true := by
  unfold maskLanes lanes
  rw [List.mem_filter, List.mem_range]
  constructor
  · exact fun h => h.2
  · intro h
    refine ⟨?_, h⟩
    rcases Nat.lt_or_ge l 32 with hl | hl
    · exact hl
    · rw [maskBit_ge m l hl] at h
      exact absurd h (by decide)

theorem maskLanes_nodup (m : Mask) : (maskLanes m).Nodup := List.Pairwise.filter _ List.nodup_range

-- UPDATES OF LANES
theorem Group.updLane_lane (g : Group) (l : Nat) (h : Lane → Lane) (i : Nat) :
    (g.updLane l h).lane i = if i = l then h (g.lane l) else g.lane i := Group.setLane_lane _ _ _ _

/-- A fold of lane updates over distinct lanes. -/
theorem Group.foldl_updLane (h : Nat → Lane → Lane) (ls : List Nat) :
    ∀ (g : Group) (i : Nat), ls.Nodup →
      (ls.foldl (fun g l => g.updLane l (h l)) g).lane i = if i ∈ ls then h i (g.lane i) else g.lane i := by
  induction ls with
  | nil => intro g i _; simp
  | cons a ls ih =>
    intro g i hn
    obtain ⟨ha, hn⟩ := List.nodup_cons.mp hn
    rw [List.foldl_cons, ih _ _ hn, Group.updLane_lane]
    by_cases hi : i = a
    · subst hi; simp [ha]
    · simp [hi]

theorem Group.updLanes_lane (g : Group) (m : Mask) (h : Lane → Lane) (i : Nat) :
    (g.updLanes m h).lane i = if maskBit m i then h (g.lane i) else g.lane i := by
  unfold Group.updLanes
  rw [Group.foldl_updLane (fun _ => h) _ _ _ (maskLanes_nodup m)]
  simp [mem_maskLanes]

/-- Updates of lanes change nothing of a group but its lanes. -/
theorem Group.updLanes_rest (g : Group) (m : Mask) (h : Lane → Lane) : ∃ ls, g.updLanes m h = { g with lanes := ls } := by
  unfold Group.updLanes
  generalize maskLanes m = l
  induction l generalizing g with
  | nil => exact ⟨g.lanes, rfl⟩
  | cons a l ih =>
    obtain ⟨ls, hl⟩ := ih (g.updLane a h)
    exact ⟨ls, by rw [List.foldl_cons, hl]; rfl⟩

theorem Group.orFlags_lane (g : Group) (l : Nat) (f : Word) (i : Nat) :
    (g.orFlags l f).lane i = if i = l then { g.lane l with flags := (g.lane l).flags ||| f } else g.lane i := by
  unfold Group.orFlags
  split
  · next h => subst h; split
              · next hi => subst hi; simp
              · rfl
  · exact Group.updLane_lane _ _ _ _

/-- Flags change nothing of a group but its lanes. -/
theorem Group.orFlags_rest (g : Group) (l : Nat) (f : Word) : ∃ ls, g.orFlags l f = { g with lanes := ls } := by
  unfold Group.orFlags
  split
  · exact ⟨g.lanes, rfl⟩
  · exact ⟨_, rfl⟩

/-- A fold of flags over distinct lanes. -/
theorem Group.foldl_orFlags (f : Nat → Word) (ls : List Nat) :
    ∀ (g : Group) (i : Nat), ls.Nodup →
      (ls.foldl (fun g l => g.orFlags l (f l)) g).lane i =
        if i ∈ ls then { g.lane i with flags := (g.lane i).flags ||| f i } else g.lane i := by
  induction ls with
  | nil => intro g i _; simp
  | cons a ls ih =>
    intro g i hn
    obtain ⟨ha, hn⟩ := List.nodup_cons.mp hn
    rw [List.foldl_cons, ih _ _ hn, Group.orFlags_lane]
    by_cases hi : i = a
    · subst hi; simp [ha]
    · simp [hi]

theorem Group.orFlagsIn_lane (g : Group) (m : Mask) (f : Word) (i : Nat) :
    (g.orFlagsIn m f).lane i = if maskBit m i then { g.lane i with flags := (g.lane i).flags ||| f } else g.lane i := by
  unfold Group.orFlagsIn
  rw [Group.foldl_orFlags (fun _ => f) _ _ _ (maskLanes_nodup m)]
  simp [mem_maskLanes]

-- LAST-USE MARKS (R43)
/-- A group's lanes, masks and rejoin registers, and all that is no register, are as they were before the marks. -/
theorem markSrc_rest (k : Nat) (act : Mask) (src : Src) (g : Group) :
    ∃ v s, markSrc k act src g = { g with v := v, s := s } := by
  unfold markSrc
  split
  · exact ⟨g.v, g.s, rfl⟩
  · split
    · next n _ =>
      generalize List.range k = rs
      induction rs generalizing g with
      | nil => exact ⟨g.v, g.s, rfl⟩
      | cons r rs ih =>
        rw [List.foldl_cons]
        have : ∀ (ls : List Nat) (g : Group), ∃ v, ls.foldl (fun g l => g.setV (n.toNat + r) l poison) g = { g with v := v } := by
          intro ls
          induction ls with
          | nil => intro g; exact ⟨g.v, rfl⟩
          | cons a ls ih => intro g; obtain ⟨v, h⟩ := ih (g.setV (n.toNat + r) a poison); exact ⟨v, by rw [List.foldl_cons, h]; rfl⟩
        obtain ⟨v, h⟩ := this (maskLanes act) g
        rw [h]
        obtain ⟨v', s', h'⟩ := ih { g with v := v }
        exact ⟨v', s', h'⟩
    · next n _ =>
      split
      · exact ⟨g.v, g.s, rfl⟩
      · generalize List.range k = rs
        induction rs generalizing g with
        | nil => exact ⟨g.v, g.s, rfl⟩
        | cons r rs ih =>
          rw [List.foldl_cons]
          obtain ⟨v', s', h'⟩ := ih (g.setS (n.toNat + r) 0x7FF00BAD#64)
          exact ⟨v', s', h'⟩
    · exact ⟨g.v, g.s, rfl⟩

theorem markAll_rest (i : Instr) (f : Form) (act : Mask) (g : Group) :
    ∃ v s, markAll i f act g = { g with v := v, s := s } := by
  unfold markAll
  simp only
  split
  · obtain ⟨v1, s1, h1⟩ := markSrc_rest (srcSizes i f).2.2 act f.c g
    rw [h1]
    obtain ⟨v2, s2, h2⟩ := markSrc_rest (srcSizes i f).2.1 act f.b { g with v := v1, s := s1 }
    rw [h2]
    obtain ⟨v3, s3, h3⟩ := markSrc_rest (srcSizes i f).1 act f.a { g with v := v2, s := s2 }
    exact ⟨v3, s3, h3⟩
  · obtain ⟨v2, s2, h2⟩ := markSrc_rest (srcSizes i f).2.1 act f.b g
    rw [h2]
    obtain ⟨v3, s3, h3⟩ := markSrc_rest (srcSizes i f).1 act f.a { g with v := v2, s := s2 }
    exact ⟨v3, s3, h3⟩

/-- An instruction that acts in no lane leaves no mark. -/
theorem markSrc_none (k : Nat) (src : Src) (g : Group) : markSrc k 0 src g = g := by
  unfold markSrc
  have hl : maskLanes 0 = [] := by decide
  split
  · rfl
  · split
    · rw [hl]
      generalize List.range k = rs
      induction rs with
      | nil => rfl
      | cons r rs ih => rw [List.foldl_cons]; exact ih
    · simp
    · rfl

theorem markAll_none (i : Instr) (f : Form) (g : Group) : markAll i f 0 g = g := by
  unfold markAll
  simp only [markSrc_none]
  split <;> rfl

-- THE VIEW OF AN INSTRUCTION
@[simp] theorem viewOf_i (i : Instr) (f : Form) (s : State) : (viewOf i f s).i = i := rfl
@[simp] theorem viewOf_f (i : Instr) (f : Form) (s : State) : (viewOf i f s).f = f := rfl
@[simp] theorem viewOf_gk (i : Instr) (f : Form) (s : State) : (viewOf i f s).gk = s.cur.grp := rfl
@[simp] theorem viewOf_g (i : Instr) (f : Form) (s : State) : (viewOf i f s).g = s.group s.cur.grp := rfl
@[simp] theorem viewOf_path (i : Instr) (f : Form) (s : State) : (viewOf i f s).path = s.cur.path := rfl
@[simp] theorem viewOf_pc (i : Instr) (f : Form) (s : State) : (viewOf i f s).pc = s.cur.pc := rfl
@[simp] theorem viewOf_s0 (i : Instr) (f : Form) (s : State) : (viewOf i f s).s0 = s := rfl

theorem viewOf_s (i : Instr) (f : Form) (s : State) :
    (viewOf i f s).s = s.setGroup s.cur.grp (viewOf i f s).marked := rfl

@[simp] theorem viewOf_g1 (i : Instr) (f : Form) (s : State) : (viewOf i f s).g1 = (viewOf i f s).marked := by
  unfold View.g1
  rw [viewOf_s]
  exact State.setGroup_at_group_self _ _ _

/-- A state that differs in one group, and in what is written over it. -/
theorem apart_setGroup (s : State) (k : Nat) (g : Group) : Apart k s (s.setGroup k g) :=
  ⟨rfl, fun j h => by rw [State.setGroup_at_group, if_neg h]⟩

theorem Apart.trans {gk : Nat} {s t u : State} (h : Apart gk s t) (k : Apart gk t u) : Apart gk s u := by
  refine ⟨?_, fun j hj => (k.others j hj).trans (h.others j hj)⟩
  have hu := k.rest
  have ht := h.rest
  rw [← ht, ← hu]

theorem Apart.rfl' {gk : Nat} {s : State} : Apart gk s s := ⟨rfl, fun _ _ => rfl⟩

theorem apart_focus (gk : Nat) (s : State) (c : Focus) : Apart gk s { s with cur := c } := ⟨rfl, fun _ _ => rfl⟩

-- THE FRAME
theorem State.advance_group (s : State) (gk : Nat) (m : Mask) (pc : DWord) :
    (s.advance gk m pc).group gk = (s.group gk).updLanes m fun x => { x with pc := pc } :=
  State.setGroup_at_group_self _ _ _

theorem State.issued_group (s : State) (gk : Nat) (edge : Bool) :
    (s.issued gk edge).group gk = { s.group gk with run := (s.group gk).run + 1, why := .none, stall := none } := by
  unfold State.issued State.updGroup
  exact State.setGroup_at_group_self _ _ _

theorem advance_apart (s : State) (gk : Nat) (m : Mask) (pc : DWord) : Apart gk s (s.advance gk m pc) := apart_setGroup _ _ _

theorem issued_apart (s : State) (gk : Nat) (edge : Bool) : Apart gk s (s.issued gk edge) :=
  (apart_setGroup _ _ _).trans (apart_focus _ _ _)

theorem cut_apart (s : State) (gk : Nat) : Apart gk s (s.cut gk) := (apart_setGroup _ _ _).trans (apart_focus _ _ _)

/-- An instruction that passes the shared checks has its effect. -/
theorem runForm_clear {i : Instr} {f : Form} {s : State} (eff : View → Eff) (h : sharedTrap (viewOf i f s) = none) :
    runForm i f eff s = .next (finish (viewOf i f s) (eff (viewOf i f s))) := by
  unfold runForm
  simp only [h]

/-- An instruction that fails a shared check takes its trap before any effect. -/
theorem runForm_trap {i : Instr} {f : Form} {s : State} (eff : View → Eff) {code : Nat} {arg : DWord}
    (h : sharedTrap (viewOf i f s) = some (code, arg)) :
    runForm i f eff s = .next (finish (viewOf i f s) (.trap code arg 0)) := by
  unfold runForm
  simp only [h]

/-- Every encoded instruction answers a next state. -/
theorem runForm_next (i : Instr) (f : Form) (eff : View → Eff) (s : State) : ∃ t, runForm i f eff s = .next t := by
  unfold runForm
  simp only
  split <;> exact ⟨_, rfl⟩

theorem runActing_next (i : Instr) (f : Form) (eff : View → Eff) (s : State) : ∃ t, runActing i f eff s = .next t :=
  runForm_next _ _ _ _

theorem runActing_clear {i : Instr} {f : Form} {s : State} (eff : View → Eff) (h : sharedTrap (viewOf i f s) = none) :
    runActing i f eff s = .next (finish (viewOf i f s)
      (if (viewOf i f s).act = 0 then .done (viewOf i f s).s else eff (viewOf i f s))) := runForm_clear _ h

/-- The effects' state with the group replaced differs from the state before only in that group. -/
theorem put_apart (i : Instr) (f : Form) (s : State) (g : Group) : Apart s.cur.grp s ((viewOf i f s).put g) := by
  unfold View.put
  rw [viewOf_s, viewOf_gk]
  exact (apart_setGroup _ _ _).trans (apart_setGroup _ _ _)

@[simp] theorem put_group (i : Instr) (f : Form) (s : State) (g : Group) : ((viewOf i f s).put g).group s.cur.grp = g := by
  unfold View.put
  rw [viewOf_gk, State.setGroup_at_group_self]

/-- The group after an instruction that ends in a state `u`. -/
theorem finish_done_group (i : Instr) (f : Form) (s u : State) :
    (finish (viewOf i f s) (.done u)).group s.cur.grp =
      { (u.group s.cur.grp).updLanes s.cur.path (fun y => { y with pc := (viewOf i f s).next }) with
        run := (u.group s.cur.grp).run + 1, why := .none, stall := none } := by
  show (State.issued (State.advance _ _ _ _) _ _).group _ = _
  rw [viewOf_gk, State.issued_group, State.advance_group]
  obtain ⟨ls, h⟩ := Group.updLanes_rest (u.group s.cur.grp) s.cur.path (fun y => { y with pc := (viewOf i f s).next })
  rw [viewOf_path, h]

/-- And nothing but that group changes, where the effect changed nothing else. -/
theorem finish_done_apart' (i : Instr) (f : Form) (s u : State) :
    Apart s.cur.grp u (finish (viewOf i f s) (.done u)) := by
  show Apart s.cur.grp u (State.issued (State.advance _ _ _ _) _ _)
  exact (advance_apart _ _ _ _).trans (issued_apart _ _ _)

theorem finish_done_apart (i : Instr) (f : Form) (s u : State) (h : Apart s.cur.grp s u) :
    Apart s.cur.grp s (finish (viewOf i f s) (.done u)) := by
  show Apart s.cur.grp s (State.issued (State.advance _ _ _ _) _ _)
  exact (h.trans (advance_apart _ _ _ _)).trans (issued_apart _ _ _)

/-- An instruction whose group keeps its control part and its lanes but for flags passes on. -/
theorem passes_done (i : Instr) (f : Form) (s u : State) (ha : Apart s.cur.grp s u)
    (hc : SameControl (s.group s.cur.grp) (u.group s.cur.grp)) (hr : (u.group s.cur.grp).run = (s.group s.cur.grp).run)
    (hl : ∀ l, ∃ fl, (u.group s.cur.grp).lane l = { (s.group s.cur.grp).lane l with flags := fl }) :
    Passes (viewOf i f s) (finish (viewOf i f s) (.done u)) := by
  have hg := finish_done_group i f s u
  obtain ⟨ls, hu⟩ := Group.updLanes_rest (u.group s.cur.grp) s.cur.path (fun y => { y with pc := (viewOf i f s).next })
  have hlane : ∀ l, ((finish (viewOf i f s) (.done u)).group s.cur.grp).lane l =
      ((u.group s.cur.grp).updLanes s.cur.path (fun y => { y with pc := (viewOf i f s).next })).lane l := by
    intro l; rw [hg]; rfl
  refine ⟨finish_done_apart i f s u ha, ?_, ?_, ?_, ?_⟩
  · rw [viewOf_gk, viewOf_g, hg, hu]
    exact hc
  · intro l
    rw [viewOf_gk, hlane, Group.updLanes_lane]
    obtain ⟨fl, h⟩ := hl l
    rw [h]
    simp only [viewOf_path, viewOf_g]
    by_cases hm : maskBit s.cur.path l = true <;> simp [hm]
  · intro l
    rw [viewOf_gk, hlane, Group.updLanes_lane]
    obtain ⟨fl, h⟩ := hl l
    rw [h]
    split <;> exact ⟨rfl, rfl, rfl⟩
  · rw [viewOf_gk, viewOf_g, hg, hr]

end Sys2Proof.Machine
end

