-- ==== Sys2Proof/Laws/PerInstr.lean ====
section
/-! SUPPORT. Families of statements about every instruction as syntax. OpcodeMap: the major opcode of R49, with FN where several mnemonics share one (R50), leads
back to the instruction; an event has no opcode. -/

namespace Sys2Proof.Laws

open Sys2Proof.Machine

/-- The opcode and the fields of a well-formed instruction select that instruction and no other (R49, R50). -/
def OpcodeMap.Statement (i : Instr) : Prop :=
  ∀ op f, opcodeOf i = some op → formOf i = some f → i.wellFormed = true → instrOf op f = some i

/-- An instruction whose opcode names it alone. -/
theorem opcodeMap_alone {i : Instr} {op : Nat} {f : Form} (ho : opcodeOf i = some op) (hf : formOf i = some f) (h : instrOf op f = some i) :
    OpcodeMap.Statement i := by
  intro p g hp hg _
  rw [ho] at hp; rw [hf] at hg
  cases hp; cases hg; exact h

/-- An event. -/
theorem opcodeMap_event {i : Instr} (ho : opcodeOf i = none) : OpcodeMap.Statement i := by
  intro p g hp
  rw [ho] at hp; cases hp

/-- FN of a well-formed instruction is one that its row assigns (R36, check 5). -/
theorem fn_of_wellFormed {i : Instr} {f : Form} {r : Row} (hf : formOf i = some f) (hr : rowOf i = some r) (hw : i.wellFormed = true) :
    r.fns.contains f.fn.toNat = true := by
  unfold Instr.wellFormed at hw
  rw [hf] at hw
  dsimp only at hw
  unfold formLegal at hw
  rw [hr] at hw
  dsimp only at hw
  simp only [Bool.and_eq_true] at hw
  exact hw.1.1.1.1.1.1.1.1.1.1.1.1.1.1.1.2

/-- An instruction whose FN selects it among the mnemonics of its opcode. -/
theorem opcodeMap_shared {i : Instr} {op : Nat} {f : Form} {r : Row} (ns : List Nat) (ho : opcodeOf i = some op) (hf : formOf i = some f)
    (hr : rowOf i = some r) (hn : r.fns = ns) (h : ∀ n, n ∈ ns → f.fn.toNat = n → instrOf op f = some i) : OpcodeMap.Statement i := by
  intro p g hp hg hw
  rw [ho] at hp; rw [hf] at hg
  cases hp; cases hg
  exact h _ (hn ▸ List.contains_iff_mem.mp (fn_of_wellFormed hf hr hw)) rfl

theorem OpcodeMap.nop (f : Form) : OpcodeMap.Statement (.nop f) := opcodeMap_alone rfl rfl rfl
theorem OpcodeMap.mov (f : Form) : OpcodeMap.Statement (.mov f) := opcodeMap_alone rfl rfl rfl
theorem OpcodeMap.addInt (f : Form) : OpcodeMap.Statement (.addInt f) := opcodeMap_alone rfl rfl rfl
theorem OpcodeMap.subInt (f : Form) : OpcodeMap.Statement (.subInt f) := opcodeMap_alone rfl rfl rfl
theorem OpcodeMap.mulInt (f : Form) : OpcodeMap.Statement (.mulInt f) := opcodeMap_alone rfl rfl rfl
theorem OpcodeMap.mulh (f : Form) : OpcodeMap.Statement (.mulh f) := opcodeMap_alone rfl rfl rfl
theorem OpcodeMap.mad (f : Form) : OpcodeMap.Statement (.mad f) := opcodeMap_alone rfl rfl rfl
theorem OpcodeMap.madh (f : Form) : OpcodeMap.Statement (.madh f) := opcodeMap_alone rfl rfl rfl
theorem OpcodeMap.divInt (f : Form) : OpcodeMap.Statement (.divInt f) := opcodeMap_alone rfl rfl rfl
theorem OpcodeMap.rem (f : Form) : OpcodeMap.Statement (.rem f) := opcodeMap_alone rfl rfl rfl
theorem OpcodeMap.minInt (f : Form) : OpcodeMap.Statement (.minInt f) := opcodeMap_alone rfl rfl rfl
theorem OpcodeMap.maxInt (f : Form) : OpcodeMap.Statement (.maxInt f) := opcodeMap_alone rfl rfl rfl
theorem OpcodeMap.sadd (f : Form) : OpcodeMap.Statement (.sadd f) := opcodeMap_alone rfl rfl rfl
theorem OpcodeMap.ssub (f : Form) : OpcodeMap.Statement (.ssub f) := opcodeMap_alone rfl rfl rfl
theorem OpcodeMap.and (f : Form) : OpcodeMap.Statement (.and f) := opcodeMap_alone rfl rfl rfl
theorem OpcodeMap.or (f : Form) : OpcodeMap.Statement (.or f) := opcodeMap_alone rfl rfl rfl
theorem OpcodeMap.xor (f : Form) : OpcodeMap.Statement (.xor f) := opcodeMap_alone rfl rfl rfl
theorem OpcodeMap.not (f : Form) : OpcodeMap.Statement (.not f) := opcodeMap_alone rfl rfl rfl
theorem OpcodeMap.shl (f : Form) : OpcodeMap.Statement (.shl f) := opcodeMap_alone rfl rfl rfl
theorem OpcodeMap.shr (f : Form) : OpcodeMap.Statement (.shr f) := opcodeMap_alone rfl rfl rfl
theorem OpcodeMap.sar (f : Form) : OpcodeMap.Statement (.sar f) := opcodeMap_alone rfl rfl rfl
theorem OpcodeMap.rol (f : Form) : OpcodeMap.Statement (.rol f) := opcodeMap_alone rfl rfl rfl
theorem OpcodeMap.ror (f : Form) : OpcodeMap.Statement (.ror f) := opcodeMap_alone rfl rfl rfl
theorem OpcodeMap.popc (f : Form) : OpcodeMap.Statement (.popc f) := opcodeMap_alone rfl rfl rfl
theorem OpcodeMap.clz (f : Form) : OpcodeMap.Statement (.clz f) := opcodeMap_alone rfl rfl rfl
theorem OpcodeMap.ctz (f : Form) : OpcodeMap.Statement (.ctz f) := opcodeMap_alone rfl rfl rfl
theorem OpcodeMap.brev (f : Form) : OpcodeMap.Statement (.brev f) := opcodeMap_alone rfl rfl rfl
theorem OpcodeMap.bfx (f : Form) : OpcodeMap.Statement (.bfx f) := opcodeMap_alone rfl rfl rfl
theorem OpcodeMap.bfi (f : Form) : OpcodeMap.Statement (.bfi f) := opcodeMap_alone rfl rfl rfl
theorem OpcodeMap.sel (f : Form) : OpcodeMap.Statement (.sel f) := opcodeMap_alone rfl rfl rfl
theorem OpcodeMap.lea (f : Form) : OpcodeMap.Statement (.lea f) := opcodeMap_alone rfl rfl rfl
theorem OpcodeMap.bsel (f : Form) : OpcodeMap.Statement (.bsel f) := opcodeMap_alone rfl rfl rfl
theorem OpcodeMap.sext (f : Form) : OpcodeMap.Statement (.sext f) := opcodeMap_alone rfl rfl rfl
theorem OpcodeMap.zext (f : Form) : OpcodeMap.Statement (.zext f) := opcodeMap_alone rfl rfl rfl
theorem OpcodeMap.dot4 (f : Form) : OpcodeMap.Statement (.dot4 f) := opcodeMap_alone rfl rfl rfl
theorem OpcodeMap.sad (f : Form) : OpcodeMap.Statement (.sad f) := opcodeMap_alone rfl rfl rfl
theorem OpcodeMap.addFp (f : Form) : OpcodeMap.Statement (.addFp f) := opcodeMap_alone rfl rfl rfl
theorem OpcodeMap.mulFp (f : Form) : OpcodeMap.Statement (.mulFp f) := opcodeMap_alone rfl rfl rfl
theorem OpcodeMap.subFp (f : Form) : OpcodeMap.Statement (.subFp f) := opcodeMap_alone rfl rfl rfl
theorem OpcodeMap.fma (f : Form) : OpcodeMap.Statement (.fma f) := opcodeMap_alone rfl rfl rfl
theorem OpcodeMap.minFp (f : Form) : OpcodeMap.Statement (.minFp f) := opcodeMap_alone rfl rfl rfl
theorem OpcodeMap.maxFp (f : Form) : OpcodeMap.Statement (.maxFp f) := opcodeMap_alone rfl rfl rfl
theorem OpcodeMap.divFp (f : Form) : OpcodeMap.Statement (.divFp f) := opcodeMap_alone rfl rfl rfl
theorem OpcodeMap.sqrt (f : Form) : OpcodeMap.Statement (.sqrt f) := opcodeMap_alone rfl rfl rfl
theorem OpcodeMap.rcp (f : Form) : OpcodeMap.Statement (.rcp f) := opcodeMap_alone rfl rfl rfl
theorem OpcodeMap.frac (f : Form) : OpcodeMap.Statement (.frac f) := opcodeMap_alone rfl rfl rfl
theorem OpcodeMap.rint (f : Form) : OpcodeMap.Statement (.rint f) := opcodeMap_alone rfl rfl rfl
theorem OpcodeMap.floor (f : Form) : OpcodeMap.Statement (.floor f) := opcodeMap_alone rfl rfl rfl
theorem OpcodeMap.ceil (f : Form) : OpcodeMap.Statement (.ceil f) := opcodeMap_alone rfl rfl rfl
theorem OpcodeMap.trunc (f : Form) : OpcodeMap.Statement (.trunc f) := opcodeMap_alone rfl rfl rfl
theorem OpcodeMap.ldexp (f : Form) : OpcodeMap.Statement (.ldexp f) := opcodeMap_alone rfl rfl rfl
theorem OpcodeMap.classF (f : Form) : OpcodeMap.Statement (.classF f) := opcodeMap_alone rfl rfl rfl
theorem OpcodeMap.padd (f : Form) : OpcodeMap.Statement (.padd f) := opcodeMap_alone rfl rfl rfl
theorem OpcodeMap.psub (f : Form) : OpcodeMap.Statement (.psub f) := opcodeMap_alone rfl rfl rfl
theorem OpcodeMap.pmul (f : Form) : OpcodeMap.Statement (.pmul f) := opcodeMap_alone rfl rfl rfl
theorem OpcodeMap.pfma (f : Form) : OpcodeMap.Statement (.pfma f) := opcodeMap_alone rfl rfl rfl
theorem OpcodeMap.pmin (f : Form) : OpcodeMap.Statement (.pmin f) := opcodeMap_alone rfl rfl rfl
theorem OpcodeMap.pmax (f : Form) : OpcodeMap.Statement (.pmax f) := opcodeMap_alone rfl rfl rfl
theorem OpcodeMap.pdot (f : Form) : OpcodeMap.Statement (.pdot f) := opcodeMap_alone rfl rfl rfl
theorem OpcodeMap.cmp (f : Form) : OpcodeMap.Statement (.cmp f) := opcodeMap_alone rfl rfl rfl
theorem OpcodeMap.mand (f : Form) : OpcodeMap.Statement (.mand f) := opcodeMap_alone rfl rfl rfl
theorem OpcodeMap.mor (f : Form) : OpcodeMap.Statement (.mor f) := opcodeMap_alone rfl rfl rfl
theorem OpcodeMap.mxor (f : Form) : OpcodeMap.Statement (.mxor f) := opcodeMap_alone rfl rfl rfl
theorem OpcodeMap.mnot (f : Form) : OpcodeMap.Statement (.mnot f) := opcodeMap_alone rfl rfl rfl
theorem OpcodeMap.mpopc (f : Form) : OpcodeMap.Statement (.mpopc f) := opcodeMap_alone rfl rfl rfl
theorem OpcodeMap.mffs (f : Form) : OpcodeMap.Statement (.mffs f) := opcodeMap_alone rfl rfl rfl
theorem OpcodeMap.vote (f : Form) : OpcodeMap.Statement (.vote f) := opcodeMap_alone rfl rfl rfl
theorem OpcodeMap.shfl (f : Form) : OpcodeMap.Statement (.shfl f) := opcodeMap_alone rfl rfl rfl
theorem OpcodeMap.bcast (f : Form) : OpcodeMap.Statement (.bcast f) := opcodeMap_alone rfl rfl rfl
theorem OpcodeMap.lred (f : Form) : OpcodeMap.Statement (.lred f) := opcodeMap_alone rfl rfl rfl
theorem OpcodeMap.lscan (f : Form) : OpcodeMap.Statement (.lscan f) := opcodeMap_alone rfl rfl rfl
theorem OpcodeMap.supd (f : Form) : OpcodeMap.Statement (.supd f) := opcodeMap_alone rfl rfl rfl
theorem OpcodeMap.smrg (f : Form) : OpcodeMap.Statement (.smrg f) := opcodeMap_alone rfl rfl rfl
theorem OpcodeMap.sred (f : Form) : OpcodeMap.Statement (.sred f) := opcodeMap_alone rfl rfl rfl
theorem OpcodeMap.sfin (f : Form) : OpcodeMap.Statement (.sfin f) := opcodeMap_alone rfl rfl rfl
theorem OpcodeMap.cvt (f : Form) : OpcodeMap.Statement (.cvt f) := opcodeMap_alone rfl rfl rfl
theorem OpcodeMap.mxq (f : Form) : OpcodeMap.Statement (.mxq f) := opcodeMap_alone rfl rfl rfl
theorem OpcodeMap.mxdq (f : Form) : OpcodeMap.Statement (.mxdq f) := opcodeMap_alone rfl rfl rfl
theorem OpcodeMap.rnd (f : Form) : OpcodeMap.Statement (.rnd f) := opcodeMap_alone rfl rfl rfl
theorem OpcodeMap.sfq (f : Form) : OpcodeMap.Statement (.sfq f) := opcodeMap_alone rfl rfl rfl
theorem OpcodeMap.sfw (f : Form) : OpcodeMap.Statement (.sfw f) := opcodeMap_alone rfl rfl rfl
theorem OpcodeMap.br (f : Form) : OpcodeMap.Statement (.br f) := opcodeMap_alone rfl rfl rfl
theorem OpcodeMap.call (f : Form) : OpcodeMap.Statement (.call f) := opcodeMap_alone rfl rfl rfl
theorem OpcodeMap.ret (f : Form) : OpcodeMap.Statement (.ret f) := opcodeMap_alone rfl rfl rfl
theorem OpcodeMap.exit (f : Form) : OpcodeMap.Statement (.exit f) := opcodeMap_alone rfl rfl rfl
theorem OpcodeMap.sleep (f : Form) : OpcodeMap.Statement (.sleep f) := opcodeMap_alone rfl rfl rfl
theorem OpcodeMap.yield (f : Form) : OpcodeMap.Statement (.yield f) := opcodeMap_alone rfl rfl rfl
theorem OpcodeMap.jset (f : Form) : OpcodeMap.Statement (.jset f) := opcodeMap_alone rfl rfl rfl
theorem OpcodeMap.join (f : Form) : OpcodeMap.Statement (.join f) := opcodeMap_alone rfl rfl rfl
theorem OpcodeMap.brx (f : Form) : OpcodeMap.Statement (.brx f) := opcodeMap_alone rfl rfl rfl
theorem OpcodeMap.callx (f : Form) : OpcodeMap.Statement (.callx f) := opcodeMap_alone rfl rfl rfl
theorem OpcodeMap.bind (f : Form) : OpcodeMap.Statement (.bind f) := opcodeMap_alone rfl rfl rfl
theorem OpcodeMap.unbind (f : Form) : OpcodeMap.Statement (.unbind f) := opcodeMap_alone rfl rfl rfl
theorem OpcodeMap.ladd (f : Form) : OpcodeMap.Statement (.ladd f) := opcodeMap_alone rfl rfl rfl
theorem OpcodeMap.lsub (f : Form) : OpcodeMap.Statement (.lsub f) := opcodeMap_alone rfl rfl rfl
theorem OpcodeMap.lneg (f : Form) : OpcodeMap.Statement (.lneg f) := opcodeMap_alone rfl rfl rfl
theorem OpcodeMap.lshl (f : Form) : OpcodeMap.Statement (.lshl f) := opcodeMap_alone rfl rfl rfl
theorem OpcodeMap.lshr (f : Form) : OpcodeMap.Statement (.lshr f) := opcodeMap_alone rfl rfl rfl
theorem OpcodeMap.lcmp (f : Form) : OpcodeMap.Statement (.lcmp f) := opcodeMap_alone rfl rfl rfl
theorem OpcodeMap.lmov (f : Form) : OpcodeMap.Statement (.lmov f) := opcodeMap_alone rfl rfl rfl
theorem OpcodeMap.lmac (f : Form) : OpcodeMap.Statement (.lmac f) := opcodeMap_alone rfl rfl rfl
theorem OpcodeMap.ld (f : Form) : OpcodeMap.Statement (.ld f) := opcodeMap_alone rfl rfl rfl
theorem OpcodeMap.st (f : Form) : OpcodeMap.Statement (.st f) := opcodeMap_alone rfl rfl rfl
theorem OpcodeMap.gld (f : Form) : OpcodeMap.Statement (.gld f) := opcodeMap_alone rfl rfl rfl
theorem OpcodeMap.sct (f : Form) : OpcodeMap.Statement (.sct f) := opcodeMap_alone rfl rfl rfl
theorem OpcodeMap.atom (f : Form) : OpcodeMap.Statement (.atom f) := opcodeMap_alone rfl rfl rfl
theorem OpcodeMap.red (f : Form) : OpcodeMap.Statement (.red f) := opcodeMap_alone rfl rfl rfl
theorem OpcodeMap.cas (f : Form) : OpcodeMap.Statement (.cas f) := opcodeMap_alone rfl rfl rfl
theorem OpcodeMap.msred (f : Form) : OpcodeMap.Statement (.msred f) := opcodeMap_alone rfl rfl rfl
theorem OpcodeMap.fence (f : Form) : OpcodeMap.Statement (.fence f) := opcodeMap_alone rfl rfl rfl
theorem OpcodeMap.wcnt (f : Form) : OpcodeMap.Statement (.wcnt f) := opcodeMap_alone rfl rfl rfl
theorem OpcodeMap.fset (f : Form) : OpcodeMap.Statement (.fset f) := opcodeMap_alone rfl rfl rfl
theorem OpcodeMap.ftest (f : Form) : OpcodeMap.Statement (.ftest f) := opcodeMap_alone rfl rfl rfl
theorem OpcodeMap.barSync (f : Form) : OpcodeMap.Statement (.barSync f) :=
  opcodeMap_shared [0] rfl rfl rfl rfl (by
    intro n hn h
    simp only [List.mem_cons, List.not_mem_nil, or_false] at hn
    subst hn; simp [instrOf, h])
theorem OpcodeMap.barArrive (f : Form) : OpcodeMap.Statement (.barArrive f) :=
  opcodeMap_shared [1] rfl rfl rfl rfl (by
    intro n hn h
    simp only [List.mem_cons, List.not_mem_nil, or_false] at hn
    subst hn; simp [instrOf, h])
theorem OpcodeMap.barWait (f : Form) : OpcodeMap.Statement (.barWait f) :=
  opcodeMap_shared [2] rfl rfl rfl rfl (by
    intro n hn h
    simp only [List.mem_cons, List.not_mem_nil, or_false] at hn
    subst hn; simp [instrOf, h])
theorem OpcodeMap.blineInit (f : Form) : OpcodeMap.Statement (.blineInit f) :=
  opcodeMap_shared [0] rfl rfl rfl rfl (by
    intro n hn h
    simp only [List.mem_cons, List.not_mem_nil, or_false] at hn
    subst hn; simp [instrOf, h])
theorem OpcodeMap.blineClr (f : Form) : OpcodeMap.Statement (.blineClr f) :=
  opcodeMap_shared [1] rfl rfl rfl rfl (by
    intro n hn h
    simp only [List.mem_cons, List.not_mem_nil, or_false] at hn
    subst hn; simp [instrOf, h])
theorem OpcodeMap.tnow (f : Form) : OpcodeMap.Statement (.tnow f) := opcodeMap_alone rfl rfl rfl
theorem OpcodeMap.stst (f : Form) : OpcodeMap.Statement (.stst f) := opcodeMap_alone rfl rfl rfl
theorem OpcodeMap.rdat (f : Form) : OpcodeMap.Statement (.rdat f) := opcodeMap_alone rfl rfl rfl
theorem OpcodeMap.mcst (f : Form) : OpcodeMap.Statement (.mcst f) := opcodeMap_alone rfl rfl rfl
theorem OpcodeMap.mcsq (f : Form) : OpcodeMap.Statement (.mcsq f) :=
  opcodeMap_shared [0] rfl rfl rfl rfl (by
    intro n hn h
    simp only [List.mem_cons, List.not_mem_nil, or_false] at hn
    subst hn; simp [instrOf, h])
theorem OpcodeMap.mcsqCas (f : Form) : OpcodeMap.Statement (.mcsqCas f) :=
  opcodeMap_shared [1] rfl rfl rfl rfl (by
    intro n hn h
    simp only [List.mem_cons, List.not_mem_nil, or_false] at hn
    subst hn; simp [instrOf, h])
theorem OpcodeMap.mldr (f : Form) : OpcodeMap.Statement (.mldr f) := opcodeMap_alone rfl rfl rfl
theorem OpcodeMap.waitv (f : Form) : OpcodeMap.Statement (.waitv f) := opcodeMap_alone rfl rfl rfl
theorem OpcodeMap.wake (f : Form) : OpcodeMap.Statement (.wake f) := opcodeMap_alone rfl rfl rfl
theorem OpcodeMap.tdload (f : Form) : OpcodeMap.Statement (.tdload f) :=
  opcodeMap_shared [0] rfl rfl rfl rfl (by
    intro n hn h
    simp only [List.mem_cons, List.not_mem_nil, or_false] at hn
    subst hn; simp [instrOf, h])
theorem OpcodeMap.tddrop (f : Form) : OpcodeMap.Statement (.tddrop f) :=
  opcodeMap_shared [1] rfl rfl rfl rfl (by
    intro n hn h
    simp only [List.mem_cons, List.not_mem_nil, or_false] at hn
    subst hn; simp [instrOf, h])
theorem OpcodeMap.copy (f : Form) : OpcodeMap.Statement (.copy f) :=
  opcodeMap_shared [0] rfl rfl rfl rfl (by
    intro n hn h
    simp only [List.mem_cons, List.not_mem_nil, or_false] at hn
    subst hn; simp [instrOf, h])
theorem OpcodeMap.copyMc (f : Form) : OpcodeMap.Statement (.copyMc f) :=
  opcodeMap_shared [1] rfl rfl rfl rfl (by
    intro n hn h
    simp only [List.mem_cons, List.not_mem_nil, or_false] at hn
    subst hn; simp [instrOf, h])
theorem OpcodeMap.copyGcm (f : Form) : OpcodeMap.Statement (.copyGcm f) :=
  opcodeMap_shared [2] rfl rfl rfl rfl (by
    intro n hn h
    simp only [List.mem_cons, List.not_mem_nil, or_false] at hn
    subst hn; simp [instrOf, h])
theorem OpcodeMap.aready (f : Form) : OpcodeMap.Statement (.aready f) := opcodeMap_alone rfl rfl rfl
theorem OpcodeMap.await (f : Form) : OpcodeMap.Statement (.await f) := opcodeMap_alone rfl rfl rfl
theorem OpcodeMap.azero (f : Form) : OpcodeMap.Statement (.azero f) := opcodeMap_alone rfl rfl rfl
theorem OpcodeMap.aload (f : Form) : OpcodeMap.Statement (.aload f) := opcodeMap_alone rfl rfl rfl
theorem OpcodeMap.adrain (f : Form) : OpcodeMap.Statement (.adrain f) :=
  opcodeMap_shared [0, 1, 2, 3, 4, 5, 6, 7] rfl rfl rfl rfl (by
    intro n hn h
    have k : n < 8 := by simp only [List.mem_cons, List.not_mem_nil, or_false] at hn; omega
    show (if f.fn.toNat < 8 then some (Instr.adrain f) else _) = _
    rw [h, if_pos k])
theorem OpcodeMap.aread (f : Form) : OpcodeMap.Statement (.aread f) :=
  opcodeMap_shared [8, 9] rfl rfl rfl rfl (by
    intro n hn h
    simp only [List.mem_cons, List.not_mem_nil, or_false] at hn
    rcases hn with rfl | rfl <;> simp [instrOf, h])
theorem OpcodeMap.cstart (f : Form) : OpcodeMap.Statement (.cstart f) :=
  opcodeMap_shared [0] rfl rfl rfl rfl (by
    intro n hn h
    simp only [List.mem_cons, List.not_mem_nil, or_false] at hn
    subst hn; simp [instrOf, h])
theorem OpcodeMap.carm (f : Form) : OpcodeMap.Statement (.carm f) :=
  opcodeMap_shared [1] rfl rfl rfl rfl (by
    intro n hn h
    simp only [List.mem_cons, List.not_mem_nil, or_false] at hn
    subst hn; simp [instrOf, h])
theorem OpcodeMap.cstat (f : Form) : OpcodeMap.Statement (.cstat f) :=
  opcodeMap_shared [2] rfl rfl rfl rfl (by
    intro n hn h
    simp only [List.mem_cons, List.not_mem_nil, or_false] at hn
    subst hn; simp [instrOf, h])
theorem OpcodeMap.mmbf (f : Form) : OpcodeMap.Statement (.mmbf f) := opcodeMap_alone rfl rfl rfl
theorem OpcodeMap.mmf8 (f : Form) : OpcodeMap.Statement (.mmf8 f) := opcodeMap_alone rfl rfl rfl
theorem OpcodeMap.mmi8 (f : Form) : OpcodeMap.Statement (.mmi8 f) := opcodeMap_alone rfl rfl rfl
theorem OpcodeMap.mmx8 (f : Form) : OpcodeMap.Statement (.mmx8 f) := opcodeMap_alone rfl rfl rfl
theorem OpcodeMap.mmx6 (f : Form) : OpcodeMap.Statement (.mmx6 f) := opcodeMap_alone rfl rfl rfl
theorem OpcodeMap.mmx4 (f : Form) : OpcodeMap.Statement (.mmx4 f) := opcodeMap_alone rfl rfl rfl
theorem OpcodeMap.mmcx (f : Form) : OpcodeMap.Statement (.mmcx f) := opcodeMap_alone rfl rfl rfl
theorem OpcodeMap.mmf32 (f : Form) : OpcodeMap.Statement (.mmf32 f) := opcodeMap_alone rfl rfl rfl
theorem OpcodeMap.trap (f : Form) : OpcodeMap.Statement (.trap f) := opcodeMap_alone rfl rfl rfl
theorem OpcodeMap.tret (f : Form) : OpcodeMap.Statement (.tret f) := opcodeMap_alone rfl rfl rfl
theorem OpcodeMap.brk (f : Form) : OpcodeMap.Statement (.brk f) := opcodeMap_alone rfl rfl rfl
theorem OpcodeMap.mark (f : Form) : OpcodeMap.Statement (.mark f) := opcodeMap_alone rfl rfl rfl
theorem OpcodeMap.sysr (f : Form) : OpcodeMap.Statement (.sysr f) := opcodeMap_alone rfl rfl rfl
theorem OpcodeMap.sysw (f : Form) : OpcodeMap.Statement (.sysw f) := opcodeMap_alone rfl rfl rfl
theorem OpcodeMap.flag (f : Form) : OpcodeMap.Statement (.flag f) := opcodeMap_alone rfl rfl rfl
theorem OpcodeMap.watchdog : ∀ g, OpcodeMap.Statement (.watchdog g) := fun _ => opcodeMap_event rfl
theorem OpcodeMap.barrierTimeout : ∀ g lane, OpcodeMap.Statement (.barrierTimeout g lane) := fun _ _ => opcodeMap_event rfl
theorem OpcodeMap.issueSlotGrant : ∀ core, OpcodeMap.Statement (.issueSlotGrant core) := fun _ => opcodeMap_event rfl
theorem OpcodeMap.loadResultReturn : ∀ g k, OpcodeMap.Statement (.loadResultReturn g k) := fun _ _ => opcodeMap_event rfl
theorem OpcodeMap.storeAppliedAtHome : ∀ g path, OpcodeMap.Statement (.storeAppliedAtHome g path) := fun _ _ => opcodeMap_event rfl
theorem OpcodeMap.msauUpdateApply : ∀ g k, OpcodeMap.Statement (.msauUpdateApply g k) := fun _ _ => opcodeMap_event rfl
theorem OpcodeMap.copyLineFill : ∀ copy unit, OpcodeMap.Statement (.copyLineFill copy unit) := fun _ _ => opcodeMap_event rfl
theorem OpcodeMap.matrixEntryExecute : ∀ team, OpcodeMap.Statement (.matrixEntryExecute team) := fun _ => opcodeMap_event rfl
theorem OpcodeMap.sfResultArrival : ∀ g num, OpcodeMap.Statement (.sfResultArrival g num) := fun _ _ => opcodeMap_event rfl
theorem OpcodeMap.sleepExpiry : ∀ g, OpcodeMap.Statement (.sleepExpiry g) := fun _ => opcodeMap_event rfl
theorem OpcodeMap.waitvTimeout : ∀ g, OpcodeMap.Statement (.waitvTimeout g) := fun _ => opcodeMap_event rfl
theorem OpcodeMap.joinRelease : ∀ g, OpcodeMap.Statement (.joinRelease g) := fun _ => opcodeMap_event rfl
theorem OpcodeMap.clusterBarrierArrival : ∀ k, OpcodeMap.Statement (.clusterBarrierArrival k) := fun _ => opcodeMap_event rfl
theorem OpcodeMap.clusterBarrierRelease : ∀ k, OpcodeMap.Statement (.clusterBarrierRelease k) := fun _ => opcodeMap_event rfl
theorem OpcodeMap.ststHoldRelease : ∀ g, OpcodeMap.Statement (.ststHoldRelease g) := fun _ => opcodeMap_event rfl
theorem OpcodeMap.stampedVersionArrival : ∀ k, OpcodeMap.Statement (.stampedVersionArrival k) := fun _ => opcodeMap_event rfl
theorem OpcodeMap.stampRejectArrival : ∀ k, OpcodeMap.Statement (.stampRejectArrival k) := fun _ => opcodeMap_event rfl
theorem OpcodeMap.rdatWaitEnd : ∀ g, OpcodeMap.Statement (.rdatWaitEnd g) := fun _ => opcodeMap_event rfl
theorem OpcodeMap.remoteAccessReject : ∀ k, OpcodeMap.Statement (.remoteAccessReject k) := fun _ => opcodeMap_event rfl
theorem OpcodeMap.crierNumbering : ∀ k, OpcodeMap.Statement (.crierNumbering k) := fun _ => opcodeMap_event rfl
theorem OpcodeMap.memberApply : ∀ k, OpcodeMap.Statement (.memberApply k) := fun _ => opcodeMap_event rfl
theorem OpcodeMap.memberStaleMark : ∀ group rank, OpcodeMap.Statement (.memberStaleMark group rank) := fun _ _ => opcodeMap_event rfl
theorem OpcodeMap.mcsqReply : ∀ k, OpcodeMap.Statement (.mcsqReply k) := fun _ => opcodeMap_event rfl
theorem OpcodeMap.mcsqReject : ∀ id, OpcodeMap.Statement (.mcsqReject id) := fun _ => opcodeMap_event rfl
theorem OpcodeMap.mcstComplete : ∀ id, OpcodeMap.Statement (.mcstComplete id) := fun _ => opcodeMap_event rfl
theorem OpcodeMap.mldrResponseFold : ∀ k, OpcodeMap.Statement (.mldrResponseFold k) := fun _ => opcodeMap_event rfl
theorem OpcodeMap.mldrResponseTimeout : ∀ id, OpcodeMap.Statement (.mldrResponseTimeout id) := fun _ => opcodeMap_event rfl
theorem OpcodeMap.mldrReply : ∀ k, OpcodeMap.Statement (.mldrReply k) := fun _ => opcodeMap_event rfl
theorem OpcodeMap.mldrNoReply : ∀ id, OpcodeMap.Statement (.mldrNoReply id) := fun _ => opcodeMap_event rfl
theorem OpcodeMap.mcgJoin : ∀ fn val, OpcodeMap.Statement (.mcgJoin fn val) := fun _ _ => opcodeMap_event rfl
theorem OpcodeMap.mcgLeave : ∀ fn val, OpcodeMap.Statement (.mcgLeave fn val) := fun _ _ => opcodeMap_event rfl
theorem OpcodeMap.mcgResync : ∀ fn val, OpcodeMap.Statement (.mcgResync fn val) := fun _ _ => opcodeMap_event rfl
theorem OpcodeMap.mcgResyncComplete : ∀ k, OpcodeMap.Statement (.mcgResyncComplete k) := fun _ => opcodeMap_event rfl
theorem OpcodeMap.scriptComm : ∀ c h, OpcodeMap.Statement (.scriptComm c h) := fun _ _ => opcodeMap_event rfl
theorem OpcodeMap.scriptSend : ∀ c h, OpcodeMap.Statement (.scriptSend c h) := fun _ _ => opcodeMap_event rfl
theorem OpcodeMap.scriptRecv : ∀ c h, OpcodeMap.Statement (.scriptRecv c h) := fun _ _ => opcodeMap_event rfl
theorem OpcodeMap.scriptRrs : ∀ c h, OpcodeMap.Statement (.scriptRrs c h) := fun _ _ => opcodeMap_event rfl
theorem OpcodeMap.scriptCopy : ∀ c h, OpcodeMap.Statement (.scriptCopy c h) := fun _ _ => opcodeMap_event rfl
theorem OpcodeMap.scriptWait : ∀ c h, OpcodeMap.Statement (.scriptWait c h) := fun _ _ => opcodeMap_event rfl
theorem OpcodeMap.scriptLoop : ∀ c h, OpcodeMap.Statement (.scriptLoop c h) := fun _ _ => opcodeMap_event rfl
theorem OpcodeMap.scriptEnd : ∀ c h, OpcodeMap.Statement (.scriptEnd c h) := fun _ _ => opcodeMap_event rfl
theorem OpcodeMap.chunkArrival : ∀ k, OpcodeMap.Statement (.chunkArrival k) := fun _ => opcodeMap_event rfl
theorem OpcodeMap.scriptPeerAbsent : ∀ c h, OpcodeMap.Statement (.scriptPeerAbsent c h) := fun _ _ => opcodeMap_event rfl
theorem OpcodeMap.fragmentComplete : ∀ c h, OpcodeMap.Statement (.fragmentComplete c h) := fun _ _ => opcodeMap_event rfl
theorem OpcodeMap.scriptAccessFault : ∀ c h, OpcodeMap.Statement (.scriptAccessFault c h) := fun _ _ => opcodeMap_event rfl
theorem OpcodeMap.gcmMessageProcess : ∀ copy, OpcodeMap.Statement (.gcmMessageProcess copy) := fun _ => opcodeMap_event rfl
theorem OpcodeMap.pageWalkComplete : ∀ k, OpcodeMap.Statement (.pageWalkComplete k) := fun _ => opcodeMap_event rfl
theorem OpcodeMap.faultRingSpaceFree : ∀ k, OpcodeMap.Statement (.faultRingSpaceFree k) := fun _ => opcodeMap_event rfl
theorem OpcodeMap.resumeReplay : ∀ fn fid, OpcodeMap.Statement (.resumeReplay fn fid) := fun _ _ => opcodeMap_event rfl
theorem OpcodeMap.resumeFail : ∀ fn fid, OpcodeMap.Statement (.resumeFail fn fid) := fun _ _ => opcodeMap_event rfl
theorem OpcodeMap.inval : ∀ fn val, OpcodeMap.Statement (.inval fn val) := fun _ _ => opcodeMap_event rfl
theorem OpcodeMap.invalComplete : ∀ fn, OpcodeMap.Statement (.invalComplete fn) := fun _ => opcodeMap_event rfl
theorem OpcodeMap.waken : ∀ fn val, OpcodeMap.Statement (.waken fn val) := fun _ _ => opcodeMap_event rfl
theorem OpcodeMap.slotcmdLoad : ∀ fn val, OpcodeMap.Statement (.slotcmdLoad fn val) := fun _ _ => opcodeMap_event rfl
theorem OpcodeMap.slotcmdDrop : ∀ fn val, OpcodeMap.Statement (.slotcmdDrop fn val) := fun _ _ => opcodeMap_event rfl
theorem OpcodeMap.gateDecrement : ∀ fn val, OpcodeMap.Statement (.gateDecrement fn val) := fun _ _ => opcodeMap_event rfl
theorem OpcodeMap.qtailWrite : ∀ fn q val, OpcodeMap.Statement (.qtailWrite fn q val) := fun _ _ _ => opcodeMap_event rfl
theorem OpcodeMap.ctxenWrite : ∀ fn val, OpcodeMap.Statement (.ctxenWrite fn val) := fun _ _ => opcodeMap_event rfl
theorem OpcodeMap.contextEnableChange : ∀ fn, OpcodeMap.Statement (.contextEnableChange fn) := fun _ => opcodeMap_event rfl
theorem OpcodeMap.registerWrite : ∀ fn page off val, OpcodeMap.Statement (.registerWrite fn page off val) := fun _ _ _ _ => opcodeMap_event rfl
theorem OpcodeMap.queueService : ∀ pair, OpcodeMap.Statement (.queueService pair) := fun _ => opcodeMap_event rfl
theorem OpcodeMap.clusterPlacement : ∀ die, OpcodeMap.Statement (.clusterPlacement die) := fun _ => opcodeMap_event rfl
theorem OpcodeMap.preemption : ∀ cluster, OpcodeMap.Statement (.preemption cluster) := fun _ => opcodeMap_event rfl
theorem OpcodeMap.timeSliceExpiry : ∀ pair, OpcodeMap.Statement (.timeSliceExpiry pair) := fun _ => opcodeMap_event rfl
theorem OpcodeMap.stagingOverflowPreempt : ∀ team, OpcodeMap.Statement (.stagingOverflowPreempt team) := fun _ => opcodeMap_event rfl
theorem OpcodeMap.clusterResume : ∀ die, OpcodeMap.Statement (.clusterResume die) := fun _ => opcodeMap_event rfl
theorem OpcodeMap.releaseTokenPass : ∀ launch, OpcodeMap.Statement (.releaseTokenPass launch) := fun _ => opcodeMap_event rfl
theorem OpcodeMap.launchCompletion : ∀ launch, OpcodeMap.Statement (.launchCompletion launch) := fun _ => opcodeMap_event rfl
theorem OpcodeMap.checkSecondRun : ∀ launch, OpcodeMap.Statement (.checkSecondRun launch) := fun _ => opcodeMap_event rfl
theorem OpcodeMap.fatalTrapStop : ∀ launch, OpcodeMap.Statement (.fatalTrapStop launch) := fun _ => opcodeMap_event rfl
theorem OpcodeMap.clusterRelaunch : ∀ cluster, OpcodeMap.Statement (.clusterRelaunch cluster) := fun _ => opcodeMap_event rfl
theorem OpcodeMap.frameStart : OpcodeMap.Statement (.frameStart) := opcodeMap_event rfl
theorem OpcodeMap.timebaseTick : OpcodeMap.Statement (.timebaseTick) := opcodeMap_event rfl
theorem OpcodeMap.epsFail : OpcodeMap.Statement (.epsFail) := opcodeMap_event rfl
theorem OpcodeMap.holdoverEntry : OpcodeMap.Statement (.holdoverEntry) := opcodeMap_event rfl
theorem OpcodeMap.timebaseExchange : OpcodeMap.Statement (.timebaseExchange) := opcodeMap_event rfl
theorem OpcodeMap.par1Exchange : OpcodeMap.Statement (.par1Exchange) := opcodeMap_event rfl
theorem OpcodeMap.exchangeReply : ∀ k, OpcodeMap.Statement (.exchangeReply k) := fun _ => opcodeMap_event rfl
theorem OpcodeMap.timeInputEdge : ∀ edge, OpcodeMap.Statement (.timeInputEdge edge) := fun _ => opcodeMap_event rfl
theorem OpcodeMap.tbcmdReacquire : OpcodeMap.Statement (.tbcmdReacquire) := opcodeMap_event rfl
theorem OpcodeMap.tbcmdForceFailed : OpcodeMap.Statement (.tbcmdForceFailed) := opcodeMap_event rfl
theorem OpcodeMap.tbcfgWrite : ∀ val, OpcodeMap.Statement (.tbcfgWrite val) := fun _ => opcodeMap_event rfl
theorem OpcodeMap.tblimWrite : ∀ val, OpcodeMap.Statement (.tblimWrite val) := fun _ => opcodeMap_event rfl
theorem OpcodeMap.tbnowRead : ∀ fn late, OpcodeMap.Statement (.tbnowRead fn late) := fun _ _ => opcodeMap_event rfl
theorem OpcodeMap.clkfreqWrite : ∀ val, OpcodeMap.Statement (.clkfreqWrite val) := fun _ => opcodeMap_event rfl
theorem OpcodeMap.clockFreqChange : ∀ bay, OpcodeMap.Statement (.clockFreqChange bay) := fun _ => opcodeMap_event rfl
theorem OpcodeMap.cycleStretch : ∀ bay, OpcodeMap.Statement (.cycleStretch bay) := fun _ => opcodeMap_event rfl
theorem OpcodeMap.refLoss : OpcodeMap.Statement (.refLoss) := opcodeMap_event rfl
theorem OpcodeMap.refRestored : OpcodeMap.Statement (.refRestored) := opcodeMap_event rfl
theorem OpcodeMap.fallbackOscFail : OpcodeMap.Statement (.fallbackOscFail) := opcodeMap_event rfl
theorem OpcodeMap.flitReceive : ∀ port flit, OpcodeMap.Statement (.flitReceive port flit) := fun _ _ => opcodeMap_event rfl
theorem OpcodeMap.nakReceive : ∀ port seq, OpcodeMap.Statement (.nakReceive port seq) := fun _ _ => opcodeMap_event rfl
theorem OpcodeMap.replayThreshold : ∀ port, OpcodeMap.Statement (.replayThreshold port) := fun _ => opcodeMap_event rfl
theorem OpcodeMap.portRetrainComplete : ∀ port, OpcodeMap.Statement (.portRetrainComplete port) := fun _ => opcodeMap_event rfl
theorem OpcodeMap.portRetrainTimeout : ∀ port, OpcodeMap.Statement (.portRetrainTimeout port) := fun _ => opcodeMap_event rfl
theorem OpcodeMap.dovetailParityReplay : ∀ link ok, OpcodeMap.Statement (.dovetailParityReplay link ok) := fun _ _ => opcodeMap_event rfl
theorem OpcodeMap.dovetailLinkRetire : ∀ link, OpcodeMap.Statement (.dovetailLinkRetire link) := fun _ => opcodeMap_event rfl
theorem OpcodeMap.powerUpSelfTest : ∀ units, OpcodeMap.Statement (.powerUpSelfTest units) := fun _ => opcodeMap_event rfl
theorem OpcodeMap.fwStage : ∀ val, OpcodeMap.Statement (.fwStage val) := fun _ => opcodeMap_event rfl
theorem OpcodeMap.fwVerifyComplete : OpcodeMap.Statement (.fwVerifyComplete) := opcodeMap_event rfl
theorem OpcodeMap.cktWrite : ∀ val, OpcodeMap.Statement (.cktWrite val) := fun _ => opcodeMap_event rfl
theorem OpcodeMap.checkpointStart : OpcodeMap.Statement (.checkpointStart) := opcodeMap_event rfl
theorem OpcodeMap.checkpointComplete : ∀ ack, OpcodeMap.Statement (.checkpointComplete ack) := fun _ => opcodeMap_event rfl
theorem OpcodeMap.moduleFailureTakeover : ∀ failed image, OpcodeMap.Statement (.moduleFailureTakeover failed image) := fun _ _ => opcodeMap_event rfl
theorem OpcodeMap.powerLimitExceeded : ∀ watts, OpcodeMap.Statement (.powerLimitExceeded watts) := fun _ => opcodeMap_event rfl
theorem OpcodeMap.powerLimitCleared : ∀ watts, OpcodeMap.Statement (.powerLimitCleared watts) := fun _ => opcodeMap_event rfl
theorem OpcodeMap.thermalThrottle : ∀ tj, OpcodeMap.Statement (.thermalThrottle tj) := fun _ => opcodeMap_event rfl
theorem OpcodeMap.thermalTrip : ∀ tj, OpcodeMap.Statement (.thermalTrip tj) := fun _ => opcodeMap_event rfl
theorem OpcodeMap.sstop : ∀ bay cores, OpcodeMap.Statement (.sstop bay cores) := fun _ _ => opcodeMap_event rfl
theorem OpcodeMap.sgo : ∀ bay cores, OpcodeMap.Statement (.sgo bay cores) := fun _ _ => opcodeMap_event rfl
theorem OpcodeMap.smbx : ∀ bay val, OpcodeMap.Statement (.smbx bay val) := fun _ _ => opcodeMap_event rfl
theorem OpcodeMap.sseal : ∀ bay addr, OpcodeMap.Statement (.sseal bay addr) := fun _ _ => opcodeMap_event rfl
theorem OpcodeMap.imageReq : ∀ bay req, OpcodeMap.Statement (.imageReq bay req) := fun _ _ => opcodeMap_event rfl
theorem OpcodeMap.imageDone : ∀ bay launch size flags, OpcodeMap.Statement (.imageDone bay launch size flags) := fun _ _ _ _ => opcodeMap_event rfl
theorem OpcodeMap.err : ∀ bay rec_, OpcodeMap.Statement (.err bay rec_) := fun _ _ => opcodeMap_event rfl
theorem OpcodeMap.diagReq : ∀ bay test cores, OpcodeMap.Statement (.diagReq bay test cores) := fun _ _ _ => opcodeMap_event rfl
theorem OpcodeMap.diagDone : ∀ bay result, OpcodeMap.Statement (.diagDone bay result) := fun _ _ => opcodeMap_event rfl
theorem OpcodeMap.vinjbArm : ∀ val, OpcodeMap.Statement (.vinjbArm val) := fun _ => opcodeMap_event rfl
theorem OpcodeMap.getVersion : ∀ fn, OpcodeMap.Statement (.getVersion fn) := fun _ => opcodeMap_event rfl
theorem OpcodeMap.getCapabilities : ∀ fn, OpcodeMap.Statement (.getCapabilities fn) := fun _ => opcodeMap_event rfl
theorem OpcodeMap.negotiateAlgorithms : ∀ fn, OpcodeMap.Statement (.negotiateAlgorithms fn) := fun _ => opcodeMap_event rfl
theorem OpcodeMap.getDigests : ∀ fn, OpcodeMap.Statement (.getDigests fn) := fun _ => opcodeMap_event rfl
theorem OpcodeMap.getCertificate : ∀ fn slot, OpcodeMap.Statement (.getCertificate fn slot) := fun _ _ => opcodeMap_event rfl
theorem OpcodeMap.challenge : ∀ fn slot nonce, OpcodeMap.Statement (.challenge fn slot nonce) := fun _ _ _ => opcodeMap_event rfl
theorem OpcodeMap.getMeasurements : ∀ fn index, OpcodeMap.Statement (.getMeasurements fn index) := fun _ _ => opcodeMap_event rfl
theorem OpcodeMap.keyExchange : ∀ fn share, OpcodeMap.Statement (.keyExchange fn share) := fun _ _ => opcodeMap_event rfl
theorem OpcodeMap.finish : ∀ fn mac, OpcodeMap.Statement (.finish fn mac) := fun _ _ => opcodeMap_event rfl
theorem OpcodeMap.endSession : ∀ fn, OpcodeMap.Statement (.endSession fn) := fun _ => opcodeMap_event rfl
theorem OpcodeMap.streamConfig : ∀ fn ctx num key salt, OpcodeMap.Statement (.streamConfig fn ctx num key salt) := fun _ _ _ _ _ => opcodeMap_event rfl
theorem OpcodeMap.dumpKeySet : ∀ fn key, OpcodeMap.Statement (.dumpKeySet fn key) := fun _ _ => opcodeMap_event rfl
theorem OpcodeMap.unassignedOpcode : ∀ why word, OpcodeMap.Statement (.unassignedOpcode why word) := fun _ _ => opcodeMap_event rfl
theorem OpcodeMap.exchangeAtParent : ∀ k, OpcodeMap.Statement (.exchangeAtParent k) := fun _ => opcodeMap_event rfl
theorem OpcodeMap.creditGrant : ∀ k, OpcodeMap.Statement (.creditGrant k) := fun _ => opcodeMap_event rfl
theorem OpcodeMap.chunkAcknowledged : ∀ k, OpcodeMap.Statement (.chunkAcknowledged k) := fun _ => opcodeMap_event rfl
theorem OpcodeMap.tdispRequest : ∀ fn req, OpcodeMap.Statement (.tdispRequest fn req) := fun _ _ => opcodeMap_event rfl
theorem OpcodeMap.podConfigure : ∀ index, OpcodeMap.Statement (.podConfigure index) := fun _ => opcodeMap_event rfl

end Sys2Proof.Laws
end

