-- ==== Sys2Proof/Laws/Write.lean ====
section
/-! SUPPORT. What the writes of destinations do: a result for each acting lane, a truth value for each acting lane, a uniform value. -/

namespace Sys2Proof.Machine

theorem Group.setVpair_vreg (g : Group) (r l x i k : Nat) :
    (g.setVpair r l x).vreg i k =
      if 32 * i + k = 32 * (r + 1) + l then BitVec.ofNat 32 (x / 2 ^ 32)
      else if 32 * i + k = 32 * r + l then BitVec.ofNat 32 x else g.vreg i k := by
  unfold Group.setVpair
  rw [Group.setV_vreg, Group.setV_vreg]

theorem Group.orFlags_vreg (g : Group) (l : Nat) (f : Word) (i k : Nat) : (g.orFlags l f).vreg i k = g.vreg i k := by
  obtain ⟨ls, h⟩ := g.orFlags_rest l f; rw [h]; rfl

theorem Group.orFlags_sreg (g : Group) (l : Nat) (f : Word) (i : Nat) : (g.orFlags l f).sreg i = g.sreg i := by
  obtain ⟨ls, h⟩ := g.orFlags_rest l f; rw [h]; rfl

/-- Flags for lanes change nothing of a group but its lanes. -/
theorem Group.foldl_orFlags_rest (f : Nat → Word) (ls : List Nat) :
    ∀ g : Group, ∃ la, ls.foldl (fun g l => g.orFlags l (f l)) g = { g with lanes := la } := by
  induction ls with
  | nil => intro g; exact ⟨g.lanes, rfl⟩
  | cons a ls ih =>
    intro g
    obtain ⟨la, h⟩ := g.orFlags_rest a (f a)
    obtain ⟨lb, k⟩ := ih (g.orFlags a (f a))
    exact ⟨lb, by rw [List.foldl_cons, k, h]⟩

theorem Group.orFlagsIn_rest (g : Group) (m : Mask) (f : Word) : ∃ la, g.orFlagsIn m f = { g with lanes := la } :=
  Group.foldl_orFlags_rest (fun _ => f) _ g

/-- One lane's result changes nothing of a group but v registers. -/
theorem putLane_rest (ty : Ty) (d : Opnd) (l x : Nat) (g : Group) : ∃ v, putLane ty d l x g = { g with v := v } := by
  unfold putLane
  split
  · split
    · exact ⟨_, rfl⟩
    · exact ⟨_, rfl⟩
  · exact ⟨g.v, rfl⟩

/-- The fold of writeEach. -/
theorem foldl_put_rest (ty : Ty) (d : Opnd) (r : Nat → Nat × Word) (ls : List Nat) :
    ∀ g : Group, ∃ v la, ls.foldl (fun g l => (putLane ty d l (r l).1 g).orFlags l (r l).2) g = { g with v := v, lanes := la } := by
  induction ls with
  | nil => intro g; exact ⟨g.v, g.lanes, rfl⟩
  | cons a ls ih =>
    intro g
    obtain ⟨v, h⟩ := putLane_rest ty d a (r a).1 g
    obtain ⟨la, k⟩ := (putLane ty d a (r a).1 g).orFlags_rest a (r a).2
    obtain ⟨w, lb, j⟩ := ih ((putLane ty d a (r a).1 g).orFlags a (r a).2)
    exact ⟨w, lb, by rw [List.foldl_cons, j, k, h]⟩

theorem foldl_put_lane (ty : Ty) (d : Opnd) (r : Nat → Nat × Word) (ls : List Nat) :
    ∀ (g : Group) (i : Nat), ls.Nodup →
      (ls.foldl (fun g l => (putLane ty d l (r l).1 g).orFlags l (r l).2) g).lane i =
        if i ∈ ls then { g.lane i with flags := (g.lane i).flags ||| (r i).2 } else g.lane i := by
  induction ls with
  | nil => intro g i _; simp
  | cons a ls ih =>
    intro g i hn
    obtain ⟨ha, hn⟩ := List.nodup_cons.mp hn
    obtain ⟨v, h⟩ := putLane_rest ty d a (r a).1 g
    have hl : ∀ k, (putLane ty d a (r a).1 g).lane k = g.lane k := by intro k; rw [h]; rfl
    rw [List.foldl_cons, ih _ _ hn, Group.orFlags_lane]
    by_cases hi : i = a
    · subst hi; simp [ha, hl]
    · simp [hi, hl]

/-- A v register outside the lanes and the registers written reads as before. -/
theorem foldl_put_vreg_other (ty : Ty) (d : Opnd) (r : Nat → Nat × Word) (q k : Nat) (hk : k < 32) (ls : List Nat) :
    ∀ g : Group, (∀ l ∈ ls, l < 32) → ¬ (k ∈ ls ∧ inV d (if ty.width = 64 then 2 else 1) q) →
      (ls.foldl (fun g l => (putLane ty d l (r l).1 g).orFlags l (r l).2) g).vreg q k = g.vreg q k := by
  induction ls with
  | nil => intro g _ _; rfl
  | cons a ls ih =>
    intro g hb hn
    have ha : a < 32 := hb a (by simp)
    rw [List.foldl_cons, ih _ (fun l hl => hb l (by simp [hl])) (fun h => hn ⟨by simp [h.1], h.2⟩), Group.orFlags_vreg]
    unfold putLane
    split
    · next n =>
      have hq : ¬ (k = a ∧ n.toNat ≤ q ∧ q < n.toNat + (if ty.width = 64 then 2 else 1)) := by
        intro h; apply hn; exact ⟨by simp [h.1], h.2⟩
      split
      · next h64 =>
        rw [if_pos h64] at hq
        rw [Group.setVpair_vreg, if_neg (by omega), if_neg (by omega)]
      · next h64 =>
        rw [if_neg h64] at hq
        rw [Group.setV_vreg, if_neg (by omega)]
    · rfl

/-- The lane's own result after the whole fold. -/
theorem foldl_put_vreg (ty : Ty) (n : BitVec 7) (r : Nat → Nat × Word) (l : Nat) (ls : List Nat) :
    ∀ g : Group, ls.Nodup → (∀ l ∈ ls, l < 32) → l ∈ ls →
      let h := ls.foldl (fun g l => (putLane ty (.v n) l (r l).1 g).orFlags l (r l).2) g
      if ty.width = 64 then h.vpair n.toNat l = (r l).1 % 2 ^ 64 else (h.vreg n.toNat l).toNat = (r l).1 % 2 ^ 32 := by
  induction ls with
  | nil => intro g _ _ h; exact absurd h (by simp)
  | cons a ls ih =>
    intro g hn hb hl
    obtain ⟨ha, hn⟩ := List.nodup_cons.mp hn
    have hb' : ∀ l ∈ ls, l < 32 := fun l hl => hb l (by simp [hl])
    by_cases he : l = a
    · subst he
      have hlt : l < 32 := hb l (by simp)
      have o : ∀ q, (ls.foldl (fun g l => (putLane ty (.v n) l (r l).1 g).orFlags l (r l).2)
          ((putLane ty (.v n) l (r l).1 g).orFlags l (r l).2)).vreg q l = (putLane ty (.v n) l (r l).1 g).vreg q l := by
        intro q
        rw [foldl_put_vreg_other ty _ r q l hlt ls _ hb' (fun h => ha h.1), Group.orFlags_vreg]
      simp only [List.foldl_cons]
      unfold Group.vpair
      rw [o, o]
      unfold putLane
      split
      · next h64 =>
        rw [Group.setVpair_vreg, Group.setVpair_vreg, if_neg (by omega), if_pos rfl, if_pos rfl]
        simp only [BitVec.toNat_ofNat]
        omega
      · rw [Group.setV_vreg, if_pos rfl]
        simp only [BitVec.toNat_ofNat]
    · have hm : l ∈ ls := by simpa [he] using hl
      exact ih _ hn hb' hm

theorem maskLanes_lt (m : Mask) : ∀ l ∈ maskLanes m, l < 32 := by
  intro l h
  unfold maskLanes lanes at h
  exact List.mem_range.mp (List.mem_filter.mp h).1

/-- The registers, lanes and control part of the marked group. -/
theorem View.marked_rest (x : View) : ∃ v s, x.marked = { x.g with v := v, s := s } := markAll_rest _ _ _ _

/-- The two replacements of a marked group: its lanes and v registers, or its lanes and s registers. -/
theorem passes_regs (i : Instr) (f : Form) (s u : State) (ha : Apart s.cur.grp s u)
    (hg : ∃ la v ss m j rc, u.group s.cur.grp = { (s.group s.cur.grp) with lanes := la, v := v, s := ss, m := m, j := j, rcnt := rc })
    (hl : ∀ l, ∃ fl, (u.group s.cur.grp).lane l = { (s.group s.cur.grp).lane l with flags := fl }) :
    Passes (viewOf i f s) (finish (viewOf i f s) (.done u)) := by
  obtain ⟨la, v, ss, m, j, rc, hg⟩ := hg
  exact passes_done i f s u ha (by rw [hg]; rfl) (by rw [hg]) hl

/-- The registers after an instruction that ends in a state `u`. -/
theorem finish_done_regs (i : Instr) (f : Form) (s u : State) :
    let g := u.group s.cur.grp
    let t := finish (viewOf i f s) (.done u)
    (∀ r l, (t.group s.cur.grp).vreg r l = g.vreg r l) ∧ (∀ r, (t.group s.cur.grp).sreg r = g.sreg r) ∧
    (∀ r, mapGet 0 (t.group s.cur.grp).m r = mapGet 0 g.m r) ∧ (∀ r, (t.group s.cur.grp).jreg r = g.jreg r) ∧
    (∀ l, ((t.group s.cur.grp).lane l).flags = (g.lane l).flags) ∧ (t.group s.cur.grp).rcnt = g.rcnt ∧
    (∀ l, ((t.group s.cur.grp).lane l).cond = (g.lane l).cond) := by
  intro g t
  have hg : t.group s.cur.grp = { g.updLanes s.cur.path (fun y => { y with pc := (viewOf i f s).next }) with
        run := g.run + 1, why := .none, stall := none } := finish_done_group i f s u
  obtain ⟨ls, hu⟩ := Group.updLanes_rest g s.cur.path (fun y => { y with pc := (viewOf i f s).next })
  have hlane : ∀ l, (t.group s.cur.grp).lane l =
      (g.updLanes s.cur.path (fun y => { y with pc := (viewOf i f s).next })).lane l := by intro l; rw [hg]; rfl
  refine ⟨?_, ?_, ?_, ?_, ?_, ?_, ?_⟩
  · intro r l; rw [hg, hu]; rfl
  · intro r; rw [hg, hu]; rfl
  · intro r; rw [hg, hu]
  · intro r; rw [hg, hu]; rfl
  · intro l; rw [hlane, Group.updLanes_lane]; split <;> rfl
  · rw [hg, hu]
  · intro l; rw [hlane, Group.updLanes_lane]; split <;> rfl

/-- m0 reads the live lanes, which a change of flags leaves. -/
theorem mreg_of (g h : Group) (hm : ∀ r, mapGet 0 h.m r = mapGet 0 g.m r) (hc : ∀ l, (h.lane l).cond = (g.lane l).cond) (r : Nat) :
    h.mreg r = g.mreg r := by
  unfold Group.mreg Group.live
  simp only [hc, hm]

/-- A group is the marked one with the results written. -/
structure Written (x : View) (ty : Ty) (c : Nat) (r : Nat → Nat × Word) (g : Group) : Prop where
  rest : ∃ la v ss, g = { x.g with lanes := la, v := v, s := ss, rcnt := x.g.rcnt + c }
  lane : ∀ l, g.lane l = { x.g.lane l with flags := (x.g.lane l).flags |||
    (if maskBit x.act l then (r (if isS x.f.d then x.low else l)).2 else 0) }
  inV  : ∀ n, x.f.d = .v n → ∀ l, maskBit x.act l = true →
    if ty.width = 64 then g.vpair n.toNat l = (r l).1 % 2 ^ 64 else (g.vreg n.toNat l).toNat = (r l).1 % 2 ^ 32
  inS  : ∀ n, x.f.d = .s n → x.act ≠ 0 → g.sreg n.toNat = sExtend ty (r x.low).1
  v    : ∀ q l, l < 32 → ¬ (maskBit x.act l = true ∧ Machine.inV x.f.d (if ty.width = 64 then 2 else 1) q) →
    g.vreg q l = x.marked.vreg q l
  s    : ∀ q, ¬ (x.act ≠ 0 ∧ Machine.inS x.f.d 1 q) → g.sreg q = x.marked.sreg q

/-- The marked group with the results of writeEach. -/
def writtenGroup (x : View) (ty : Ty) (r : Nat → Nat × Word) : Group :=
  match x.f.d with
  | .s n => if x.act = 0 then x.marked else ((x.marked.setS n.toNat (sExtend ty (r x.low).1)).orFlagsIn x.act (r x.low).2)
  | d => (maskLanes x.act).foldl (fun g l => (putLane ty d l (r l).1 g).orFlags l (r l).2) x.marked

theorem written_fold (x : View) (ty : Ty) (c : Nat) (r : Nat → Nat × Word) (d : Opnd) (hd : ∀ n, d ≠ .s n) (hfd : x.f.d = d) :
    Written x ty c r { (maskLanes x.act).foldl (fun g l => (putLane ty d l (r l).1 g).orFlags l (r l).2) x.marked with
      rcnt := x.g.rcnt + c } := by
  obtain ⟨mv, ms, hmk⟩ := x.marked_rest
  obtain ⟨v, la, hf⟩ := foldl_put_rest ty d r (maskLanes x.act) x.marked
  have hml : ∀ l, x.marked.lane l = x.g.lane l := by intro l; rw [hmk]; rfl
  have hnd := maskLanes_nodup x.act
  have hlt := maskLanes_lt x.act
  have hS : isS d = false := by cases d <;> first | rfl | exact absurd rfl (hd _)
  refine ⟨⟨la, v, ms, by rw [hf, hmk]⟩, ?_, ?_, ?_, ?_, ?_⟩
  · intro l
    show ((maskLanes x.act).foldl (fun g l => (putLane ty d l (r l).1 g).orFlags l (r l).2) x.marked).lane l = _
    rw [foldl_put_lane ty d r _ x.marked l hnd, hfd, hS, hml]
    simp only [mem_maskLanes]
    split <;> simp
  · intro n hn l hl
    have hdn : d = .v n := hfd.symm.trans hn
    subst hdn
    exact foldl_put_vreg ty n r l (maskLanes x.act) x.marked hnd hlt ((mem_maskLanes _ _).mpr hl)
  · intro n hn _
    exact absurd (hfd.symm.trans hn) (hd n)
  · intro q l hl hn
    rw [hfd] at hn
    exact foldl_put_vreg_other ty d r q l hl (maskLanes x.act) x.marked hlt (by rw [mem_maskLanes]; exact hn)
  · intro q _
    rw [hf]; rfl

theorem written_group (x : View) (ty : Ty) (c : Nat) (r : Nat → Nat × Word) :
    Written x ty c r { writtenGroup x ty r with rcnt := x.g.rcnt + c } := by
  unfold writtenGroup
  cases hd : x.f.d with
  | s n =>
    simp only
    obtain ⟨mv, ms, hmk⟩ := x.marked_rest
    have hml : ∀ l, x.marked.lane l = x.g.lane l := by intro l; rw [hmk]; rfl
    have hS : isS (Opnd.s n) = true := rfl
    by_cases ha : x.act = 0
    · rw [if_pos ha]
      refine ⟨⟨x.g.lanes, mv, ms, by rw [hmk]⟩, ?_, ?_, ?_, ?_, ?_⟩
      · intro l
        have h0 : maskBit x.act l = false := by rw [ha]; unfold maskBit; simp
        show x.marked.lane l = _
        rw [hml, h0]; simp
      · intro m hm; rw [hd] at hm; exact absurd hm (by simp)
      · intro m _ h; exact absurd ha h
      · intro q l _ _; rfl
      · intro q _; rfl
    · rw [if_neg ha]
      obtain ⟨la, hf⟩ := (x.marked.setS n.toNat (sExtend ty (r x.low).1)).orFlagsIn_rest x.act (r x.low).2
      refine ⟨⟨la, mv, mapSet 0 ms n.toNat (sExtend ty (r x.low).1), by rw [hf, hmk]; rfl⟩, ?_, ?_, ?_, ?_, ?_⟩
      · intro l
        show ((x.marked.setS n.toNat (sExtend ty (r x.low).1)).orFlagsIn x.act (r x.low).2).lane l = _
        have hsl : (x.marked.setS n.toNat (sExtend ty (r x.low).1)).lane l = x.g.lane l := by rw [← hml]; rfl
        rw [Group.orFlagsIn_lane, hsl, hd, hS]
        split <;> simp
      · intro m hm; rw [hd] at hm; exact absurd hm (by simp)
      · intro m hm _
        rw [hd] at hm
        cases hm
        rw [hf]
        show (x.marked.setS n.toNat _).sreg n.toNat = _
        rw [Group.setS_sreg, if_pos rfl]
      · intro q l _ _; rw [hf]; rfl
      · intro q hq
        have : q ≠ n.toNat := by
          intro h; apply hq; refine ⟨ha, ?_⟩; rw [hd]; simp only [Machine.inS]; omega
        rw [hf]
        show (x.marked.setS n.toNat _).sreg q = _
        rw [Group.setS_sreg, if_neg this]
  | _ => exact written_fold x ty c r _ (by simp) hd

/-- RESULTS: an instruction that ends with its results written, and `c` more of the rounding counter. -/
theorem finish_result (i : Instr) (f : Form) (s u : State) (ty : Ty) (c : Nat) (r : Nat → Nat × Word)
    (ha : Apart s.cur.grp s u) (h : Written (viewOf i f s) ty c r (u.group s.cur.grp)) :
    Result (viewOf i f s) (finish (viewOf i f s) (.done u)) ty c r := by
  obtain ⟨ev, es, em, ej, ef, er, ec⟩ := finish_done_regs i f s u
  obtain ⟨⟨la, v, ss, hg'⟩, kl, kv, ks, kov, kos⟩ := h
  have hcond : ∀ l, ((u.group s.cur.grp).lane l).cond = ((viewOf i f s).g.lane l).cond := by intro l; rw [kl]
  refine ⟨passes_regs i f s u ha ⟨la, v, ss, _, _, _, hg'⟩ (fun l => ⟨_, kl l⟩), ?_, ?_, ⟨?_, ?_, ?_, ?_⟩, ?_, ?_⟩
  · intro n hn l hl
    have := kv n hn l hl
    unfold Group.vpair at this ⊢
    rw [viewOf_gk, ev, ev]
    exact this
  · intro n hn ha
    rw [viewOf_gk, es]
    exact ks n hn ha
  · intro q l hl hn
    rw [viewOf_gk, ev]
    exact kov q l hl hn
  · intro q hq
    rw [viewOf_gk, es]
    exact kos q hq
  · intro q _
    rw [viewOf_gk]
    refine mreg_of _ _ ?_ ?_ q
    · intro r; rw [em, hg']
    · intro l; rw [ec, hcond]
  · intro q _
    rw [viewOf_gk, ej, hg']; rfl
  · intro l
    rw [viewOf_gk, ef, kl]
  · rw [viewOf_gk, er, hg']

/-- The effects' state is the marked group put in its place. -/
theorem viewOf_s_put (i : Instr) (f : Form) (s : State) : (viewOf i f s).s = (viewOf i f s).put (viewOf i f s).marked := by
  unfold View.put
  rw [viewOf_s, viewOf_gk]
  unfold State.setGroup
  simp only [mapSet_idem]

theorem writeEach_put (i : Instr) (f : Form) (s : State) (ty : Ty) (r : Nat → Nat × Word) :
    writeEach (viewOf i f s) ty r = (viewOf i f s).put (writtenGroup (viewOf i f s) ty r) := by
  unfold writeEach writtenGroup
  rw [viewOf_g1, viewOf_f]
  rcases f.d with _ | n | _ | _ | _ | _ | _ | _
  case s =>
    simp only
    split
    · exact viewOf_s_put i f s
    · rfl
  all_goals rfl

/-- A group written in no lane is the marked one. -/
theorem writtenGroup_none (x : View) (ty : Ty) (r : Nat → Nat × Word) (h : x.act = 0) : writtenGroup x ty r = x.marked := by
  unfold writtenGroup
  have hl : maskLanes x.act = [] := by rw [h]; decide
  split
  · rw [if_pos h]
  · rw [hl]; rfl

/-- The rounding counter of a written group is that of the group before. -/
theorem writtenGroup_rcnt (x : View) (ty : Ty) (r : Nat → Nat × Word) : (writtenGroup x ty r).rcnt = x.g.rcnt := by
  unfold writtenGroup
  obtain ⟨mv, ms, hmk⟩ := x.marked_rest
  split
  · split
    · rw [hmk]
    · next n _ _ =>
      obtain ⟨la, hf⟩ := (x.marked.setS n.toNat (sExtend ty (r x.low).1)).orFlagsIn_rest x.act (r x.low).2
      rw [hf, hmk]; rfl
  · obtain ⟨v, la, hf⟩ := foldl_put_rest ty x.f.d r (maskLanes x.act) x.marked
    rw [hf, hmk]

/-- What an instruction that writes results does: with `c` more of the rounding counter. -/
theorem result_of_written (i : Instr) (f : Form) (s u : State) (ty : Ty) (c : Nat) (r : Nat → Nat × Word)
    (ha : Apart s.cur.grp s u)
    (hu : u.group s.cur.grp = { writtenGroup (viewOf i f s) ty r with rcnt := (viewOf i f s).g.rcnt + c }) :
    Result (viewOf i f s) (finish (viewOf i f s) (.done u)) ty c r := by
  apply finish_result i f s u ty c r ha
  rw [hu]
  exact written_group _ _ _ _

/-- An instruction whose effect is one result for each acting lane, and which does nothing when it acts in no lane. -/
theorem runActing_result {i : Instr} {f : Form} {s : State} (ty : Ty) (r : View → Nat → Nat × Word)
    (h : sharedTrap (viewOf i f s) = none) :
    ∃ t, runActing i f (fun x => .done (writeEach x ty (r x))) s = .next t ∧ Result (viewOf i f s) t ty 0 (r (viewOf i f s)) := by
  rw [runActing_clear _ h]
  refine ⟨_, rfl, ?_⟩
  have hu : ∀ g, g = writtenGroup (viewOf i f s) ty (r (viewOf i f s)) → ((viewOf i f s).put g).group s.cur.grp =
      { writtenGroup (viewOf i f s) ty (r (viewOf i f s)) with rcnt := (viewOf i f s).g.rcnt + 0 } := by
    intro g hg
    rw [put_group, hg, Nat.add_zero, ← writtenGroup_rcnt (viewOf i f s) ty (r (viewOf i f s))]
  split
  · next h0 =>
    rw [viewOf_s_put]
    exact result_of_written i f s _ ty 0 _ (put_apart i f s _) (hu _ (writtenGroup_none _ _ _ h0).symm)
  · rw [writeEach_put]
    exact result_of_written i f s _ ty 0 _ (put_apart i f s _) (hu _ rfl)

/-- The same where the rounding counter advances under rsr (R61). -/
theorem runActing_rounded {i : Instr} {f : Form} {s : State} (ty : Ty) (mode : Mode) (r : View → Nat → Nat × Word)
    (h : sharedTrap (viewOf i f s) = none) :
    ∃ t, runActing i f (fun x => .done (bumpRcnt x mode (writeEach x ty (r x)))) s = .next t ∧
      Result (viewOf i f s) t ty (if mode = .rsr ∧ (viewOf i f s).act ≠ 0 then 1 else 0) (r (viewOf i f s)) := by
  rw [runActing_clear _ h]
  refine ⟨_, rfl, ?_⟩
  split
  · next h0 =>
    rw [viewOf_s_put, if_neg (by simp [h0])]
    refine result_of_written i f s _ ty 0 _ (put_apart i f s _) ?_
    rw [put_group, Nat.add_zero, ← writtenGroup_rcnt (viewOf i f s) ty (r (viewOf i f s)), writtenGroup_none _ _ _ h0]
  · next h0 =>
    rw [writeEach_put]
    unfold bumpRcnt
    by_cases hm : mode = .rsr
    · have hc : (decide (mode = .rsr) && (viewOf i f s).act != 0) = true := by
        rw [Bool.and_eq_true]; exact ⟨by simp [hm], by rw [bne_iff_ne]; exact h0⟩
      rw [if_pos hc, if_pos ⟨hm, h0⟩]
      refine result_of_written i f s _ ty 1 _ ((put_apart i f s _).trans (apart_setGroup _ _ _)) ?_
      unfold State.updGroup
      rw [viewOf_gk, State.setGroup_at_group_self, put_group]
      simp only [writtenGroup_rcnt]
    · have hc : ¬ (decide (mode = .rsr) && (viewOf i f s).act != 0) = true := by simp [hm]
      rw [if_neg hc, if_neg (by simp [hm])]
      refine result_of_written i f s _ ty 0 _ (put_apart i f s _) ?_
      rw [put_group, Nat.add_zero, ← writtenGroup_rcnt (viewOf i f s) ty (r (viewOf i f s))]

end Sys2Proof.Machine
end

