-- ==== Sys2Proof/Laws/Sends.lean ====
section
/-! SUPPORT. What an instruction leaves behind when its effect is a new group, with or without more of the module: the lemmas from which a statement in terms of Leaves and Waits follows. -/

namespace Sys2Proof.Machine

/-- An instruction that passes on. -/
theorem leaves_done (i : Instr) (f : Form) (s u w : State) (g : Group) (k : Nat → Lane → Lane)
    (hw : { u with groups := w.groups, cur := w.cur } = w) (ho : ∀ j, j ≠ s.cur.grp → u.group j = w.group j)
    (hg : { u.group s.cur.grp with lanes := g.lanes, v := g.v, s := g.s, run := g.run, why := g.why, stall := g.stall } = g)
    (hr : (u.group s.cur.grp).run = (s.group s.cur.grp).run)
    (hl : ∀ l, (u.group s.cur.grp).lane l = k l ((s.group s.cur.grp).lane l)) :
    Leaves (viewOf i f s) (finish (viewOf i f s) (.done u)) w g (fun l y => (viewOf i f s).on l (k l y)) := by
  have hf := finish_done_group i f s u
  have ha := finish_done_apart' i f s u
  obtain ⟨ls, hu⟩ := Group.updLanes_rest (u.group s.cur.grp) s.cur.path (fun y => { y with pc := (viewOf i f s).next })
  refine ⟨?_, ?_, ?_, ?_, ?_⟩
  · exact (congrArg (fun z : State => { z with groups := w.groups, cur := w.cur }) ha.rest).trans hw
  · intro j hj
    rw [viewOf_gk] at hj
    rw [ha.others j hj, ho j hj]
  · rw [viewOf_gk, hf, hu]; exact hg
  · intro l
    have hlane : ((finish (viewOf i f s) (.done u)).group s.cur.grp).lane l =
        ((u.group s.cur.grp).updLanes s.cur.path (fun y => { y with pc := (viewOf i f s).next })).lane l := by rw [hf]; rfl
    rw [viewOf_gk, hlane, Group.updLanes_lane, hl]
    rfl
  · rw [viewOf_gk, hf]; simp only [hr, viewOf_g]

/-- The registers after an instruction that ends in `u` are those of `u`. -/
theorem keeps_done (i : Instr) (f : Form) (s u : State) (dv : Nat → Nat → Prop) (ds dm dj : Nat → Prop)
    (hv : ∀ r l, l < 32 → ¬ dv r l → (u.group s.cur.grp).vreg r l = (viewOf i f s).marked.vreg r l)
    (hs : ∀ r, ¬ ds r → (u.group s.cur.grp).sreg r = (viewOf i f s).marked.sreg r)
    (hm : ∀ r, ¬ dm r → (u.group s.cur.grp).mreg r = (s.group s.cur.grp).mreg r)
    (hj : ∀ r, ¬ dj r → (u.group s.cur.grp).jreg r = (s.group s.cur.grp).jreg r) :
    Keeps dv ds dm dj (viewOf i f s) (finish (viewOf i f s) (.done u)) := by
  obtain ⟨ev, es, em, ej, _, _, ec⟩ := finish_done_regs i f s u
  refine ⟨?_, ?_, ?_, ?_⟩
  · intro r l hl hn; rw [viewOf_gk, ev]; exact hv r l hl hn
  · intro r hn; rw [viewOf_gk, es]; exact hs r hn
  · intro r hn; rw [viewOf_gk, mreg_of _ _ em ec r]; exact hm r hn
  · intro r hn; rw [viewOf_gk, ej]; exact hj r hn

/-- An instruction whose effect is a new group, and nothing else of the module. -/
theorem leaves_put (i : Instr) (f : Form) (s : State) (g' g : Group) (k : Nat → Lane → Lane) (dv : Nat → Nat → Prop)
    (ds dm dj : Nat → Prop)
    (hg : { g' with lanes := g.lanes, v := g.v, s := g.s, run := g.run, why := g.why, stall := g.stall } = g)
    (hr : g'.run = (s.group s.cur.grp).run) (hl : ∀ l, g'.lane l = k l ((s.group s.cur.grp).lane l))
    (hv : ∀ r l, l < 32 → ¬ dv r l → g'.vreg r l = (viewOf i f s).marked.vreg r l)
    (hs : ∀ r, ¬ ds r → g'.sreg r = (viewOf i f s).marked.sreg r)
    (hm : ∀ r, ¬ dm r → g'.mreg r = (s.group s.cur.grp).mreg r)
    (hj : ∀ r, ¬ dj r → g'.jreg r = (s.group s.cur.grp).jreg r) :
    Leaves (viewOf i f s) (finish (viewOf i f s) (.done ((viewOf i f s).put g'))) s g
      (fun l y => (viewOf i f s).on l (k l y)) ∧
    Keeps dv ds dm dj (viewOf i f s) (finish (viewOf i f s) (.done ((viewOf i f s).put g'))) := by
  have ha := put_apart i f s g'
  have hp := put_group i f s g'
  refine ⟨leaves_done i f s _ s g k ha.rest ha.others ?_ ?_ ?_, keeps_done i f s _ dv ds dm dj ?_ ?_ ?_ ?_⟩ <;> rw [hp] <;> assumption

/-- The lanes of a marked group are those of the group. -/
@[simp] theorem marked_lane (x : View) (l : Nat) : x.marked.lane l = x.g.lane l := by
  obtain ⟨v, s, h⟩ := x.marked_rest
  rw [h]; rfl

theorem mreg_congr (g h : Group) (hm : h.m = g.m) (hc : ∀ l, (h.lane l).cond = (g.lane l).cond) (r : Nat) : h.mreg r = g.mreg r :=
  mreg_of _ _ (fun _ => by rw [hm]) hc r

-- DEMOTION
theorem Group.demoteTo_lane (g : Group) (n : Nat) (m : Mask) (l : Nat) :
    (g.demoteTo n m).lane l = if maskBit (g.segmentsOf m) l then { g.lane l with standing := n } else g.lane l :=
  Group.updLanes_lane _ _ _ _

theorem Group.demoteTo_rest (g : Group) (n : Nat) (m : Mask) : ∃ la, g.demoteTo n m = { g with lanes := la } :=
  Group.updLanes_rest _ _ _

end Sys2Proof.Machine
end

