-- ==== Sys2Proof/Tests/Slice0.lean ====
section
/-! SUPPORT. Tests: words of the spec decoded and run, ill-formed terms refused, and for every statement that has hypotheses a state and operands that meet them. -/

namespace Sys2Proof.Tests

open Sys2Proof Sys2Proof.Machine Sys2Proof.Claims

-- THE STATES OF THE TESTS
/-- The key of the placed group, of its team, and the module about to run a placed word. -/
def tk0 : Nat := teamKey 1 0
def g0 : Nat := groupKey tk0 0

/-- The placed group about to issue on all its lanes, after `h`. -/
def stage (h : Group → Group) : State :=
  ((State.reset.withFetchWord 64 0).updGroup g0 h).focus g0 (BitVec.allOnes 32) 0x10000 0 Group.none

/-- The group after one step that runs a word. -/
def ran (nbits w : Nat) (h : Group → Group) : Group :=
  match step ((State.reset.withFetchWord nbits w).updGroup g0 h) with
  | .next t => t.group g0
  | _ => Group.none

/-- An instruction is legal and passes the shared checks. -/
abbrev Runs (i : Instr) (f : Form) (s : State) : Prop := i.wellFormed = true ∧ Clear i f s

def sr (o : Opnd) : Src := { unused with op := o }
def bin (t : Ty) : Form := { blank with d := .v 8, a := sr (.v 4), b := sr (.v 6), ty := t }
def un (t : Ty) : Form := { blank with d := .v 8, a := sr (.v 4), ty := t }
def ter (t : Ty) : Form := { bin t with len := .l96, c := sr (.v 2) }
def nil : Form := blank
def plain : State := stage id

-- WITNESSES: COMPUTE
theorem witness_IntegerInstructionsOnNumbers : ∀ p ∈ intRows, ∃ f ∈ [un .i32, bin .i32, ter .i32], Runs (p.1 f) f plain := by decide
theorem witness_ByteInstructionsWriteTheirResult : ∀ p ∈ byteRows, Runs (p.1 (ter .n32)) (ter .n32) plain := by decide
def fSel : Form := { bin .i32 with len := .l96, c := sr (.m 1) }
theorem witness_SelectAddressExtendAndNop : Runs (.sel fSel) fSel plain ∧ Runs (.lea (bin .n64)) (bin .n64) plain ∧
    Runs (.sext (un .i32)) (un .i32) plain ∧ Runs (.zext (un .n32)) (un .n32) plain ∧ Runs (.nop nil) nil plain := by decide
theorem witness_FloatingInstructionsOfF32 : (∀ p ∈ fpRows, ∃ f ∈ [un .f32, bin .f32, ter .f32], Runs (p.1 f) f plain) ∧
    ∀ p ∈ integralRows, Runs (p.1 (un .f32)) (un .f32) plain := by decide
def fClass : Form := { bin .f32 with d := .m 1 }
theorem witness_LdexpAndClass : Runs (.ldexp (bin .f32)) (bin .f32) plain ∧ Runs (.classF fClass) fClass plain := by decide
theorem witness_PackedInstructionsOnElements : ∀ p ∈ packRows, ∃ f ∈ [bin .bf16, ter .bf16], Runs (p.1 f) f plain := by decide
theorem witness_PackedDotProduct : Runs (.pdot (ter .e4m3)) (ter .e4m3) plain ∧ Runs (.pdot (bin .i8)) (bin .i8) plain := by decide
def fCmp : Form := { bin .i32 with d := .m 1, fn := 2 }
theorem witness_CompareWritesAMask : Runs (.cmp fCmp) fCmp plain ∧ Runs (.cmp { fCmp with ty := .f32 }) { fCmp with ty := .f32 } plain := by decide
def fMask : Form := { blank with d := .m 1, a := sr (.m 2), b := sr (.m 3) }
def fMask1 : Form := { blank with d := .m 1, a := sr (.m 2) }
def fMaskS : Form := { blank with d := .s 1, a := sr (.m 2) }
theorem witness_MaskInstructions : (∀ p ∈ maskRows, ∃ f ∈ [fMask, fMask1], Runs (p.1 f) f plain) ∧ Runs (.mpopc fMaskS) fMaskS plain ∧
    Runs (.mffs fMaskS) fMaskS plain ∧ Runs (.vote fMaskS) fMaskS plain ∧ Runs (.vote { fMask1 with fn := 2 }) { fMask1 with fn := 2 } plain ∧
    Runs (.vote { fMaskS with fn := 1, b := sr .imm, x6 := 1 }) { fMaskS with fn := 1, b := sr .imm, x6 := 1 } plain := by decide
def fBcast : Form := { blank with d := .v 8, a := sr (.v 4), b := sr .imm, x6 := 31, ty := .n32 }
theorem witness_ShuffleAndBroadcast : Runs (.shfl (bin .n32)) (bin .n32) plain ∧ Runs (.bcast fBcast) fBcast plain := by decide
theorem witness_ReductionsByTheFixedTree : Runs (.lred (un .f32)) (un .f32) plain ∧ Runs (.lscan { un .n32 with fn := 8, x6 := 0x28 })
    { un .n32 with fn := 8, x6 := 0x28 } plain := by decide
def fStat : Form := { blank with d := .v 8, a := sr (.v 4), b := sr (.v 12), ty := .f32 }
theorem witness_StatisticsInstructions : Runs (.supd fStat) fStat plain ∧ Runs (.smrg fStat) fStat plain ∧ Runs (.sred (un .f32)) (un .f32) plain ∧
    Runs (.sfin fStat) fStat plain := by decide
def fCvt : Form := { blank with fn := 4, d := .v 12, a := sr (.v 8), ty := .e4m3 }
theorem witness_ConversionOfEachElement : Runs (.cvt fCvt) fCvt plain ∧ Runs (.cvt { fCvt with d := .s 1, a := sr (.s 2), ty := .i64 })
    { fCvt with d := .s 1, a := sr (.s 2), ty := .i64 } plain := by decide
theorem witness_MicroscalingInstructions : Runs (.mxq (un .e4m3)) (un .e4m3) plain ∧ Runs (.mxdq (un .e4m3)) (un .e4m3) plain := by decide
def fRnd : Form := { blank with d := .v 8, a := sr (.s 2), b := sr (.v 4), ty := .n64 }
theorem witness_RandomNumbers : Runs (.rnd fRnd) fRnd plain ∧ Runs (.rnd { fRnd with fn := 1, ty := .f32 }) { fRnd with fn := 1, ty := .f32 } plain ∧
    Runs (.rnd { fRnd with len := .l96, fn := 2, d := .m 1, ty := .n32, c := sr .imm, ext := 0x40000 })
      { fRnd with len := .l96, fn := 2, d := .m 1, ty := .n32, c := sr .imm, ext := 0x40000 } plain := by decide
def fSfq : Form := { blank with fn := 1, d := .v 2, a := sr (.v 3), b := sr (.s 4), ty := .f32 }
theorem witness_SpecialFunctionRequest :
    let x := viewOf (.sfq fSfq) fSfq plain
    Runs (.sfq fSfq) fSfq plain ∧ awaits (2 ^ (x.g.sfcnt % 16)) x.g = false ∧
      plain.queueUse x.gk + (x.g.tokens.filter (·.num != x.g.sfcnt % 16)).length < 16 ∧ x.act ≠ 0 := by decide
def fSfw : Form := { blank with fn := 2 }
theorem witness_SpecialFunctionWait : ∃ f ∈ [fSfw, { fSfw with a := sr .imm }, { fSfw with a := sr .imm, ty := .n32 }],
    Runs (.sfw f) f plain ∧ awaits (2 ^ 16 - 1) (plain.group g0) = false := by decide
def tok0 : Token := { num := 3, lanes := 5, dst := .v 2, fn := 1, args := [(0, 0x3F800000), (2, 0x40000000)], arrived := true }
theorem witness_TokenRetires : ∀ l, 32 ≤ l → maskBit tok0.lanes l = false := by intro l h; exact BitVec.getLsbD_of_ge _ _ h

-- WITNESSES: CONTROL AND LIMBS
def fBr : Form := { blank with len := .l96, ext := 0xFFFFC }
def fBrx : Form := { blank with a := sr (.s 4), ty := .n64 }
/-- The bound group, segments of two lanes. -/
def bound : State := stage fun g => { g with binding := 2 }
theorem witness_Branches : Runs (.br fBr) fBr plain ∧ Runs (.brx fBrx) fBrx bound ∧
    ∀ l, l < 32 → ∀ k, k < 32 → regTo (viewOf (.brx fBrx) fBrx bound) k = regTo (viewOf (.brx fBrx) fBrx bound) l := by decide
/-- Lane 0 a number of calls deep. -/
def deep (n : Nat) : State := stage fun g => g.updLanes 1 fun y => { y with stack := List.replicate n 0x10008 }
def deep1 (n : Nat) : State := stage fun g => (g.setM 1 1).updLanes 1 fun y => { y with stack := List.replicate n 0x10008 }
def nil1 : Form := { nil with g := 1 }
theorem witness_CallsAndReturns : Runs (.call fBr) fBr (deep 31) ∧ Runs (.callx fBrx) fBrx (deep 31) ∧ Runs (.ret nil1) nil1 (deep1 1) ∧
    (((deep 31).group g0).lane 0).stack.length = 31 ∧ (viewOf (.ret nil1) nil1 (deep1 1)).act = 1 ∧ (((deep1 1).group g0).lane 0).stack ≠ [] := by decide
theorem witness_ExitEndsLanes : Runs (.exit nil) nil plain := by decide
def fSleep : Form := { blank with a := sr .imm, ty := .n32, x6 := 40 }
theorem witness_SleepingLanes : Runs (.sleep fSleep) fSleep plain ∧ Runs (.sleep { fSleep with x6 := 0 }) { fSleep with x6 := 0 } plain := by decide
theorem witness_YieldEndsTheRun : Runs (.yield nil) nil plain ∧ Runs (.yield { nil with g := 1 }) { nil with g := 1 } plain ∧
    (viewOf (.yield { nil with g := 1 }) { nil with g := 1 } plain).act = 0 := by decide
def fJset : Form := { blank with d := .j 1, a := sr (.m 0) }
def fJoin : Form := { blank with a := sr (.j 1) }
theorem witness_RejoinMasks : Runs (.jset fJset) fJset plain ∧ Runs (.join fJoin) fJoin plain := by decide
def fBind : Form := { blank with a := sr .imm, x6 := 8 }
theorem witness_Binding : Runs (.bind fBind) fBind plain ∧ (plain.group g0).live = BitVec.allOnes 32 ∧ plain.cur.path = BitVec.allOnes 32 ∧
    (viewOf (.bind fBind) fBind plain).act = BitVec.allOnes 32 ∧ fBind.x6.toNat ∈ [2, 4, 8, 16, 32] ∧
    Runs (.unbind nil) nil bound ∧ (viewOf (.unbind nil) nil bound).act = (bound.group g0).live := by decide
def fLimb : Form := { blank with fn := 1, d := .v 3, a := sr (.v 1), b := sr (.v 2), ty := .n32 }
def fLimb1 : Form := { fLimb with b := unused }
def fLmac : Form := { fLimb with len := .l96, c := sr (.v 5) }
theorem witness_LimbInstructions : (∀ p ∈ limbRows, ∃ f ∈ [fLimb, fLimb1, fLmac], Runs (p.1 f) f bound) ∧ Runs (.lshr fLimb) fLimb bound ∧
    Runs (.lmov { fLimb1 with fn := 0 }) { fLimb1 with fn := 0 } bound ∧ Runs (.lcmp { fLimb with d := .m 1 }) { fLimb with d := .m 1 } bound ∧
    ∀ b ∈ (viewOf (.ladd { fLimb with fn := 9 }) { fLimb with fn := 9 } bound).segs, leaves (viewOf (.ladd { fLimb with fn := 9 }) { fLimb with fn := 9 } bound)
      (limbVal (viewOf (.ladd { fLimb with fn := 9 }) { fLimb with fn := 9 } bound) fLimb.a b) = false := by decide

-- WITNESSES: MEMORY
theorem witness_NoActingLaneNoEffect : ∀ p ∈ [Instr.addInt, .br, .ld, .flag], let f := { bin .i32 with g := 1 }
    Clear (p f) f plain ∧ (viewOf (p f) f plain).act = 0 := by decide
/-- A descriptor: space, width code and offset (R27). -/
def at_ (sp w off : Nat) : DWord := BitVec.ofNat 64 (sp * 2 ^ 62 + w * 2 ^ 59 + off)
def fMem (d : Opnd) (off : Nat) : Form := { blank with len := .l128, d := d, a := sr .zero, b := sr .zero, ty := .n32, ext := at_ 0 2 off }
theorem witness_AccessChecksInTheirOrder :
    let g := plain.group g0
    let acc : Acc := { space := 0, bits := 32, sw := 0, write := false, atomic := false, stamped := false, kind := 1 }
    (∃ ls, accessAll plain g acc [(0, 4092)] = .locs ls) ∧ accessAll plain g acc [(0, 4), (3, 4096), (5, 2)] = .trap trapMisalign 2 5 := ⟨⟨_, rfl⟩, rfl⟩
/-- A load of the last word of the window through an s register, and through a v register in lane 0. -/
def fLd : Form := fMem (.s 1) 4092
theorem witness_LoadsAndGathers : Runs (.ld fLd) fLd plain ∧ ∃ ls, Finds (viewOf (.ld fLd) fLd plain) (accFor (viewOf (.ld fLd) fLd plain) 32 false false)
    (accesses (viewOf (.ld fLd) fLd plain)) 1 true ls := ⟨by decide, _, by decide, rfl, rfl, by decide, by decide, by decide⟩
def fGld : Form := { blank with len := .l128, d := .v 8, a := sr (.s 2), b := sr (.v 4), ty := .n32, ext := at_ 0 2 0 }
/-- Lane 0 alone is admitted by m1; the table has 8 words. -/
def oneLane (h : Group → Group) : State := stage fun g => h ((g.setM 1 1).setS 3 8)
def fGld1 : Form := { fGld with g := 1 }
theorem witness_LoadsAndGathers_gather : Runs (.gld fGld1) fGld1 (oneLane id) ∧ Indexed (viewOf (.gld fGld1) fGld1 (oneLane id)) (oneLane id) [(0, 0)] ∧
    ∃ ls, Finds (viewOf (.gld fGld1) fGld1 (oneLane id)) (accFor (viewOf (.gld fGld1) fGld1 (oneLane id)) 32 false false)
      (elements (viewOf (.gld fGld1) fGld1 (oneLane id)) [(0, 0)]) 1 true ls :=
  ⟨by decide, ⟨rfl, rfl⟩, _, by decide, rfl, rfl, by decide, by decide, by decide⟩
theorem witness_StoresOfTheLanes : Runs (.st fLd) fLd plain ∧ RoomFor (viewOf (.st fLd) fLd plain) 37 ∧
    ∃ ls, Finds (viewOf (.st fLd) fLd plain) (accFor (viewOf (.st fLd) fLd plain) 32 true false) (accesses (viewOf (.st fLd) fLd plain)) 2 false ls :=
  ⟨by decide, fun h => absurd h (by decide), _, by decide, rfl, rfl, by decide, by decide, by decide⟩
theorem witness_StoresOfTheLanes_scatter : Runs (.sct fGld1) fGld1 (oneLane id) ∧ Indexed (viewOf (.sct fGld1) fGld1 (oneLane id)) (oneLane id) [(0, 0)] ∧
    ∃ ls, Finds (viewOf (.sct fGld1) fGld1 (oneLane id)) (accFor (viewOf (.sct fGld1) fGld1 (oneLane id)) 32 true false)
      (elements (viewOf (.sct fGld1) fGld1 (oneLane id)) [(0, 0)]) 2 false ls :=
  ⟨by decide, ⟨rfl, rfl⟩, _, by decide, rfl, rfl, by decide, by decide, by decide⟩
theorem witness_HighestLaneKeepsABit : ([[], []] : List (List ByteWrite))[1]? = some [] := rfl
def fAt (d : Opnd) : Form := fMem d 64
theorem witness_AtomicsAndReductions :
    Runs (.atom (fAt (.s 2))) (fAt (.s 2)) plain ∧ Runs (.red (fAt (.s 2))) (fAt (.s 2)) plain ∧ Runs (.cas (fAt (.s 2))) (fAt (.s 2)) plain ∧
    Staged (viewOf (.atom (fAt (.s 2))) (fAt (.s 2)) plain) = false ∧
    (∃ ls, Finds (viewOf (.atom (fAt (.s 2))) (fAt (.s 2)) plain) (accFor (viewOf (.atom (fAt (.s 2))) (fAt (.s 2)) plain) 32 true true)
      (accesses (viewOf (.atom (fAt (.s 2))) (fAt (.s 2)) plain)) 3 true ls) ∧
    ∃ ls, Finds (viewOf (.red (fAt (.s 2))) (fAt (.s 2)) plain) (accFor (viewOf (.red (fAt (.s 2))) (fAt (.s 2)) plain) 32 true true)
      (accesses (viewOf (.red (fAt (.s 2))) (fAt (.s 2)) plain)) 2 false ls :=
  ⟨by decide, by decide, by decide, by decide, ⟨_, by decide, rfl, rfl, by decide, by decide, by decide⟩, ⟨_, by decide, rfl, rfl, by decide, by decide, by decide⟩⟩
/-- The same module with pages 0 to 1 of context 0 mapped for plain access by core 0's buffer. -/
def mapped (s : State) : State :=
  s.updCore 0 fun c => { c with tlb := [{ ctx := 0, page := 2, tr := { addr := 0x20000, bf := false, stmp := false, x := false, w := true, basic := false } }] }
def inDet (s : State) : State := s.updLaunch 1 fun l => { l with r := { l.r with flags := 1 } }
def fG (d : Opnd) : Form := { fMem d 0x20000 with ext := at_ 2 2 0x20000 }
def fMs : Form := { fG (.v 8) with g := 1 }
theorem witness_AtomicsAndReductions_msred : Runs (.msred fMs) fMs (mapped (oneLane id)) ∧
    (∃ ls, accessAll (mapped (oneLane id)) ((mapped (oneLane id)).group g0) (accFor (viewOf (.msred fMs) fMs (mapped (oneLane id))) 32 true true)
      (accesses (viewOf (.msred fMs) fMs (mapped (oneLane id)))) = .locs ls) ∧
    (viewOf (.msred fMs) fMs (mapped (oneLane id))).act ≠ 0 := ⟨by decide, ⟨_, rfl⟩, by decide⟩
/-- A deterministic launch whose group owns a share of reserved values. -/
def sharing : State := (inDet (mapped plain)).updLaunch 1 fun l => { l with one := some 4 }
theorem witness_ReservedValues : Runs (.atom (fG (.s 2))) (fG (.s 2)) sharing ∧ Staged (viewOf (.atom (fG (.s 2))) (fG (.s 2)) sharing) = true ∧
    ∃ ls, Finds (viewOf (.atom (fG (.s 2))) (fG (.s 2)) sharing) (accFor (viewOf (.atom (fG (.s 2))) (fG (.s 2)) sharing) 32 true true)
      (accesses (viewOf (.atom (fG (.s 2))) (fG (.s 2)) sharing)) 3 true ls :=
  ⟨by decide, by decide, ⟨_, by decide, rfl, rfl, by decide, by decide, by decide⟩⟩

-- WITNESSES: FENCES, LINES, BARRIERS, TIME
/-- A store FIFO entry that changes a line of the group's own window, and a load in flight. -/
def st0 : Store := { seq := 1, path := .ls, rel := 0, acq := 0, va := 0, kind := 0, opc := 0, ty := .i32, rval := 0, fwd := false, pc := 0x10000, op := .fset true tk0 0 }
def ld0 : Load := { seq := 1, path := .ls, places := [.vault tk0 0], bit := 0, bits := 32, dst := { isS := false, reg := 8, lane := 0, ty := .i32 }, acq := 0, pc := 0x10000 }
def busy : State := stage fun g => { g with stores := [st0] }
def fFence : Form := { blank with fn := 2, x6 := 15 }
def fWcnt : Form := { blank with fn := 15, a := sr .imm, ty := .n32, x6 := 3 }
def fWcnt0 : Form := { fWcnt with fn := 2, x6 := 0 }
theorem witness_FencesAndWaitCounts : Runs (.fence fFence) fFence plain ∧ Performed (viewOf (.fence fFence) fFence plain) fFence.x6.toNat fFence.fn.toNat ∧
    Runs (.fence fFence) fFence busy ∧ ¬ Performed (viewOf (.fence fFence) fFence busy) fFence.x6.toNat fFence.fn.toNat ∧
    Runs (.wcnt fWcnt) fWcnt plain ∧ (∀ i, i < 4 → (plain.counts g0).getD i 0 ≤ limitOf (viewOf (.wcnt fWcnt) fWcnt plain)) ∧
    Runs (.wcnt fWcnt0) fWcnt0 busy ∧ limitOf (viewOf (.wcnt fWcnt0) fWcnt0 busy) < (busy.counts g0).getD 1 0 ∧
    (viewOf (.fence fFence) fFence busy).act ≠ 0 :=
  ⟨by decide, ⟨fun _ => by decide, fun _ _ => by decide, by decide, by decide⟩, by decide, fun h => absurd (h.stores (by decide) (by decide)).1 (by decide),
    by decide⟩
/-- Line 0 of the group's window is empty. -/
def emptied (s : State) : State := s.updTeam tk0 fun t => { t with empty := [(0, true)] }
def acq0 (h : Group → Group) : State := stage fun g => h { g with loads := [{ ld0 with acq := 3 }] }
def full0 : State := stage fun g => { g with loads := (List.range 63).map fun i => { ld0 with seq := i } }
def fLd0 : Form := fMem (.s 1) 0
def fLdg : Form := fG (.s 1)
theorem witness_LoadsWait :
    let at0 := fun s => accessAll s ((viewOf (.ld fLd0) fLd0 s).g) (accFor (viewOf (.ld fLd0) fLd0 s) 32 false false) (accesses (viewOf (.ld fLd0) fLd0 s))
    Runs (.ld fLd0) fLd0 busy ∧ (∃ ls, at0 busy = .locs ls ∧ (busy.group g0).stores.any (fun e => touchesLine e (linesOf (allPlaces ls))) = true) ∧
    Runs (.ld fLd0) fLd0 (emptied plain) ∧ (∃ ls, at0 (emptied plain) = .locs ls ∧ (emptied plain).emptyLines (linesOf (allPlaces ls)) ≠ []) ∧
    Runs (.ld fLd0) fLd0 (acq0 id) ∧ (∃ ls, at0 (acq0 id) = .locs ls ∧ ((acq0 id).group g0).acquiring = true) ∧
    Runs (.ld fLd0) fLd0 full0 ∧ (full0.group g0).acquiring = false ∧ (full0.counts g0).getD 0 0 = 63 ∧
    Runs (.ld fLdg) fLdg plain ∧ ∃ ps, accessAll plain (plain.group g0) (accFor (viewOf (.ld fLdg) fLdg plain) 32 false false)
      (accesses (viewOf (.ld fLdg) fLdg plain)) = .miss ps :=
  ⟨by decide, ⟨_, rfl, by decide⟩, by decide, ⟨_, rfl, by decide⟩, by decide, ⟨_, rfl, by decide⟩, by decide, by decide, by decide, by decide, ⟨_, rfl⟩⟩
def fLdx : Form := fMem (.s 1) 4096
theorem witness_LoadsWait_trap : Runs (.ld fLdx) fLdx plain ∧ ∃ c a l, accessAll plain (plain.group g0)
    (accFor (viewOf (.ld fLdx) fLdx plain) 32 false false) (accesses (viewOf (.ld fLdx) fLdx plain)) = .trap c a l := ⟨by decide, _, _, _, rfl⟩
def fLine (d : Opnd) : Form := { blank with len := .l128, d := d, a := sr .zero, b := sr .zero, ext := at_ 0 2 0 }
def fFset : Form := { fLine (.v 0) with fn := 1 }
def fFtest : Form := fLine (.m 1)
theorem witness_FullEmptyBits : Runs (.fset fFset) fFset plain ∧
    (∃ ls, accessAll plain (plain.group g0) { accFor (viewOf (.fset fFset) fFset plain) 32 true false with kind := 1 } (actingAt (viewOf (.fset fFset) fFset plain)) = .locs ls) ∧
    plain.countsAtMost g0 2 62 = true ∧ Runs (.ftest fFtest) fFtest plain ∧
    ∃ ls, Finds (viewOf (.ftest fFtest) fFtest plain) (accFor (viewOf (.ftest fFtest) fFtest plain) 32 false false) (actingAt (viewOf (.ftest fFtest) fFtest plain)) 1 false ls :=
  ⟨by decide, ⟨_, rfl⟩, by decide, by decide, _, by decide, rfl, rfl, by decide, by decide, by decide⟩
/-- A barrier line of the group's window that expects two arrivals, in phase 5. -/
def line0 : BarLine := { expected := 2, arrivals := 0, phase := 5, arrived := [] }
def lined (b : BarLine) (rs : List BarRec) (s : State) : State := s.updTeam tk0 fun t => { t with blines := [(0, some b)], recs := rs }
def rec0 (l : Nat) (m : Mask) : BarRec := { cw := false, team := tk0, off := 128 * l, phase := 5, masks := [(0, m)], arrived := [0], sent := false }
def fArr : Form := { fLine (.s 1) with fn := 1 }
def fWait : Form := { fArr with fn := 2 }
def fInit : Form := fLine (.s 1)
def fClr : Form := { fLine (.v 0) with fn := 1 }
def fSync : Form := fLine .zero
theorem witness_BarrierArrivals :
    let s := lined line0 [] plain
    let c := lined line0 [rec0 0 1] plain
    Runs (.barArrive fArr) fArr s ∧ AtLine (viewOf (.barArrive fArr) fArr s) tk0 0 ∧ Drained (viewOf (.barArrive fArr) fArr s) ∧
    s.barLine tk0 (128 * 0) = some line0 ∧ MayArrive (viewOf (.barArrive fArr) fArr s) (recordAt (viewOf (.barArrive fArr) fArr s) false tk0 0 line0) ∧
    Runs (.barSync fSync) fSync s ∧ AtLine (viewOf (.barSync fSync) fSync s) tk0 0 ∧ Drained (viewOf (.barSync fSync) fSync s) ∧
    MayArrive (viewOf (.barSync fSync) fSync s) (recordAt (viewOf (.barSync fSync) fSync s) false tk0 0 line0) ∧
    Runs (.barSync fSync) fSync c ∧ c.barLine tk0 (128 * 0) = some line0 ∧
      mapGet 0 (recordAt (viewOf (.barSync fSync) fSync c) false tk0 0 line0).masks 0 &&& (viewOf (.barSync fSync) fSync c).act ≠ 0 :=
  ⟨by decide, ⟨_, rfl, rfl⟩, ⟨by decide, by decide⟩, rfl, ⟨by decide, fun _ => by decide⟩, by decide, ⟨_, rfl, rfl⟩, ⟨by decide, by decide⟩, ⟨by decide, fun _ => by decide⟩, by decide, rfl, by decide⟩
def sixteen : State := (stage id).updTeam tk0 fun t =>
  { t with blines := (List.range 17).map fun i => (i, some line0), recs := (List.range 16).map fun i => rec0 (i + 1) 1 }
theorem witness_BarrierArrivals_limit : Runs (.barSync fSync) fSync sixteen ∧ AtLine (viewOf (.barSync fSync) fSync sixteen) tk0 0 ∧
    Drained (viewOf (.barSync fSync) fSync sixteen) ∧ sixteen.barLine tk0 (128 * 0) = some line0 ∧ sixteen.openLines tk0 = 16 ∧
    (recordAt (viewOf (.barSync fSync) fSync sixteen) false tk0 0 line0).masks = [] := ⟨by decide, ⟨_, rfl, rfl⟩, ⟨by decide, by decide⟩, rfl, by decide, rfl⟩
theorem witness_BarrierWaits : let s := lined line0 [] plain
    Runs (.barWait fWait) fWait s ∧ AtLine (viewOf (.barWait fWait) fWait s) tk0 0 ∧ Drained (viewOf (.barWait fWait) fWait s) ∧
    s.barLine tk0 (128 * 0) = some line0 := ⟨by decide, ⟨_, rfl, rfl⟩, ⟨by decide, by decide⟩, rfl⟩
/-- A line that expects one arrival and has it, and one whose arrival is due; lane 0 is parked at it. -/
def line1 : BarLine := { expected := 1, arrivals := 1, phase := 5, arrived := [0] }
theorem witness_BarrierPhases : let s := lined line1 [] (stage fun g => g.updLanes 1 fun y => { y with cond := .barrier false tk0 0 5 9 })
    s.barLine tk0 0 = some line1 ∧ (s.launch (teamLaunch tk0)).r.groups ≤ 32 ∧ 1 ≤ line1.arrivals.toNat ∧ line1.expected.toNat ≤ line1.arrivals.toNat ∧
    ((s.group g0).lane 0).cond = .barrier false tk0 0 5 9 ∧ (lined line0 [] plain).barLine tk0 0 = some line0 ∧ line0.arrivals.toNat = 0 := by decide
theorem witness_BarrierLines : let s := lined line1 [] plain
    Runs (.blineInit fInit) fInit plain ∧ AtLine (viewOf (.blineInit fInit) fInit plain) tk0 0 ∧ plain.countsAtMost g0 2 62 = true ∧
    lowWord (viewOf (.blineInit fInit) fInit plain) (.s 1) = 0 ∧ Runs (.blineClr fClr) fClr s ∧ AtLine (viewOf (.blineClr fClr) fClr s) tk0 0 ∧
    s.barLine tk0 (128 * 0) = some line1 ∧ line1.arrivals ≠ 0 := ⟨by decide, ⟨_, rfl, rfl⟩, by decide, by decide, by decide, ⟨_, rfl, rfl⟩, rfl, by decide⟩
theorem witness_BarrierLines_sent : let s := stage fun g => g.setS 1 2
    Runs (.blineInit fInit) fInit s ∧ AtLine (viewOf (.blineInit fInit) fInit s) tk0 0 ∧ lowWord (viewOf (.blineInit fInit) fInit s) (.s 1) = 2 ∧
    (s.team tk0).isEmpty 0 = false ∧ s.barLine tk0 (128 * 0) = none ∧ s.countsAtMost g0 2 62 = true := ⟨by decide, ⟨_, rfl, rfl⟩, by decide⟩
def fTnow : Form := { blank with d := .s 2, ty := .n64 }
theorem witness_PodTimeInterval : Runs (.tnow fTnow) fTnow plain ∧ (viewOf (.tnow fTnow) fTnow plain).act ≠ 0 := by decide
/-- A stamped page for the placed module, and the address 0x20000 in it. -/
def stampedPage (s : State) : State :=
  s.updCore 0 fun c => { c with tlb := [{ ctx := 0, page := 2, tr := { addr := 0x20000, bf := false, stmp := true, x := false, w := true, basic := false } }] }
def onLine (h : Group → Group) : State := stampedPage (stage fun g => h ((g.setM 1 1).setS 4 0x20000))
def fStst : Form := { blank with len := .l128, g := 1, d := .v 1, a := sr (.s 4), b := sr .zero, ty := .n32, ext := at_ 2 2 0 }
/-- A stamped access to a line of the module's own. -/
theorem ownLine {x : View} {w : Bool} {home : Option Nat} {ls : List Loc} {a : Nat}
    (h : oddLane x (accesses x) = none ∧ offLine x (accesses x) = none ∧ (¬ ∀ p ∈ accesses x, (remoteAddr p.2).isSome = true) ∧
      ∀ p ∈ accesses x, (remoteAddr p.2).isSome = false)
    (hl : accessAll x.s0 x.g { space := 2, bits := x.f.ty.width, sw := x.f.ext.toNat / 2 ^ 56 % 8, write := w, atomic := false, stamped := true
                               kind := if w then 2 else 1 } (accesses x) = .locs ls)
    (ha : (allPlaces ls).head? = some (.stamped a)) (hh : home = some (a / 64)) : StampedAt x w home :=
  ⟨h.1, h.2.1, by rw [if_neg h.2.2.1]; exact ⟨h.2.2.2, ls, a, hl, ha, hh⟩⟩
def inTime (f : Timebase → Timebase) (s : State) : State := { s with tb := f s.tb }
theorem witness_StampedStore : Runs (.stst fStst) fStst (onLine id) ∧ StampedAt (viewOf (.stst fStst) fStst (onLine id)) true (some 0x800) ∧
    (onLine id).countsAtMost g0 2 62 = true ∧ (onLine id).tb.state ≠ 3 ∧ (onLine id).tb.eps ≤ (onLine id).tb.epslim ∧ (onLine id).ck.busy = false :=
  ⟨by decide, ownLine (by decide) rfl rfl rfl, by decide⟩
theorem witness_StampedStore_traps : let s := inTime (fun b => { b with state := 3 }) (onLine id)
    let u := inTime (fun b => { b with epslim := 0, epsx := 9, state := 1 }) (onLine id)
    Runs (.stst fStst) fStst s ∧ StampedAt (viewOf (.stst fStst) fStst s) true (some 0x800) ∧ s.tb.state = 3 ∧
    Runs (.stst fStst) fStst u ∧ StampedAt (viewOf (.stst fStst) fStst u) true (some 0x800) ∧ u.tb.state ≠ 3 ∧ u.tb.epslim < u.tb.eps :=
  ⟨by decide, ownLine (by decide) rfl rfl rfl, by decide, by decide, ownLine (by decide) rfl rfl rfl, by decide⟩
def fRdat : Form := { fStst with d := .v 8 }
theorem witness_StampedRead : let s := onLine fun g => g.setS 5 (BitVec.ofNat 64 (2 ^ 63 + 1))
    let u := inTime (fun b => { b with state := 3 }) (onLine id)
    Runs (.rdat fRdat) fRdat (onLine id) ∧ StampedAt (viewOf (.rdat fRdat) fRdat (onLine id)) false (some 0x800) ∧ (onLine id).countsAtMost g0 1 62 = true ∧
    ((viewOf (.rdat fRdat) fRdat (onLine id)).sval 5).toNat ≤ 2 ^ 63 ∧
    Runs (.rdat fRdat) fRdat s ∧ StampedAt (viewOf (.rdat fRdat) fRdat s) false (some 0x800) ∧ 2 ^ 63 < ((viewOf (.rdat fRdat) fRdat s).sval 5).toNat ∧
    Runs (.rdat fRdat) fRdat u ∧ StampedAt (viewOf (.rdat fRdat) fRdat u) false (some 0x800) ∧ u.tb.state = 3 :=
  ⟨by decide, ownLine (by decide) rfl rfl rfl, by decide, by decide, by decide, ownLine (by decide) rfl rfl rfl, by decide, by decide,
    ownLine (by decide) rfl rfl rfl, by decide⟩

-- WITNESSES: MULTICAST, WAIT AND WAKE, SLOTS
/-- Group 5 has two members, and this module is rank 0; s4 holds an address of its windows. -/
def mem5 : Member := { fn := 0, ctx := 0, size := 2, rank := 0, wbase := 0x40000, wlen := 0x1000, acnt := 0, list := [0, 1], rlim := 15, root := 0, count := 0, stale := false, live := [0, 1] }
def inPod (h : Group → Group) : State :=
  { stage (fun g => h ((g.setM 1 1).setS 4 (BitVec.ofNat 64 (2 ^ 63 + 5 * 2 ^ 53)))) with members := [(5, some mem5)] }
def fMcst : Form := { blank with len := .l128, g := 1, d := .v 1, a := sr (.s 4), b := sr .zero, ty := .n32, ext := at_ 2 2 0 }
def fMcas : Form := { fMcst with fn := 1, d := .s 6 }
theorem witness_MulticastInstructions :
    (∀ p ∈ [Instr.mcst, .mcsq, .mldr], let f := { fMcst with ty := .i32 }; Runs (p f) f (inPod id) ∧ PodAt (viewOf (p f) f (inPod id)) 5 mem5) ∧
    Runs (.mcsqCas fMcas) fMcas (inPod id) ∧ PodAt (viewOf (.mcsqCas fMcas) fMcas (inPod id)) 5 mem5 ∧ mem5.size ≤ 64 ∧
    (inPod id).countsAtMost g0 3 62 = true ∧ (viewOf (.mcst fMcst) fMcst (inPod id)).act ≠ 0 := by
  refine ⟨?_, by decide, ⟨by decide, by decide, by decide⟩, by decide, by decide, by decide⟩
  intro p hp
  simp only [List.mem_cons, List.not_mem_nil, or_false] at hp
  obtain rfl | rfl | rfl := hp
  all_goals exact ⟨by decide, ⟨by decide, by decide, by decide⟩⟩
def fWaitv : Form := { blank with len := .l128, d := .s 1, a := sr (.s 2), b := sr .zero, ty := .n32, ext := at_ 2 2 0 }
def onPage (h : Group → Group) : State := mapped (stage fun g => h (g.setS 2 0x20000))
theorem witness_WaitAndWake : let s := onPage fun g => g.setS 1 7
    let acc : Acc := { space := 2, bits := 32, sw := 0, write := false, atomic := false, stamped := false, kind := 1 }
    (∃ ls, Runs (.waitv fWaitv) fWaitv (onPage id) ∧ accessAll (onPage id) ((onPage id).group g0) acc [(0, 0x20000)] = .locs ls ∧
      wordAt (viewOf (.waitv fWaitv) fWaitv (onPage id)) = 0x20000 ∧ ((onPage id).group g0).inFlight (allPlaces ls) = false ∧
      (onPage id).badRead (allPlaces ls) = none ∧ (onPage id).natFor ((onPage id).group g0) (allPlaces ls) = 0 ∧
      (onPage id).wakeRoom (keyOf (viewOf (.waitv fWaitv) fWaitv (onPage id))) = true) ∧
    ∃ ls, Runs (.waitv fWaitv) fWaitv s ∧ accessAll s (s.group g0) acc [(0, 0x20000)] = .locs ls ∧ s.natFor (s.group g0) (allPlaces ls) ≠ 7 ∧
      (s.group g0).inFlight (allPlaces ls) = false ∧ s.badRead (allPlaces ls) = none :=
  ⟨⟨_, by decide, rfl, rfl, by decide⟩, _, by decide, rfl, by decide, by decide, by decide⟩
def fWake : Form := { fWaitv with b := unused }
theorem witness_WaitAndWake_wake : Runs (.wake fWake) fWake (onPage id) ∧ (viewOf (.wake fWake) fWake (onPage id)).act ≠ 0 ∧
    ((onPage id).group g0).acquiring = false ∧ Performed (viewOf (.wake fWake) fWake (onPage id)) 15 4 :=
  ⟨by decide, by decide, by decide, ⟨fun _ => by decide, fun _ _ => by decide, by decide, by decide⟩⟩
/-- Lane 0 sleeps on a key until cycle 9, and its group is in the table. -/
def asleep : State := { stage (fun g => g.updLanes 1 fun y => { y with cond := .waitv 0x20000 9 }) with
  sleepers := [{ key := 0x20000, grp := g0, lanes := 1, order := 1 }], fns := [(0, { Fn.none with wakea := 0x20000 })] }
theorem witness_WakesFromOutside : asleepOn asleep 0x20000 1 = [g0] ∧ (asleep.fn 0).wakea = 0x20000 ∧ (asleep.teamOf (asleep.group g0)).stopped = false ∧
    ((asleep.group g0).lane 0).cond = .waitv 0x20000 9 := by decide
/-- A slot record of bf16 rows with a stride of 256 bytes, and its 64 bytes with their checksum. -/
def slotR : SlotRec := { fmt := 5, mx := false, tr := false, cplx := false, rstride := 256, sbase := 0, sstride := 0 }
def slotBytes : List Byte := let b := bytesOf 2 1 ++ [5, 0] ++ List.replicate 12 0 ++ bytesOf 8 256 ++ List.replicate 36 0; b ++ bytesOf 4 (crc32c b)
def slotMem (bs : List Byte) : State → State := fun s => s.updTeam tk0 fun t => { t with win := bs.mapIdx fun i b => (i, b) }
def ctxSlot (r : SlotRec) (s : State) : State := s.setCtx 0 ((s.ctx 0).setSlot 0 (some r))
def fTd : Form := { blank with len := .l128, d := .s 1, a := sr .zero, ext := at_ 0 2 0 }
def fTdx : Form := { blank with fn := 1, d := .s 1 }
def tdBytes (s : State) (ls : List Loc) : List Byte := (List.range 64).map fun i => byteAt (s.natFor (s.group g0) (allPlaces ls)) i
abbrev TdAt (s : State) (bs : List Byte) : Prop := Runs (.tdload fTd) fTd s ∧ ∃ ls,
  Finds (viewOf (.tdload fTd) fTd s) { accFor (viewOf (.tdload fTd) fTd s) 512 false false with sw := 0 }
      [((viewOf (.tdload fTd) fTd s).low, baseOf (viewOf (.tdload fTd) fTd s))] 4 true ls ∧
    (s.group g0).inFlight (allPlaces ls) = false ∧ s.badRead (allPlaces ls) = none ∧ tdBytes s ls = bs
set_option maxRecDepth 100000 in
theorem witness_TensorSlots : TdAt (slotMem slotBytes plain) slotBytes ∧ slotRecord slotBytes = some slotR ∧
    ((slotMem slotBytes plain).ctx 0).slot 0 = none ∧ (dValue (viewOf (.tdload fTd) fTd (slotMem slotBytes plain))).toNat = 0 :=
  ⟨⟨by decide, _, ⟨by decide, rfl, rfl, by decide, by decide, by decide⟩, by decide, by decide, by decide⟩, by decide, by decide, by decide⟩
set_option maxRecDepth 100000 in
/-- A record whose checksum is wrong, a slot number out of range, a slot that is full. -/
theorem witness_TensorSlots_traps : TdAt (slotMem (List.replicate 64 0) plain) (List.replicate 64 0) ∧ slotRecord (List.replicate 64 0) = none ∧
    TdAt (stage fun g => g.setS 1 256) (List.replicate 64 0) ∧ (dValue (viewOf (.tdload fTd) fTd (stage fun g => g.setS 1 256))).toNat = 256 ∧
    TdAt (ctxSlot slotR (slotMem slotBytes plain)) slotBytes ∧ ((ctxSlot slotR (slotMem slotBytes plain)).ctx 0).slot 0 ≠ none :=
  ⟨⟨by decide, _, ⟨by decide, rfl, rfl, by decide, by decide, by decide⟩, by decide, by decide, by decide⟩, by decide,
    ⟨by decide, _, ⟨by decide, rfl, rfl, by decide, by decide, by decide⟩, by decide, by decide, by decide⟩, by decide,
    ⟨by decide, _, ⟨by decide, rfl, rfl, by decide, by decide, by decide⟩, by decide, by decide, by decide⟩, by decide⟩
theorem witness_TensorSlots_drop : let s := ctxSlot slotR plain
    Runs (.tddrop fTdx) fTdx s ∧ (s.ctx 0).slot 0 ≠ none ∧ Runs (.tddrop fTdx) fTdx plain ∧ (plain.ctx 0).slot 0 = none ∧
    (dValue (viewOf (.tddrop fTdx) fTdx plain)).toNat ≤ 255 ∧ Runs (.tddrop fTdx) fTdx (stage fun g => g.setS 1 256) ∧
    (dValue (viewOf (.tddrop fTdx) fTdx (stage fun g => g.setS 1 256))).toNat = 256 := by decide
set_option maxRecDepth 100000 in
theorem witness_TensorSlots_host : let s := { plain with mem := (slotBytes.mapIdx fun i b => (i, b)).filter fun p => p.2 != 0 }
    (s.fn 0).slotrec.toNat % 64 = 0 ∧ (0 : Nat) ∉ s.poisoned ∧ s.devBytes 0 64 = some slotBytes ∧ slotRecord slotBytes = some slotR ∧
    (s.ctx 0).slot 0 = none ∧ ((ctxSlot slotR s).ctx 0).slot 0 ≠ none := by decide

-- WITNESSES: COPIES
/-- s4 to s7 hold a quad: source, length with rows and space, strides, and the last word. -/
def quad (src len rows ssp sel : Nat) (g : Group) : Group :=
  (((g.setS 4 (BitVec.ofNat 64 src)).setS 5 (BitVec.ofNat 64 (len + rows * 2 ^ 32 + ssp * 2 ^ 48))).setS 6 0).setS 7 (BitVec.ofNat 64 sel)
def fCopy (fn sp off : Nat) : Form := { blank with len := .l128, fn := fn, d := .s 4, a := sr .zero, ty := .b32, ext := at_ sp 2 off }
theorem witness_CopiesEnter : let s := stage (quad 0 4 1 0 0)
    let f := fCopy 0 0 64
    let x := viewOf (.copy f) f s
    let q := quadOf x f.d
    Runs (.copy f) f s ∧ x.act ≠ 0 ∧ QuadOk x (baseOf x) ∧ q.sel = 0 ∧
    (∃ ss, Located x (wordAcc q.ssp q.ssw false) (blockWords q.src q.sstr q.len q.rows) ss ∧ SourceReady x ss) ∧
    (∃ ds, Located x (wordAcc (f.ext.toNat / 2 ^ 62 % 4) (f.ext.toNat / 2 ^ 56 % 8) true) (blockWords (baseOf x) q.dstr q.len q.rows) ds) ∧
    x.g.acquiring = false ∧ s.countsAtMost x.gk 4 62 = true ∧ Staged x = false :=
  ⟨by decide, by decide, ⟨by decide, by decide⟩, by decide, ⟨[_], rfl, fun h => absurd h.1 (by decide)⟩, ⟨[_], rfl⟩, by decide,
    by decide, by decide⟩
theorem witness_CopiesEnter_mc : let s := stage (quad 0 4 1 0 1)
    let f := fCopy 1 1 64
    let x := viewOf (.copyMc f) f s
    let q := quadOf x f.d
    Runs (.copyMc f) f s ∧ x.act ≠ 0 ∧ QuadOk x (baseOf x) ∧ q.sel ≠ 0 ∧
    ((List.range 12).filter fun r => q.sel.testBit r) = [0] ∧ 0 < (s.launchOf x.g).size ∧
    (∃ ss, Located x (wordAcc q.ssp q.ssw false) (blockWords q.src q.sstr q.len q.rows) ss ∧ SourceReady x ss) ∧
    (∃ ds, Located x (wordAcc (f.ext.toNat / 2 ^ 62 % 4) (f.ext.toNat / 2 ^ 56 % 8) true)
      (blockWords (rankAddr s x.g 0 (baseOf x % 2 ^ 21)) q.dstr q.len q.rows) ds) ∧
    x.g.acquiring = false ∧ s.countsAtMost x.gk 4 62 = true ∧ Staged x = false :=
  ⟨by decide, by decide, ⟨by decide, by decide⟩, by decide, by decide, by decide, ⟨[_], rfl, fun h => absurd h.1 (by decide)⟩,
    ⟨[_], rfl⟩, by decide, by decide, by decide⟩
/-- Stream 3 of the context has keys. -/
def streams (s : State) : State :=
  s.setCtx 0 { s.ctx 0 with streams := [{ num := 3, key := List.replicate 32 0, salt := List.replicate 4 0, high := 0, win := 0 }] }
theorem witness_CopiesEnter_gcm : let s := streams (mapped (stage (quad 0x20000 4 1 2 3)))
    let f := fCopy 2 0 64
    let x := viewOf (.copyGcm f) f s
    let q := quadOf x f.d
    Runs (.copyGcm f) f s ∧ x.act ≠ 0 ∧ q.bad = false ∧ q.ssp = 2 ∧ q.rows = 1 ∧ q.len ≤ 2 ^ 20 ∧
    ((s.ctx (s.launchOf x.g).ctxKey).stream q.sel).isSome = true ∧ q.src % 4 = 0 ∧ baseOf x % 4 = 0 ∧
    (∃ ss, Located x (wordAcc 2 q.ssw false) (blockWords q.src 0 (q.len + 16) 1) ss) ∧
    (∃ ds, Located x (wordAcc (f.ext.toNat / 2 ^ 62 % 4) (f.ext.toNat / 2 ^ 56 % 8) true) (blockWords (baseOf x) 0 (q.len + 16) 1) ds) ∧
    x.g.acquiring = false ∧ s.countsAtMost x.gk 4 62 = true :=
  ⟨by decide, by decide, by decide, by decide, by decide, by decide, by decide, by decide, by decide, ⟨[_, _, _, _, _], rfl⟩, ⟨[_, _, _, _, _], rfl⟩, by decide, by decide⟩
theorem witness_UnitsOfACopy : let d : Loc := { lane := 0, ea := 0, places := [.vault tk0 64, .vault tk0 65], bit := 0 }
    (∀ p ∈ d.places, ∀ q ∈ d.places, unitKey 0 p = unitKey 0 q) ∧ (unitsOf 1 [d] [d] (fun _ => none)).map (fun u => (u.team, u.line)) = [(some tk0, 0)] := by
  decide
def offPage (p : Place) : Bool := match p with | .page _ _ => false | _ => true
theorem offPage_all (ps : List Place) (h : ps.all offPage = true) : ∀ p ∈ ps, ∀ fn o, p ≠ .page fn o := by
  intro p hp fn o e; subst e; exact absurd (List.all_eq_true.mp h _ hp) (by simp [offPage])
/-- A deterministic launch whose token has passed to the next team. -/
def later (s : State) : State := (inDet s).updLaunch 1 fun l => { l with token := 1 }
theorem witness_StagedCopy : let s := later (mapped (stage (quad 0 4 1 0 0)))
    let f := fCopy 0 2 0x20000
    let x := viewOf (.copy f) f s
    let q := quadOf x f.d
    Runs (.copy f) f s ∧ x.act ≠ 0 ∧ QuadOk x (baseOf x) ∧ q.sel = 0 ∧
    (∃ ss, Located x (wordAcc q.ssp q.ssw false) (blockWords q.src q.sstr q.len q.rows) ss ∧ s.writesDue x.gk (x.g.seq + 1) (allPlaces ss) = false ∧
      s.badRead (allPlaces ss) = none ∧ ∀ p ∈ allPlaces ss, ∀ fn o, p ≠ .page fn o) ∧
    (∃ ds, Located x (wordAcc (f.ext.toNat / 2 ^ 62 % 4) (f.ext.toNat / 2 ^ 56 % 8) true) (blockWords (baseOf x) q.dstr q.len q.rows) ds) ∧
    x.g.acquiring = false ∧ s.countsAtMost x.gk 4 62 = true ∧ Staged x = true ∧ s.unboundBefore x.gk (x.g.seq + 1) = false ∧
    x.g.stores = [] ∧ s.drainsBefore x.gk (x.g.seq + 1) = false ∧ s.holdsToken x.g.team = false ∧
    s.stagingUse x.g.team + q.rows * (32 + (q.len + 15) / 16 * 16) ≤ 131072 :=
  ⟨by decide, by decide, ⟨by decide, by decide⟩, by decide,
    ⟨[_], rfl, by decide, by decide, offPage_all _ (by decide)⟩, ⟨[_], rfl⟩,
    by decide⟩

-- WITNESSES: TILES
def tileRow (ty : Ty) : Form := { blank with len := .l128, d := .a 1, a := sr (.s 2), b := sr (.s 4), ty := ty, ext := at_ 0 1 0 }
def fZero : Form := { blank with d := .a 1 }
theorem witness_TileInstructionsNeedEveryLane : let s := stage fun g => g.setM 1 1
    let f := { fZero with g := 1 }
    Clear (.azero f) f s ∧ (viewOf (.azero f) f s).act ≠ BitVec.allOnes 32 := by decide
/-- s2 holds 0 and the pair s4, s5 an address and the numbers of two slots. -/
def slotsAt (s : State) : State := ctxSlot { slotR with rstride := 0 } s
theorem witness_TileInstructionsEnterTheQueue_azero : Runs (.azero fZero) fZero plain ∧ (viewOf (.azero fZero) fZero plain).act = BitVec.allOnes 32 ∧
    ((viewOf (.azero fZero) fZero plain).g).acquiring = false ∧ plain.countsAtMost g0 8 62 = true ∧ (plain.teamOf (plain.group g0)).queue.length < 8 := by decide
theorem not_empty (s : State) (h : s.teams.all (fun p => p.2.empty.isEmpty) = true) (ls : List (Nat × Nat)) : s.emptyLines ls = [] := by
  have hk : ∀ (m : List (Nat × Team)), m.all (fun p => p.2.empty.isEmpty) = true → ∀ k, (mapGet Team.none m k).empty = [] := by
    intro m
    induction m with
    | nil => intros; rfl
    | cons p m ih =>
      intro h k
      simp only [List.all_cons, Bool.and_eq_true, List.isEmpty_iff] at h
      simp only [mapGet]
      split
      · exact h.1
      · exact ih h.2 k
  refine List.filter_eq_nil_iff.mpr fun p _ => ?_
  simp [Team.isEmpty, show (s.team p.1).empty = [] from hk _ h _, mapGet]
/-- The bytes of a run, as they are located. -/
def runOf (x : View) (sp : Span) : List (Except Bad Loc) := (List.range sp.len).map fun i => locate x.s0 x.g
  { space := sp.space, bits := 8, sw := sp.sw, write := sp.write, atomic := false, stamped := false, kind := if sp.write then 2 else 1 }
  x.low ((sp.addr + i) % 2 ^ 64)
def isOk (r : Except Bad Loc) : Bool := match r with | .ok _ => true | .error _ => false
def runLocs (x : View) (sp : Span) : List Loc := (runOf x sp).filterMap fun r => match r with | .ok c => some c | .error _ => none
theorem runLocs_eq (rs : List (Except Bad Loc)) (h : rs.all isOk = true) :
    rs = (rs.filterMap fun r => match r with | .ok c => some c | .error _ => none).map Except.ok := by
  induction rs with
  | nil => rfl
  | cons r rs ih =>
    simp only [List.all_cons, Bool.and_eq_true] at h
    cases r with
    | error b => exact absurd h.1 (by simp [isOk])
    | ok c => simp only [List.filterMap_cons, List.map_cons]; rw [← ih h.2]
/-- The byte accesses below an address of the group's own window are located, and the runs lie there. -/
def lowOk (x : View) (w : Bool) (n : Nat) : Bool := (List.range n).all fun a => isOk (locate x.s0 x.g
  { space := 0, bits := 8, sw := 0, write := w, atomic := false, stamped := false, kind := if w then 2 else 1 } x.low a)
def runsBelow (w : Bool) (n : Nat) (spans : List Span) : Bool :=
  spans.all fun sp => sp.unit_ == 1 && sp.space == 0 && sp.sw == 0 && sp.write == w && decide (sp.addr + sp.len ≤ n) && decide (n ≤ 2 ^ 64)
theorem spansAt (x : View) (w : Bool) (n : Nat) (spans : List Span) (loads : List Place) (h : lowOk x w n = true) (hr : runsBelow w n spans = true)
    (hs : x.g.stores = []) (hf : x.s0.teams.all (fun p => p.2.empty.isEmpty) = true) :
    SpansAt x spans ((spans.map (runLocs x)).map allPlaces) loads := by
  refine ⟨⟨_, rfl, ?_⟩, by rw [hs]; rfl, not_empty _ hf _⟩
  rw [List.map_map]
  refine List.map_congr_left fun sp hsp => ?_
  have hb := List.all_eq_true.mp hr sp hsp
  simp only [Bool.and_eq_true, beq_iff_eq, decide_eq_true_eq] at hb
  obtain ⟨⟨⟨⟨⟨h0, h1⟩, h2⟩, h3⟩, h4⟩, h5⟩ := hb
  rw [h0, Nat.div_one]
  simp only [Nat.mul_one, Nat.one_mul]
  refine runLocs_eq _ (List.all_eq_true.mpr fun r hm => ?_)
  obtain ⟨k, hk, rfl⟩ := List.mem_map.mp hm
  have hk := List.mem_range.mp hk
  rw [h1, h2, h3, Nat.mod_eq_of_lt (by omega)]
  exact List.all_eq_true.mp h _ (List.mem_range.mpr (by omega))
def fAload : Form := { tileRow .bf16 with b := sr (.s 4) }
set_option maxRecDepth 100000 in
theorem witness_TileInstructionsEnterTheQueue_aload : let s := stage fun g => g.setS 4 4
    let x := viewOf (.aload fAload) fAload s
    ∃ ps, SpansAt x ((List.range 64).map fun i => { space := 0, sw := 0, addr := (wordAt x + i * 4) % 2 ^ 64, len := 128, write := false, unit_ := 1 }) ps ps.flatten :=
  ⟨_, spansAt _ false 380 _ _ (by decide) (by decide) rfl rfl⟩
/-- Each matrix operation, with a type of A and a slot record that suits both operands. -/
def mmCases : List (((Form → Instr) × Nat) × Ty × SlotRec) :=
  let sl := fun n mx cplx => { slotR with fmt := n, mx := mx, cplx := cplx, rstride := 0 }
  [((.mmbf, 0), .bf16, sl 5 false false), ((.mmf8, 1), .e4m3, sl 7 false false), ((.mmi8, 2), .i8, sl 0xC false false), ((.mmx8, 3), .e4m3, sl 7 true false),
   ((.mmx6, 4), .e3m2, sl 9 true false), ((.mmx4, 5), .e2m1, sl 0xB true false), ((.mmcx, 6), .bf16, sl 5 false true), ((.mmf32, 7), .f32, sl 4 false false)]
def mmForm (ty : Ty) : Form := { tileRow ty with ext := at_ 0 (wCode ty.width) 0 }
set_option maxRecDepth 100000 in
theorem mmCases_checked : ∀ r ∈ mmCases, r.1.2 < 8 ∧
    let f := mmForm r.2.1
    let s := ctxSlot r.2.2 plain
    let x := viewOf (r.1.1 f) f s
    Runs (r.1.1 f) f s ∧ x.act = BitVec.allOnes 32 ∧ (bPair x).2 = 0 ∧ (s.ctx (s.launchOf x.g).ctxKey).slot 0 = some r.2.2 ∧
    (r.2.2.fmt = tysAll.idxOf f.ty ∧ r.2.2.fmt ∈ slotBTypes r.1.2 (tysAll.idxOf f.ty) ∧ r.2.2.mx = (shapeOf r.1.2).mx ∧
      r.2.2.cplx = (shapeOf r.1.2).cplx) ∧ wordAt x = 0 ∧ (bPair x).1 = 0 ∧
    lowOk x false 256 = true ∧ runsBelow false 256 (mmSpans x r.1.2 r.2.2 r.2.2) = true ∧ x.g.stores = [] ∧
    x.s0.teams.all (fun p => p.2.empty.isEmpty) = true := by decide
theorem witness_TileInstructionsEnterTheQueue_mm : ∀ r ∈ mmCases,
    let f := mmForm r.2.1
    let x := viewOf (r.1.1 f) f (ctxSlot r.2.2 plain)
    ∃ ps, SpansAt x (mmSpans x r.1.2 r.2.2 r.2.2) ps ps.flatten :=
  fun r hr => have h := (mmCases_checked r hr).2; ⟨_, spansAt _ false 256 _ _ h.2.2.2.2.2.2.2.1 h.2.2.2.2.2.2.2.2.1 h.2.2.2.2.2.2.2.2.2.1 h.2.2.2.2.2.2.2.2.2.2⟩
def fDrain : Form := { blank with len := .l128, d := .a 1, b := sr (.s 4), ty := .n8, ext := at_ 0 0 0 }
set_option maxRecDepth 100000 in
theorem witness_TileInstructionsEnterTheQueue_adrain : let x := viewOf (.adrain fDrain) fDrain (stage (quad 0 4 0 0 0))
    Runs (.adrain fDrain) fDrain (stage (quad 0 4 0 0 0)) ∧ x.act = BitVec.allOnes 32 ∧ (quadOf x fDrain.b.op).w2 = 0 ∧ (quadOf x fDrain.b.op).w1 = 4 ∧
    (quadOf x fDrain.b.op).src = 0 ∧ RoomFor x (64 * stagedSize 64) ∧
    ∃ ps, SpansAt x (((List.range 64).map fun i => { space := 0, sw := 0, addr := (0 + i * 4) % 2 ^ 64, len := 64, write := true, unit_ := 1 }) ++ []) ps (ps.drop 64).flatten :=
  ⟨by decide, by decide, by decide, by decide, by decide, fun h => absurd h (by decide), ⟨_, spansAt _ true 400 _ _ (by decide) (by decide) rfl rfl⟩⟩
def fAwait : Form := { blank with a := sr (.a 1) }
def fAread : Form := { blank with len := .l128, fn := 8, d := .v 8, a := sr (.a 1), b := sr (.s 4), ty := .b32, ext := BitVec.ofNat 64 (2 * 2 ^ 59) }
theorem witness_TilesReadAndAwaited : let s := plain.updTeam tk0 fun t => { t with issued := [(1, 1)] }
    Runs (.aready nil) nil plain ∧ (∀ e ∈ (plain.group g0).stores, e.path ≠ .ls ∧ e.path ≠ .cw) ∧
    Runs (.aready nil) nil busy ∧ (∃ e ∈ (busy.group g0).stores, e.path = .ls) ∧ Runs (.await fAwait) fAwait plain ∧
    Runs (.aread fAread) fAread plain ∧ (viewOf (.aread fAread) fAread plain).act = BitVec.allOnes 32 ∧ (plain.teamOf (plain.group g0)).queue = [] ∧
    mapGet 0 (plain.teamOf (plain.group g0)).issued 1 = mapGet 0 (plain.group g0).acks 1 ∧
    Runs (.aread fAread) fAread s ∧ mapGet 0 (s.teamOf (s.group g0)).issued 1 ≠ mapGet 0 (s.group g0).acks 1 := by decide

-- WITNESSES: TRAPS, SYSTEM REGISTERS, SCRIPTS
/-- The kernel has a handler, or the trap frame is open besides. -/
def handled (s : State) : State := s.updLaunch 1 fun l => { l with r := { l.r with hoff := 16 } }
def framed (m : Mask) : State := handled (stage fun g => { g with frame := true, tmask := m, tresume := 0x10008 })
theorem witness_TakingATrap : (∃ h, (handled plain).handler ((handled plain).group g0) = some h) ∧ (0x08 : Nat) ∉ fatalCodes ∧
    ((handled plain).group g0).frame = false ∧ plain.handler (plain.group g0) = none ∧ (plain.team tk0).stopped = false ∧
    (plain.launch (teamLaunch tk0)).images < 8 := ⟨⟨_, rfl⟩, by decide⟩
theorem witness_SharedChecksComeFirst : let f := bin .i32
    let u := plain.updLaunch 1 fun l => { l with r := { l.r with vregs := 8 } }
    let s := stage fun g => { g with binding := 2, m := [(1, 1)] }
    let h := { bin .i32 with g := 1 }
    allocOk (.addInt f) f (u.launchOf (u.group g0)).r.vregs = false ∧ allocOk (.addInt h) h (s.launchOf (s.group g0)).r.vregs = true ∧
    ∃ b, b < 32 / 2 ∧ let seg := segmentOf 2 (b * 2) &&& (s.group g0).live
      seg &&& (viewOf (.addInt h) h s).path ≠ 0 ∧ seg &&& guardMask (s.group g0) h ≠ 0 ∧ seg &&& guardMask (s.group g0) h ≠ seg := by
  refine ⟨by decide, by decide, 0, by decide⟩
def fTrap : Form := { blank with a := sr .imm, ty := .n64, x6 := 5 }
def dbgOn (s : State) : State := s.updFn 0 fun f => { f with dbg := true }
theorem witness_TrapsByInstruction : let room := dbgOn (plain.setCtx 0 { plain.ctx 0 with fqs := 8 })
    Runs (.trap fTrap) fTrap plain ∧ (viewOf (.trap fTrap) fTrap plain).act ≠ 0 ∧ Runs (.brk nil) nil plain ∧ (plain.fn 0).dbg = false ∧
    Runs (.brk nil) nil room ∧ (room.fn 0).dbg = true ∧ room.faultRoom 0 = true ∧ Runs (.tret nil) nil (framed (BitVec.allOnes 32)) ∧
    (BitVec.allOnes 32 : Mask) &&& ((framed 0).group g0).live &&& ~~~ ((framed (BitVec.allOnes 32)).group g0).tmask = 0 ∧
    Runs (.tret nil) nil plain ∧ (plain.group g0).frame = false := by decide
def fMark : Form := { blank with a := sr (.s 1), ty := .n32 }
def fSysr : Form := { blank with d := .s 1, ty := .n64, x6 := 7 }
def fSysw : Form := { blank with a := sr (.s 1), ty := .n64, x6 := 1 }
def fFlag (fn : Nat) : Form := { blank with fn := BitVec.ofNat 4 fn, d := .v 8, a := sr (.v 4), ty := .n32 }
theorem witness_SystemRegistersAndFlags : Runs (.mark fMark) fMark plain ∧ Runs (.sysr fSysr) fSysr plain ∧
    (7, (plain.launchOf (plain.group g0)).r.lsz) ∈ sysRows plain (plain.group g0) ∧ Runs (.sysw fSysw) fSysw (framed 1) ∧ ((framed 1).group g0).frame = true ∧
    Runs (.sysw fSysw) fSysw plain ∧ (plain.group g0).flagsDue = false ∧
    (∀ p ∈ [(0, sr (.v 0)), (1, sr (.v 4)), (2, sr (.v 4))], ∃ d ∈ [Opnd.v 0, .v 8], ∃ a ∈ [unused, sr (.v 4)],
      let f := { fFlag p.1 with d := d, a := a }; Runs (.flag f) f plain) := by decide
/-- A walk of three levels that maps the first gigabyte to itself, and memory cells besides. -/
def walked (cells : List (Nat × Byte)) (s : State) : State :=
  let s := s.setCtx 0 { s.ctx 0 with enabled := true, root := 0x1000, fqs := 8 }
  ([(0x1000, 1), (0x1001, 0x20), (0x2000, 1), (0x2001, 0x30), (0x3000, 7)] ++ cells).foldl (fun (s : State) (c : Nat × Byte) => s.setMemByte c.1 c.2) s
/-- A script of a comm step of group 5 and an end step. -/
def scriptCells : List (Nat × Byte) := [(0x20000, 7), (0x20002, 0x50), (0x2001A, 2)]
def scripted : State := mapped (walked scriptCells { stage (fun g => (g.setS 2 0x20000).setS 4 (BitVec.ofNat 64 (2 ^ 17))) with members := [(5, some mem5)] })
def fCst (fn : Nat) : Form := { blank with fn := BitVec.ofNat 4 fn, d := .s 1, a := sr (.s 2), b := sr (.s 4), ty := .n64 }
theorem witness_CollectiveInstructions : let f := fCst 0
    let x := viewOf (.cstart f) f scripted
    Runs (.cstart f) f scripted ∧ x.act ≠ 0 ∧ (∃ ls, accessAll scripted x.g slotAcc [(x.low, uniform64 x f.a)] = .locs ls) ∧ uniform64 x f.b = 2 * 2 ^ 16 ∧
    Performed x 15 4 ∧ scripted.scripts.length < 64 ∧ (scripted.launchOf x.g).det = false ∧ (∃ ws steps, readSlots scripted x (uniform64 x f.a) 256 0 false = .slots ws ∧
      readSteps 257 0 [] ws = some steps ∧ (steps.headD SStep.none).k = 5) ∧ scripted.memberOf (scripted.launchOf x.g).ctxKey 5 = some mem5 :=
  ⟨by decide, by decide, ⟨_, rfl⟩, by decide, ⟨fun _ => by decide, fun _ _ => by decide, by decide, by decide⟩, by decide, by decide, ⟨_, _, rfl, rfl, by rfl⟩, by decide⟩
def step0 (k : StepKind) (slot : Nat) : SStep := { SStep.none with slot := slot, kind := k, len := 16, addr := 0x20000, addr2 := 0x24000, pm := 1, k := 1, tag := 1 }
/-- A script at its second step, of the kind given. -/
def running (st : SStep) : Script :=
  { handle := 1, fn := 0, ctx := 0, grp := g0, core := 0, team := 0, rank := 0, size := 2, group := 5
    steps := [{ SStep.none with kind := .comm, k := 5 }, st, { SStep.none with slot := 3, addr := 0x28000 }], cur := 1, ctrs := [], arms := [(1, 0)], fresh := []
    sending := none, frag := none, since := 0, held := [], ovr := false, absent := false, closing := none }
def withScript (x : Script) : State := { scripted with scripts := [x] }
/-- What is kept of a script that has ended FAULTED at its third slot. -/
def fin0 : Final := { handle := 1, word := 0x20103, grp := g0, arms := [] }
def handle1 (s : State) : State := s.updGroup g0 fun g => g.setS 2 1
theorem witness_CollectiveInstructions_others : let x := running (step0 .recv 1)
    let armed := { x with arms := [(1, 2)] }
    let s := handle1 (withScript x)
    let u := handle1 (withScript armed)
    let f := fCst 1
    let ended := handle1 (plain.setCtx 0 { plain.ctx 0 with finals := [fin0] })
    Runs (.carm { f with d := .v 0 }) { f with d := .v 0 } s ∧ Names s 0 1 x ∧ Names u 0 1 armed ∧ (armed.armOf 1).getD 0 ≠ 0 ∧ (x.armOf 1).getD 0 = 0 ∧
    (s.group g0).sreg 2 = 1 ∧ (s.group g0).sreg 4 % 2 ^ 16 = 0 ∧ Runs (.cstat { fCst 2 with b := unused }) { fCst 2 with b := unused } s ∧
    ended.script 0 1 = none ∧ (ended.ctx 0).finals.find? (·.handle == 1) = some fin0 ∧
    (handle1 plain).script 0 1 = none ∧ ((handle1 plain).ctx 0).finals = [] :=
  ⟨by decide, rfl, rfl, by decide⟩
/-- Credit that rank 1 gave rank 0 for step 4 of its first script. -/
def credit0 : Credit := { group := 5, giver := 1, taker := 0, tag := 1, step := 4, script := 1024 }
theorem witness_ScriptSteps :
    (∀ k ∈ [StepKind.comm, .recv, .wait, .copy, .loop, .end_, .rrs], let x := running (step0 k 1); let s := withScript x
      s.script 0 1 = some x ∧ x.held = [] ∧ x.closing = none ∧ x.step.kind = k ∧ x.armOf x.step.slot = some 0 ∧ x.frag = none ∧ statusAt x = 0x28008 ∧
      (s.scriptWrite x.ck false (statusAt x) (bytesOf 8 0)).toOption.isSome = true ∧ (s.scriptRead x.ck true (x.addrOf x.step) x.step.len).toOption.isSome = true ∧
      (s.scriptWrite x.ck true x.step.addr2 (bytesOf 16 0)).toOption.isSome = true) ∧
    (let x := running (step0 .send 1); let s := { withScript x with credits := [credit0] }
      s.script 0 1 = some x ∧ x.step.kind = .send ∧ x.sending = none ∧ s.creditNews x = false ∧ x.peer x.step = some 1 ∧ s.creditFor x 1 x.step.tag = some credit0) ∧
    (∀ p ∈ [(0, 0), (1, 1)], let d : Sending := { peer := 1, tag := 1, addr := 0x20000, len := 16, toStep := 4, toName := 1024, next := p.1, acked := p.2, id := 9 }
      let x := { running (step0 .send 1) with sending := some d }; let s := withScript x
      s.script 0 1 = some x ∧ s.rankPkg x d.peer = some 1 ∧ chunksOf d.len = 1 ∧ (s.scriptRead x.ck true (d.addr + 4096 * d.next) 16).toOption.isSome = true) := by decide

-- WITNESSES: MEMORY AT ITS HOMES, COPIES, TILES, WAITS
theorem sound (s : State) (hp : s.poisoned = []) (ha : s.inject.arm = false) (ps : List Place) : s.badRead ps = none := by
  refine List.find?_eq_none.mpr fun p _ => ?_
  cases p <;> simp [hp, ha]
def wr0 (en : Byte) : Store := { st0 with seq := 0, op := .write [{ place := .vault tk0 0, val := 7, en := en }] }
def loading (es : List Store) : State := stage fun g => { g with loads := [ld0], stores := es }
def early (es : List Store) : List Store := es.filter fun e => e.path == ld0.path && e.seq < ld0.seq && overlaps e.op.places ld0.places
theorem witness_LoadsBind : (∀ es ∈ [[], [wr0 0xFF], [wr0 0x0F]], ((loading es).group g0).loads[0]? = some ld0 ∧
      ((loading es).teamOf ((loading es).group g0)).dead = false ∧ ((loading es).group g0).stores = es ∧
      ∀ e ∈ ((loading es).group g0).loads, e.seq < ld0.seq → e.path = ld0.path → overlaps e.places ld0.places = false) ∧
    early [] = [] ∧ (loading []).badRead ld0.places = none ∧ ld0.places.head? ≠ some (.page 0 0) ∧ ld0.acq < 2 ∧
    (ld0.places.map fun p => (latestTo (early [wr0 0xFF]) p).bind fun e => (forwarded e p).map fun b => (e, b)) = [(wr0 0xFF, 7)].map some ∧
    latestTo (early [wr0 0x0F]) (.vault tk0 0) = some (wr0 0x0F) ∧ forwarded (wr0 0x0F) (.vault tk0 0) = none := by decide
def entry (s : State) (e : Store) : State := s.updGroup g0 fun g => { g with stores := [e] }
def memWords : List Place := [.mem 0x20000, .mem 0x20001, .mem 0x20002, .mem 0x20003]
def wrMem : Store := { st0 with path := .g, op := .write [{ place := .mem 0x20000, val := 7, en := 0xFF }] }
def rmw0 (op : RmwOp) : Store := { st0 with path := .g, op := .rmw op .n32 memWords 1 0 none 1 }
theorem applies (s : State) (p : Path) (e : Store) (h : e.path = p ∧ (s.team tk0).dead = false ∧ (s.group g0).team = tk0 ∧ (s.group g0).stores = [e] ∧
    s.unboundBefore g0 e.seq = false ∧ e.rel = 0 ∧ (s.group g0).markAhead e = false ∧ s.lineBusy e.op = false ∧ s.fabricBehind g0 e = false ∧
    s.stampedBehind g0 e = false) : AppliesNow s g0 p e :=
  ⟨by rw [State.teamOf, h.2.2.1]; exact h.2.1, by rw [h.2.2.2.1]; simp [h.1], h.2.2.2.2.1, fun hr => absurd hr (by rw [h.2.2.2.2.2.1]; decide), h.2.2.2.2.2.2.1, h.2.2.2.2.2.2.2.1, h.2.2.2.2.2.2.2.2.1, h.2.2.2.2.2.2.2.2.2⟩
theorem witness_StoresReachTheirHomes : AppliesNow (entry plain wrMem) g0 .g wrMem ∧ stages (entry plain wrMem) g0 .g = false ∧
    AppliesNow (entry (later plain) wrMem) g0 .g wrMem ∧ stages (entry (later plain) wrMem) g0 .g = true ∧ wrMem.op.places ≠ [] ∧
    (entry (later plain) wrMem).drainsBefore g0 wrMem.seq = false ∧ ((later plain).launchOf ((later plain).group g0)).token ≠ teamIndex tk0 ∧
    AppliesNow (entry plain st0) g0 .ls st0 ∧ (plain.team tk0).bline 0 = none :=
  ⟨applies _ _ _ (by decide), by decide, applies _ _ _ (by decide), by decide, by decide, by decide, by decide, applies _ _ _ (by decide), by decide⟩
theorem wordOf (s : State) (hp : s.poisoned = []) (ha : s.inject.arm = false) : WordOf s memWords (ofBytes (memWords.map s.byteAtHome)) :=
  ⟨by simp [memWords], by decide, sound s hp ha _, rfl⟩
def update0 : Msred := { seq := 1, op := .add, mode := .rne, ty := .n32, va := 0, places := memWords, operand := 5, opc := 0, pc := 0x10000 }
theorem witness_AtomicsAtTheirHomes : AppliesNow (entry plain (rmw0 .add)) g0 .g (rmw0 .add) ∧ stages (entry plain (rmw0 .cas)) g0 .g = false ∧
    AppliesNow (entry plain (rmw0 .cas)) g0 .g (rmw0 .cas) ∧ (∃ old, WordOf (entry plain (rmw0 .cas)) memWords old) ∧
    let s := stage fun g => { g with msreds := [update0] }
    (s.group g0).msreds[0]? = some update0 ∧ (s.teamOf (s.group g0)).dead = false ∧ s.unboundBefore g0 1 = false ∧ ∃ old, WordOf s update0.places old :=
  ⟨applies _ _ _ (by decide), by decide, applies _ _ _ (by decide), ⟨_, wordOf _ rfl rfl⟩, by decide, by decide, by decide, _, wordOf _ rfl rfl⟩
/-- A unit of a copy of one byte to a line of the window, or to device memory; the line was marked empty. -/
def unit0 (w : Place) (tm : Option Nat) : Unit_ := { team := tm, line := 0, words := [(w, .mem 0x20000, none)], held := [], row := 0 }
def copying (u : Unit_) (m : Option Gcm) : State :=
  { streams (emptied plain) with copies := [{ id := 1, path := .ls, grp := g0, seq := 1, pc := 0x10000, units := [u], gcm := m }] }
def gcm0 : Gcm := { ctx := 0, stream := 3, ctr := 9, src := (List.range 20).map fun i => .mem (0x20000 + i), dst := (List.range 4).map fun i => .vault tk0 i, text := none }
theorem witness_CopiesFill : ∀ p ∈ [(Place.vault tk0 0, some tk0), (.mem 0x30000, none)], let u := unit0 p.1 p.2
    let d : Copy := { id := 1, path := .ls, grp := g0, seq := 1, pc := 0x10000, units := [u], gcm := none }
    (copying u none).copies.find? (fun c => c.id == 1 && c.gcm.isNone) = some d ∧ d.units[0]? = some u ∧ (copying u none).mayFill d u = true ∧
    (copying u none).badRead (u.words.filterMap fun w => match w.2.2 with | none => some w.2.1 | some _ => none) = none ∧
    ∀ w ∈ u.words, w.2.1 = .mem 0x20000 ∧ w.1 = p.1 := by decide
theorem witness_CopiesFill_gcm : let u := unit0 (.vault tk0 0) (some tk0)
    let s := copying u (some gcm0)
    let d : Copy := { id := 1, path := .ls, grp := g0, seq := 1, pc := 0x10000, units := [u], gcm := some gcm0 }
    s.copies.find? (·.id == 1) = some d ∧ s.laterMessage 1 gcm0 = false ∧ s.markDue d u = false ∧ s.writesDue g0 1 gcm0.src = false ∧
    s.unboundBefore g0 1 = false ∧ (s.teamOf (s.group g0)).dead = false ∧ s.badRead gcm0.src = none ∧ (∀ p ∈ gcm0.src, ∀ fn o, p ≠ .page fn o) ∧
    (∃ st, (s.ctx 0).stream 3 = some st ∧ st.high < gcm0.ctr.toNat) ∧ (d.units.map fun u => (u.team, u.line)).Nodup :=
  ⟨by decide, by decide, by decide, by decide, by decide, by decide, by decide, offPage_all _ (by decide), ⟨_, rfl, by decide⟩, by decide⟩
def queued (w : Entry) : State := plain.updTeam tk0 fun t => { t with queue := [{ grp := g0, seq := 1, tile := 0, cnt := 1, pc := 0x10000, what := w }] }
def q0 (w : Entry) : QEntry := { grp := g0, seq := 1, tile := 0, cnt := 1, pc := 0x10000, what := w }
def opnd0 : TileOp := { isCw := false, base := 0, sw := 0, slot := slotR }
def drain0 : Drain :=
  { fn := 1, x6 := 0, ty := .e2m1, poisoned := false, space := 2, rows := (List.range 64).map fun i => (List.range 32).map fun j => .mem (0x20000 + (32 * i + j))
    addrs := [], eps := 0, scl := 0, bias := [], tregs := 8, norm := [], count := 0 }
theorem witness_MatrixEntries : ∀ w ∈ [Entry.azero, .aload .bf16 false 0 0 4, .mm 0 .bf16 true opnd0 opnd0, .adrain drain0], Performs (queued w) tk0 (q0 w) [] := by
  intro w hw
  simp only [List.mem_cons, List.not_mem_nil, or_false] at hw
  obtain rfl | rfl | rfl | rfl := hw
  all_goals exact ⟨rfl, rfl, rfl, sound _ rfl rfl _⟩
set_option maxRecDepth 100000 in
theorem drain0_rows : drain0.rows.flatten = (List.range 2048).map fun k => .mem (0x20000 + k) := by
  rfl
theorem witness_MatrixEntries_drain : ¬ (drain0.space = 2 ∧ ((queued .azero).launchOf ((queued .azero).group g0)).det = true) ∧ drain0.rows.length = 64 ∧
    drain0.rows.flatten.Nodup ∧ (∀ r ∈ drain0.rows, r.length = 64 * drain0.ty.width / 8) ∧
    ∀ p ∈ drain0.rows.flatten, ∃ a, p = .mem a ∧ (queued .azero).poisoned.contains (granule a) = false := by
  refine ⟨by decide, by decide, ?_, by decide, ?_⟩
  · rw [drain0_rows]
    exact List.pairwise_map.mpr (List.nodup_range.imp fun h e => h (by simpa using e))
  · rw [drain0_rows]
    intro p hp
    obtain ⟨k, -, rfl⟩ := List.mem_map.mp hp
    exact ⟨_, rfl, rfl⟩
def parked (h : Group → Group) (c : Cond) (l : Nat) : State := stage fun g => (h g).updLanes (2 ^ l) fun y => { y with cond := c }
theorem witness_WaitsThatEnd : (plain.teamOf (plain.group g0)).stopped = false ∧
    (let s := parked (fun g => g.setJ 1 3) (.join 1) 0;
     maskBit ((s.group g0).parkedAt (0x10000, 1)) 0 = true ∧ (s.group g0).jreg 1 &&& (s.group g0).live &&& ~~~ (s.group g0).parkedAt (0x10000, 1) ≠ 0) ∧
    (let s := parked (fun g => g.setJ 1 1) (.join 1) 0;
     maskBit ((s.group g0).parkedAt (0x10000, 1)) 0 = true ∧ (s.group g0).jreg 1 &&& (s.group g0).live &&& ~~~ (s.group g0).parkedAt (0x10000, 1) = 0) ∧
    (let s := ((stage fun g => { g with stall := some 3, why := .empty false [(tk0, 2), (tk0, 1), (tk0, 0)] }).setBay 0 { Bay.none with cyc := 9 }).updTeam
       tk0 fun t => { t with empty := [(1, true), (2, true)] };
     (s.group g0).stall = some 3 ∧ 3 < s.groupCyc (s.group g0) ∧
     (s.emptyLines [(tk0, 2), (tk0, 1), (tk0, 0)]).map (fun x => s.lineAddr (s.group g0) (false || x.1 != (s.group g0).team) x.1 (128 * x.2)) = [256, 128]) ∧
    (let s := emptied ((stage fun g => { g with held := some 3, loads := [ld0] }).setBay 0 { Bay.none with cyc := 9 });
     (s.group g0).stall = none ∧ (s.group g0).held = some 3 ∧ 3 < s.groupCyc (s.group g0) ∧ ∃ h, s.heldAccess (s.group g0) = some h ∧
     h.lanes &&& (s.group g0).voting ≠ 0 ∧ h.lines.map (fun x => s.lineAddr (s.group g0) (h.path == .cw || x.1 != (s.group g0).team) x.1 (128 * x.2)) = [0]) ∧
    (let s := parked id (.barrier false tk0 0 5 9) 0;
     ((s.group g0).lane 0).cond = .barrier false tk0 0 5 9 ∧ 9 ≤ (s.setBay 0 { Bay.none with cyc := 9 }).groupCyc (s.group g0)) ∧
    (let s := { lined line0 [] plain with net := [{ to_ := 0, from_ := 0, msg := .barArrive tk0 0 0 5 }, { to_ := 0, from_ := 0, msg := .barRelease tk0 0 tk0 6 }] };
     s.barLine tk0 0 = some line0 ∧ s.net.length = 2 ∧ (s.launch (teamLaunch tk0)).r.groups ≤ 32) ∧
    (let s := plain.setCore 0 Core.none;
     s.freeIssueSlot 0 = some 0 ∧ s.grantee 0 = some g0) :=
  ⟨by decide, by decide, by decide, by decide, ⟨by decide, by decide, by decide, _, rfl, by decide, by decide⟩, by decide⟩

-- WITNESSES: STAMPED LINES AND MULTICAST
/-- Letters of this module on their way to it. -/
def letters (ms : List Msg) (s : State) : State := { s with net := ms.map fun m => { to_ := 0, from_ := 0, msg := m } }
def ver0 : Version := { stamp := 100, pkg := 0, core := 0, slot := 0, bytes := List.replicate 64 0 }
/-- A walk to a stamped page, whose window begins at 0x20000. -/
def stampedWalk (s : State) : State :=
  let s := walked [(0x3000, 23)] s
  s.setCtx 0 { s.ctx 0 with rwbase := 0x20000, rwlen := 0x1000 }
def at_est (e : Nat) (s : State) : State := inTime (fun b => { b with est := BitVec.ofNat 64 e }) s
theorem witness_VersionsArrive : ¬ InStampedPitch plain ∧ InStampedPitch (at_est 10 plain) ∧ InStampedPitch (at_est 29 plain) ∧
    (∃ s, InStampedPitch s ∧ Comes s 0 0 (.version 0x800 ver0 g0 0x20000) ∧ KeepsVersion (taken s 0) ver0) ∧
    (∃ s, InStampedPitch s ∧ Comes s 0 0 (.version 0x800 ver0 g0 0x20000) ∧ ¬ KeepsVersion (taken s 0) ver0) ∧
    (∃ s, InStampedPitch s ∧ Comes s 0 0 (.remoteVersion 0 0 0 ver0 g0 0) ∧ s.remotePlace 0 0 0 = none) ∧
    (∃ s a, InStampedPitch s ∧ Comes s 0 0 (.remoteVersion 0 0 0 ver0 g0 0) ∧ s.remotePlace 0 0 0 = some a) ∧
    ∃ s, Comes s 0 0 (.stampReply g0 false 100) ∧ (s.group g0).live ≠ 0 :=
  ⟨by decide, by decide, by decide, ⟨letters [_] (at_est 10 plain), by decide, ⟨_, rfl, rfl, rfl⟩, by decide, by decide, by decide⟩,
    ⟨letters [_] (inTime (fun b => { b with state := 3, est := 20 }) plain), by decide, ⟨_, rfl, rfl, rfl⟩, fun h => absurd h.1 (by decide)⟩,
    ⟨letters [_] (at_est 10 plain), by decide, ⟨_, rfl, rfl, rfl⟩, by decide⟩,
    ⟨letters [_] (at_est 10 (stampedWalk plain)), _, by decide, ⟨_, rfl, rfl, rfl⟩, rfl⟩,
    letters [_] plain, ⟨_, rfl, rfl, rfl⟩, by decide⟩
/-- An rdat of lane 0 that waits for time 100: of line 0x800 here, or of another module's window. -/
def rd (home : Option Nat) (line : DWord) (sent : Bool) : RdatWait :=
  { lanes := 1, path := 1, pc := 0x10000, t := 100, line := line, home := home, offs := [(0, [0, 1, 2, 3])], dst := .v 8, ty := .n32, sreg := 4, sent := sent
    failed := false, seq := 1 }
def farLine (pkg : Nat) : DWord := BitVec.ofNat 64 (0x801 * 2 ^ 52 + pkg * 2 ^ 40)
def reading (w : RdatWait) (h : State → State) : State := h (stage fun g => { g with rdat := some w })
theorem witness_StampedWaitsEnd : (let s := stage fun g => { g with hold := some 100 };
      (s.group g0).hold = some 100 ∧ (100 : DWord).toNat < (at_est 200 s).tb.earliest ∧ s.tb.state ≠ 3 ∧ s.tb.earliest ≤ (100 : DWord).toNat) ∧
    (∀ w ∈ [rd (some 0x20000) 0 false, rd none (farLine 7) false, rd none (farLine 0) false], ((reading w id).group g0).rdat = some w ∧ w.failed = false) ∧
    ((reading { rd none (farLine 7) true with failed := true } id).group g0).rdat = some { rd none (farLine 7) true with failed := true } ∧
    (plain.teamOf (plain.group g0)).dead = false ∧ plain.unreachable 7 = true ∧ (plain.setPort 0 { Port.none with state := 2, peerPkg := 7 }).unreachable 7 = false ∧
    plain.tb.earliest ≤ (100 : DWord).toNat + plain.tb.dlvb ∧ (100 : DWord).toNat + plain.tb.dlvb < (at_est 1000 plain).tb.earliest ∧
    ({ plain with lines := [(0x800, [ver0])] } : State).versions (0x20000 / 64) ≠ [] ∧ plain.badRead [.stamped 0x20000] = none ∧
    remoteAddr (farLine 7).toNat = some (7, 0) ∧ 7 ≠ plain.pkg ∧ remoteAddr (farLine 0).toNat = some (plain.pkg, 0) ∧ plain.remotePlace 0 0 0 = none := by decide
theorem witness_StampedWaitsEnd_letters : (let s := letters [.readReply g0 1 ver0 0] (reading (rd none (farLine 7) true) id);
      (s.group g0).rdat = some (rd none (farLine 7) true) ∧ Comes s 0 0 (.readReply g0 1 ver0 0)) ∧
    Comes (letters [.readPoison g0 1] (reading (rd none (farLine 7) true) id)) 0 0 (.readPoison g0 1) ∧
    (∀ (s : State) j l, j < 0 → s.net[j]? = some l → ¬ repliesTo g0 1 l.msg) ∧
    (let s := letters [.reject g0 (farLine 7) 1] (reading (rd none (farLine 7) true) id);
      Comes s 0 0 (.reject g0 (farLine 7) 1) ∧ (s.group g0).rdat = some (rd none (farLine 7) true) ∧ (rd none (farLine 7) true).seq = 1) ∧
    ∃ s p, Comes s 0 0 (.reject g0 (farLine 7) 0) ∧
      s.pendings.find? (fun p => p.grp == g0 && p.va == farLine 7 && !p.replied && p.kind != 0) = some p :=
  ⟨⟨rfl, ⟨_, rfl, rfl, rfl⟩⟩, ⟨_, rfl, rfl, rfl⟩, fun _ j _ h => absurd h (Nat.not_lt_zero j), ⟨⟨_, rfl, rfl, rfl⟩, rfl, rfl⟩,
    letters [_] { plain with pendings := [{ id := 1, grp := g0, seq := 1, kind := 4, group := 0, pc := 0x10000, va := farLine 7, sreg := 0, dst := [], ty := .n32,
                                            waits := [], replied := false, placed := false, cancel := false, issued := 0 }] }, _, ⟨_, rfl, rfl, rfl⟩, rfl⟩
/-- This module has the crier of group 5 and is one of its two members. -/
def sent4 : Sent := { num := 4, at_ := 0, id := 1, sender := 0, answered := false }
def crier0 : Crier := { size := 2, list := [0, 1], wlen := 0x1000, rlim := 15, root := 0, number := 4, hold := none, sent := [sent4], olds := []
                        members := [{ rank := 0, pkg := 0, stale := false, acked := 4 }, { rank := 1, pkg := 1, stale := false, acked := 3 }] }
def grouped (m : Member) (ms : List Msg) : State := letters ms { at_est 100 plain with members := [(5, some m)], criers := [(5, crier0)] }
def store5 : McStore := .bytes [(0, 7, 0xFF)]
theorem witness_SequencedStores : Comes (grouped mem5 [.mcsq 5 store5 1]) 0 0 (.mcsq 5 store5 1) ∧ crier0.hold = none ∧ crier0.size ≠ 0 ∧ crier0.number + 1 < 2 ^ 48 ∧
    (grouped mem5 []).crier 5 = crier0 ∧ Comes (grouped mem5 [.applied 5 4 1 0 1 0]) 0 0 (.applied 5 4 1 0 1 0) ∧
    (grouped mem5 []).crier 6 = Crier.none ∧ ({ crier0 with hold := some { rank := 1, pkg := 1, source := none, n0 := 0 } }).hold ≠ none ∧ ({ crier0 with number := 2 ^ 48 - 1 }).number + 1 = 2 ^ 48 ∧
    ((∃ m ∈ crier0.members, m.stale = false ∧ m.pkg = sent4.sender) ∧ sent4.answered = false ∧
     ∀ m ∈ crier0.members.map (fun m => { m with stale := m.pkg == 0 }), m.stale = false → m.pkg ≠ sent4.sender) ∧
    Comes (grouped mem5 [.seqCancel 5 1, .mcsq 5 store5 1]) 0 0 (.seqCancel 5 1) ∧
    (∀ n, Comes (grouped mem5 [.numbered 5 n store5 1 0]) 0 0 (.numbered 5 n store5 1 0)) ∧ (grouped mem5 []).member 5 = some mem5 ∧ mem5.stale = false ∧ mem5.count = 0 ∧
    Comes (grouped mem5 [.mcst 5 store5 1 g0]) 0 0 (.mcst 5 store5 1 g0) ∧
    (∀ j group st id, j < 0 → ¬ Comes (grouped mem5 [.mcst 5 store5 1 g0]) j 0 (.mcst group st id g0)) ∧
    crier0.members.find? (·.rank == 1) = some { rank := 1, pkg := 1, stale := false, acked := 3 } ∧
    (∃ p ∈ crier0.sent, 3 < p.num ∧ p.at_ + crier0.rlim ≤ (grouped mem5 []).tb.est.toNat) :=
  ⟨⟨_, rfl, rfl, rfl⟩, by decide, by decide, by decide, by decide, ⟨_, rfl, rfl, rfl⟩, by decide, by decide, by decide, by decide, ⟨_, rfl, rfl, rfl⟩,
    fun _ => ⟨_, rfl, rfl, rfl⟩, by decide, by decide, by decide, ⟨_, rfl, rfl, rfl⟩, fun j _ _ _ h => absurd h (Nat.not_lt_zero j), by decide, by decide⟩
/-- A fabric access of a kind that waits for its reply. -/
def pend (k : Nat) : Pending := { id := 1, grp := g0, seq := 1, kind := k, group := 5, pc := 0x10000, va := 0, sreg := 4,
                                  dst := [{ isS := false, reg := 8, lane := 0, ty := .n32 }], ty := .n32, waits := [0], replied := k == 0, placed := false, cancel := false
                                  issued := 0 }
def fold0 : Fold := { id := 1, sender := 0, group := 5, op := 0, ty := .i32, waits := [0, 1], lanes := 1, answers := [], since := 0 }
def replying (k : Nat) (m : Member) (ms : List Msg) : State := { grouped m ms with pendings := [pend k], folds := [fold0] }
theorem witness_MulticastReplies : (replying 1 mem5 []).pendings.find? (·.id == 1) = some (pend 1) ∧ (pend 1).replied = false ∧ mem5.count < 1 ∧ (0 : Nat) ≤ mem5.count ∧
    (replying 1 mem5 []).sentOff (pend 1) = true ∧ (pend 1).issued + (replying 1 mem5 []).rlimOf (pend 1) < (replying 1 mem5 []).tb.est.toNat ∧
    (replying 1 mem5 []).pendings.find? (fun p => p.id == 1 && (p.kind == 1 || p.kind == 2) && !p.replied) = some (pend 1) ∧ (pend 1).placed = false ∧
    (pend 1).cancel = false ∧ ((replying 1 mem5 []).net ++ (replying 1 mem5 []).outbox = []) ∧ (replying 1 mem5 []).unreachable mem5.root = false ∧
    (plain.unreachable 7 = true) ∧ (∃ l ∈ (replying 1 mem5 [.seqFail 1]).net, l.msg = .seqFail 1) ∧ (∃ l ∈ (replying 1 mem5 [.seqDone 1]).net, l.msg = .seqDone 1) ∧
    (∃ l ∈ (replying 1 mem5 [.mcsq 5 store5 1]).net, l.from_ = (replying 1 mem5 []).pkg ∧ l.msg = .mcsq 5 store5 1) := by decide
theorem witness_MulticastReplies_answers :
    (replying 0 mem5 []).pendings.find? (fun p => p.id == 1 && p.kind ≤ 2) = some (pend 0) ∧
    (∀ r ∈ (pend 0).waits, ∃ l ∈ (replying 0 mem5 [.mcstAck 1 0]).net, l.msg = .mcstAck 1 r) ∧
    ((replying 3 mem5 []).crier 5).size ≠ 0 ∧
    (replying 3 mem5 []).folds.find? (fun f => f.id == 1 && f.sender == 0 && f.waits.contains 1) = some fold0 ∧ (∃ r ∈ fold0.waits, r ≠ 1) ∧
    (replying 3 mem5 []).folds.find? (fun f => f.id == 1 && f.since + ((replying 3 mem5 []).crier f.group).rlim ≤ (replying 3 mem5 []).tb.est.toNat) = some fold0 ∧
    (replying 3 mem5 []).pendings.find? (fun p => p.id == 1 && p.kind == 3) = some (pend 3) ∧
    (pend 3).issued + 2 * (replying 3 mem5 []).rlimOf (pend 3) < (replying 3 mem5 []).tb.est.toNat := by decide
theorem witness_MulticastReplies_letters : (∀ n, Comes (replying 1 mem5 [.seqReply 1 n 0]) 0 0 (.seqReply 1 n 0)) ∧
    Comes (replying 3 mem5 [.mldr 5 [(0, 0)] 0 .i32 2]) 0 0 (.mldr 5 [(0, 0)] 0 .i32 2) ∧
    Comes (replying 3 mem5 [.mldrAnswer 5 1 [7] 1 0]) 0 0 (.mldrAnswer 5 1 [7] 1 0) ∧
    Comes (replying 3 mem5 [.mldrReply 1 [7] 0 3]) 0 0 (.mldrReply 1 [7] 0 3) :=
  ⟨fun _ => ⟨_, rfl, rfl, rfl⟩, ⟨_, rfl, rfl, rfl⟩, ⟨_, rfl, rfl, rfl⟩, _, rfl, rfl, rfl⟩

-- WITNESSES: GROUPS, SCRIPTS BETWEEN MODULES, WALKS, REGISTERS
/-- A descriptor of group 5 at 0x26000 with its list at 0x24000, as function 0 names it. -/
def descriptor5 (first : Nat) (s : State) : State :=
  let s := walked [] s
  let s := s.setMemBytes 0x26000 (bytesOf 2 1 ++ bytesOf 2 5 ++ bytesOf 2 2 ++ bytesOf 2 0 ++ bytesOf 8 0x40000 ++ bytesOf 8 0x10000 ++ bytesOf 8 0x28000 ++
    bytesOf 8 0x24000 ++ List.replicate 24 0)
  (s.setMemBytes 0x24000 (bytesOf 2 first ++ bytesOf 2 1)).setFn 0 { s.fn 0 with mcgd := 0x26000 }
def joined5 (first : Nat) : Member :=
  { fn := 0, ctx := 0, size := 2, rank := 0, wbase := 0x40000, wlen := 0x10000, acnt := 0x28000, list := [first, 1], rlim := 2500, root := 0, count := 0, stale := false
    live := [0, 1] }
set_option maxRecDepth 100000 in
theorem witness_JoiningAGroup : (plain.fn 0).tdi ≠ .run ∧ readMember plain 0 0 = none ∧ (descriptor5 0 plain).pkg = 0 ∧
    readMember (descriptor5 0 plain) 0 0 = some (5, joined5 0) ∧ (joined5 0).list.getD (joined5 0).rank 0 = 0 ∧
    readMember (descriptor5 3 plain) 0 0 = some (5, joined5 3) ∧ (joined5 3).list.getD (joined5 3).rank 0 ≠ 0 ∧ (descriptor5 0 plain).member 5 = none ∧
    ({ descriptor5 0 plain with members := [(5, some { mem5 with ctx := 1 })] } : State).member 5 = some { mem5 with ctx := 1 } ∧
    (grouped mem5 []).memberOf 0 5 = some mem5 ∧ (grouped { mem5 with stale := true } []).memberOf 0 5 = some { mem5 with stale := true } := by decide
theorem witness_JoiningAGroup_letters : Comes (grouped mem5 [.joinReply 5 0 4]) 0 0 (.joinReply 5 0 4) ∧ (grouped mem5 []).joiner 5 = some mem5 ∧ mem5.fn = 0 ∧
    Comes (grouped { mem5 with stale := true } [.resyncCopy 5 4 [(0, 7)]]) 0 0 (.resyncCopy 5 4 [(0, 7)]) ∧
    (grouped { mem5 with stale := true } []).member 5 = some { mem5 with stale := true } := ⟨⟨_, rfl, rfl, rfl⟩, by decide, by decide, ⟨_, rfl, rfl, rfl⟩, by decide⟩
def chunk0 : Msg := .chunk 5 1 0 1 1024 0 (List.replicate 16 7) 9
def receiving (n : Nat) (ms : List Msg) : State := letters ms (withScript { running (step0 .recv 1) with arms := [(1, n)] })
theorem witness_ScriptsBetweenModules : (∀ n, n < 2 → let x := { running (step0 .recv 1) with arms := [(1, n)] }
      let s := receiving n [chunk0]
      s.script 0 1 = some x ∧ x.closing = none ∧ x.held = [] ∧ x.stepAt 1 = some (step0 .recv 1) ∧ (x.armOf 1).getD 0 = n ∧
      ((taken s 0).scriptWrite x.ck true ((x.addrOf (step0 .recv 1) + 0) % 2 ^ 64) (List.replicate 16 7)).toOption.isSome = true) ∧
    Comes (receiving 1 [chunk0]) 0 0 chunk0 ∧ Comes (receiving 1 [.credit credit0]) 0 0 (.credit credit0) ∧
    Comes (receiving 1 [.uncredit credit0]) 0 0 (.uncredit credit0) ∧ Comes (receiving 1 [.chunkAck 9]) 0 0 (.chunkAck 9) :=
  ⟨by decide, ⟨_, rfl, rfl, rfl⟩, ⟨_, rfl, rfl, rfl⟩, ⟨_, rfl, rfl, rfl⟩, ⟨_, rfl, rfl, rfl⟩⟩
def fragment (st : Nat) (s : State) : State := s.setLaunch 9 { Launch.none with script := some (0, 1), extra := st }
theorem witness_ScriptsBetweenModules_events :
    (let x := running (step0 .recv 1); let s := at_est 100 (withScript x); let late := at_est 10000 (withScript x)
     s.script 0 1 = some x ∧ PeerLate late x ∧ (late.scriptWrite x.ck false (statusAt x) (bytesOf 8 1)).toOption.isSome = true) ∧
    (∀ st ∈ [0, 5], (fragment st (withScript (running (step0 .rrs 1)))).launches.find? (fun p => p.2.script == some (0, 1) && !p.2.active) =
      some (9, { Launch.none with script := some (0, 1), extra := st })) ∧
    (let x := { running (step0 .copy 1) with held := [] }; let s := (withScript x).setCtx 0 { (withScript x).ctx 0 with root := 0x100000 }
     s.script 0 1 = some x ∧ (∃ slot va level kind, s.scriptFail x = some (slot, .fault va level kind)) ∧ s.faultRoom 0 = true) ∧
    (let x := running { step0 .copy 1 with addr := 2 ^ 57 }; x.closing = none ∧ ∃ slot, (withScript x).scriptFail x = some (slot, .bad)) ∧ plain.script 0 1 = none :=
  ⟨⟨by decide, ⟨by decide, by decide⟩, by decide⟩, by decide, ⟨by decide, ⟨_, _, _, _, by rfl⟩, by decide⟩, ⟨by decide, _, by rfl⟩, by decide⟩
/-- Chunks for scripts that can take none, and for one that has ended. -/
theorem witness_ScriptsBetweenModules_late : Names plain (1024 % 1024) (1024 / 1024) (running (step0 .recv 1)) = Names plain 0 1 (running (step0 .recv 1)) ∧
    (∀ x ∈ [{ running (step0 .recv 1) with closing := some (3, []) }, { running (step0 .recv 1) with held := [(7, 1)] }], (withScript x).script 0 1 = some x) ∧
    plain.script 0 1 = none ∧ (∀ f ∈ [fin0, { fin0 with word := 0x20100 }], ((plain.setCtx 0 { plain.ctx 0 with finals := [f] }).ctx 0).finals.find? (·.handle == 1) = some f) ∧
    (0x20103 : DWord).toNat % 256 = 3 ∧ (0x20100 : DWord).toNat % 256 ≠ 3 ∧ mapGet 0 fin0.arms 1 = 0 := ⟨rfl, by decide⟩
def walk0 (held : Option Nat) : Walk := { ctx := 0, page := 2, kind := 1, joined := [(g0, 1)], held := held }
def walking (held : Option Nat) (s : State) : State := { s with walks := [walk0 held] }
theorem witness_WalksAndFaults : (walking none plain).walks[0]? = some (walk0 none) ∧ (∃ tr, (walking none (walked [] plain)).walkPage 0 2 = .ok tr) ∧
    (∃ l, (walking none plain).walkPage 0 2 = .error l) ∧ plain.faultRoom 0 = true ∧
    (plain.setCtx 0 { plain.ctx 0 with open_ := [(7, 0)] }).faultRoom 0 = false ∧ ((walk0 none).joined.map (·.1)).Nodup ∧
    (walking (some 4) plain).walks[0]? = some (walk0 (some 4)) ∧ (plain.setCtx 0 { plain.ctx 0 with open_ := [(7, 0)] }).openCtxs 0 7 ≠ [] ∧
    (parked id (.suspended [7]) 0).suspendedGroups 0 7 = [g0] ∧ plain.openCtxs 0 7 = [] := by
  refine ⟨by decide, ⟨_, by rfl⟩, ⟨_, by rfl⟩, by decide⟩
def inv0 : Inval := { ctx := 0, page := none, seqs := [(g0, 1)] }
def enabling (old want : BitVec 16) (s : State) : State := s.setFn 0 { s.fn 0 with ctxen := old, enWant := want, ctxt := 0x26000 }
theorem witness_InvalidationAndContexts : (plain.setFn 0 { plain.fn 0 with invals := [inv0] } |>.fn 0).invals = [inv0] ∧
    (∀ p ∈ inv0.seqs, plain.dueBefore p.1 (p.2 + 1) 4 = false) ∧ (∃ p ∈ inv0.seqs, (entry plain wrMem).dueBefore p.1 (p.2 + 1) 4 = true) ∧
    (∀ w, (reading (rd none (farLine 7) true) id |>.group g0).rdat = some w → ¬ 1 < w.seq) ∧ (plain.group g0).rdat = none ∧
    (plain.teamOf (plain.group g0)).staging = [] ∧
    ((enabling 0 1 State.reset).fn 0).enWant.getLsbD 0 = true ∧ State.reset.launches = [] ∧ ((enabling 1 0 State.reset).fn 0).ctxen.getLsbD 0 = true ∧
    (enabling 0 1 ((State.reset.setMemBytes 0x26000 (bytesOf 8 0x1000 ++ bytesOf 8 0x2000 ++ [8])))).descriptor 0 0 = some (0x1000, 0x2000, 8) ∧
    (enabling 0 1 State.reset).descriptor 0 0 = none ∧ (plain.launch 1).active = true ∧ (plain.launch 1).fn = 0 := by decide
theorem witness_RegistersReadBack : (plain.fn 0).tdi ≠ .run ∧ (plain.setFn 0 { plain.fn 0 with tdi := .run } |>.fn 0).tdi = .run ∧
    (plain.launch 1).fn = 0 ∧ (plain.launch 1).active = true ∧ (1, plain.launch 1) ∈ plain.launches := by decide

-- WITNESSES: LAUNCHES
/-- A launch of one team of one group that has its index still to place, on a module in service. -/
def launch1 : Launch := { Launch.none with active := true, one := some 0, order := 1, ranges := [(0, 0, 1)]
                                           r := { LaunchRec.none with groups := 1, vregs := 128, teams := 1, lsz := 4096, image := 0x10000, ilen := 32 } }
def placing (l : Launch) : State :=
  let s := State.reset.setLaunch 1 l
  { s with health := { s.health with pstate := 1 } }.setFn 0 { s.fn 0 with part := 3 }
/-- Function 0 with a queue of 16 records that holds one. -/
def queueing (q : Queue) (s : State) : State := s.setFn 0 { s.fn 0 with part := 3, ctxen := 1, queues := [(0, q)] }
def q1 : Queue := { Queue.none with en := true, tail := 1, base := 0x22000 }
/-- A gate of n at 0x20000 whose record is at 0x21000. -/
def gated (n : Nat) : State := queueing { q1 with tail := 0 } (walked ((bytesOf 8 n ++ bytesOf 8 0x21000).mapIdx fun i b => (0x20000 + i, b)) State.reset)
theorem witness_QueuesGatesCompletion : plain.health.pstate = 1 ∧ ((17 : DWord).toNat + 2 ^ 32 - q1.head) % 2 ^ 32 = 17 ∧ 2 ^ q1.size = 16 ∧
    (∀ n ∈ [0, 1, 2], (gated n).vaNat 0 0x20000 8 = some n ∧ (gated n).vaNat 0 0x20008 8 = some 0x21000 ∧ ((gated n).setVaNat 0 0x20000 8 (n - 1)).isSome = true) ∧
    ((gated 1).vaBytes 0 0x21000 64).isSome = true ∧ ((gated 1).setVaBytes 0 0x22000 (List.replicate 64 0)).isSome = true := by decide +kernel
theorem witness_LaunchesBeginAndArePlaced : (queueing q1 plain).nextQueue 0 = some (0, 0) ∧ takeIndex 0 launch1.ranges = some (0, [(0, 1, 1)]) ∧
    (placing launch1).nextPlacement 0 = some (1, none, [0]) ∧ launch1.r.groups ≤ 32 ∧ launch1.size = 1 ∧
    (((placing { launch1 with ranges := [] }).setCluster (clusterKey 1 0) { Cluster.none with launch := 1, stage := .saved }).nextPlacement 0).map (·.2.1) =
      some (some (clusterKey 1 0)) := by decide +kernel
def inStage (st : Stage) (s : State) : State := s.setCluster (clusterKey 1 0) { s.cluster (clusterKey 1 0) with stage := st }
/-- The cluster drains: no issue slot is held. -/
def leaving : State := inStage .leaving (plain.setCore 0 Core.none)
theorem witness_ClustersLeave : leaving.drained [tk0] = true ∧ (leaving.cluster (clusterKey 1 0)).stage = .leaving ∧
    leaving.forRelaunch (clusterKey 1 0) = false ∧ (plain.launch 1).fatal = none ∧
    (let s := (plain.setFn 0 { Fn.none with part := 1, tslice := 0 }).setFn 1 { Fn.none with part := 1 };
     let s := s.setLaunch 2 { launch1 with fn := 1 };
     s.sliceOver 0 = true) ∧
    (let s := (later (stage fun g => { g with why := .staging }));
     (s.cluster (clusterKey 1 0)).stage = .running ∧ s.presentGroups tk0 = [g0] ∧ s.holdsToken tk0 = false) := by decide +kernel
/-- A cluster on a core of each die of function 0 is in the way of a launch of higher priority that needs every core of a die. -/
def blocked : State :=
  let s := (plain.setFn 0 { Fn.none with part := 1 }).updLaunch 1 fun l => { l with r := { l.r with cw := 2 } }
  let s := (s.setTeam (teamKey 1 1) { Team.none with launch := 1, index := 1, core := 192, present := true }).setGroup (groupKey (teamKey 1 1) 0)
    { Group.none with team := teamKey 1 1, present := true }
  let s := s.setCluster (clusterKey 1 0) { s.cluster (clusterKey 1 0) with cores := [0, 192] }
  s.setLaunch 2 { launch1 with ctx := 1, pri := 1, r := { launch1.r with cw := 12, ch := 16 } }
theorem witness_ClustersLeave_victim : blocked.victims = [clusterKey 1 0] ∧ (blocked.cluster (clusterKey 1 0)).stage = .running := by decide +kernel
/-- The one group has ended. -/
def gone : State := plain.setGroup g0 Group.none
def checked : State := gone.updLaunch 1 fun l => { l with token := 1, r := { l.r with flags := 3 } }
theorem witness_LaunchesEnd : ((inDet gone).launch 1).det = true ∧ ((inDet gone).launch 1).token < ((inDet gone).launch 1).r.teams ∧
    (inDet gone).teamDone (teamKey 1 0) = true ∧ gone.runOver 1 = true ∧ (gone.launch 1).chk = false ∧
    (leaving.updLaunch 1 fun l => { l with fatal := some 1 }).stopOver 1 = true ∧
    (checked.launch 1).chk = true ∧ checked.runOver 1 = true ∧ (checked.launch 1).second = false ∧
    (checked.launch 1).pending = 0 ∧ (checked.launch 1).differ = none ∧ (checked.launch 1).script = none ∧
    ((checked.updLaunch 1 fun l => { l with differ := some 0 }).launch 1).differ.isSome = true ∧
    (let s := inStage .leaving (plain.updTeam tk0 fun t => { t with dead := true });
     s.forRelaunch (clusterKey 1 0) = true ∧ clusterKey 1 0 = clusterKey (s.cluster (clusterKey 1 0)).launch (s.cluster (clusterKey 1 0)).index) := by
  decide +kernel
/-- The pages of the walk lie below 0x4000, so no write of a completion block at 0x28000 changes a translation. -/
theorem memNat_eq (s u : State) (a : Nat) (h : ∀ b, b < 0x28000 → u.memByte b = s.memByte b) (ha : a + 8 ≤ 0x28000) : u.memNat a 8 = s.memNat a 8 := by
  have hb : ∀ n, a + n ≤ 0x28000 → u.memBytes a n = s.memBytes a n := fun n hn => by
    unfold State.memBytes
    exact List.map_congr_left fun i hi => h _ (by have := List.mem_range.mp hi; omega)
  unfold State.memNat
  rw [hb 8 (by omega)]
theorem walk_next (s : State) (va level table a e next : Nat) (he : s.memNat a 8 = e) (ha : table + 8 * walkIndex level va = a) (hb : badEntry level e = false)
    (hl : bitOf e 1 = false) (hx : Machine.tableOf level e = next) :
    walkFrom s va (level + 1) table = walkFrom s va level next := by
  rw [walkFrom, ha, he]; subst hx; simp [hb, hl]
theorem walk_leaf (s : State) (va level table a e : Nat) (he : s.memNat a 8 = e) (ha : table + 8 * walkIndex level va = a) (hb : badEntry level e = false) (hl : bitOf e 1 = true) :
    walkFrom s va (level + 1) table = .ok { addr := bitsAt e 6 2 * 2 ^ 52 + (bitsAt e 8 44 * 256 / leafSize level * leafSize level + va % leafSize level / 2 ^ 16 * 2 ^ 16)
                                            bf := bitOf e 5, stmp := bitOf e 4, x := bitOf e 3, w := bitOf e 2, basic := bitsAt e 6 2 == 3 } := by
  rw [walkFrom, ha, he]; simp [hb, hl]
def ended : State := walked [] plain
theorem ended_walk (u : State) (hc : u.ctxs = ended.ctxs) (h : ∀ b, b < 0x28000 ∨ 0x28000 + 64 ≤ b → u.memByte b = ended.memByte b) :
    u.walkPage 0 2 = ended.walkPage 0 2 := by
  have hm := fun a (ha : a + 8 ≤ 0x28000) => memNat_eq ended u a (fun b hb => h b (.inl hb)) ha
  have e1 : u.memNat 0x1000 8 = 0x2001 := (hm _ (by decide)).trans (by decide)
  have e2 : u.memNat 0x2000 8 = 0x3001 := (hm _ (by decide)).trans (by decide)
  have e3 : u.memNat 0x3000 8 = 7 := (hm _ (by decide)).trans (by decide)
  have er : (u.ctx 0).root = 0x1000 := by unfold State.ctx; rw [hc]; decide
  have ew : walkFrom u (2 * 2 ^ 16) 5 (u.ctx 0).root = .ok { addr := 0x20000, bf := false, stmp := false, x := false, w := true, basic := false } := by
    rw [er, walk_next u _ 4 _ _ _ 0x2000 e1 (by decide) (by decide) (by decide) (by decide),
      walk_next u _ 3 _ _ _ 0x3000 e2 (by decide) (by decide) (by decide) (by decide),
      walk_leaf u _ 2 _ _ _ e3 (by decide) (by decide) (by decide)]
    rfl
  have et : ended.walkPage 0 2 = .ok { addr := 0x20000, bf := false, stmp := false, x := false, w := true, basic := false } := by rfl
  rw [et, State.walkPage, ew]
  rfl
theorem witness_QueuesGatesCompletion_block : ended.vaAddr 0 0x28000 true = some 0x28000 ∧ ended.memNat (0x28000 + 16) 8 = 0 ∧ ended.memNat (0x28000 + 24) 8 = 0 ∧
    ∀ u : State, u.ctxs = ended.ctxs → u.fns = ended.fns → (∀ b, b < 0x28000 ∨ 0x28000 + 64 ≤ b → u.memByte b = ended.memByte b) →
      u.walkPage (16 * 0 + 0) (0x28000 / 2 ^ 16) = ended.walkPage (16 * 0 + 0) (0x28000 / 2 ^ 16) :=
  ⟨by decide, by decide, by decide, fun u hc _ h => ended_walk u hc h⟩

-- WITNESSES: CLOCKS AND TIME
def tbIs (f : Timebase → Timebase) : State := inTime f plain
theorem edgeMost_plain : edgeMost plain 0 := ⟨by decide, by decide⟩
def clocked (n : Nat) (c : Clock) : State := { plain.setBay 0 { Bay.none with cyc := n } with clock := c }
theorem witness_ClockRegions : edgeMost plain 0 ∧ (plain.fn 0).tdi ≠ .run ∧ plain.clock.count.toNat % 4096 = 0 ∧ ¬ (0 + 65536 ≤ plain.clock.count.toNat) ∧
    (let s := { plain with clock := { plain.clock with count := 0x10000 } }; s.clock.count.toNat % 4096 = 0 ∧ 0 + 65536 ≤ s.clock.count.toNat) ∧
    (let c := { plain.clock with forced := [0] }; 0 ∈ (clocked 4096 c).clock.forced ∧ ((clocked 4096 c).bay 0).cyc % 4096 = 0 ∧ ((clocked 5 c).bay 0).cyc % 4096 ≠ 0) ∧
    (let s := clocked 0x10000 { plain.clock with pend := true, next := 2, at_ := 0x10000 };
     0 ∉ s.clock.forced ∧ s.clock.pend = true ∧ s.clock.at_ ≤ (s.bay 0).cyc ∧ 0 ∉ s.clock.made ∧ ∃ k, k < 64 ∧ k ≠ 0 ∧ k ∉ s.clock.made) ∧
    (let s := clocked 0x10000 { plain.clock with pend := true, next := 0, at_ := 0x10000, made := (List.range 64).drop 1 };
     s.clock.at_ ≤ (s.bay 0).cyc ∧ 0 ∉ s.clock.made ∧ ∀ k, k < 64 → k ≠ 0 → k ∈ s.clock.made) ∧
    (let s := clocked 5 { plain.clock with pend := true, at_ := 0x10000 }; (s.bay 0).cyc < s.clock.at_) ∧
    plain.clock.pend = false ∧ ((plain.bay 0).stretch.filter fun c => (plain.bay 0).cyc < c + 64).length < 8 ∧
    8 ≤ (((List.replicate 8 9)).filter fun c => 10 < c + 64).length ∧ (tbIs fun b => { b with refLost := true }).tb.refLost = true := ⟨edgeMost_plain, by decide⟩
/-- The word at the start of the team's window is armed (R350), and `e` ticks have passed. -/
def armed (e : Nat) : State := { at_est e plain with inject := { plain.inject with arm := true } }
theorem witness_TheTimebase_pitches : (∀ k ∈ [(249, 0), (0, 1), (9, 10), (39, 40), (49, 50)], ((at_est k.1 plain).tb.est + 1).toNat % 250 = k.2) ∧
    plain.armedTeam = none ∧ (armed 39).armedTeam = some tk0 ∧ (tbIs fun b => { b with ref := true }).tb.pod = false := by decide
theorem witness_TheTimebase : plain.clock.stopped = false ∧ ({ plain with clock := { plain.clock with stopped := true } } : State).clock.stopped = true ∧
    (let b := (tbIs fun b => { b with state := 1, epsx := 2 ^ 30 }).tb; b.state = 1 ∧ b.epsfail < b.eps) ∧ plain.tb.eps ≤ plain.tb.epsfail ∧
    (let b := (tbIs fun b => { b with state := 1, est := 0x100000 }).tb; 2 * (250 * 2 ^ b.pxlog) ≤ (b.est - b.lastOk).toNat) ∧
    (let b := (tbIs fun b => { b with state := 1 }).tb; b.state = 1 ∧ (b.est - b.lastOk).toNat < 2 * (250 * 2 ^ b.pxlog)) ∧
    (tbIs fun b => { b with state := 3 }).tb.state = 3 ∧ plain.tb.state ≠ 3 ∧
    (let b := (tbIs fun b => { b with pod := true, retry := true }).tb; b.pod = true ∧ b.ref = false ∧ b.state ≠ 3 ∧ b.retry = true) ∧ plain.tb.retry = false ∧
    plain.tb.pod = false ∧ (tbIs fun b => { b with pod := true, ref := true }).tb.ref = true := by decide
def asked0 : Asked := { port := 3, t1 := 5, first := true }
theorem witness_TheTimebase_letters : Comes (letters [.timeAsk 5 6] plain) 0 0 (.timeAsk 5 6) ∧ (∀ e, Comes (letters [.timeReply 5 6 7 e 8] plain) 0 0 (.timeReply 5 6 7 e 8)) ∧
    (tbIs fun b => { b with asked := [asked0] }).tb.asked.find? (fun a => a.t1 == 5 && (plain.port a.port).peerPkg == 0) = some asked0 ∧
    (∀ a ∈ plain.tb.asked, (a.t1 == 5) = false) := ⟨⟨_, rfl, rfl, rfl⟩, fun _ => ⟨_, rfl, rfl, rfl⟩, by decide, by decide⟩
theorem witness_TheFrame : (plain.fn 0).tdi ≠ .run ∧ 256 ≤ (BitVec.ofNat 64 (512 * 2 ^ 16 + 1)).toNat / 2 ^ 16 % 2 ^ 16 ∧ plain.tb.dlvb = 512 ∧
    plain.tb.newCfg = none ∧ plain.tb.newLim = none ∧ (tbIs fun b => { b with newCfg := some 7 }).tb.newCfg = some 7 ∧
    (tbIs fun b => { b with newLim := some 7 }).tb.newLim = some 7 := by decide

-- WITNESSES: PORTS, LINKS, STEWARDS
def port0 : Port := { Port.none with state := 2, lastIn := 7, window := 17 }
def ported (p : Port) : State := plain.setPort 0 p
/-- A flit of sequence number 8 that names 5 as received, with the bit of a NAK or without, under its own CRC or another. -/
def flitBytes (nak good : Bool) : List Byte :=
  let b := bytesOf 2 8 ++ bytesOf 2 (5 + if nak then 4096 else 0) ++ List.replicate 248 (0 : Byte)
  b ++ bytesOf 4 (crc32 b + if good then 0 else 1)
set_option maxRecDepth 100000 in
theorem witness_PortsDeliverInOrder_flits : ∀ nak, let raw := flitBytes nak true
    raw.length = 256 ∧ ofBytes ((raw.drop 252).take 4) = crc32 (raw.take 252) ∧ ofBytes (raw.take 2) / 4096 < 7 ∧ ofBytes (raw.take 2) % 4096 = (port0.lastIn + 1) % 4096 ∧
    (ofBytes ((raw.drop 2).take 2)).testBit 12 = nak ∧
    (let bad := flitBytes nak false; ofBytes ((bad.drop 252).take 4) ≠ crc32 (bad.take 252)) := by decide
theorem witness_PortsDeliverInOrder : ((ported port0).port 0).state = 2 ∧ (ported port0).pkg = 0 ∧ (((port0.lastIn : Int) - 7) % 4096 < 2048) ∧
    (2048 ≤ ((port0.lastIn : Int) - 8) % 4096) ∧
    (∀ m ∈ [Msg.mcstAck 1 0, .stampReply g0 true 100], ({ to_ := 0, from_ := 3, msg := m } : Letter).to_ = (ported port0).pkg) ∧
    ({ to_ := 5, from_ := 3, msg := .mcstAck 1 0 } : Letter).to_ ≠ (ported port0).pkg ∧ port0.window = 17 ∧ (∀ f ∈ port0.buffer, f.tries < 8) ∧
    256 < { port0 with window := 257 }.window ∧ { port0 with window := 3 }.window < 17 ∧
    ((ported { port0 with state := 3 }).port 0).state = 3 ∧ ((ported { port0 with state := 3 }).port 0).since + 2500000 ≤ (at_est 2500000 plain).tb.est.toNat ∧
    plain.tb.est.toNat < ((ported { port0 with state := 3 }).port 0).since + 2500000 := by decide
def linked (n : Nat) : State := { plain with links := [(3, n)] }
theorem witness_DovetailLinksRetire : (∀ n ∈ [0, 6, 7, 8], mapGet 0 (linked n).links 3 = n) ∧ (plain.launch 1).active = true ∧ (1, plain.launch 1) ∈ plain.launches ∧
    (∃ p ∈ plain.clusters, p.2.launch = 1 ∧ p.2.onCores = true ∧ ∃ c ∈ p.2.cores, dieOf c / 2 = 3 / 16) ∧ (mapKeys (plain.setFn 0 { Fn.none with part := 3 }).fns).Nodup ∧
    0 ∈ mapKeys (plain.setFn 0 { Fn.none with part := 3 }).fns := by decide
def fPkg : Form := { blank with d := .v 8, a := sr (.special .pkg), ty := .n32 }
theorem witness_PodIndexIsRead : Runs (.mov fPkg) fPkg plain ∧ plain.pkg < 4096 := by decide
def imaged (f : Fn) (b : Bay) : State := (plain.setFn 0 f).setBay 0 b
def req0 : ImageReq := { core := 0, team := 0, code := 1, code2 := 0, launch := 1, slot := 0, num := 0 }
def ring0 : Fn := { Fn.none with dumpb := 0x20000, dumpc := BitVec.ofNat 64 (2 ^ 32 + 4096) }
theorem witness_StewardsWriteImages : (plain.bay 0).inbox = none ∧ (plain.bay 0).job = none ∧ ((imaged ring0 { Bay.none with job := some req0 }).bay 0).job = some req0 ∧
    ((imaged ring0 { Bay.none with job := some req0 }).bay 0).done = none ∧ ring0.dumpb ≠ 0 ∧ ring0.dumpSlots ≠ 0 ∧ ring0.dumpSize ≠ 0 ∧ Fn.none.dumpb = 0 ∧
    ((imaged ring0 { Bay.none with job := some req0, done := some (true, []) }).bay 0).done = some (true, []) ∧
    (∀ r ∈ (imaged ring0 { Bay.none with job := some req0, done := some (true, []) }).imagesAhead 0, req0.num ≤ r.num) ∧
    (let two := (imaged ring0 { Bay.none with job := some req0 }).setBay 1 { Bay.none with job := some { req0 with num := 1 }, done := some (true, []) };
     ∃ r ∈ two.imagesAhead (two.launch 1).fn, r.num < 1) ∧ (plain.setDevBytes 0x20000 [7]).isSome = true := by decide
theorem witness_StewardsStopCores_windows : plain.windowAt 0 0 = some tk0 ∧ (plain.team tk0).stopped = false ∧ plain.teamEnded tk0 = false ∧
    (let s := plain.setTeam tk0 { plain.team tk0 with stopped := true }; s.windowAt 0 0 = some tk0 ∧ (s.team tk0).stopped = true ∧ (s.team tk0).bline 0 = none) ∧
    plain.vaultHolder (bayCore 0 0) 0 = some tk0 ∧ ((plain.bay 0).ces.filter fun t => plain.tb.est.toNat < t + 3600 * 250000000).length < 255 := by decide
theorem witness_StewardsStopCores : Named 0 1 0 ∧ ¬ Named 0 1 1 ∧ plain.resident [] 0 = [tk0] ∧
    ((plain.setCore 0 { plain.core 0 with held := true }).core 0).held = true ∧ (plain.launch (teamLaunch tk0)).active = true ∧ (plain.team tk0).dead = false :=
  ⟨⟨0, by decide, by decide, by decide⟩, fun ⟨k, hk, hb, hc⟩ => by revert hb hc; revert k; decide, by decide⟩

-- WITNESSES: LIFE OF THE MODULE
theorem witness_SelfTestAndFirmware : ((List.range 61).filter fun u => (0 : DWord).getLsbD u) = [] ∧ ((List.range 61).filter fun u => (2 : DWord).getLsbD u) = [1] ∧
    (plain.fn 0).tdi ≠ .run ∧ (1 : DWord).getLsbD 0 = true ∧ (2 : DWord).getLsbD 0 = false ∧ plain.fw.st ≠ 1 ∧
    ({ plain with fw := { plain.fw with st := 1 } } : State).fw.st = 1 ∧
    ∀ k ∈ [1, 3, 6], ({ plain with health := { plain.health with test := some (k, 2) } } : State).health.test = some (k, 2) := by decide
def snap0 : Snap := { groups := [], teams := [], clusters := [], launches := [] }
set_option maxRecDepth 100000 in
/-- Bytes that end in the digest of what stands before them, and bytes that do not. -/
theorem witness_CheckpointsAndRecovery_digest : (let b := sha256 []; 32 ≤ b.length ∧ b.drop (b.length - 32) = sha256 (b.take (b.length - 32))) ∧
    ¬ (let b := List.replicate 32 (0 : Byte); b.drop (b.length - 32) = sha256 (b.take (b.length - 32))) := by decide
def checking (f : Check → Check) : State := { plain with ck := f plain.ck }
/-- The placed group held for the stamp of a time. -/
def heldFor (t : DWord) : State := { (plain.updGroup g0 fun g => { g with hold := some t }) with ck := { plain.ck with stage := 1, t := 5 } }
theorem witness_CheckpointsAndRecovery : (checking fun c => { c with en := true }).ck.busy = false ∧ (checking fun c => { c with busy := true }).ck.busy = true ∧
    plain.ck.en = false ∧ (checking fun c => { c with stage := 1 }).tb.earliest ≤ (checking fun c => { c with stage := 1 }).ck.t.toNat ∧
    (at_est 9 (checking fun c => { c with stage := 1 })).ck.t.toNat < (at_est 9 plain).tb.earliest ∧
    (∃ p ∈ (heldFor 5).groups, p.2.hold = some 5) ∧ (5 : DWord).toNat ≤ (heldFor 5).ck.t.toNat ∧ (∀ p ∈ (heldFor 6).groups, p.2.hold = some 6) ∧
    (let s := at_est 1000 { gone with ck := { plain.ck with stage := 2 } };
     (∀ p ∈ s.clusters, p.2.onCores = true → s.clusterOver p.1 = true) ∧ s.ck.t.toNat + s.tb.dlvb < s.tb.earliest) ∧
    plain.tb.earliest ≤ plain.ck.t.toNat + plain.tb.dlvb ∧ (checking fun c => { c with stage := 3 }).ck.stage = 3 ∧
    (5 : Nat) ≠ plain.pkg ∧ plain.health.pstate ≠ 2 ∧
    mapGet none plain.ck.snaps 0 = none ∧ mapGet none (checking fun c => { c with snaps := [(0, some snap0)] }).ck.snaps 0 = some snap0 ∧
    (1, plain.launch 1) ∈ plain.launches ∧ (plain.launch 1).active = true := by decide
theorem witness_CheckpointsAndRecovery_buddy : plain.unreachable 5 = true ∧ (plain.setPort 0 { Port.none with state := 2, peerPkg := 5 }).unreachable 5 = false :=
  ⟨by decide, by decide⟩
/-- A spare named by the recovery, one that has taken the %pkg, and a module that is neither; a timebase LOCKED and not. -/
theorem witness_CheckpointsAndRecovery_spare : let s := { plain with health := { plain.health with pstate := 1 } }
    let r : Restore := { spare := 0, bytes := [], places := [], older := false }
    r.spare = s.pkg ∧ 7 ≠ s.pkg ∧ s.health.pstate = 1 ∧ (checking fun c => { c with spare := true }).ck.spare = true ∧
    plain.tb.state ≠ 1 ∧ (inTime (fun b => { b with state := 1 }) plain).tb.state = 1 ∧ { r with spare := 9 }.spare ≠ s.pkg ∧ s.ck.spare = false := by decide
theorem witness_CheckpointsAndRecovery_bytes : (checking fun c => { c with list := 0x8000000000000000 }).ckBytes = none ∧ ∃ bs, plain.ckBytes = some bs := by
  have h : (checking fun c => { c with list := 0x8000000000000000 }).ckData = none := by rfl
  have k : plain.ckData = some [] := by decide
  exact ⟨by rw [State.ckBytes, h, Option.map_none], _, by rw [State.ckBytes, k, Option.map_some]⟩
theorem witness_PowerAndTemperature : plain.health.pacing = false ∧ ({ plain with health := { plain.health with pacing := true } } : State).health.pacing = true ∧
    edgeMost plain 0 ∧ plain.tb.refLost = false ∧ plain.clock.cur = plain.health.before := ⟨by decide, by decide, edgeMost_plain, by decide, by decide⟩
theorem witness_SecureSessions : (∀ d ∈ [Spdm.versioned, .capable, .negotiated, .keyed, .secure], ((plain.setFn 0 { Fn.none with spdm := d }).fn 0).spdm = d) ∧
    Agreed (plain.setFn 0 { Fn.none with spdm := .keyed }) 0 ∧ (walked [] plain |>.ctx 0).enabled = true ∧ (plain.fn 0).spdm ≠ .secure ∧
    ((walked [] plain).ctx (ctxKey 0 0)).streams = [] := ⟨by decide, .inr (.inl rfl), by decide, by decide, by decide⟩

-- WITNESSES: FETCH, ENCODING, ONE STEP
def fAdd : Form := { blank with d := .v 3, a := sr (.v 1), b := sr (.v 2) }
def addBytes : List Byte := [0x10, 0x00, 0x18, 0x40, 0x00, 0x08, 0x00, 0x00]
theorem witness_EncodingsRoundTrip : (Instr.addInt fAdd).wellFormed = true ∧ encode (.addInt fAdd) = some addBytes ∧
    decode (addBytes ++ List.replicate 8 0) = .ok (.addInt fAdd) ∧ (addBytes ++ List.replicate 8 0).length = 16 := ⟨by decide, by rfl, by rfl, by decide⟩
def fetching (w : Nat) : State := State.reset.withFetchWord 64 w
theorem witness_FetchChecksInOrder : (fetching 3).inImage 0 0x10000 1 = true ∧ (fetching 3).inImage 0 0x20000 1 = false ∧
    (∃ tr, (fetching 3).lookup 0 0 (0x10000 / 2 ^ 16) = some tr ∧ tr.x = true ∧ tr.bf = false ∧ tr.stmp = false ∧ tr.basic = false ∧
      granule (tr.addr + 0x10000 % 2 ^ 16) ∉ (fetching 3).poisoned ∧ (fetching 3).memNat (tr.addr + 0x10000 % 2 ^ 16) 8 % 4 = 3 ∧
      (fetching 0).memNat (tr.addr + 0x1001C % 2 ^ 16) 8 % 4 = Len.l64.code) ∧ (fetching 0).inImage 0 0x1001C 1 = true ∧ 32 < 0x1001C % 32 + Len.l64.bytes ∧
    (fetching 0).inImage 0 0x10000 8 = true ∧ (∃ i, decode ((fetching 0).memBytes 0x10000 8) = .ok i) ∧ ∃ e, decode ((fetching 0x7F8).memBytes 0x10000 8) = .error e :=
  ⟨by decide, by decide, ⟨_, by rfl, by decide⟩, by decide, by decide, by decide, ⟨_, by rfl⟩, _, by rfl⟩
theorem witness_FetchChecksInOrder_outside : let s := (fetching 0).updLaunch 1 fun l => { l with r := { l.r with ilen := 4 } }
    s.inImage 0 0x10000 1 = true ∧ s.inImage 0 0x10000 8 = false := by decide
theorem witness_NopHasNoEffect : Len.l64.code % 4 = Len.l64.code ∧ (4 : Nat) < 2 ^ (8 * Len.l64.bytes) ∧ 4 / 8 % 256 = 0 ∧ Runs (.nop { nil with e := true }) { nil with e := true } plain := by
  decide
theorem witness_StepRunsDecoded : let s := fetching 0x80040180010
    ∃ h tr, s.health.powered = true ∧ s.agenda = [.issue 0] ∧ ({ s with agenda := [] } : State).candidate 0 = some (0, 0) ∧
    ({ s with agenda := [] } : State).holder 0 0 = some h ∧ h.grp = g0 ∧
    let r := { s with agenda := [] }
    let g := r.group h.grp
    let u := (r.updHolder 0 0 fun h => { h with tried0 := true, done0 := false, tried1 := false, second := 0, old := g, seq0 := g.seq }).focus
      h.grp g.first.lanes g.first.pc 0 g
    u.mayIssue h.grp = true ∧ g.nexts = [] ∧ g.first.pc.toNat = 0x10000 ∧ u.inImage (u.launchOf g).ctxKey 0x10000 8 = true ∧
    u.lookup 0 (u.launchOf g).ctxKey (0x10000 / 2 ^ 16) = some tr ∧ tr.x = true ∧ tr.bf = false ∧ tr.stmp = false ∧ tr.basic = false ∧
    granule (tr.addr + 0x10000 % 2 ^ 16) ∉ u.poisoned ∧ decode (u.memBytes (tr.addr + 0x10000 % 2 ^ 16) 8) = .ok (.addInt fAdd) ∧
    u.interlocked h.grp g.first.lanes g.first.pc none (.addInt fAdd) = false ∧ (u.core 0).full (engineOf (.addInt fAdd)) = false :=
  ⟨_, _, by decide, by decide, by decide, by rfl, by decide, by decide, by decide, by decide, by decide, by rfl, by decide, by decide, by decide, by decide, by decide,
    by rfl, by decide, by decide⟩
theorem witness_StepsKeepMemoryCanonical : (fetching 0x80040180010).Inv ∧ ∃ t, step (fetching 0x80040180010) = .next t := ⟨by rfl, _, rfl⟩

-- WITNESSES: FURTHER CLAUSES OF THE STATEMENTS ABOVE
/-- The rejoin mask is the same over the segments of the bound group, or not. -/
def boundJ (j : Mask) : State := stage fun g => { (g.setJ 1 j) with binding := 2 }
theorem witness_RejoinMasks_bound : Runs (.join fJoin) fJoin (boundJ 3) ∧ Even (viewOf (.join fJoin) fJoin plain) (fun l => maskBit ((viewOf (.join fJoin) fJoin plain).seen.jreg 1) l) ∧
    Runs (.join fJoin) fJoin (boundJ 1) ∧ ¬ Even (viewOf (.join fJoin) fJoin (boundJ 1)) (fun l => maskBit ((viewOf (.join fJoin) fJoin (boundJ 1)).seen.jreg 1) l) :=
  ⟨by decide, fun h => absurd rfl h, by decide, fun h => absurd (h (by decide) 0 1 (by decide) (by decide) (by decide)) (by decide)⟩
/-- A guard that leaves no lane. -/
theorem witness_Binding_traps : let f := { fBind with g := 1 }
    Runs (.bind f) f plain ∧ (viewOf (.bind f) f plain).act = 0 ∧ fBind.x6.toNat ∈ [2, 4, 8, 16, 32] ∧
    Runs (.unbind nil1) nil1 bound ∧ (viewOf (.unbind nil1) nil1 bound).g.binding ≠ 1 ∧ (viewOf (.unbind nil1) nil1 bound).act ≠ (bound.group g0).live ∧
    Runs (.unbind nil1) nil1 plain ∧ (viewOf (.unbind nil1) nil1 plain).g.binding = 1 := by decide
theorem witness_SfqSfwExitJsetJoinComplete : (∀ f ∈ [fSfq], Runs (.sfq f) f plain) ∧ Runs (.sfw fSfw) fSfw plain ∧
    awaits (sfwNames (viewOf (.sfw fSfw) fSfw plain)) (viewOf (.sfw fSfw) fSfw plain).g = false ∧ Runs (.exit nil) nil plain ∧
    Runs (.jset fJset) fJset plain ∧ fJset.d = .j 1 ∧ Runs (.join fJoin) fJoin plain ∧ fJoin.a.op = .j 1 := by decide
theorem witness_FullEmptyBits_lines : (plain.group g0).stores = [] ∧ (plain.group g0).loads = [] ∧
    ∀ ls, (plain.group g0).stores.any (fun e => touchesLine e ls) = false ∧ (plain.group g0).loadsFrom ls = false := ⟨rfl, rfl, fun _ => ⟨rfl, rfl⟩⟩
theorem witness_CopiesEnter_marks : (∀ ls, (plain.group g0).stores.any (fun e => touchesLine e ls) = false) := fun _ => rfl
theorem witness_LoadsBind_empty : (emptied (loading [])).emptyLines (linesOf ld0.places) ≠ [] ∧ (loading []).emptyLines (linesOf ld0.places) = [] ∧
    ((emptied (loading [])).group g0).loads[0]? = some ld0 := by decide
/-- The unit's source is read. -/
def unitRead (w : Place) (tm : Option Nat) : Unit_ := { unit0 w tm with words := [(w, .mem 0x20000, some 7)] }
theorem witness_CopiesFill_read : ∀ p ∈ [(Place.vault tk0 0, some tk0), (.mem 0x30000, none)], let u := unitRead p.1 p.2
    let d : Copy := { path := .ls, id := 1, grp := g0, seq := 1, pc := 0x10000, units := [u], gcm := none }
    (copying u none).copies.find? (fun c => c.id == 1 && c.gcm.isNone) = some d ∧ d.units[0]? = some u ∧ (copying u none).mayFill d u = true ∧
    (u.words.filterMap fun w => match w.2.2 with | none => some w.2.1 | some _ => none) = [] ∧ (copying u none).doomedStore d tk0 u.line = false := by decide
theorem witness_CopiesFill_text : let u := unit0 (.vault tk0 0) (some tk0)
    let m := { gcm0 with text := some (List.replicate 20 0) }
    let d : Copy := { path := .ls, id := 1, grp := g0, seq := 1, pc := 0x10000, units := [u], gcm := some m }
    (copying u (some m)).copies.find? (·.id == 1) = some d ∧ (copying u (some m)).marksDue d (m.src ++ m.dst) = false ∧
    (copying u (some m)).loadsBefore g0 1 = false ∧ (copying u (some m)).doomedStore d tk0 u.line = false ∧ gcm0.text = none := by decide
theorem witness_WaitAndWake_beyond : let s := stage fun g => g.setS 2 (BitVec.ofNat 64 (2 ^ 57))
    Runs (.wake fWake) fWake s ∧ 2 ^ 57 ≤ wordAt (viewOf (.wake fWake) fWake s) ∧ wordAt (viewOf (.wake fWake) fWake (onPage id)) < 2 ^ 57 := by decide
theorem witness_TilesReadAndAwaited_due : (∀ c ∈ (copying (unit0 (.vault tk0 0) (some tk0)) none).copies, c.grp = g0 ∧ ∃ u ∈ c.units, u.team ≠ none) ∧
    plain.copies = [] ∧ ((queued (.adrain { drain0 with space := 0 })).team tk0).queue.any (·.grp == g0) = true := by decide
theorem witness_SharedChecks_forms : Runs (.bind fBind) fBind plain ∧ Runs (.unbind nil) nil plain := by decide
/-- A slice that has its frames behind it, of a function that shares its pair with another. -/
theorem witness_ClustersLeave_slice : let s := (plain.setFn 0 { Fn.none with part := 1, tslice := 1 }).setFn 1 { Fn.none with part := 1 }
    2 ≤ (s.sharers 0).length ∧ 250 * ((at_est 250 s).sliceOf 0).2 + 250 * ((at_est 250 s).fn ((at_est 250 s).sliceOf 0).1).tslice ≤ (at_est 250 s).tb.est.toNat := by decide +kernel
/-- A second run whose team has another digest than the first run's, and one whose digest is the same. -/
theorem witness_LaunchesEnd_differs : let s := fun ds => (inDet gone).updLaunch 1 fun l => { l with second := true, digests := ds }
    ((s [(0, [])]).launch 1).differ = none ∧ ((s [(0, [])]).launch 1).second = true ∧ mapGet [] ((s [(0, [])]).launch 1).digests 0 = [] ∧
    mapGet [] ((s [(0, (inDet gone).teamDigest tk0)]).launch 1).digests 0 = (inDet gone).teamDigest tk0 ∧ (inDet gone).teamDigest tk0 ≠ [] :=
  ⟨rfl, rfl, rfl, rfl, by decide +kernel⟩
theorem witness_BarrierPhases_other : let s := lined line1 [] (stage fun g => g.updLanes 1 fun y => { y with cond := .barrier false tk0 0 6 9 })
    ((s.group g0).lane 0).cond = .barrier false tk0 0 6 9 ∧ (6 : Word) ≠ line1.phase := by decide
theorem witness_WaitsThatEnd_releases : (let s := { parked id (.barrier true tk0 0 5 9) 0 with net := [{ to_ := 0, from_ := 0, msg := .barRelease tk0 0 tk0 6 }] }
      (s.team tk0).stopped = false ∧ ((s.group g0).lane 0).cond = .barrier true tk0 0 5 9 ∧ (5 : Word) + 1 = 6) ∧
    (let s := plain.updTeam tk0 fun t => { t with stopped := true }; (s.team tk0).stopped = true ∧ (s.team tk0).dead = false ∧ (s.launch (teamLaunch tk0)).fatal = none) := by decide
theorem witness_RegistersReadBack_writers : (3 : Nat) ≠ 0 ∧ ((plain.fn 3).tdi ≠ .run) ∧ ((plain.setFn 3 { plain.fn 3 with tdi := .run }).fn 3).tdi = .run := by decide
theorem witness_SecureSessions_locked : let s := (plain.setFn 0 { Fn.none with spdm := .secure, tdi := .run }); (s.fn 0).spdm = .secure ∧ (s.fn 0).tdi = .run := by decide
theorem witness_JoiningAGroup_joining : (∀ p ∈ (descriptor5 0 plain).fns, p.2.joining = []) ∧
    (let s := plain.setFn 1 { plain.fn 1 with joining := [(5, { mem5 with fn := 1 })] }
     ∃ p ∈ s.fns, (5, { mem5 with fn := 1 }) ∈ p.2.joining ∧ ({ mem5 with fn := 1 } : Member).fn ≠ mem5.fn) := by decide

-- WITNESSES: CLAUSES
def fBrx4 : Form := { fBrx with a := sr (.v 4) }
/-- Lane 0 of a bound group goes elsewhere than lane 1, in v4 and on its stack. -/
def uneven : State := stage fun g => { ((g.setV 4 0 8).updLanes 1 fun y => { y with stack := [0x10008] }) with binding := 2 }
/-- Two acting lanes of one segment with two values. -/
theorem notEven {α : Type} {x : View} {v : Nat → α} (b : x.g.binding = 2) (h : maskBit x.act 0 = true ∧ maskBit x.act 1 = true) (d : v 1 ≠ v 0) : ¬ Even x v :=
  fun e => d (e (by rw [b]; decide) 0 1 h.1 h.2 (by rw [b]))
theorem witness_Branches_uneven : Runs (.brx fBrx4) fBrx4 uneven ∧ ¬ Even (viewOf (.brx fBrx4) fBrx4 uneven) (regTo (viewOf (.brx fBrx4) fBrx4 uneven)) :=
  ⟨by decide, notEven rfl (by decide) (by decide)⟩
theorem witness_CallsAndReturns_uneven : (let x := viewOf (.callx fBrx4) fBrx4 uneven; Runs (.callx fBrx4) fBrx4 uneven ∧ ¬ Even x (regTo x)) ∧
    let x := viewOf (.ret nil) nil uneven; Runs (.ret nil) nil uneven ∧ ¬ Even x (fun l => (x.g.lane l).stack.head?) :=
  ⟨⟨by decide, notEven rfl (by decide) (by decide)⟩, by decide, notEven rfl (by decide) (by decide)⟩
theorem even_apart {α : Type} {x : View} {v : Nat → α} (b : x.g.binding = 1) : Even x v := fun h => absurd b h
theorem witness_CallsAndReturns_depth : Runs (.call fBr) fBr (deep 32) ∧ Runs (.callx fBrx) fBrx (deep 32) ∧ Runs (.ret nil) nil (deep 1) ∧
    maskBit (viewOf (.call fBr) fBr (deep 32)).act 0 = true ∧ 32 ≤ ((viewOf (.call fBr) fBr (deep 32)).g.lane 0).stack.length ∧
    ((viewOf (.ret nil) nil (deep 1)).g.lane 1).stack = [] ∧
    Even (viewOf (.callx fBrx) fBrx (deep 32)) (regTo (viewOf (.callx fBrx) fBrx (deep 32))) :=
  ⟨by decide, by decide, by decide, by decide, by decide, by decide, even_apart rfl⟩
/-- Segments of two lanes that hold the greatest number. -/
def topped : State := stage fun g => { ((List.range 32).foldl (fun g l => (g.setV 1 l 0xFFFFFFFF).setV 2 l 0xFFFFFFFF) g) with binding := 2 }
theorem witness_LimbInstructions_overflow : let f := { fLimb with fn := 9 }
    let x := viewOf (.ladd f) f topped
    Runs (.ladd f) f topped ∧ 8 ≤ f.fn.toNat ∧ 0 ∈ x.segs ∧ leaves x (limbVal x f.a 0 + limbVal x f.b 0 + limbCarry x 0) = true := by decide
/-- An access to a line of module 7. -/
theorem witness_Stamped_far : let s := stage fun g => (g.setM 1 1).setS 4 (farLine 7)
    Runs (.stst fStst) fStst s ∧ StampedAt (viewOf (.stst fStst) fStst s) true none ∧ Runs (.rdat fRdat) fRdat s ∧
    StampedAt (viewOf (.rdat fRdat) fRdat s) false none :=
  ⟨by decide, ⟨by decide, by decide, by rw [if_pos (by decide)]⟩, by decide, ⟨by decide, by decide, by rw [if_pos (by decide)]⟩⟩
/-- An acquire of the pod holds a load back, one of the cluster does not hold a plain load of device memory back. -/
theorem witness_LoadsWait_held : HeldBack (viewOf (.ld fLd0) fLd0 (acq0 id)) [{ lane := 0, ea := 0, places := [.vault tk0 0], bit := 0 }] ∧
    (let x := viewOf (.ld fLd0) fLd0 full0; ¬ HeldBack x [] ∧ 63 ≤ (full0.counts x.gk).getD 0 0) := by
  refine ⟨.inl ⟨_, List.mem_singleton.mpr rfl, by decide, .inr (.inr ⟨_, List.mem_singleton.mpr rfl, fun a => Place.noConfusion⟩)⟩, fun h => ?_, by decide⟩
  obtain ⟨l, hl, h, -⟩ | ⟨e, he, -⟩ := h
  · obtain ⟨i, -, rfl⟩ := List.mem_map.mp hl; exact absurd h (show ¬ 2 ≤ 0 by decide)
  · exact absurd he List.not_mem_nil
/-- A load with a byte brought: all of them, or one of four. -/
def got0 (ps : List Place) (a : Nat) : State := stage fun g => { g with loads := [{ ld0 with seq := 0, acq := a }, { ld0 with places := ps, got := [(.vault tk0 0, 7)] }] }
theorem witness_LoadsBind_brought : ((got0 [.vault tk0 0] 0).group g0).loads[1]?.map Load.lacks = some [] ∧
    ((got0 [.vault tk0 0, .vault tk0 4] 0).group g0).loads[1]?.map Load.lacks = some [.vault tk0 4] ∧
    freeOf ((got0 [.vault tk0 0] 1).group g0) 1 ∧ ¬ freeOf ((got0 [.vault tk0 0] 2).group g0) 1 ∧
    (∀ e ∈ ((got0 [.vault tk0 4] 2).group g0).loads, e.seq < 1 → e.path = ld0.path → overlaps e.places [.vault tk0 4] = false) ∧ (got0 [] 0).copies = [] ∧
    ∀ c ∈ (copying (unit0 (.vault tk0 0) (some tk0)) none).copies, ∀ p ∈ c.toRead, p ∉ ld0.places := by decide
theorem witness_JoinsToCome : NoJoin plain 5 ∧ NoJoin (grouped mem5 []) 5 := ⟨by unfold NoJoin; decide, by unfold NoJoin; decide⟩
/-- A store that its sender has given up, as it comes with its number. -/
theorem witness_SequencedStores_refused : let s := { grouped mem5 [.numbered 5 1 store5 1 0] with refused := [1] }
    Comes s 0 0 (.numbered 5 1 store5 1 0) ∧ s.pkg = 0 ∧ 1 ∈ s.refused ∧ mem5.stale = false ∧ 1 = mem5.count + 1 := ⟨⟨_, rfl, rfl, rfl⟩, by decide⟩
/-- The crier whose lowest live member has number 4 by a copy, and no old value of it. -/
theorem witness_SequencedStores_copied : let c := { crier0 with
                                                      olds := [(4, 1, 9)]
                                                      members := [{ rank := 0, pkg := 3, stale := false, acked := 4 }, { rank := 1, pkg := 1, stale := false, acked := 4 }] }
    sent4.answered = false ∧ (∀ m ∈ c.members, m.stale = false → m.pkg ≠ sent4.sender) ∧
    (c.olds.find? fun o => o.1 == sent4.num && (o.2.1 == 0 || decide (sent4.num ≤ 4))) = some (4, 1, 9) := by decide
/-- A crier that has not answered in RLIM, asked to drop the store, and not in twice as long. -/
theorem witness_MulticastReplies_silent : let p := { pend 1 with cancel := true }
    let s := fun e => at_est e { replying 1 mem5 [] with pendings := [p] }
    (∀ e ∈ [20, 30, 31], (s e).sentOff p = true ∧ p.issued + (s e).rlimOf p < (s e).tb.est.toNat ∧ (s e).unreachable mem5.root = false) ∧
    (s 31).rlimOf p = 15 ∧ (s 30).tb.est.toNat ≤ p.issued + 2 * (s 30).rlimOf p ∧ p.issued + 2 * (s 31).rlimOf p < (s 31).tb.est.toNat := by decide
/-- A fault of the current step for a ring that is full, and a step held for room in it. -/
def noRoom (held : List (Nat × Nat)) : State :=
  let s := withScript { running (step0 .copy 1) with held := held }
  s.setCtx 0 { s.ctx 0 with root := 0x100000, open_ := [(7, 0)], fqs := 0 }
theorem witness_ScriptsBetweenModules_full : (noRoom []).faultRoom 0 = false ∧ (noRoom []).script 0 1 = some (running (step0 .copy 1)) ∧
    (∃ slot va level kind, (noRoom []).scriptFail (running (step0 .copy 1)) = some (slot, .fault va level kind)) ∧
    (noRoom [(0, 1)]).faultRoom 0 = false ∧ (noRoom [(0, 1)]).script 0 1 = some { running (step0 .copy 1) with held := [(0, 1)] } ∧
    (withScript { running (step0 .copy 1) with held := [(7, 1)] }).script 0 1 = some { running (step0 .copy 1) with held := [(7, 1)] } :=
  ⟨by decide, by decide, ⟨_, _, _, _, by rfl⟩, by decide⟩
theorem witness_Functions : plain.present 0 = true ∧ ({ plain with health := { plain.health with pstate := 1 } } : State).present 3 = true ∧
    plain.health.pstate ≠ 2 ∧ (let s : State := { plain with health := { plain.health with pstate := 2 } }; s.health.pstate = 2 ∧ s.present 0 = true ∧ s.present 3 = false) := by decide
theorem witness_TheTimebase_ticks : plain.tb.est.toNat + 1 < 2 ^ 64 ∧ (∀ k ∈ [(9, 10), (27, 28), (28, 29), (39, 40), (49, 50)], ((at_est k.1 plain).tb.est + 1).toNat % 250 = k.2) := by
  decide
/-- A row of a copy, staged by the team that holds the token. -/
def row0 : Record := { grp := 0, seq := 1, pc := 0x10000, kind := 1, opc := 0, ty := .b32, va := 0x20000, rval := 0
                       op := .write [{ place := .mem 0x20000, val := 7, en := 0xFF }], data := [7], enab := 0, row := true }
theorem witness_LaunchesEnd_rows : let s := (inDet plain).updTeam tk0 fun t => { t with staging := [row0] }
    let l := s.launch 1
    l.active = true ∧ l.fatal = none ∧ l.second = false ∧ (s.team (teamKey 1 l.token)).staging = row0 :: [] ∧ row0.row = true ∧
    row0.op = .write [{ place := .mem 0x20000, val := 7, en := 0xFF }] := by decide
theorem witness_LaunchesEnd_codes : let s := leaving.updLaunch 1 fun l => { l with fatal := some 1 }
    (s.launch 1).active = true ∧ (s.launch 1).fatal.isSome = true ∧ (inDet s).stopOver 1 = true ∧ ((inDet s).launch 1).det = true ∧
    (let u := checked.updLaunch 1 fun l => { l with second := true }; u.runOver 1 = true ∧ (u.launch 1).differ = none) := by decide +kernel
/-- A letter that another port of this module has sent before, with the number that follows the last accepted there, and with that one. -/
theorem witness_PortsDeliverInOrder_again : (∀ p ∈ [(8, true), (7, false)], let l : Letter := { to_ := 0, from_ := 3, msg := .mcstAck 1 0, again := [(0, 0, p.1), (4, 0, 9)] }
      ((l.again.filter fun a => a.1 == (ported port0).pkg) = [(0, 0, p.1)]) ∧ decide (2048 ≤ ((((ported port0).port 0).lastIn : Int) - p.1) % 4096) = p.2) ∧
    keptWhole 0 (.mcstAck 1 0) ∧ keptWhole 0 (.numbered 5 1 store5 1 3) := ⟨by decide, trivial, show (3 : Nat) ≠ 0 by decide⟩
def kept0 : FlitOut := { seq := 6, typ := 1, part := some ({ to_ := 5, from_ := 0, msg := .mcstAck 1 0 }, 0), last := true, tries := 8 }
theorem witness_PortsDeliverInOrder_buffer : (∀ b ∈ [[], [kept0]], ((ported { port0 with state := 3, buffer := b }).port 0).buffer = b ∧ ((ported { port0 with state := 1, buffer := b }).port 0).state = 1) ∧
    (∀ o ∈ [none, some true, some false], ((ported { port0 with owed := o }).port 0).owed = o) ∧ { port0 with window := 257 }.window = 257 ∧
    (∃ f ∈ { port0 with buffer := [kept0] }.buffer, 8 ≤ f.tries) ∧ (∃ f : FlitSent, f.typ < 16) := ⟨by decide, by decide, by decide, by decide, ⟨0, 0, 0, false, none⟩, by decide⟩
theorem witness_StewardsWriteImages_counts : ({ plain with err := { plain.err with hbm := [(2, 254)] } } : State).err.hbm = [(2, 254)] ∧
    mapGet 0 [(2, 254)] 2 + 1 < 256 ∧ 256 ≤ mapGet 0 [(2, 255)] 2 + 1 ∧ (armed 0).badRead [.vault tk0 0] = some (.vault tk0 0) ∧ (armed 0).badRead [] = none ∧
    (plain.setCore 0 { plain.core 0 with ring := [(1, 2)] }).core 0 = { plain.core 0 with ring := [(1, 2)] } := by decide

-- ILL-FORMED TERMS
/-- One ill-formed neighbour for each check of R36 and R42: length, FN, type, operand kinds, modifiers, C, guard, scale and clamp, extension, immediates, a v source
of an s destination, X6, the descriptor, register groups. -/
theorem test_refused_length : (Instr.addInt fAdd).wellFormed = true ∧ (Instr.brk { nil with len := .l96 }).wellFormed = false ∧
    (Instr.ld { fLd with len := .l64, ext := 0 }).wellFormed = false := by decide
theorem test_refused_fn : (Instr.addInt { fAdd with fn := 3 }).wellFormed = false := by decide
theorem test_refused_type : (Instr.addInt { fAdd with ty := .f32 }).wellFormed = false := by decide
theorem test_refused_destination : (Instr.addInt { fAdd with d := .m 1 }).wellFormed = false := by decide
theorem test_refused_source_a : (Instr.addInt { fAdd with a := sr (.m 1) }).wellFormed = false := by decide
theorem test_refused_source_b : (Instr.addInt { fAdd with b := sr (.a 1) }).wellFormed = false := by decide
theorem test_refused_modifier : (Instr.mand fMask).wellFormed = true ∧ (Instr.mand { fMask with a := { sr (.m 2) with abs := true } }).wellFormed = false ∧
    (Instr.addInt { fAdd with a := { sr (.v 1) with last := true, keep := true } }).wellFormed = false ∧
    (Instr.ld { fLd with a := { sr (.s 2) with neg := true } }).wellFormed = false := by decide
theorem test_refused_c_in_64_bits : (Instr.fma { fAdd with ty := .f32, c := sr (.v 3) }).wellFormed = false := by decide
theorem test_refused_c_missing : (Instr.fma { fAdd with ty := .f32, len := .l96, c := sr (.v 3) }).wellFormed = true ∧
    (Instr.fma { fAdd with ty := .f32, len := .l96, c := sr (.m 3) }).wellFormed = false := by decide
theorem test_refused_guard : (Instr.addInt { fAdd with gn := true }).wellFormed = false ∧ (Instr.addInt { fAdd with g := 1, gn := true }).wellFormed = true := by decide
theorem test_refused_scale : (Instr.mov { blank with d := .v 3, a := sr (.v 1) }).wellFormed = true ∧ (Instr.mov { blank with d := .v 3, a := sr (.v 1), ds := 1 }).wellFormed = false ∧
    (Instr.mov { blank with d := .v 3, a := sr (.v 1), dc := true }).wellFormed = false := by decide
theorem test_refused_extension : (Instr.addInt { fAdd with ext := 1 }).wellFormed = false ∧ (Instr.br { blank with len := .l96, ext := 0x100000 }).wellFormed = false := by decide
theorem test_refused_two_immediates : (Instr.addInt { fAdd with b := sr .imm, x6 := 5 }).wellFormed = true ∧
    (Instr.addInt { fAdd with a := sr .imm, b := sr .imm, x6 := 5 }).wellFormed = false := by decide
theorem test_refused_lane_source_of_s : (Instr.addInt { fAdd with d := .s 3 }).wellFormed = false ∧
    (Instr.addInt { fAdd with d := .s 3, a := sr (.s 1), b := sr (.s 2) }).wellFormed = true := by decide
theorem test_refused_x6 : (Instr.addInt { fAdd with x6 := 1 }).wellFormed = false := by decide
theorem test_refused_descriptor : (Instr.ld fLd).wellFormed = true ∧ (Instr.ld { fLd with ext := at_ 0 3 0 }).wellFormed = false ∧
    (Instr.ld { fLd with ext := at_ 3 2 0 }).wellFormed = false ∧ (Instr.ld { fLd with ext := at_ 0 2 (2 ^ 40) }).wellFormed = false ∧
    (Instr.msred { fMs with ext := at_ 0 2 0 }).wellFormed = false ∧ (Instr.copy { fCopy 0 0 0 with ext := at_ 0 2 (2 ^ 54) }).wellFormed = false := by decide
theorem test_refused_register_group : (Instr.addInt { bin .i64 with d := .v 9 }).wellFormed = false ∧ (Instr.addInt (bin .i64)).wellFormed = true ∧
    (Instr.ld { fLd with d := .v 3, ty := .n64, ext := at_ 0 3 0 }).wellFormed = false := by decide
theorem test_refused_entry_checks : (Instr.cvt { fCvt with x6 := 7 }).wellFormed = false ∧ (Instr.sysr { fSysr with x6 := 10 }).wellFormed = false ∧
    (Instr.sysw { fSysw with x6 := 2 }).wellFormed = false ∧ (Instr.bind { fBind with x6 := 3 }).wellFormed = false ∧ (Instr.fence { fFence with x6 := 0 }).wellFormed = false ∧
    (Instr.lred { un .f32 with x6 := 5 }).wellFormed = false ∧ (Instr.lscan { un .f32 with x6 := 0x30 }).wellFormed = false ∧
    (Instr.cmp { fCmp with fn := 6 }).wellFormed = false ∧ (Instr.atom { fAt (.s 2) with ty := .f32, fn := 3 }).wellFormed = false ∧
    (Instr.brk { blank with g := 1 }).wellFormed = false ∧ (Instr.join { fJoin with g := 1 }).wellFormed = false := by decide
/-- A word that breaks a check is refused by the decoder too: OP 0 with a field, an unassigned opcode, length code 11 (R29, R36). -/
theorem test_decoder_refuses : decodeTableWord 64 0x10000 = none ∧ decodeTableWord 64 0x7F8 = none ∧ decodeTableWord 64 0x80040180013 = none := by decide

-- WORDS WRITTEN FROM THE STRIPS OF R37 TO R39
theorem test_decode_addInt : decodeTableWord 64 0x80040180010 =
    some (.addInt { blank with d := .v 3, a := sr (.v 1), b := sr (.v 2) }) := by rfl
theorem test_decode_mov : decodeTableWord 64 0x24C0003FC4280008 =
    some (.mov { blank with d := .s 5, a := sr (.imm), ty := .n64, x6 := 9 }) := by rfl
theorem test_decode_bfi : decodeTableWord 96 0x7040FF00400800401800E1 =
    some (.bfi { blank with len := .l96, d := .v 3, a := sr (.v 1), b := sr (.v 2), c := sr (.imm), ty := .n32, ext := 0x704 }) := by rfl
theorem test_decode_fma : decodeTableWord 96 0x30500084078200219 =
    some (.fma { blank with len := .l96, d := .v 4, dc := true, ds := 3, a := { unused with op := .v 1, neg := true }, b := sr (.v 2), c := sr (.v 3), ty := .f32, x6 := 1 }) := by rfl
theorem test_decode_padd : decodeTableWord 64 0x1401000C0100280 =
    some (.padd { blank with d := .v 2, a := sr (.v 3), b := sr (.v 4), ty := .bf16 }) := by rfl
theorem test_decode_cmp : decodeTableWord 64 0x3840046081400 =
    some (.cmp { blank with fn := 2, d := .m 1, a := sr (.v 1), b := sr (.special .lane) }) := by rfl
theorem test_decode_mand : decodeTableWord 64 0x32C3046100408 =
    some (.mand { blank with d := .m 2, a := sr (.m 1), b := sr (.j 3) }) := by rfl
theorem test_decode_shfl : decodeTableWord 96 0x100000043FC0080081C41 =
    some (.shfl { blank with len := .l96, fn := 3, d := .v 1, a := sr (.v 2), b := sr (.imm), ty := .n32, ext := 0x10 }) := by rfl
theorem test_decode_supd : decodeTableWord 64 0x100080040400460 =
    some (.supd { blank with d := .v 8, a := sr (.v 1), b := sr (.v 2), ty := .f32 }) := by rfl
theorem test_decode_cvt : decodeTableWord 64 0x140000080082480 =
    some (.cvt { blank with fn := 4, d := .v 1, a := sr (.v 2), ty := .bf16 }) := by rfl
theorem test_decode_mxq : decodeTableWord 64 0x1C0000100400488 =
    some (.mxq { blank with d := .v 8, a := sr (.v 4), ty := .e4m3 }) := by rfl
theorem test_decode_rnd : decodeTableWord 64 0x100082080080C98 =
    some (.rnd { blank with fn := 1, d := .v 1, a := sr (.s 2), b := sr (.v 2), ty := .f32 }) := by rfl
theorem test_decode_sfq : decodeTableWord 64 0x1021000C0100CA0 =
    some (.sfq { blank with fn := 1, d := .v 2, a := sr (.v 3), b := sr (.s 4), ty := .f32 }) := by rfl
theorem test_decode_br : decodeTableWord 96 0xFFFFC0000000000000048501 =
    some (.br { blank with len := .l96, g := 1, gn := true, ext := 0xFFFFC }) := by rfl
theorem test_decode_brx : decodeTableWord 64 0xC0002100000540 =
    some (.brx { blank with a := sr (.s 4), ty := .n64 }) := by rfl
theorem test_decode_bind : decodeTableWord 64 0x2000003FC0000580 =
    some (.bind { blank with a := sr (.imm), x6 := 8 }) := by rfl
theorem test_decode_ladd : decodeTableWord 64 0x40080040180D90 =
    some (.ladd { blank with fn := 1, d := .v 3, a := sr (.v 1), b := sr (.v 2), ty := .n32 }) := by rfl
theorem test_decode_ld : decodeTableWord 128 0x908000FFFFFFFFF800400C2080080602 =
    some (.ld { blank with len := .l128, d := .v 1, a := sr (.s 2), b := sr (.v 3), ty := .n32, ext := 0x908000FFFFFFFFF8 }) := by rfl
theorem test_decode_st : decodeTableWord 128 0x180000000000004000C380380010060A =
    some (.st { blank with len := .l128, d := .v 2, a := sr (.zero), b := sr (.zero), ty := .n64, ext := 0x1800000000000040 }) := by rfl
theorem test_decode_atom : decodeTableWord 128 0x10000000000000000043802080080622 =
    some (.atom { blank with len := .l128, d := .v 1, a := sr (.s 2), b := sr (.zero), ty := .n32, ext := 0x1000000000000000 }) := by rfl
theorem test_decode_wcnt : decodeTableWord 64 0xC40003FC0000E48 =
    some (.wcnt { blank with fn := 1, a := sr (.imm), ty := .n32, x6 := 3 }) := by rfl
theorem test_decode_fset : decodeTableWord 128 0x10000000000000000003802040000E52 =
    some (.fset { blank with len := .l128, fn := 1, a := sr (.s 1), b := sr (.zero), ext := 0x1000000000000000 }) := by rfl
theorem test_decode_barSync : decodeTableWord 128 0x10000000000000000003802047000662 =
    some (.barSync { blank with len := .l128, d := .zero, a := sr (.s 1), b := sr (.zero), ext := 0x1000000000000000 }) := by rfl
theorem test_decode_tnow : decodeTableWord 64 0xC0000004100670 =
    some (.tnow { blank with d := .s 2, ty := .n64 }) := by rfl
theorem test_decode_rdat : decodeTableWord 128 0x90000000000000000043802100080682 =
    some (.rdat { blank with len := .l128, d := .v 1, a := sr (.s 4), b := sr (.zero), ty := .n32, ext := 0x9000000000000000 }) := by rfl
theorem test_decode_mcst : decodeTableWord 128 0x9000000000000000004380208008068A =
    some (.mcst { blank with len := .l128, d := .v 1, a := sr (.s 2), b := sr (.zero), ty := .n32, ext := 0x9000000000000000 }) := by rfl
theorem test_decode_waitv : decodeTableWord 128 0x980000000000000000C38020840806A2 =
    some (.waitv { blank with len := .l128, d := .s 1, a := sr (.s 2), b := sr (.zero), ty := .n64, ext := 0x9800000000000000 }) := by rfl
theorem test_decode_tddrop : decodeTableWord 64 0x4180F00 =
    some (.tddrop { blank with fn := 1, d := .s 3 }) := by rfl
theorem test_decode_copy : decodeTableWord 128 0x100000000000000003C000208420070A =
    some (.copy { blank with len := .l128, d := .s 4, a := sr (.s 2), ty := .b32, ext := 0x1000000000000000 }) := by rfl
theorem test_decode_await : decodeTableWord 64 0x3440000718 =
    some (.await { blank with a := sr (.a 1) }) := by rfl
theorem test_decode_cstart : decodeTableWord 64 0xC20C2084080738 =
    some (.cstart { blank with d := .s 1, a := sr (.s 2), b := sr (.s 3), ty := .n64 }) := by rfl
theorem test_decode_mmbf : decodeTableWord 128 0x8000000000000000142102086880742 =
    some (.mmbf { blank with len := .l128, d := .a 1, a := sr (.s 2), b := sr (.s 4), ty := .bf16, ext := 0x800000000000000 }) := by rfl
theorem test_decode_trap : decodeTableWord 64 0x14C0003FC0000780 =
    some (.trap { blank with a := sr (.imm), ty := .n64, x6 := 5 }) := by rfl
theorem test_decode_sysr : decodeTableWord 64 0xCC00000040807A0 =
    some (.sysr { blank with d := .s 1, ty := .n64, x6 := 3 }) := by rfl
theorem test_decode_flag : decodeTableWord 64 0x400000000807B0 =
    some (.flag { blank with d := .v 1, ty := .n32 }) := by rfl

-- THE ALGORITHMS THAT R286, R343 AND R348 NAME, AGAINST THEIR PUBLISHED EXAMPLES
set_option maxRecDepth 100000 in
/-- The check value of CRC-32. -/
theorem test_crc32_check : crc32 ([0x31, 0x32, 0x33, 0x34, 0x35, 0x36, 0x37, 0x38, 0x39]) = 0xCBF43926 := by decide
set_option maxRecDepth 100000 in
/-- The example of FIPS 180-4. -/
theorem test_sha256_abc : ofBytesBE (sha256 [0x61, 0x62, 0x63]) = 0xBA7816BF8F01CFEA414140DE5DAE2223B00361A396177A9CB410FF61F20015AD := by decide
/-- Twice the base point of P-256, and the order times it. -/
theorem test_twice_the_base : CurvePoint.times (some curveBase) 256 2 =
    some (0x7CF27B188D034F7E8A52380304B51AC3C08969E277F21B35A60B48FC47669978, 0x07775510DB8ED040293D9AC69F7430DBBA7DADE63CE982299E04B79D227873D1) := by decide +kernel
theorem test_order_of_the_base : CurvePoint.times (some curveBase) 256 curveOrder = none := by decide +kernel
/-- c.addi a0, 1 stands for addi a0, a0, 1; the reset program counter is 0. -/
theorem test_rv_compressed : rvExpand 0x0505 = some 0x00150513 := by decide
/-- addi t0, zero, 7 (0x00700293) at 0 runs, and an instruction of zeros is illegal. -/
theorem test_rv_step : let s := plain.setStewardBytes 0 0 (bytesOf 4 0x00700293)
    let t := s.stewardStep 0
    (t.hart 0).reg 5 = 7 ∧ (t.hart 0).pc = 4 ∧ ((t.stewardStep 0).hart 0).csrs 0x342 = 2 := by decide

-- WORDS AND RESULTS THAT THE SPEC WORKS OUT
/-- add:i32 v3, v1, #5 (R84). -/
theorem test_word_add_immediate : decodeTableWord 64 0x1403FC0040180010 = some (.addInt { blank with d := .v 3, a := sr (.v 1), b := sr .imm, x6 := 5 }) := by rfl
/-- add:f32 v2.h.c, -v1, #THREE (R40). -/
theorem test_word_add_f32 : decodeTableWord 96 0x404000000103FC4078100201 = some (.addFp { blank with len := .l96, d := .v 2, dc := true, ds := 3, a := { unused with op := .v 1, neg := true }, b := sr .imm, ty := .f32, ext := 0x40400 }) := by rfl
/-- lred.add:f32 v9, v4 (R97). -/
theorem test_word_lred : decodeTableWord 64 0x4100000100480450 = some (.lred { blank with d := .v 9, a := sr (.v 4), ty := .f32, x6 := 0x10 }) := by rfl
/-- supd:f32 v8, v1, #1.0f (R100). -/
theorem test_word_supd : decodeTableWord 96 0x3F8000000103FC0040400461 = some (.supd { blank with len := .l96, d := .v 8, a := sr (.v 1), b := sr .imm, ty := .f32, ext := 0x3F800 }) := by rfl
/-- cvt.f32:e4m3 v12, v8 (R102). -/
theorem test_word_cvt : decodeTableWord 64 0x1C0000200602480 = some (.cvt { blank with fn := 4, d := .v 12, a := sr (.v 8), ty := .e4m3 }) := by rfl
/-- sfq.exp2:f32 v5, v3, s9 (R106). -/
theorem test_word_sfq : decodeTableWord 64 0x1022400C02804A0 = some (.sfq { blank with fn := 0, d := .v 5, a := sr (.v 3), b := sr (.s 9), ty := .f32 }) := by rfl
/-- ?m1 br done (R113). -/
theorem test_word_br : decodeTableWord 96 0x300000000000000008501 = some (.br { blank with len := .l96, g := 1, ext := 0x30 }) := by rfl
/-- jset j1, m0 (R120). -/
theorem test_word_jset : decodeTableWord 64 0x3006480530 = some (.jset { blank with d := .j 1, a := sr (.m 0) }) := by rfl
/-- join j1 (R120). -/
theorem test_word_join : decodeTableWord 64 0x3240000538 = some (.join { blank with a := sr (.j 1) }) := by rfl
/-- bind #8 (R125). -/
theorem test_word_bind : decodeTableWord 64 0x2000003FC0000580 = some (.bind { blank with a := sr .imm, x6 := 8 }) := by rfl
/-- ladd.t.co2:n32 v8, v0, v4 (R132). -/
theorem test_word_ladd : decodeTableWord 64 0x40100000405590 = some (.ladd { blank with fn := 0xA, d := .v 8, a := sr (.v 0), b := sr (.v 4), ty := .n32 }) := by rfl
/-- ld.acq.mod:i32 v5, g[s2 + v3*4 + 64] (R140). -/
theorem test_word_ld : decodeTableWord 128 0x908000000000004000000C2080282602 = some (.ld { blank with len := .l128, fn := 4, d := .v 5, a := sr (.s 2), b := sr (.v 3), ext := 0x9080000000000040 }) := by rfl
/-- fence.ld.st.mod (R148). -/
theorem test_word_fence : decodeTableWord 64 0xC00000000002640 = some (.fence { blank with fn := 4, x6 := 3 }) := by rfl
/-- wcnt.st.cp:n32 #0 (R149). -/
theorem test_word_wcnt : decodeTableWord 64 0x40003FC0003648 = some (.wcnt { blank with fn := 6, a := sr .imm, ty := .n32 }) := by rfl
/-- tnow:n64 s4 (R154). -/
theorem test_word_tnow : decodeTableWord 64 0xC0000004200670 = some (.tnow { blank with d := .s 4, ty := .n64 }) := by rfl
/-- stst:f32 g[s8 + v0*4], v4 (R156). -/
theorem test_word_stst : decodeTableWord 128 0x9080000000000000010000220020067A = some (.stst { blank with len := .l128, d := .v 4, a := sr (.s 8), b := sr (.v 0), ty := .f32, ext := 0x9080000000000000 }) := by rfl
/-- rdat:f32 v4, g[s8 + v0*4] (R157). -/
theorem test_word_rdat : decodeTableWord 128 0x90800000000000000100002200200682 = some (.rdat { blank with len := .l128, d := .v 4, a := sr (.s 8), b := sr (.v 0), ty := .f32, ext := 0x9080000000000000 }) := by rfl
/-- tdload ts[s5], g[s4 + 0x40] (R166). -/
theorem test_word_tdload : decodeTableWord 128 0x90000000000000400000002104280702 = some (.tdload { blank with len := .l128, d := .s 5, a := sr (.s 4), ext := 0x9000000000000040 }) := by rfl
/-- copy:b32 ls[0x100]~1, s8 (R170). -/
theorem test_word_copy : decodeTableWord 128 0x110000000000010003C000380440070A = some (.copy { blank with len := .l128, d := .s 8, a := sr .zero, ty := .b32, ext := 0x1100000000000100 }) := by rfl
/-- mmbf:bf16 a3, ls[s4 + 0x400]~2, s8 (R176). -/
theorem test_word_mmbf : decodeTableWord 128 0xA000000000004000142202106980742 = some (.mmbf { blank with len := .l128, d := .a 3, a := sr (.s 4), b := sr (.s 8), ty := .bf16, ext := 0x0A00000000000400 }) := by rfl
/-- adrain.stat:bf16 ls[s12 + 0x2000], a3, v16 (R183). -/
theorem test_word_adrain : decodeTableWord 128 0x8000000000020000142300406980F32 = some (.adrain { blank with len := .l128, fn := 1, d := .a 3, a := sr (.v 16), b := sr (.s 12), ty := .bf16, ext := 0x0800000000002000 }) := by rfl
/-- add:i32 with an immediate wraps (R84). -/
theorem test_add_immediate : let g := ran 64 0x1403FC0040180010 fun g => (g.setV 1 0 0xFFFFFFFE)
    g.vreg 3 0 = 0x3 ∧ g.vreg 3 1 = 0x5 := by decide
/-- (−1 + 3) × 0.5 = 1.0, and (−5 + 3) × 0.5 clamps to +0.0 (R26). -/
theorem test_add_f32 : let g := ran 96 0x404000000103FC4078100201 fun g => ((g.setV 1 0 0x3F800000).setV 1 1 0x40A00000)
    g.vreg 2 0 = 0x3F800000 ∧ g.vreg 2 1 = 0x0 := by decide
/-- The worked example of R63. -/
theorem test_padd : let g := ran 64 0x1C0040000100280 fun g => ((g.setV 0 0 0x38307F7E).setV 1 0 0x4038387E)
    g.vreg 2 0 = 0x443C7F7E ∧ (g.lane 0).flags = flagOF ||| flagNX := by decide
/-- Bits [11:4], extended from bit 11 (R86). -/
theorem test_bfx : let g := ran 64 0x400001000D8 fun g => ((g.setV 0 0 0xF50).setV 1 0 0xB04)
    g.vreg 2 0 = 0xFFFFFFF5 := by decide
/-- Byte 0 = b3, byte 1 = NOT b0, byte 2 = 0, byte 3 = b0 (R86). -/
theorem test_bsel : let g := ran 96 0x300400400001000F9 fun g => (((g.setV 0 0 0x44332211).setV 1 0 0x88776655).setV 3 0 0x81003)
    g.vreg 2 0 = 0x1100EE44 := by decide
/-- The worked example of R97. -/
theorem test_lred : let g := ran 64 0x4100000100480450 fun g => ((((g.setV 4 0 0x4B800000).setV 4 1 0x3F800000).setV 4 2 0x3F800000).setV 4 3 0xCB800000)
    g.vreg 9 0 = 0x3F800000 ∧ g.vreg 9 3 = 0x3F800000 ∧ (g.lane 0).flags = flagNX ∧ (g.lane 3).flags = flagNX := by decide
/-- The worked example of R102. -/
theorem test_cvt : let g := ran 64 0x1C0000200602480 fun g => ((((g.setV 8 0 0x3F800000).setV 9 0 0x43FA0000).setV 10 0 0x80000000).setV 11 0 0x3E99999A)
    g.vreg 12 0 = 0x2A807E38 ∧ (g.lane 0).flags = flagOF ||| flagNX := by decide
set_option maxRecDepth 100000 in
/-- The worked example of R103. -/
theorem test_mxq : let g := ran 64 0x1C0000100400488 fun g => ((g.setV 4 0 0x40400000).setV 4 1 0x3DCCCCCD)
    g.vreg 8 0 = 0x787C ∧ g.vreg 8 1 = 0x7855 ∧ g.vreg 8 2 = 0x7800 ∧ g.vreg 8 31 = 0x7800 ∧ (g.lane 1).flags = flagNX ∧ (g.lane 0).flags = 0 := by decide
/-- 13 × 2^−7 (R104). -/
theorem test_mxdq : let g := ran 64 0x1C0000100400490 fun g => (g.setV 4 1 0x7855)
    g.vreg 8 1 = 0x3DD00000 := by decide
set_option maxRecDepth 100000 in
/-- The third and the first update of the worked example of R71. -/
theorem test_supd : let g := ran 96 0x3F8000000103FC0040400461 fun g => (((((g.setV 8 0 0x40000000).setV 9 0 0x3FC00000).setV 10 0 0x3F000000).setV 1 0 0x40800000).setV 1 1 0x3F800000)
    g.vreg 8 0 = 0x40400000 ∧ g.vreg 9 0 = 0x40155556 ∧ g.vreg 8 1 = 0x3F800000 ∧ g.vreg 9 1 = 0x3F800000 ∧ g.vreg 10 1 = 0x0 := by decide
/-- x = 3.0 with E = 2 (R74). -/
theorem test_cvt_tofx : let g := ran 64 0x6080040000102480 fun g => ((g.setV 0 0 0x40400000).setV 1 0 0x2)
    g.vreg 2 0 = 0x0 ∧ g.vreg 3 0 = 0x30000 := by decide
/-- One acting lane, lane 0, whose bit is 1 (R93). -/
theorem test_vote_pat : let g := ran 64 0x3044210438 fun g => (g.setM 2 1).setM 1 1
    g.sreg 4 = 0x100000001 := by decide
/-- The same with q = 1 (R93). -/
theorem test_vote_quo : let g := ran 64 0x403FC3044210C38 fun g => (g.setM 2 1).setM 1 1
    g.sreg 4 = 1 := by decide
/-- The same under .uni (R93). -/
theorem test_vote_uni : let g := ran 64 0x3044211438 fun g => (g.setM 2 1).setM 1 1
    g.sreg 4 = 3 := by decide
/-- The worked example of R132. -/
theorem test_ladd : let g := ran 64 0x40100000405590 fun g => { ((((((g.setV 0 0 0xFFFFFFFF).setV 0 1 0xFFFFFFFF).setV 0 2 0x5).setV 0 3 0x80000000).setV 4 0 0x1).setV 4 3 0x80000000) with binding := 4 }
    g.vreg 8 0 = 0x0 ∧ g.vreg 8 1 = 0x0 ∧ g.vreg 8 2 = 0x6 ∧ g.vreg 8 3 = 0x0 ∧ maskBit (g.mreg 2) 0 = true ∧ maskBit (g.mreg 2) 3 = true ∧ maskBit (g.mreg 2) 4 = false := by decide
/-- IMM20 = 0x30 goes 0xC0 bytes on (R113). -/
theorem test_br : let g := ran 96 0x300000000000000008501 fun g => g.setM 1 1
    (g.lane 0).pc = 0x100C0 ∧ (g.lane 1).pc = 0x1000C := by decide
/-- R84 to R86. -/
theorem test_sub : let g := ran 64 0x40000100018 fun g => ((g.setV 0 0 0x3).setV 1 0 0x5)
    g.vreg 2 0 = 0xFFFFFFFE := by decide
/-- R84 to R86. -/
theorem test_mul : let g := ran 64 0x40000100020 fun g => ((g.setV 0 0 0x10001).setV 1 0 0x10001)
    g.vreg 2 0 = 0x20001 := by decide
/-- R84 to R86. -/
theorem test_mulh : let g := ran 64 0x40000100028 fun g => ((g.setV 0 0 0xFFFFFFFF).setV 1 0 0x2)
    g.vreg 2 0 = 0xFFFFFFFF := by decide
/-- R84 to R86. -/
theorem test_mulh_unsigned : let g := ran 64 0x40040000100028 fun g => ((g.setV 0 0 0xFFFFFFFF).setV 1 0 0x2)
    g.vreg 2 0 = 0x1 := by decide
set_option maxRecDepth 100000 in
/-- R84 to R86. -/
theorem test_div : let g := ran 64 0x40000100040 fun g => ((g.setV 0 0 0xFFFFFFF9).setV 1 0 0x2)
    g.vreg 2 0 = 0xFFFFFFFD := by decide
set_option maxRecDepth 100000 in
/-- R84 to R86. -/
theorem test_div_by_zero : let g := ran 64 0x40000100040 fun g => ((g.setV 0 0 0x7).setV 1 0 0x0)
    g.vreg 2 0 = 0xFFFFFFFF ∧ (g.lane 0).flags = flagDZ := by decide
set_option maxRecDepth 100000 in
/-- R84 to R86. -/
theorem test_rem : let g := ran 64 0x40000100048 fun g => ((g.setV 0 0 0xFFFFFFF9).setV 1 0 0x2)
    g.vreg 2 0 = 0xFFFFFFFF := by decide
/-- R84 to R86. -/
theorem test_min : let g := ran 64 0x40000100050 fun g => ((g.setV 0 0 0xFFFFFFFF).setV 1 0 0x1)
    g.vreg 2 0 = 0xFFFFFFFF := by decide
/-- R84 to R86. -/
theorem test_max : let g := ran 64 0x40040000100058 fun g => ((g.setV 0 0 0xFFFFFFFF).setV 1 0 0x1)
    g.vreg 2 0 = 0xFFFFFFFF := by decide
/-- R84 to R86. -/
theorem test_sadd : let g := ran 64 0x40000100060 fun g => ((g.setV 0 0 0x7FFFFFFF).setV 1 0 0x1)
    g.vreg 2 0 = 0x7FFFFFFF ∧ (g.lane 0).flags = flagOF := by decide
/-- R84 to R86. -/
theorem test_ssub : let g := ran 64 0x40040000100068 fun g => ((g.setV 0 0 0x1).setV 1 0 0x2)
    g.vreg 2 0 = 0x0 ∧ (g.lane 0).flags = flagOF := by decide
/-- R84 to R86. -/
theorem test_and : let g := ran 64 0x40000100070 fun g => ((g.setV 0 0 0xFF00FF00).setV 1 0 0xFF00FF0)
    g.vreg 2 0 = 0xF000F00 := by decide
/-- R84 to R86. -/
theorem test_or : let g := ran 64 0x40000100078 fun g => ((g.setV 0 0 0xFF00FF00).setV 1 0 0xFF00FF0)
    g.vreg 2 0 = 0xFFF0FFF0 := by decide
/-- R84 to R86. -/
theorem test_xor : let g := ran 64 0x40000100080 fun g => ((g.setV 0 0 0xFF00FF00).setV 1 0 0xFF00FF0)
    g.vreg 2 0 = 0xF0F0F0F0 := by decide
/-- R84 to R86. -/
theorem test_shl : let g := ran 64 0x40000100090 fun g => ((g.setV 0 0 0x1).setV 1 0 0x20)
    g.vreg 2 0 = 0x0 := by decide
/-- R84 to R86. -/
theorem test_shr : let g := ran 64 0x40000100098 fun g => ((g.setV 0 0 0x80000000).setV 1 0 0x1F)
    g.vreg 2 0 = 0x1 := by decide
/-- R84 to R86. -/
theorem test_sar : let g := ran 64 0x400001000A0 fun g => ((g.setV 0 0 0x80000000).setV 1 0 0x28)
    g.vreg 2 0 = 0xFFFFFFFF := by decide
/-- R84 to R86. -/
theorem test_rol : let g := ran 64 0x400001000A8 fun g => ((g.setV 0 0 0x80000001).setV 1 0 0x21)
    g.vreg 2 0 = 0x3 := by decide
/-- R84 to R86. -/
theorem test_ror : let g := ran 64 0x400001000B0 fun g => ((g.setV 0 0 0x3).setV 1 0 0x1)
    g.vreg 2 0 = 0x80000001 := by decide
/-- R84. -/
theorem test_not : let g := ran 64 0x100088 fun g => (g.setV 0 0 0xF0F0F0F0)
    g.vreg 2 0 = 0xF0F0F0F := by decide
/-- R84. -/
theorem test_popc : let g := ran 64 0x1000B8 fun g => (g.setV 0 0 0xF000000F)
    g.vreg 2 0 = 0x8 := by decide
/-- R84. -/
theorem test_clz : let g := ran 64 0x1000C0 fun g => (g.setV 0 0 0x10000)
    g.vreg 2 0 = 0xF := by decide
/-- R84. -/
theorem test_ctz : let g := ran 64 0x1000C8 fun g => (g.setV 0 0 0x0)
    g.vreg 2 0 = 0x20 := by decide
/-- R84. -/
theorem test_brev : let g := ran 64 0x1000D0 fun g => (g.setV 0 0 0x1)
    g.vreg 2 0 = 0x80000000 := by decide
/-- R84. -/
theorem test_sext : let g := ran 64 0x100100 fun g => (g.setV 0 0 0x80)
    g.vreg 2 0 = 0xFFFFFF80 := by decide
/-- R84. -/
theorem test_zext : let g := ran 64 0x40000000100108 fun g => (g.setV 0 0 0xFFFF8080)
    g.vreg 2 0 = 0x80 := by decide
/-- R84. -/
theorem test_mad : let g := ran 96 0x30000040000100031 fun g => (((g.setV 0 0 0x3).setV 1 0 0x5).setV 3 0 0xFFFFFFFF)
    g.vreg 2 0 = 0xE := by decide
/-- R84. -/
theorem test_madh : let g := ran 96 0x30040040000100039 fun g => (((g.setV 0 0 0xFFFFFFFF).setV 1 0 0x2).setV 3 0 0x2)
    g.vreg 2 0 = 0x2 := by decide
/-- Bits [7:4] take B (R86). -/
theorem test_bfi : let g := ran 96 0x7040FF00400400001000E1 fun g => ((g.setV 0 0 0xFFFFFFFF).setV 1 0 0x3)
    g.vreg 2 0 = 0xFFFFFF3F := by decide
/-- R84. -/
theorem test_sel : let g := ran 96 0xC100000400001000E9 fun g => (((((g.setM 1 1).setV 0 0 0x7).setV 1 0 0x9).setV 0 1 0x7).setV 1 1 0x9)
    g.vreg 2 0 = 0x7 ∧ g.vreg 2 1 = 0x9 := by decide
/-- R84. -/
theorem test_lea : let g := ran 64 0xC01000001010F0 fun g => ((g.setV 0 0 0x10).setV 4 0 0xFFFFFFFF)
    g.vreg 2 0 = 0xC ∧ g.vreg 3 0 = 0x0 := by decide
/-- 3 × 4 + 2 × 3 − 1 × 2 + 1 × 1 (R86). -/
theorem test_dot4 : let g := ran 64 0x40000100110 fun g => ((g.setV 0 0 0x1FF0203).setV 1 0 0x1020304)
    g.vreg 2 0 = 0x11 := by decide
/-- R86. -/
theorem test_sad : let g := ran 64 0x40040000100118 fun g => ((g.setV 0 0 0xFF0203).setV 1 0 0x1020304)
    g.vreg 2 0 = 0x100 := by decide
/-- R84. -/
theorem test_mov_uniform : let g := ran 64 0x24C0003FC4280008 fun g => g
    g.sreg 5 = 9 := by decide
/-- R87. -/
theorem test_sub_f32 : let g := ran 64 0x100040000100210 fun g => ((g.setV 0 0 0x3F800000).setV 1 0 0x40400000)
    g.vreg 2 0 = 0xC0000000 ∧ (g.lane 0).flags = 0 := by decide
/-- R87. -/
theorem test_mul_f32 : let g := ran 64 0x100040000100208 fun g => ((g.setV 0 0 0x40400000).setV 1 0 0xC0000000)
    g.vreg 2 0 = 0xC0C00000 ∧ (g.lane 0).flags = 0 := by decide
/-- R87. -/
theorem test_fma_f32 : let g := ran 96 0x30100040000100219 fun g => (((g.setV 0 0 0x40400000).setV 1 0 0x40000000).setV 3 0 0x3F800000)
    g.vreg 2 0 = 0x40E00000 := by decide
/-- A quiet NaN gives the other operand (R87). -/
theorem test_min_f32 : let g := ran 64 0x100040000100220 fun g => ((g.setV 0 0 0x3F800000).setV 1 0 0x7FC00000)
    g.vreg 2 0 = 0x3F800000 ∧ (g.lane 0).flags = 0 := by decide
/-- R87. -/
theorem test_max_f32 : let g := ran 64 0x100040000100228 fun g => ((g.setV 0 0 0x80000000).setV 1 0 0x0)
    g.vreg 2 0 = 0x0 ∧ (g.lane 0).flags = 0 := by decide
set_option maxRecDepth 100000 in
/-- R87. -/
theorem test_div_f32 : let g := ran 64 0x100040000100230 fun g => ((g.setV 0 0 0x3F800000).setV 1 0 0x0)
    g.vreg 2 0 = 0x7F800000 ∧ (g.lane 0).flags = flagDZ := by decide
/-- R87. -/
theorem test_sqrt_f32 : let g := ran 64 0x100000000100238 fun g => (g.setV 0 0 0xBF800000)
    g.vreg 2 0 = 0x7FC00000 ∧ (g.lane 0).flags = flagNV := by decide
set_option maxRecDepth 100000 in
/-- R87. -/
theorem test_rcp_f32 : let g := ran 64 0x100000000100240 fun g => (g.setV 0 0 0x40000000)
    g.vreg 2 0 = 0x3F000000 ∧ (g.lane 0).flags = 0 := by decide
/-- R87. -/
theorem test_frac_f32 : let g := ran 64 0x100000000100248 fun g => (g.setV 0 0 0x40200000)
    g.vreg 2 0 = 0x3F000000 ∧ (g.lane 0).flags = 0 := by decide
/-- R87. -/
theorem test_rint_f32 : let g := ran 64 0x100000000100250 fun g => (g.setV 0 0 0x40200000)
    g.vreg 2 0 = 0x40000000 ∧ (g.lane 0).flags = flagNX := by decide
/-- No NX (R87). -/
theorem test_floor_f32 : let g := ran 64 0x100000000100258 fun g => (g.setV 0 0 0xBF000000)
    g.vreg 2 0 = 0xBF800000 ∧ (g.lane 0).flags = 0 := by decide
/-- No NX (R87). -/
theorem test_ceil_f32 : let g := ran 64 0x100000000100260 fun g => (g.setV 0 0 0x3F000000)
    g.vreg 2 0 = 0x3F800000 ∧ (g.lane 0).flags = 0 := by decide
/-- No NX (R87). -/
theorem test_trunc_f32 : let g := ran 64 0x100000000100268 fun g => (g.setV 0 0 0xBFC00000)
    g.vreg 2 0 = 0xBF800000 ∧ (g.lane 0).flags = 0 := by decide
/-- R87. -/
theorem test_ldexp_f32 : let g := ran 64 0x100040000100270 fun g => ((g.setV 0 0 0x40400000).setV 1 0 0x2)
    g.vreg 2 0 = 0x41400000 ∧ (g.lane 0).flags = 0 := by decide
end Sys2Proof.Tests
end

section
/-! PROOFS. What an integer instruction and a mov do, what a special source reads (R18, R23), and the module's index in its pod (R12). -/

namespace Sys2Proof.Proofs

open Sys2Proof.Machine Sys2Proof.Claims

-- SPECIAL SOURCES
/-- A source without modifiers is its operand's bits (R23). -/
theorem readAs_plain (x : View) (ty : Ty) (o : Opnd) (l : Nat) : readAs x ty { unused with op := o } l = rawOpnd x ty o l := rfl

/-- A special read as a type of 32 bits or fewer gives the low 32 bits of its value (R42). -/
theorem rawOpnd_special_narrow (x : View) (ty : Ty) (k : Special) (l : Nat) (hty : ty.width ≠ 64) :
    rawOpnd x ty (.special k) l = specialVal x.s0 x.seen l k % 2 ^ 32 := if_neg hty

/-- The value of %pkg is the module's index in its pod, in every lane (R12). -/
theorem specialVal_pkg (s : State) (g : Group) (l : Nat) : specialVal s g l .pkg = s.pkg := rfl

/-- An index of 12 bits is read whole by a 32-bit source. -/
theorem readAs_pkg (x : View) (l : Nat) (h : x.s0.pkg < 4096) :
    readAs x .n32 { unused with op := .special .pkg } l = x.s0.pkg := by
  rw [readAs_plain, rawOpnd_special_narrow _ _ _ _ (by decide), specialVal_pkg]
  exact Nat.mod_eq_of_lt (by omega)

-- INTEGER INSTRUCTIONS
/-- Only what an effect does on the view of its instruction matters. -/
theorem runActing_congr {i : Instr} {f : Form} {s : State} {eff eff' : View → Eff} (h : eff (viewOf i f s) = eff' (viewOf i f s)) :
    runActing i f eff s = runActing i f eff' s := by
  unfold runActing runForm
  simp only [h]

/-- An instruction of the integer shape that passes the shared checks writes its operation's results, and rounds nothing. -/
theorem runActing_intEff {i : Instr} {f : Form} {s : State} (op : IntFn) (h : sharedTrap (viewOf i f s) = none) :
    ∃ t, runActing i f (intEff op) s = .next t ∧ Result (viewOf i f s) t f.ty 0 fun l =>
      op f.ty.width f.ty.signed (readA (viewOf i f s) l) (readB (viewOf i f s) l) (readC (viewOf i f s) f.ty l) := by
  rw [runActing_congr (eff := intEff op) (eff' := fun x => .done (writeEach x f.ty fun l =>
    op f.ty.width f.ty.signed (readA x l) (readB x l) (readC x f.ty l))) (by unfold intEff; rw [viewOf_f])]
  exact runActing_result f.ty _ h

/-- mov writes its source A modulo its type's width, and sets no flag (R84). -/
theorem mov_does (f : Form) :
    Does (.mov f) f fun x t => Result x t f.ty 0 fun l => (readA x l % 2 ^ f.ty.width, 0) :=
  fun _ h => runActing_intEff iMov h

-- THE MODULE'S INDEX IN ITS POD
/-- A configuration stores the index as it is when it lies in the 12 bits of R12, and changes nothing else. -/
theorem exec_podConfigure (n : Nat) (s : State) (h : n < 4096) : exec (.podConfigure n) s = .next { s with pkg := n } := by
  have hn : n % 2 ^ 12 = n := Nat.mod_eq_of_lt h
  change execPodConfigure n s = _
  unfold execPodConfigure
  rw [hn]

/-- mov.n32 of %pkg gives the module's index in each acting lane. -/
theorem mov_pkg (f : Form) (ha : f.a = { unused with op := .special .pkg }) (hty : f.ty = .n32) :
    Does (.mov f) f fun x t => x.s0.pkg < 4096 → Result x t .n32 0 fun _ => (x.s0.pkg, 0) := by
  intro s hc
  obtain ⟨t, ht, hr⟩ := mov_does f s hc
  refine ⟨t, ht, fun hp => ?_⟩
  have hread : ∀ l, readA (viewOf (.mov f) f s) l = s.pkg := by
    intro l
    unfold readA
    rw [viewOf_f, hty, ha]
    exact readAs_pkg _ l hp
  have hmod : s.pkg % 2 ^ Ty.n32.width = s.pkg := Nat.mod_eq_of_lt (show s.pkg < 2 ^ 32 by rw [viewOf_s0] at hp; omega)
  simpa only [hty, hread, hmod, viewOf_s0] using hr

/-- Settles O57: the configuration keeps an index below 4,096, mov reads it whole, and the reset state holds 0. -/
theorem podIndexIsRead : Obligations.PodIndexIsRead :=
  ⟨exec_podConfigure, fun f _ ha hty => mov_pkg f ha hty, rfl⟩

end Sys2Proof.Proofs
end

section
/-! PROOFS. The decoder reads a word without loss (R34 to R39), and the nops of R29. -/

namespace Sys2Proof.Proofs

open Sys2Proof.Machine Sys2Proof.Claims

-- CODES AND WHAT THEY NAME
/-- Fields unpacked and packed again give the bits they cover. -/
theorem packFields_unpackFields (ws : List Nat) (x : Nat) : packFields (ws.zip (unpackFields ws x)) = x % 2 ^ ws.sum := by
  induction ws generalizing x with
  | nil => exact (Nat.mod_one x).symm
  | cons w ws ih =>
    rw [unpackFields, List.zip_cons_cons, packFields, ih, List.sum_cons, Nat.mod_mod, Nat.pow_add, Nat.mod_mul]

/-- The specials stand in the order of their codes, from 0xE1 (R41). -/
theorem specials_code : ∀ i : Fin specials.length, specials[i].code = 0xE1 + i := by decide

/-- A special operand has the code that it was read from (R41). -/
theorem code_of_specials_map {n : Nat} {o : Opnd} (h : (specials[n]?).map Opnd.special = some o) : o.code = 0xE1 + n := by
  obtain ⟨k, hk, rfl⟩ := Option.map_eq_some_iff.mp h
  obtain ⟨hn, rfl⟩ := List.getElem?_eq_some_iff.mp hk
  exact specials_code ⟨n, hn⟩

/-- The operand of a code has that code (R41). -/
theorem code_of_opndOf {c : Nat} {o : Opnd} (h : opndOf c = some o) : o.code = c := by
  unfold opndOf at h
  repeat' split at h
  -- the seventh range holds the specials, which go through their list; the eighth is the immediate, and beyond it no code is assigned
  rotate_left 6
  · have hcode := code_of_specials_map h
    omega
  · next himm => obtain rfl := Option.some.inj h; exact himm.symm
  · cases h
  all_goals
    obtain rfl := Option.some.inj h
    simp only [Opnd.code, BitVec.toNat_ofNat]
    omega

/-- Four bits from a number and back (R23). -/
theorem mods_of_bits : ∀ m : Fin 16, b2n (m.val.testBit 0) + 2 * b2n (m.val.testBit 1) + 4 * b2n (m.val.testBit 2) + 8 * b2n (m.val.testBit 3) = m := by
  decide

/-- A source field has the code and the modifier bits it was read from (R23, R41). -/
theorem codes_of_srcOf {c m : Nat} {x : Src} (h : srcOf c (m % 2 ^ 4) = some x) : x.op.code = c ∧ x.mods = m % 2 ^ 4 := by
  obtain ⟨o, ho, rfl⟩ := Option.map_eq_some_iff.mp h
  exact ⟨code_of_opndOf ho, mods_of_bits ⟨m % 2 ^ 4, Nat.mod_lt _ (by decide)⟩⟩

/-- The type of a code has that code (R24). -/
theorem code_tyOf (x : Nat) : (tyOf (x % 2 ^ 4)).code = x % 2 ^ 4 :=
  (by decide : ∀ c : Fin 16, (tyOf c).code = c) ⟨x % 2 ^ 4, Nat.mod_lt _ (by decide)⟩

/-- One bit through a truth value and back. -/
theorem b2n_mod_two (x : Nat) : b2n (decide (x % 2 ^ 1 = 1)) = x % 2 ^ 1 := by
  rw [Nat.pow_one]
  rcases Nat.mod_two_eq_zero_or_one x with h | h <;> rw [h] <;> rfl

/-- The code of a length names it (R36). -/
theorem lenOf_code (len : Len) : lenOf len.code = some len := by cases len <;> rfl

-- THE FIELDS OF A WORD
/-- The value of the bits beyond the head that a length has (R37 to R39). -/
def extOf (len : Len) (w : Nat) : Nat :=
  match len with
  | .l64 => 0
  | .l96 => w / 2 ^ 64 % 2 ^ 32
  | .l128 => w / 2 ^ 64 % 2 ^ 64

/-- The bits beyond the head of a form (R38, R39). -/
def extNat (f : Form) : Nat :=
  match f.len with
  | .l64 => 0
  | .l96 => packFields [(8, f.c.op.code), (4, f.c.mods), (20, f.ext.toNat)]
  | .l128 => f.ext.toNat

/-- A form's value is its head and, above it, its extension (R37 to R39). -/
theorem formNat_eq (op : Nat) (f : Form) : formNat op f = headNat op f + 2 ^ 64 * extNat f := by
  unfold formNat extNat
  cases f.len <;> simp only [Nat.mul_zero, Nat.add_zero]

/-- A word of a valid length decodes to the instruction that its opcode and its fields select, where that is well formed, or is
ILLEGAL_OP (R36). -/
theorem decodeNat_cases {len : Len} {w : Nat} (hl : w % 4 = len.code) :
    (∃ op f i, formOfFields len (unpackFields headWidths w) (extOf len w) = some (op, f) ∧ instrOf op f = some i ∧ i.wellFormed = true ∧
      decodeNat w = .ok i) ∨ decodeNat w = .error .illegal := by
  unfold decodeNat
  rw [hl, lenOf_code]
  dsimp only
  split
  · exact .inr rfl
  · next op f hf =>
    split
    · exact .inr rfl
    · next i hi =>
      split
      · next hw => exact .inl ⟨op, f, i, hf, hi, hw, rfl⟩
      · exact .inr rfl

/-- The head of a form packs back to the head of the word it was read from (R37). -/
theorem headNat_of_formOfFields {len : Len} {w ext op : Nat} {f : Form} (hl : w % 4 = len.code)
    (h : formOfFields len (unpackFields headWidths w) ext = some (op, f)) : op = w / 8 % 256 ∧ headNat op f = w % 2 ^ 64 := by
  unfold formOfFields at h
  simp only [headWidths, unpackFields] at h
  split at h
  · next d a b c im hd ha hb _ =>
    cases h
    obtain ⟨haop, ham⟩ := codes_of_srcOf ha
    obtain ⟨hbop, hbm⟩ := codes_of_srcOf hb
    refine ⟨by omega, ?_⟩
    simp only [headNat, code_of_opndOf hd, haop, ham, hbop, hbm, code_tyOf, b2n_mod_two, BitVec.toNat_ofNat, Nat.mod_mod, ← hl]
    exact packFields_unpackFields headWidths w
  · cases h

/-- The extension of a form packs back to the one of the word it was read from (R38, R39). -/
theorem extNat_of_formOfFields {len : Len} {w op : Nat} {hs : List Nat} {f : Form}
    (h : formOfFields len hs (extOf len w) = some (op, f)) : extNat f = extOf len w := by
  unfold formOfFields at h
  split at h
  · dsimp only at h
    split at h
    · next d a b c im _ _ _ hc =>
      cases h
      cases len with
      | l64 => rfl
      | l96 =>
        obtain ⟨x, hx, hxc⟩ := Option.map_eq_some_iff.mp hc
        cases hxc
        obtain ⟨hcop, hcm⟩ := codes_of_srcOf hx
        simp only [extNat, packFields, hcop, hcm, BitVec.toNat_ofNat, extOf]
        omega
      | l128 =>
        obtain ⟨-, rfl⟩ := Prod.mk.inj (Option.some.inj hc)
        simp only [extNat, extOf, BitVec.toNat_ofNat, Nat.mod_mod]
    · cases h
  · cases h

/-- The fields of a word hold all of it: packed again under its opcode they give the word (R37 to R39). -/
theorem formNat_of_formOfFields {len : Len} {w op : Nat} {f : Form} (hw : w < 2 ^ (8 * len.bytes)) (hl : w % 4 = len.code)
    (h : formOfFields len (unpackFields headWidths w) (extOf len w) = some (op, f)) : op = w / 8 % 256 ∧ formNat op f = w := by
  obtain ⟨hop, hhead⟩ := headNat_of_formOfFields hl h
  refine ⟨hop, ?_⟩
  rw [formNat_eq, hhead, extNat_of_formOfFields h]
  cases len <;> simp only [extOf, Len.bytes] at hw ⊢ <;> omega

-- THE WORDS OF THE NOPS
/-- Without an immediate and without a descriptor the extension is zero (R25, R39). -/
theorem ext_of_immOk {r : Row} {f : Form} (hr : r.desc = false) (hn : immCount f = 0) (h : immOk r f = true) : f.ext = 0 := by
  unfold immOk at h
  rw [hn, hr] at h
  split at h
  · simpa using h
  · obtain ⟨hext, -⟩ : f.ext = 0 ∧ f.ext.toNat < 2 ^ 20 := by simpa using h
    exact hext
  · simpa using h

/-- A well-formed nop has zero in every field but LEN and E (R29). -/
theorem nop_wellFormed {f : Form} (h : (Instr.nop f).wellFormed = true) : f = { blank with len := f.len, e := f.e } := by
  change formLegal (.nop f) f = true at h
  unfold formLegal at h
  simp only [rowOf, Bool.and_eq_true] at h
  obtain ⟨⟨⟨⟨⟨⟨⟨⟨⟨⟨⟨⟨⟨⟨⟨⟨-, hfn⟩, hty⟩, hd⟩, ha⟩, hb⟩, hc⟩, -⟩, hscale⟩, -⟩, -⟩, himm⟩, -⟩, hx6⟩, -⟩, hentry⟩, -⟩ := h
  replace ha : f.a = unused := eq_of_beq ha
  replace hb : f.b = unused := eq_of_beq hb
  replace hc : f.c = unused := eq_of_beq hc
  replace hd : f.d = .v 0 := eq_of_beq hd
  replace hx6 : f.x6 = 0 := eq_of_beq hx6
  replace hty : f.ty = .i32 := List.mem_singleton.mp (List.contains_iff_mem.mp hty)
  replace hfn : f.fn = 0 := BitVec.eq_of_toNat_eq (List.mem_singleton.mp (List.contains_iff_mem.mp hfn))
  obtain ⟨hds, hdc⟩ : f.ds = 0 ∧ f.dc = false := by simpa [rowInt] using hscale
  obtain ⟨hgn, hg⟩ : f.gn = false ∧ f.g = 0 := by simpa [entryOk] using hentry
  have hext : f.ext = 0 := by
    refine ext_of_immOk rfl ?_ (by simpa [ownExt] using himm)
    unfold immCount
    rw [ha, hb, hc]
    rfl
  rcases f with ⟨len, e, fn, g, gn, d, dc, ds, a, b, c, ty, x6, ext⟩
  simp only at *
  subst_vars
  rfl

/-- The word of a nop is its length's code, with 4 for E (R29, R37). -/
theorem formNat_blank (len : Len) (e : Bool) : formNat 0 { blank with len := len, e := e } = len.code + 4 * b2n e := by
  cases len <;> cases e <;> rfl

/-- The words of the nops decode to them (R29). -/
theorem decodeNat_nop (len : Len) (e : Bool) : decodeNat (len.code + 4 * b2n e) = .ok (.nop { blank with len := len, e := e }) := by
  cases len <;> cases e <;> rfl

/-- A word of OP 0 whose fields make a well-formed instruction is the word of a nop, with or without E (R29). -/
theorem word_of_nop {len : Len} {w op : Nat} {f : Form} {i : Instr} (hw : w < 2 ^ (8 * len.bytes)) (hl : w % 4 = len.code)
    (hop : w / 8 % 256 = 0) (hf : formOfFields len (unpackFields headWidths w) (extOf len w) = some (op, f)) (hi : instrOf op f = some i)
    (hwf : i.wellFormed = true) : ∃ e, w = len.code + 4 * b2n e := by
  obtain ⟨hop', hword⟩ := formNat_of_formOfFields hw hl hf
  obtain rfl : op = 0 := hop'.trans hop
  obtain rfl : Instr.nop f = i := Option.some.inj hi
  have hblank := nop_wellFormed hwf
  rw [hblank, formNat_blank] at hword
  have hlen : f.len.code < 4 := by cases f.len <;> decide
  exact ⟨f.e, by omega⟩

/-- The decoder's answer for a word of OP 0 (R29). -/
theorem decodeNat_opZero (len : Len) (w : Nat) (hw : w < 2 ^ (8 * len.bytes)) (hl : w % 4 = len.code) (hop : w / 8 % 256 = 0) :
    decodeNat w = if w = len.code then .ok (.nop { blank with len := len })
      else if w = len.code + 4 then .ok (.nop { blank with len := len, e := true }) else .error .illegal := by
  by_cases h0 : w = len.code
  · rw [if_pos h0, h0]; exact decodeNat_nop len false
  by_cases h1 : w = len.code + 4
  · rw [if_neg h0, if_pos h1, h1]; exact decodeNat_nop len true
  · rw [if_neg h0, if_neg h1]
    obtain ⟨op, f, i, hf, hi, hwf, -⟩ | herr := decodeNat_cases hl
    · obtain ⟨e, he⟩ := word_of_nop hw hl hop hf hi hwf
      cases e
      · exact absurd he h0
      · exact absurd he h1
    · exact herr

-- WHAT A NOP LEAVES
/-- An unused source bears no last-use mark (R43). -/
theorem markSrc_unused (k : Nat) (act : Mask) (g : Group) : markSrc k act unused g = g := rfl

/-- A nop marks no source, so the group it sees is the group it leaves (R29, R43). -/
theorem nop_marked {f : Form} (s : State) (h : (Instr.nop f).wellFormed = true) :
    (viewOf (.nop f) f s).marked = s.group s.cur.grp := by
  have hf := nop_wellFormed h
  have ha : f.a = unused := by rw [hf]; rfl
  have hb : f.b = unused := by rw [hf]; rfl
  have hc : f.c = unused := by rw [hf]; rfl
  unfold View.marked markAll
  simp only [viewOf_f, viewOf_g, ha, hb, hc, markSrc_unused, ite_self]

/-- The registers of a group are, after an instruction that ends in a state `u`, those of `u`. -/
theorem finish_done_files (i : Instr) (f : Form) (s u : State) :
    let g := u.group s.cur.grp
    let h := (finish (viewOf i f s) (.done u)).group s.cur.grp
    h.v = g.v ∧ h.s = g.s ∧ h.m = g.m ∧ h.j = g.j := by
  intro g h
  obtain ⟨ls, hu⟩ := Group.updLanes_rest g s.cur.path (fun y => { y with pc := (viewOf i f s).next })
  have hg : h = { ({ g with lanes := ls } : Group) with run := g.run + 1, why := .none, stall := none } := by
    rw [← hu]; exact finish_done_group i f s u
  rw [hg]
  exact ⟨rfl, rfl, rfl, rfl⟩

/-- E ends the run (R48). -/
theorem finish_done_edge (i : Instr) (f : Form) (s u : State) (h : f.e = true) : (finish (viewOf i f s) (.done u)).cur.edge = true := by
  change (f.e || _) = true
  rw [h, Bool.true_or]

/-- An illegal word raises ILLEGAL_OP with its value as the argument (R36). -/
theorem exec_illegal (w : DWord) (s : State) :
    exec (.unassignedOpcode .illegal w) s = .next ((s.takeTrap s.cur.grp 0x01 w 0 s.cur.path s.cur.pc s.cur.pc).cut s.cur.grp) := rfl

/-- A nop ends with the state that it sees (R29). -/
theorem exec_nop (f : Form) (s : State) : exec (.nop f) s = runForm (.nop f) f (fun x => .done x.s) s := rfl

/-- A nop leaves its group as it was but for the path going on (R29). -/
theorem nop_does (f : Form) (h : (Instr.nop f).wellFormed = true) :
    Does (.nop f) f fun x t => Passes x t ∧ (t.group x.gk).v = x.g.v ∧ (t.group x.gk).s = x.g.s ∧
      (t.group x.gk).m = x.g.m ∧ (t.group x.gk).j = x.g.j ∧ (∀ l, ((t.group x.gk).lane l).flags = (x.g.lane l).flags) ∧
      (t.group x.gk).rcnt = x.g.rcnt ∧ (f.e = true → t.cur.edge = true) := by
  intro s hc
  have hu : (viewOf (.nop f) f s).s.group s.cur.grp = s.group s.cur.grp := by
    rw [viewOf_s, State.setGroup_at_group_self, nop_marked s h]
  have ha : Apart s.cur.grp s (viewOf (.nop f) f s).s := by
    rw [viewOf_s]; exact apart_setGroup _ _ _
  obtain ⟨hv, hs, hm, hj⟩ := finish_done_files (.nop f) f s (viewOf (.nop f) f s).s
  obtain ⟨-, -, -, -, hfl, hrc, -⟩ := finish_done_regs (.nop f) f s (viewOf (.nop f) f s).s
  rw [hu] at hv hs hm hj hrc
  simp only [hu] at hfl
  have hp := passes_done (.nop f) f s _ ha (by rw [hu]; rfl) (by rw [hu]) (fun l => ⟨_, by rw [hu]⟩)
  exact ⟨_, (exec_nop f s).trans (runForm_clear _ hc), hp, hv, hs, hm, hj, hfl, hrc, finish_done_edge _ f s _⟩

/-- Settles O4: a word of OP 0 that decodes packs back from the fields of a nop, so it is one of the two of its length, and a nop marks no
source and writes no register. -/
theorem nopHasNoEffect : Obligations.NopHasNoEffect :=
  ⟨decodeNat_opZero, exec_illegal, nop_does⟩

end Sys2Proof.Proofs
end

section
/-! PROOFS. What an instruction leaves when its effect sets the counters of the acting lanes itself, and the yield of R119. -/

namespace Sys2Proof.Proofs

open Sys2Proof.Machine Sys2Proof.Claims

-- MASKS
/-- The lanes of one mask that another leaves out. -/
theorem maskBit_andNot (p a : Mask) (l : Nat) : maskBit (p &&& ~~~a) l = (maskBit p l && !maskBit a l) := by
  by_cases hl : l < 32
  · simp [maskBit, hl]
  · simp [maskBit_ge _ l (Nat.le_of_not_lt hl)]

-- AN EFFECT THAT SETS THE COUNTERS OF THE ACTING LANES ITSELF
/-- Only the lanes of the path that do not act go on to the next instruction; the run counts one more instruction (R48). -/
theorem finish_jump_group (i : Instr) (f : Form) (s u : State) (edge : Bool) :
    (finish (viewOf i f s) (.jump u edge)).group s.cur.grp =
      { (u.group s.cur.grp).updLanes (s.cur.path &&& ~~~(viewOf i f s).act) (fun y => { y with pc := (viewOf i f s).next }) with
        run := (u.group s.cur.grp).run + 1, why := .none, stall := none } := by
  obtain ⟨la, h⟩ := Group.updLanes_rest (u.group s.cur.grp) (s.cur.path &&& ~~~(viewOf i f s).act)
    fun y => { y with pc := (viewOf i f s).next }
  change (State.issued (State.advance _ _ _ _) _ _).group _ = _
  rw [viewOf_gk, State.issued_group, State.advance_group, viewOf_path, h]

/-- Such an effect that changes nothing but its group leaves the rest of the module as it was. -/
theorem finish_jump_apart (x : View) {s u : State} (edge : Bool) (h : Apart x.gk s u) : Apart x.gk s (finish x (.jump u edge)) :=
  (h.trans (advance_apart _ _ _ _)).trans (issued_apart _ _ _)

/-- An effect that calls for a run boundary gets one (R48). -/
theorem finish_jump_edge (x : View) (u : State) : (finish x (.jump u true)).cur.edge = true := by
  change ((x.f.e || true) || _) = true
  rw [Bool.or_true, Bool.true_or]

-- DEMOTION (R112)
/-- The whole segments that a mask meets depend on nothing of a group but its binding (R125). -/
theorem segmentsOf_congr {g h : Group} (hb : h.binding = g.binding) (m : Mask) : h.segmentsOf m = g.segmentsOf m := by
  unfold Group.segmentsOf
  rw [hb]

/-- Demoted lanes share a new place behind every earlier one; a demotion of no lane takes none (R112). -/
theorem demote_lane (g : Group) (m : Mask) (l : Nat) :
    (g.demote m).lane l =
      { g.lane l with standing := if maskBit (g.segmentsOf m) l ∧ m ≠ 0 then g.places + 1 else (g.lane l).standing } := by
  unfold Group.demote
  by_cases hm : m = 0
  · simp [hm]
  · rw [if_neg hm]
    change (g.demoteTo (g.places + 1) m).lane l = _
    rw [Group.demoteTo_lane]
    simp only [hm, ne_eq, not_false_eq_true, and_true]
    split <;> rfl

/-- A demotion changes nothing of a group but its lanes and the count of its places. -/
theorem demote_rest (g : Group) (m : Mask) :
    ∃ la, g.demote m = { g with lanes := la, places := if m = 0 then g.places else g.places + 1 } := by
  unfold Group.demote
  by_cases hm : m = 0
  · exact ⟨g.lanes, by simp [hm]⟩
  · obtain ⟨la, h⟩ := Group.demoteTo_rest g (g.places + 1) m
    exact ⟨la, by rw [if_neg hm, if_neg hm, h]⟩

-- YIELD (R119)
/-- The acting lanes stand at the next instruction, demoted. -/
def yielded (x : View) : Group := (x.marked.updLanes x.act fun y => { y with pc := x.next }).demote x.act

/-- yield puts the demoted group in its place and ends the run. -/
theorem yieldEff_eq (i : Instr) (f : Form) (s : State) :
    yieldEff (viewOf i f s) = .jump ((viewOf i f s).put (yielded (viewOf i f s))) true := by
  rw [yielded, ← viewOf_g1]
  rfl

/-- Beside its lanes and the count of its places a group that yields is the marked one. -/
theorem yielded_rest (x : View) :
    ∃ la, yielded x = { x.marked with lanes := la, places := if x.act = 0 then x.g.places else x.g.places + 1 } := by
  obtain ⟨v, ss, hmk⟩ := x.marked_rest
  obtain ⟨la, h⟩ := Group.updLanes_rest x.marked x.act fun y => { y with pc := x.next }
  obtain ⟨lb, h'⟩ := demote_rest (x.marked.updLanes x.act fun y => { y with pc := x.next }) x.act
  exact ⟨lb, by rw [yielded, h', h, hmk]⟩

/-- A lane of a group that yields: where it acts its counter moves, and its segment's standing is the new place (R112, R119). -/
theorem yielded_lane (x : View) (l : Nat) :
    (yielded x).lane l =
      { x.g.lane l with
        pc := if maskBit x.act l then x.next else (x.g.lane l).pc
        standing := if maskBit (x.g.segmentsOf x.act) l ∧ x.act ≠ 0 then x.g.places + 1 else (x.g.lane l).standing } := by
  obtain ⟨v, ss, hmk⟩ := x.marked_rest
  obtain ⟨la, h⟩ := Group.updLanes_rest x.marked x.act fun y => { y with pc := x.next }
  have hp : (x.marked.updLanes x.act fun y => { y with pc := x.next }).places = x.g.places := by rw [h, hmk]
  have hb : (x.marked.updLanes x.act fun y => { y with pc := x.next }).binding = x.g.binding := by rw [h, hmk]
  rw [yielded, demote_lane, segmentsOf_congr hb, hp, Group.updLanes_lane, marked_lane]
  by_cases ha : maskBit x.act l = true <;> simp only [ha, if_true, if_false, Bool.false_eq_true]

/-- The group after a yield: the group that yields, with the lanes of the path that do not act gone on (R48). -/
theorem finish_yield_group (f : Form) (s : State) :
    let x := viewOf (.yield f) f s
    (finish x (yieldEff x)).group x.gk =
      { (yielded x).updLanes (x.path &&& ~~~x.act) (fun y => { y with pc := x.next }) with
        run := (yielded x).run + 1, why := .none, stall := none } := by
  intro x
  rw [yieldEff_eq, viewOf_gk, finish_jump_group, put_group]
  rfl

/-- A lane after a yield: its group's lane, gone on where it is on the path and does not act. -/
theorem finish_yield_lane (f : Form) (s : State) (l : Nat) :
    let x := viewOf (.yield f) f s
    ((finish x (yieldEff x)).group x.gk).lane l =
      { x.g.lane l with
        pc := if maskBit x.act l ∨ maskBit x.path l then x.next else (x.g.lane l).pc
        standing := if maskBit (x.g.segmentsOf x.act) l ∧ x.act ≠ 0 then x.g.places + 1 else (x.g.lane l).standing } := by
  intro x
  have hlane : ((finish x (yieldEff x)).group x.gk).lane l =
      ((yielded x).updLanes (x.path &&& ~~~x.act) fun y => { y with pc := x.next }).lane l :=
    congrArg (·.lane l) (finish_yield_group f s)
  rw [hlane, Group.updLanes_lane, maskBit_andNot, yielded_lane]
  by_cases ha : maskBit x.act l = true <;> by_cases hp : maskBit x.path l = true <;> simp [ha, hp]

/-- Beside its lanes, the count of its places and what the issue logic keeps, the group after a yield is the marked one. -/
theorem finish_yield_rest (f : Form) (s : State) :
    let x := viewOf (.yield f) f s
    ∃ la, (finish x (yieldEff x)).group x.gk =
      { x.marked with lanes := la, places := if x.act = 0 then x.g.places else x.g.places + 1
                      run := x.marked.run + 1, why := .none, stall := none } := by
  intro x
  obtain ⟨la, h⟩ := yielded_rest x
  obtain ⟨lb, h'⟩ := Group.updLanes_rest (yielded x) (x.path &&& ~~~x.act) fun y => { y with pc := x.next }
  exact ⟨lb, by rw [finish_yield_group, h', h]⟩

/-- A yield's meaning is its effect under the shared checks. -/
theorem exec_yield (f : Form) (s : State) : exec (.yield f) s = runForm (.yield f) f yieldEff s := rfl

/-- Settles O21: the group after a yield is the marked one with its acting lanes demoted, and the effect calls for a run boundary whether or not
a lane acts. -/
theorem yieldEndsTheRun : Obligations.YieldEndsTheRun := by
  intro f _ s hc
  refine ⟨_, (exec_yield f s).trans (runForm_clear _ hc), ?_⟩
  have hlane := finish_yield_lane f s
  obtain ⟨la, hrest⟩ := finish_yield_rest f s
  obtain ⟨v, ss, hmk⟩ := (viewOf (.yield f) f s).marked_rest
  refine ⟨?apart, ?edge, ?places, ?standing, ?pc, ?kept, ?frame⟩
  case apart =>
    rw [yieldEff_eq]
    exact finish_jump_apart _ true (put_apart (.yield f) f s _)
  case edge =>
    rw [yieldEff_eq]
    exact finish_jump_edge _ _
  case places => rw [hrest]
  case standing => intro l; rw [hlane]
  case pc => intro l; rw [hlane]
  case kept => intro l; rw [hlane]; exact ⟨rfl, rfl⟩
  case frame => rw [hrest, hmk]

end Sys2Proof.Proofs
end
